-- ==== Sys2Proof/Word.lean ====
section
/-! DEFINITION. The words of the part: bytes, keys, 32-bit sequences and 16-bit numbers. -/

namespace Sys2Proof

/-- A byte of the register window, of a payload or of a code. -/
abbrev Byte := BitVec 8

/-- A record key, 0 to 65535. -/
abbrev Key := BitVec 16

/-- A 32-bit sequence: the store sequence, a ring sequence, a frame sequence, a generation or a format id. -/
abbrev Seq := BitVec 32

/-- A transaction number: 1 to 65535. -/
abbrev TxnNo := BitVec 16

/-- The later of two sequences, compared as plain numbers (00_scope, section 5). -/
def Seq.later (a b : Seq) : Seq := if a < b then b else a

end Sys2Proof
end

