-- ==== Sys2Proof/Syntax.lean ====
section
/-! DEFINITION. The commands the part takes, one constructor per row of the opcode table. -/

namespace Sys2Proof

/-- The read-only registers of more than one byte, each with a capture latch (R172). -/
inductive CaptureReg
  | fillCount | cplKey | cplVersion | cplLength | cplAux | lossKey | expiredTxn
deriving DecidableEq, Repr

/-- The commands: bus accesses, the taking of the front request, the grant of a compaction step, the end of an
array operation, the timer, the pins and the supply. -/
inductive Instr
  /-- Write of GO to CONTROL (R160). -/
  | go
  /-- Write of POP to CONTROL (R169). -/
  | pop
  /-- Write of CLEAR_FILL to CONTROL (R159). -/
  | clearFill
  /-- Write of REWIND to CONTROL (R168). -/
  | rewind
  /-- Write of SOFT_RESET to CONTROL (R177). -/
  | softReset
  /-- Write of a payload byte to WRITE_DATA (R159). -/
  | writeData (b : Byte)
  /-- Read of READ_DATA (R168). -/
  | readData
  /-- Read of the lowest byte of a read-only register of more than one byte (R172). -/
  | captureLatch (r : CaptureReg)
  /-- Write to EVENT_STATUS (R178). -/
  | eventStatus (v : Byte)
  /-- Write to EVENT_ENABLE (R179). -/
  | eventEnable (v : Byte)
  /-- Write to LOW_WATER (R180). -/
  | lowWater (v : Byte)
  /-- Write to any other register (R171). -/
  | registerWrite (a : BitVec 6) (v : Byte)
  /-- A PUT without IN_TXN is taken (R52). -/
  | put
  /-- A GET without IN_TXN is taken (R57). -/
  | get
  /-- A DELETE without IN_TXN is taken (R55). -/
  | delete
  /-- A NEXT is taken (R60). -/
  | next
  /-- An INFO is taken (R61). -/
  | info
  /-- A BEGIN is taken (R66). -/
  | beginTxn
  /-- A PUT carrying IN_TXN is taken (R69). -/
  | inTxnPut
  /-- A DELETE carrying IN_TXN is taken (R70). -/
  | inTxnDelete
  /-- A GET carrying IN_TXN is taken (R71). -/
  | inTxnGet
  /-- A COMMIT is taken (R75). -/
  | commit
  /-- An ABANDON is taken (R80). -/
  | abandon
  /-- A RECLAIM is taken (R99). -/
  | reclaim
  /-- An UNLOCK is taken (R149). -/
  | unlock
  /-- A LOCK is taken (R150). -/
  | lock
  /-- A SET_CODE is taken (R151). -/
  | setCode
  /-- A SET_POLICY is taken (R152). -/
  | setPolicy
  /-- A FORMAT is taken (R153). -/
  | format
  /-- A compaction step is granted from IDLE (R88). -/
  | selectStep
  /-- A compaction step is granted in COPYING (R90). -/
  | copyStep
  /-- A compaction step is granted in COPYING that finds no entry in the victim (R96). -/
  | eraseStep
  /-- A compaction step is granted in FINISHING (R98). -/
  | finishingStep
  /-- The line read in hand ends (R106). -/
  | lineReadDone
  /-- The line program in hand ends (R107); `verified` says whether the verify of a pulsed line passed. -/
  | lineProgramDone (verified : Bool)
  /-- The line program in hand has run 400 µs (R107). -/
  | programTimeout
  /-- The erase in flight ends by its verify (R109); `passed` says with which outcome. -/
  | eraseDone (passed : Bool)
  /-- The elapsed erase time reaches 200 ms (R109). -/
  | eraseTimeLimit
  /-- The idle timer reaches its limit (R73). -/
  | idleTimerExpiry
  /-- PFW# changes to asserted (R118). -/
  | pfwAsserted
  /-- PFW# changes to deasserted (R118, R124). -/
  | pfwDeasserted
  /-- RST# changes to asserted (R122). -/
  | rstAsserted
  /-- RST# changes to deasserted (R122). -/
  | rstDeasserted
  /-- Power-on completes (R122). -/
  | powerOn
  /-- Power is lost (R111). -/
  | powerLoss
  /-- Mount begins (R124). -/
  | mount
  /-- A request whose kind code names no kind is taken (R46). -/
  | kindNamingNoKind
  /-- A programmed line loses its contents by itself (R105). -/
  | arrayOwnLoss (sector line : Nat)
deriving DecidableEq, Repr

end Sys2Proof
end

