-- ==== Sys2Proof/Machine/Types.lean ====
section
/-! DEFINITION. The data of the blocks: array lines, sector records, directory entries, requests, completions, the
tasks of the record engine's job and of mount. Every type is plain data. -/

namespace Sys2Proof.Machine

open Sys2Proof

/-- A zone's access policy (R141, R173). -/
inductive Policy
  | policyOpen | guarded | readGuarded
deriving DecidableEq, Repr

/-- One zone of the anchor record's zone table: a policy and an 8-byte unlock code (R141). -/
structure ZoneEntry where
  policy : Policy
  code : List Byte
deriving DecidableEq, Repr

/-- The fields of an anchor record (R141). `retired` is the retired set, in ascending sector order, each once. -/
structure AnchorRecord where
  generation : Seq
  formatId : Seq
  zones : Vector ZoneEntry 4
  retired : List Nat
deriving DecidableEq, Repr

/-- A frame's header fields, each present in the kinds R15 names; `member` is absent when the member mark is clear. -/
inductive FrameHeader
  | put (key : Key) (seq : Seq) (member : Option TxnNo) (length : Nat)
  | delete (key : Key) (seq : Seq) (member : Option TxnNo)
  | commit (seq : Seq) (txn : TxnNo) (count : Nat)
deriving DecidableEq, Repr

/-- What was programmed into a line, by meaning: format, open and close lines (R1 to R3), a frame's header and payload
lines (R15, R16), and one of the six lines of an anchor record (R141). A line holds 16 bytes (R104): a payload line's are held
as they are. -/
inductive LineData
  | format (formatId : Seq) (eraseCount : Nat)
  | opened (formatId ring storeSeq : Seq)
  | closed (lastUsed frames : Nat) (highest : Seq) (faults : Nat)
  | frame (header : FrameHeader)
  | payload (bytes : Vector Byte 16)
  | anchor (record : AnchorRecord) (part : Nat)
deriving DecidableEq, Repr

/-- A line of the array as it reads (R105). -/
inductive Line
  | blank
  | good (data : LineData)
  | defective
deriving DecidableEq, Repr

/-- The array: the lines that do not read BLANK, by address 256 × sector + line, addresses strictly rising. -/
abbrev Cells := List (Nat × Line)

/-- A pool sector's record in the sector table: the state and the fields present in it (R4). The fault count of a FREE
sector is 0 and is not held. -/
inductive SectorRec
  | blank (eraseCount : Option Nat)
  | free (eraseCount : Nat)
  | head (ring : Seq) (eraseCount faults lastUsed frames : Nat) (highest : Seq)
  | closed (ring : Seq) (eraseCount faults lastUsed : Nat) (condemned : Bool)
  | victim (ring : Seq) (eraseCount faults : Nat) (condemned : Bool)
  | erasing (ring : Seq) (eraseCount faults : Nat)
  | retired
deriving DecidableEq, Repr

/-- The log manager's tables: the 62 sector records (sector s at position s - 2), the free list, the ring list, the head
and the next ring sequence (R4, R11 to R14). The head's next line is its record's last used data line plus one. -/
structure LogTables where
  sectors : List SectorRec
  free : List Nat
  ring : List Nat
  head : Option Nat
  nextRing : Seq
deriving DecidableEq, Repr

/-- A directory entry (R25): LIVE with its value length, or DEAD (`live = none`). -/
structure Entry where
  key : Key
  live : Option Nat
  version : Seq
  sector : Nat
  line : Nat
deriving DecidableEq, Repr

/-- The key directory with its accounted lines A, overflow mark and directory-complete flag (R25, R26, R30, R40, R41). -/
structure Directory where
  entries : List Entry
  accounted : Nat
  overflow : Bool
  complete : Bool
deriving DecidableEq, Repr

/-- The store state (R42). -/
inductive StoreState
  | mounting | ready | readOnly | unformatted | formatting | halted
deriving DecidableEq, Repr

/-- A request record (R158): the fields and bytes copied at acceptance. -/
structure Request where
  tag : Byte
  kind : Byte
  key : Key
  flags : Byte
  version : Seq
  param : Byte
  length : BitVec 16
  payload : List Byte
deriving DecidableEq, Repr

/-- A completion's status (R166). -/
inductive Status
  | ok | notFound | exists_ | versionMismatch | conflict | full | noRoom | denied | lockedOut | badRequest
  | noTxn | txnOpen | txnFull | expired | cancelled | readOnly | notReady | mediaFault | halted
deriving DecidableEq, Repr

/-- A completion record (R166). -/
structure Completion where
  tag : Byte
  kind : Byte
  status : Status
  key : Key
  version : Seq
  length : Nat
  aux : BitVec 16
  payload : List Byte
deriving DecidableEq, Repr

/-- The submission result (R160). -/
inductive SubmitResult
  | none | accepted | queueFull | length | overflow
deriving DecidableEq, Repr

/-- A request's condition (R51). -/
inductive Condition
  | always
  | ifAbsent
  | ifVersion (expected : Seq)
deriving DecidableEq, Repr

/-- An entry of the staged list (R68): a PUT with its value bytes, or a DELETE (`value = none`). -/
structure Staged where
  key : Key
  value : Option (List Byte)
  cond : Condition
deriving DecidableEq, Repr

/-- An open transaction: its number and its staged list, in staged order (R64, R68). -/
structure OpenTxn where
  number : TxnNo
  staged : List Staged
deriving DecidableEq, Repr

/-- The idle timer (R64, R72): running with its limit and elapsed 10 ms ticks, stopped, or not running (a limit of 0). -/
inductive IdleTimer
  | running (limit elapsed : Nat)
  | stopped
  | notRunning
deriving DecidableEq, Repr

/-- The transaction context (R64). -/
structure TxnContext where
  openTxn : Option OpenTxn
  timer : IdleTimer
  expired : Option TxnNo
deriving DecidableEq, Repr

/-- The compaction stage (R82). -/
inductive Stage
  | idle | copying | erasing | finishing
deriving DecidableEq, Repr

/-- The compactor's state (R82). `refused` holds the FREE count recorded with the refused marker. -/
structure Compactor where
  stage : Stage
  victim : Option Nat
  roundStart : Option Nat
  eraseOutcome : Option Bool
  noGain : Nat
  noGainLimit : Option Nat
  stallMode : Bool
  reclaimTarget : Option Nat
  stopped : Bool
  refused : Option Nat
deriving DecidableEq, Repr

/-- The array sequencer's state (R112). -/
inductive SeqState
  | idle | programming | erasing | suspended | halted
deriving DecidableEq, Repr

/-- The record of the erase in flight (R112): class BACKGROUND or FOREGROUND, elapsed erase time in ms, suspensions. -/
structure EraseRec where
  sector : Nat
  background : Bool
  elapsed : Nat
  suspensions : Nat
deriving DecidableEq, Repr

/-- An erase asked for while another is in flight (R112). -/
structure PendingErase where
  sector : Nat
  background : Bool
deriving DecidableEq, Repr

/-- A foreground read or program (R106, R107). -/
inductive LineOp
  | read (sector line : Nat)
  | program (sector line : Nat) (data : LineData)
deriving DecidableEq, Repr

/-- The array sequencer with the array (R104, R112). `inHand` is the foreground operation being served and `delivers` is
false when a soft reset has taken its issuer away (R121). -/
structure Sequencer where
  state : SeqState
  halted : Bool
  erase : Option EraseRec
  pending : Option PendingErase
  waiting : Option LineOp
  inHand : Option LineOp
  delivers : Bool
  cells : Cells
deriving DecidableEq, Repr

/-- The anchor unit's state (R143). -/
structure AnchorUnit where
  working : Option AnchorRecord
  location : Option (Nat × Nat)
  writePos : Option (Nat × Nat)
deriving DecidableEq, Repr

/-- The zone guard's flags for one zone (R148). -/
structure ZoneFlags where
  unlocked : Bool
  failed : Nat
  lockout : Bool
deriving DecidableEq, Repr

/-- The register window (R171 to R181). `events` holds the latched events; the capture latches follow R172; `busData` is
the byte the last read access returned. -/
structure Window where
  events : Byte
  eventEnable : Byte
  submitResult : SubmitResult
  reqTag : Byte
  reqKind : Byte
  reqKey : BitVec 16
  reqFlags : Byte
  reqVersion : BitVec 32
  reqParam : Byte
  reqLength : BitVec 16
  fill : List Byte
  fillOverflow : Bool
  lowWater : Byte
  txnLimit : Byte
  lossKey : BitVec 16
  expiredTxn : BitVec 16
  latchFillCount : BitVec 16
  latchCplKey : BitVec 16
  latchCplVersion : BitVec 32
  latchCplLength : BitVec 16
  latchCplAux : BitVec 16
  latchLossKey : BitVec 16
  latchExpiredTxn : BitVec 16
  busData : Byte
deriving DecidableEq, Repr

/-- The request queue and the completion queue (R161, R164, R167, R168). -/
structure Queues where
  requests : List Request
  executing : Bool
  chainBroken : Bool
  completions : List Completion
  readPtr : Nat
deriving DecidableEq, Repr

/-- The pins and the supply. -/
structure Pins where
  powered : Bool
  rstAsserted : Bool
  pfwAsserted : Bool
deriving DecidableEq, Repr

/-- The outcome of a line program (R107, R108). -/
inductive ProgOutcome
  | pass | fail | notBlank | refused
deriving DecidableEq, Repr

/-- The outcome of a sector erase (R109, R110). -/
inductive EraseOutcome
  | pass | fail | abandoned | refused
deriving DecidableEq, Repr

/-- The outcome of an anchor write (R145, R146). -/
inductive AnchorOutcome
  | written | failed | refused
deriving DecidableEq, Repr

/-- The outcome of opening a head (R6). -/
inductive OpenOutcome
  | opened | noSector | refused
deriving DecidableEq, Repr

/-- The outcome of an append (section 1.8): PLACED carries the header's location and the frame lines. -/
inductive AppendOutcome
  | placed (sector line frameLines : Nat)
  | waitForSpace
  | outOfSectors
  | refused
deriving DecidableEq, Repr

/-- What the record engine's job or mount gets back and goes on with. -/
inductive Reply
  /-- A line read's status and contents. -/
  | line (l : Line)
  | prog (o : ProgOutcome)
  | erase (o : EraseOutcome)
  | anchor (o : AnchorOutcome)
  /-- A retirement procedure has ended, with its anchor write's outcome (R10). -/
  | retired (o : AnchorOutcome)
  | opened (o : OpenOutcome)
  /-- The head has been closed (R7); true when its close line's program ended REFUSED. -/
  | closed (refused : Bool)
  /-- A format line's program ended PASS (true) or REFUSED (false) (R5). -/
  | formatted (passed : Bool)
  | appended (o : AppendOutcome)
  /-- A frame was read for an entry: its value when it matches (R58, R91). -/
  | frame (value : Option (List Byte))
  /-- A compaction step has ended; true when its select step reports that it cannot gain (R88). -/
  | stepEnd (cannotGain : Bool)
  /-- An event reaches a waiting stall or RECLAIM (R63, R99). -/
  | wake
deriving DecidableEq, Repr

/-- An append asked of the log manager (section 1.8): header, value, job class HOST or COMPACTION, and whether an
earlier append of the same job has programmed a line. -/
structure AppendJob where
  header : FrameHeader
  value : List Byte
  host : Bool
  programmed : Bool
deriving DecidableEq, Repr

/-- Where an append stands: closing the head for want of room, closing a condemned head, opening a head, or programming
line `start + idx` of its attempt (R22 to R24). -/
inductive AppendPhase
  | closingForRoom
  | closingCondemned
  | opening
  | programming (sector start idx : Nat)
deriving DecidableEq, Repr

/-- Where an anchor write stands: erasing an anchor sector, or programming part `part` of a slot (R145). -/
inductive AnchorPhase
  | erasing (sector : Nat)
  | line (sector slot part : Nat)
deriving DecidableEq, Repr

/-- A COMMIT's job: the list and number it took, and the sequence and location of each frame already placed (R75, R77). -/
structure CommitJob where
  request : Request
  number : TxnNo
  staged : List Staged
  placed : List (Seq × Nat × Nat)
deriving DecidableEq, Repr

/-- The write held in a write stall (R62, R76). -/
inductive StalledWrite
  | put (r : Request)
  | delete (r : Request)
  | commit (c : CommitJob)
deriving DecidableEq, Repr

/-- Mount's survey note for a pool sector (R125, R127). A FREE sector's `highest` is that of its close line when that line is
good, else 0: it counts toward S (R19, R133). -/
inductive SurveyNote
  | retired
  | blank (eraseCount : Option Nat)
  | free (eraseCount : Nat) (highest : Seq)
  | closed (ring storeSeq : Seq) (eraseCount lastUsed frames : Nat) (highest : Seq) (faults : Nat)
  | unclosed (ring storeSeq : Seq) (eraseCount : Nat) (eligible : Bool)
deriving DecidableEq, Repr

/-- What replay recorded of a ring sector (R129). -/
structure ScanNote where
  sector : Nat
  endLine : Nat
  frames : Nat
  highest : Seq
  defects : Nat
deriving DecidableEq, Repr

/-- A valid frame held in the pending-member run, with its location (R131). -/
structure Member where
  header : FrameHeader
  sector : Nat
  line : Nat
deriving DecidableEq, Repr

/-- Mount's anchor phase (R144): the lines of the slot being read, the authoritative record so far with its place, and the
highest slot of each anchor sector in which a line reads other than BLANK. -/
structure AnchorScan where
  sector : Nat
  line : Nat
  slotLines : List Line
  best : Option (AnchorRecord × Nat × Nat)
  used0 : Option Nat
  used1 : Option Nat
deriving DecidableEq, Repr

/-- Mount's replay phase (R129 to R132): survey notes, ring sectors finished and still to scan, the sector and position
being scanned, the frame whose payload is being read, the sector's counts, the pending-member run, and the highest values. -/
structure Replay where
  notes : List (Nat × SurveyNote)
  scans : List ScanNote
  todo : List Nat
  sector : Nat
  pos : Nat
  cur : Option (FrameHeader × Nat)
  frames : Nat
  highest : Seq
  defects : Nat
  run : List Member
  maxSeq : Seq
  maxTxn : TxnNo
deriving DecidableEq, Repr

/-- A ring sector that mount closes (R135): sector, last used data line, frame count, highest sequence, fault count. -/
structure Unclosed where
  sector : Nat
  lastUsed : Nat
  frames : Nat
  highest : Seq
  faults : Nat
deriving DecidableEq, Repr

/-- The tasks of the executing job, compaction step or mount. The top of the stack waits for the next reply. -/
inductive Task
  -- shared procedures
  /-- Reading the frame of an entry: payload lines read so far and their bytes (R58, R91). -/
  | readFrame (e : Entry) (idx : Nat) (got : List Byte)
  /-- The head's close line is being programmed (R7). -/
  | closeHead (sector : Nat)
  /-- A FREE sector's open line is being programmed with this ring sequence (R6). -/
  | openHead (sector : Nat) (ring : Seq)
  /-- The sector whose open line failed is being retired; the opening is then attempted again (R6). -/
  | openRetry
  | append (job : AppendJob) (phase : AppendPhase)
  /-- An anchor write; `second` when a slot attempt has failed already (R146). -/
  | anchorWrite (record : AnchorRecord) (second : Bool) (phase : AnchorPhase)
  /-- A retirement procedure waits for its anchor write (R10). -/
  | retire (sector : Nat)
  /-- A format line is being programmed with this erase count (R5). -/
  | formatLine (sector eraseCount : Nat)
  -- jobs made from requests
  | put (r : Request)
  | delete (r : Request)
  | get (r : Request) (e : Entry)
  | commit (c : CommitJob)
  | stall (w : StalledWrite)
  | reclaim (r : Request)
  /-- SET_CODE or SET_POLICY waits for its anchor write (R151, R152). -/
  | setZone (r : Request)
  | formatAnchor (r : Request)
  /-- FORMAT reads line 0 of a sector whose erase count it does not know; the others follow (R154). -/
  | formatRead (r : Request) (sector : Nat) (todo : List Nat)
  | formatErase (r : Request) (sector : Nat)
  /-- FORMAT waits for a sector's format line or retirement (R155). -/
  | formatSector (r : Request)
  | formatOpen (r : Request)
  -- compaction steps
  | copyRead (e : Entry)
  | copyAppend (e : Entry)
  /-- The tombstone of a media loss is being appended with this sequence (R92). -/
  | lossAppend (e : Entry) (seq : Seq)
  /-- The victim is being formatted or retired; the round then ends (R95, R98). -/
  | finishRound
  -- mount
  | mountAnchor (a : AnchorScan)
  | mountSurvey (sector : Nat) (read : List Line) (todo : List Nat) (notes : List (Nat × SurveyNote))
  | mountReplay (p : Replay)
  | mountClose (u : Unclosed) (todo : List Unclosed)
  | mountErase (sector : Nat)
  /-- Tidy waits for a sector's format line or retirement (R136). -/
  | mountSector
  | mountOpen
deriving DecidableEq, Repr

/-- The executing job, step or mount: its tasks, top first, and the reply on its way to the top. -/
structure Control where
  stack : List Task
  reply : Option Reply
deriving DecidableEq, Repr

/-- The record engine's state (R19, R42, R64, R65): `readOnlyDue` is a READ_ONLY cause that takes effect at the end of the
step or job in hand (R10, R20, R54), `anchorFailed` the failed anchor write recorded for the end of mount or FORMAT (R146). -/
structure Engine where
  store : StoreState
  seq : Seq
  txnCounter : TxnNo
  dir : Directory
  txn : TxnContext
  readOnlyDue : Bool
  anchorFailed : Bool
deriving DecidableEq, Repr

end Sys2Proof.Machine
end

