-- ==== Sys2Proof/Config.lean ====
section
/-! DEFINITION. The part's figures (00_scope, section 3) and the free values: what the manual leaves open, as constants
without a body, so that no proof can rest on a choice. -/

namespace Sys2Proof.Config

open Sys2Proof Sys2Proof.Machine

/-- Data lines of a pool sector (lines 3 to 255). -/
def dataLines : Nat := 253

/-- The key directory's capacity (R26). -/
def directoryCapacity : Nat := 1024

/-- The store sequence at which the store becomes READ_ONLY (R20). -/
def sequenceLimit : Nat := 4294963200

/-- The erase count from which a sector is worn (R9). -/
def wornCount : Nat := 100000

/-- The minimum usable pool (R10). -/
def minimumPool : Nat := 8

/-- Suspensions allowed for one erase (R115). -/
def maxSuspensions : Nat := 8

/-- The limit of the elapsed erase time, in ms (R109). -/
def eraseLimitMs : Nat := 200

/-- The length of one tick, in ms (R72). -/
def tickMs : Nat := 10

/-- Slots of an anchor sector (R142). -/
def anchorSlots : Nat := 42

/-- How a program that is cut short leaves its line (R111): BLANK, DEFECTIVE, or GOOD with the bytes being programmed. -/
inductive CutShort
  | blank | defective | good
deriving DecidableEq, Repr, Inhabited

/-- FREE VALUE (log 4). How the line of a cut-short program is left, for the n-th free value drawn. -/
opaque cutProgram : Nat → CutShort

/-- FREE VALUE (log 5). Whether line `l` of a sector whose erase did not end PASS reads DEFECTIVE (else BLANK), for the
n-th free value drawn. -/
opaque residueDefective : Nat → Nat → Bool

/-- FREE VALUE (log 2). The header fields a payload line's bytes give when it is read where a header is expected, none
when they are not a header's. -/
opaque payloadAsHeader : Vector Byte 16 → Option FrameHeader

/-- FREE VALUE (log 3). The 16 bytes of a line that is not a payload line, whose byte arrangement the manual does not give. -/
opaque lineImage : LineData → Vector Byte 16

/-- FREE VALUE (log 22). The generation written after 4,294,967,295. -/
opaque generationPastMax : Seq

/-- The bound on the internal moves of one command (log 27); no command comes near it. -/
def settleFuel : Nat := 8192

end Sys2Proof.Config
end

