-- ==== Sys2Proof/Machine/State.lean ====
section
/-! DEFINITION. The part's state, the ways a step can stop, and the state right after reset. -/

namespace Sys2Proof.Machine

open Sys2Proof

/-- The state of the part, one field per block (00_scope, section 2), with the model's own counter of free values and
the queue of commands that wait. -/
structure State where
  window : Window
  queues : Queues
  engine : Engine
  ctl : Control
  log : Option LogTables
  comp : Compactor
  seq : Sequencer
  anchor : AnchorUnit
  zones : Vector ZoneFlags 4
  pins : Pins
  freeCtr : Nat
  pending : List Instr
deriving DecidableEq, Repr

/-- Why a step stops with a fault. -/
inductive Fault
  /-- Raised by ARRAY_OWN_LOSS for a line the array does not have (R104). Safe: no such line exists on the part. -/
  | noSuchLine
deriving DecidableEq, Repr

/-- Why a command has no meaning. -/
inductive Refusal
  /-- Raised by exec for a command whose meaning is not written yet; no arm answers it. Safe. -/
  | notModelled (mnemonic : String)
deriving DecidableEq, Repr

/-- The register window's power-on and pin reset values (R178 to R181). -/
def Window.reset : Window :=
  { events := 0, eventEnable := 0, submitResult := .none, reqTag := 0, reqKind := 0, reqKey := 0, reqFlags := 0,
    reqVersion := 0, reqParam := 0, reqLength := 0, fill := [], fillOverflow := false, lowWater := 4, txnLimit := 50,
    lossKey := 0, expiredTxn := 0, latchFillCount := 0, latchCplKey := 0, latchCplVersion := 0, latchCplLength := 0,
    latchCplAux := 0, latchLossKey := 0, latchExpiredTxn := 0, busData := 0 }

/-- Both queues empty and the chain-broken flag clear (R170). -/
def Queues.reset : Queues :=
  { requests := [], executing := false, chainBroken := false, completions := [], readPtr := 0 }

/-- The empty directory of R41. -/
def Directory.reset : Directory := { entries := [], accounted := 0, overflow := false, complete := false }

/-- No transaction, the idle timer stopped, no expired mark (R64). -/
def TxnContext.reset : TxnContext := { openTxn := none, timer := .stopped, expired := none }

/-- The record engine after every reset (R19, R41, R42, R64, R65); 0 stands for a discarded S and counter (log 16). -/
def Engine.reset : Engine :=
  { store := .mounting, seq := 0, txnCounter := 0, dir := .reset, txn := .reset, readOnlyDue := false,
    anchorFailed := false }

/-- The compactor after every reset (R82). -/
def Compactor.reset : Compactor :=
  { stage := .idle, victim := none, roundStart := none, eraseOutcome := none, noGain := 0, noGainLimit := none,
    stallMode := false, reclaimTarget := none, stopped := false, refused := none }

/-- The sequencer after every reset, over the given array (R123). -/
def Sequencer.reset (cells : Cells) : Sequencer :=
  { state := .idle, halted := false, erase := none, pending := none, waiting := none, inHand := none,
    delivers := true, cells := cells }

/-- The anchor unit after every reset (R143). -/
def AnchorUnit.reset : AnchorUnit := { working := none, location := none, writePos := none }

/-- A zone's flags after power-on and pin reset (R148). -/
def ZoneFlags.reset : ZoneFlags := { unlocked := false, failed := 0, lockout := false }

/-- The part right after power-on: every block at its reset value, the array unprogrammed (log 7), the supply up and both
input pins deasserted (log 28), no command waiting. -/
def State.reset : State :=
  { window := .reset, queues := .reset, engine := .reset, ctl := { stack := [], reply := none }, log := none,
    comp := .reset, seq := .reset [], anchor := .reset, zones := Vector.replicate 4 .reset,
    pins := { powered := true, rstAsserted := false, pfwAsserted := false }, freeCtr := 0, pending := [] }

end Sys2Proof.Machine
end

