-- ==== Sys2Proof/Machine/Ops.lean ====
section
/-! DEFINITION. Named operations shared by every block: the array's lines, the control stack, the pins, events and the
store state. -/

namespace Sys2Proof.Machine

open Sys2Proof

/-! ### The array (R104, R105) -/

/-- The address of a line in the array's list. -/
def lineAddr (sector line : Nat) : Nat := 256 * sector + line

/-- The line at an address; an unlisted line reads BLANK. -/
def readCell : Cells → Nat → Line
  | [], _ => .blank
  | (b, l) :: rest, a => if b = a then l else readCell rest a

/-- `rest` with the line put before it at address `a`, unless the line is BLANK. -/
def consCell (a : Nat) (l : Line) (rest : Cells) : Cells := if l = .blank then rest else (a, l) :: rest

/-- The array with the line at an address replaced, in the canonical form. -/
def writeCell : Cells → Nat → Line → Cells
  | [], a, l => consCell a l []
  | (b, m) :: rest, a, l =>
    if a < b then consCell a l ((b, m) :: rest)
    else if b = a then consCell a l rest
    else (b, m) :: writeCell rest a l

/-- The lines `l` from `n` on, of those a function gives, that do not read BLANK. -/
def sectorCells (sector : Nat) (f : Nat → Line) : List Nat → Cells
  | [] => []
  | l :: rest => consCell (lineAddr sector l) (f l) (sectorCells sector f rest)

/-- The array with every line of a sector replaced by what a function gives. -/
def replaceSector (cells : Cells) (sector : Nat) (f : Nat → Line) : Cells :=
  cells.filter (fun c => c.1 < lineAddr sector 0) ++ sectorCells sector f (List.range 256)
    ++ cells.filter (fun c => lineAddr sector 256 ≤ c.1)

/-- The canonical form: addresses strictly rising and no listed line BLANK. -/
def Cells.wf : Cells → Bool
  | [] => true
  | (a, l) :: rest => l != .blank && rest.all (fun c => decide (a < c.1)) && Cells.wf rest

/-- The line of a sector as the array holds it. -/
def State.lineAt (s : State) (sector line : Nat) : Line := readCell s.seq.cells (lineAddr sector line)

/-- The state with the array replaced. -/
def State.withCells (s : State) (c : Cells) : State := { s with seq := { s.seq with cells := c } }

/-- The state with one line of the array replaced. -/
def State.setLine (s : State) (sector line : Nat) (l : Line) : State :=
  s.withCells (writeCell s.seq.cells (lineAddr sector line) l)

/-- Lines as an erase that ended FAIL or ABANDONED leaves them: line 0 DEFECTIVE, the others a free value (R109, R110). -/
def abandonedLine (n line : Nat) : Line :=
  if line = 0 ∨ Config.residueDefective n line = true then .defective else .blank

/-- Lines as an erase cut short leaves them: each BLANK or DEFECTIVE, a free value (R111). -/
def cutShortLine (n line : Nat) : Line :=
  if Config.residueDefective n line = true then .defective else .blank

/-! ### The control stack -/

/-- A task is put on top; it waits for the next reply. -/
def State.push (s : State) (t : Task) : State := { s with ctl := { s.ctl with stack := t :: s.ctl.stack } }

/-- A reply for the task on top. -/
def State.ret (s : State) (r : Reply) : State := { s with ctl := { s.ctl with reply := some r } }

/-- No job, step or mount is executing any more. -/
def State.clearControl (s : State) : State := { s with ctl := { stack := [], reply := none } }

/-! ### Pins -/

/-- The window answers bus accesses: the part has power and RST# is deasserted (R171). -/
def State.busActive (s : State) : Bool := s.pins.powered && !s.pins.rstAsserted

/-! ### Events (R178) -/

/-- EVENT_STATUS bits (R173). -/
def evQueueSpace : Byte := 0x02
/-- Bit 2 of EVENT_STATUS. -/
def evTxnExpired : Byte := 0x04
/-- Bit 3 of EVENT_STATUS. -/
def evMediaLoss : Byte := 0x08
/-- Bit 4 of EVENT_STATUS. -/
def evZoneLockout : Byte := 0x10
/-- Bit 5 of EVENT_STATUS. -/
def evStateChanged : Byte := 0x20
/-- The five latched events' bits. -/
def evLatched : Byte := 0x3E

/-- An event's source raises it: its bit is set (R178). -/
def State.raise (s : State) (ev : Byte) : State :=
  { s with window := { s.window with events := s.window.events ||| ev } }

/-- MEDIA_LOSS is raised and LOSS_KEY takes the key (R59, R92, R178). -/
def State.raiseMediaLoss (s : State) (k : Key) : State :=
  { s with window := { s.window with events := s.window.events ||| evMediaLoss, lossKey := k } }

/-! ### The store state (R42, R43, R81) -/

/-- The store state takes a value; a change raises STATE_CHANGED (R42). -/
def State.setStore (s : State) (st : StoreState) : State :=
  if s.engine.store = st then s
  else ({ s with engine := { s.engine with store := st } }).raise evStateChanged

/-- The store leaves one state for another at the end of mount or FORMAT; a store that has left it already, by the power-fail
warning, is left as it is (R44, R138, R156; log 41). -/
def State.leaveStore (s : State) (old new : StoreState) : State :=
  if s.engine.store = old then s.setStore new else s

/-- An open transaction is dropped: list and number gone, timer stopped, the expired mark kept (R81). -/
def State.dropTxn (s : State) : State :=
  { s with engine := { s.engine with txn := { s.engine.txn with openTxn := none, timer := .stopped } } }

/-- A READ_ONLY cause is reported; outside READY it changes nothing (R43). -/
def State.reportReadOnly (s : State) : State :=
  if s.engine.store = .ready then { s with engine := { s.engine with readOnlyDue := true } } else s

/-- The end of a step or job: a READ_ONLY cause reported in it takes effect while the store is READY, and an open
transaction is dropped (R10, R20, R43, R81; log 18). -/
def State.applyReadOnly (s : State) : State :=
  if s.engine.readOnlyDue then
    let s := { s with engine := { s.engine with readOnlyDue := false } }
    if s.engine.store = .ready then (s.setStore .readOnly).dropTxn else s
  else s

/-- The next free value's number is used up. -/
def State.drawFree (s : State) : State := { s with freeCtr := s.freeCtr + 1 }

end Sys2Proof.Machine
end

