-- ==== Sys2Proof/Machine/Directory.lean ====
section
/-! DEFINITION. The key directory (02_the_key_directory): searches, charges, admission and the five operations. -/

namespace Sys2Proof.Machine

open Sys2Proof

/-- The frame lines of a PUT frame of value length n (R16). -/
def putLines (n : Nat) : Nat := 1 + (n + 15) / 16

/-- The frame lines an entry is charged: its frame's for LIVE, 1 for DEAD (R25, R30). -/
def Entry.charge (e : Entry) : Nat :=
  match e.live with
  | some n => putLines n
  | none => 1

/-- Whether an entry is LIVE. -/
def Entry.isLive (e : Entry) : Bool := e.live.isSome

/-- The zone of a key: the key divided by 16384 (R48). -/
def zoneOf (k : Key) : Fin 4 := ⟨k.toNat / 16384, by have := k.isLt; omega⟩

/-! ### Searches -/

/-- The exact search (R27). -/
def findEntry : List Entry → Key → Option Entry
  | [], _ => none
  | e :: rest, k => if e.key = k then some e else findEntry rest k

/-- The exact search, answering only a LIVE entry with its value length. -/
def findLive (es : List Entry) (k : Key) : Option (Entry × Nat) :=
  match findEntry es k with
  | some e => e.live.map (fun n => (e, n))
  | none => none

/-- The next-key search: the LIVE entry with the smallest key above k in a zone of the set (R28). -/
def nextEntry (es : List Entry) (k : Key) (readable : Fin 4 → Bool) : Option Entry :=
  es.find? (fun e => decide (k < e.key) && e.isLive && readable (zoneOf e.key))

/-- The located-entry search: the smallest key located in a sector (R29). -/
def locatedEntry (es : List Entry) (sector : Nat) : Option Entry := es.find? (fun e => e.sector == sector)

/-- The companion count of the located-entry search: the entries, LIVE or DEAD, located in a sector (R29). -/
def locatedCount (es : List Entry) (sector : Nat) : Nat := (es.filter (fun e => e.sector == sector)).length

/-- The sum of the frame lines of the LIVE entries located in a sector (R88). -/
def liveLinesIn (es : List Entry) (sector : Nat) : Nat :=
  ((es.filter (fun e => e.sector == sector && e.isLive)).map Entry.charge).sum

/-- The number of LIVE entries (R26). -/
def Directory.liveCount (d : Directory) : Nat := (d.entries.filter Entry.isLive).length

/-- The number of DEAD entries (R26). -/
def Directory.deadCount (d : Directory) : Nat := (d.entries.filter (fun e => !e.isLive)).length

/-- The sum that A always equals (R30). -/
def totalCharge (es : List Entry) : Nat := (es.map Entry.charge).sum

/-! ### Changing the entries, kept in ascending order of key (R26) -/

/-- The entry put at its place: in place of an entry of the same key, or inserted in key order. -/
def putEntry : List Entry → Entry → List Entry
  | [], e => [e]
  | x :: rest, e =>
    if e.key < x.key then e :: x :: rest
    else if x.key = e.key then e :: rest
    else x :: putEntry rest e

/-- The entries without a key's entry. -/
def dropEntry : List Entry → Key → List Entry
  | [], _ => []
  | x :: rest, k => if x.key = k then rest else x :: dropEntry rest k

/-- Keys strictly ascending, so no key twice (R26). -/
def keysAscending : List Entry → Bool
  | [] => true
  | e :: rest => rest.all (fun x => decide (e.key < x.key)) && keysAscending rest

/-- An entry takes the place of its key's entry, or is inserted while fewer than 1024 entries stand, else the overflow
mark is set; A changes by the difference of the charges (R34, R35, R40). -/
def Directory.place (d : Directory) (e : Entry) : Directory :=
  match findEntry d.entries e.key with
  | some old => { d with entries := putEntry d.entries e, accounted := d.accounted + e.charge - old.charge }
  | none =>
    if d.entries.length < Config.directoryCapacity then
      { d with entries := putEntry d.entries e, accounted := d.accounted + e.charge }
    else { d with overflow := true }

/-- Install LIVE (R34). -/
def Directory.installLive (d : Directory) (k : Key) (version : Seq) (sector line n : Nat) : Directory :=
  d.place { key := k, live := some n, version := version, sector := sector, line := line }

/-- Mark DEAD (R35). -/
def Directory.markDead (d : Directory) (k : Key) (version : Seq) (sector line : Nat) : Directory :=
  d.place { key := k, live := none, version := version, sector := sector, line := line }

/-- Relocate: a LIVE entry of that version moves; otherwise the relocation is stale and changes nothing (R36). -/
def Directory.relocate (d : Directory) (k : Key) (version : Seq) (sector line : Nat) : Directory :=
  match findEntry d.entries k with
  | some e =>
    if e.isLive ∧ e.version = version then
      { d with entries := putEntry d.entries { e with sector := sector, line := line } }
    else d
  | none => d

/-- Remove (R37). -/
def Directory.remove (d : Directory) (k : Key) : Directory :=
  match findEntry d.entries k with
  | some e => { d with entries := dropEntry d.entries k, accounted := d.accounted - e.charge }
  | none => d

/-- Convert on loss: a LIVE entry of the lost version becomes DEAD at the tombstone; otherwise stale (R38). -/
def Directory.convertOnLoss (d : Directory) (k : Key) (lost version : Seq) (sector line : Nat) : Directory :=
  match findEntry d.entries k with
  | some e =>
    if e.isLive ∧ e.version = lost then d.markDead k version sector line else d
  | none => d

/-- FORMAT empties the directory and leaves the directory-complete flag (R41, R154). -/
def Directory.emptied (d : Directory) : Directory := { Directory.reset with complete := d.complete }

/-- The state with the directory changed by one of its operations. -/
def State.withDir (s : State) (f : Directory → Directory) : State :=
  { s with engine := { s.engine with dir := f s.engine.dir } }

/-! ### Charge and admission (R32, R33) -/

/-- The admission limit L for U usable sectors (R31). -/
def admissionLimit (u : Nat) : Nat := (u - 3) * Config.dataLines

/-- The charge of a key's entry, 0 when it is absent. -/
def chargeOf (es : List Entry) (k : Key) : Nat :=
  match findEntry es k with
  | some e => e.charge
  | none => 0

/-- The change to A of a write whose frame is f lines long, for the key's entry now (R32). -/
def writeCharge (es : List Entry) (k : Key) (f : Nat) : Int := (f : Int) - (chargeOf es k : Int)

/-- The space test: A′ ≤ L, or A′ < A (R33). -/
def spacePasses (a l : Nat) (delta : Int) : Bool :=
  decide ((a : Int) + delta ≤ (l : Int)) || decide ((a : Int) + delta < (a : Int))

/-- Admission: FULL by the space test, then NO_ROOM by the room test (R33). -/
def Directory.admission (d : Directory) (l : Nat) (delta : Int) (newEntries : Nat) : Option Status :=
  if !spacePasses d.accounted l delta then some .full
  else if Config.directoryCapacity < d.entries.length + newEntries then some .noRoom
  else none

/-- The number of new entries of a PUT: 1 when its key is absent (R32). -/
def newEntryOf (es : List Entry) (k : Key) : Nat := if (findEntry es k).isSome then 0 else 1

/-- A staged entry's frame lines: a PUT's by its length, 1 for a DELETE (R76). -/
def Staged.lines (e : Staged) : Nat :=
  match e.value with
  | some v => putLines v.length
  | none => 1

/-- The value bytes a staged entry holds (R68). -/
def Staged.length (e : Staged) : Nat :=
  match e.value with
  | some v => v.length
  | none => 0

/-- A commit's charge: the sum of its entries' changes to A (R32, R76). -/
def commitCharge (es : List Entry) : List Staged → Int
  | [] => 0
  | e :: rest => writeCharge es e.key e.lines + commitCharge es rest

/-- A commit's new entries: its staged PUT entries whose key is absent (R32, R76). -/
def commitNewEntries (es : List Entry) : List Staged → Nat
  | [] => 0
  | e :: rest => (if e.value.isSome then newEntryOf es e.key else 0) + commitNewEntries es rest

/-- A commit's total lines: its members' frame lines and one for the COMMIT frame (R76). -/
def commitLines (staged : List Staged) : Nat := (staged.map Staged.lines).sum + 1

/-! ### Conditions (R51) -/

/-- Whether a condition is met by the key's entry; the status when it is not (R51). An expected version of 0 matches no key
(R50). -/
def conditionFails (es : List Entry) (k : Key) : Condition → Option Status
  | .always => none
  | .ifAbsent => if (findLive es k).isSome then some .exists_ else none
  | .ifVersion v =>
    match findLive es k with
    | some (e, _) => if v ≠ 0 ∧ e.version = v then none else some .versionMismatch
    | none => some .versionMismatch

/-- The version and value length that a failed condition's completion carries: the LIVE entry's, or 0 and 0 (R51, R75). -/
def liveContents (es : List Entry) (k : Key) : Seq × Nat :=
  match findLive es k with
  | some (e, n) => (e.version, n)
  | none => (0, 0)

end Sys2Proof.Machine
end

