-- ==== Sys2Proof/Machine/Sequencer.lean ====
section
/-! DEFINITION. The array sequencer (06_the_array_sequencer): line reads and programs, sector erases, suspension, the
power-fail warning and resets. -/

namespace Sys2Proof.Machine

open Sys2Proof

/-- The sector an operation names. -/
def LineOp.sector : LineOp → Nat
  | .read sec _ => sec
  | .program sec _ _ => sec

/-- Whether an operation is a program. -/
def LineOp.isProgram : LineOp → Bool
  | .read _ _ => false
  | .program _ _ _ => true

/-- The sequencer takes an operation in hand outside an erase: a program makes it PROGRAMMING (R106, R107). -/
def State.serve (s : State) (op : LineOp) : State :=
  { s with seq := { s.seq with
      inHand := some op, delivers := true,
      state := if op.isProgram then .programming else s.seq.state } }

/-- The answer to an operation on the sector being erased: a read DEFECTIVE, a program FAIL, at once (R108, R117). -/
def erasingAnswer (op : LineOp) : Reply := if op.isProgram then .prog .fail else .line .defective

/-- A foreground read or program arrives: REFUSED when it is a program and the sequencer is halted (R108, R120); answered at
once in the sector being erased (R108, R117); served in a suspension while fewer than 8 were taken (R115), else waiting
(R116); served at once when no erase is in flight (R106, R107). -/
def State.issue (s : State) (op : LineOp) : State :=
  if s.seq.halted && op.isProgram then s.ret (.prog .refused)
  else
    match s.seq.erase with
    | none => s.serve op
    | some e =>
      if e.sector = op.sector then s.ret (erasingAnswer op)
      else if s.seq.state = .erasing ∧ e.suspensions < Config.maxSuspensions then
        { s with seq := { s.seq with
            state := .suspended, inHand := some op, delivers := true,
            erase := some { e with suspensions := e.suspensions + 1 } } }
      else { s with seq := { s.seq with waiting := some op } }

/-- A line read is asked for (R106). -/
def State.issueRead (s : State) (sector line : Nat) : State := s.issue (.read sector line)

/-- A line program is asked for (R107). -/
def State.issueProgram (s : State) (sector line : Nat) (d : LineData) : State := s.issue (.program sector line d)

/-- The sequencer's state once an operation in hand has ended: a suspended erase resumes, a halted sequencer is HALTED, and
otherwise it is IDLE (R107, R115, R119). -/
def Sequencer.afterOp (q : Sequencer) : SeqState :=
  if q.erase.isSome then .erasing else if q.halted then .halted else .idle

/-- The operation in hand leaves the sequencer. -/
def State.dropInHand (s : State) : State :=
  { s with seq := { s.seq with inHand := none, delivers := true, state := s.seq.afterOp } }

/-- The operation in hand ends and its outcome goes to its issuer, unless a soft reset took the issuer away (R121). -/
def State.endOp (s : State) (r : Reply) : State :=
  if s.seq.delivers then s.dropInHand.ret r else s.dropInHand

/-- What a program of a line ends with, the line's status found first (R107). -/
def programOutcome (before : Line) (verified : Bool) : ProgOutcome :=
  if before = .blank then (if verified then .pass else .fail) else .notBlank

/-- The line after a program with that outcome: GOOD with the bytes given, DEFECTIVE, or as it was (R107). -/
def programLine (before : Line) (d : LineData) : ProgOutcome → Line
  | .pass => .good d
  | .fail => .defective
  | .notBlank => before
  | .refused => before

/-- The line read in hand ends with the line as the array gives it then (R106). -/
def State.lineReadEnds (s : State) : State :=
  match s.seq.inHand with
  | some (.read sec l) => s.endOp (.line (s.lineAt sec l))
  | _ => s

/-- The line program in hand ends by its verify, or NOT_BLANK when the line was not BLANK (R107). -/
def State.lineProgramEnds (s : State) (verified : Bool) : State :=
  match s.seq.inHand with
  | some (.program sec l d) =>
    let before := s.lineAt sec l
    let o := programOutcome before verified
    (s.setLine sec l (programLine before d o)).endOp (.prog o)
  | _ => s

/-- The program in hand has run 400 µs: FAIL. A program of a line that is not BLANK applies no pulse and does not run that
long, so the event cannot meet it (R107). -/
def State.programTimesOut (s : State) : State :=
  match s.seq.inHand with
  | some (.program sec l _) => if s.lineAt sec l = .blank then s.lineProgramEnds false else s
  | _ => s

/-- An erase begins: line 0 is voided, elapsed time and suspensions are 0 (R109, R115). -/
def State.beginErase (s : State) (sector : Nat) (background : Bool) : State :=
  let s := s.setLine sector 0 .defective
  { s with seq := { s.seq with
      state := .erasing,
      erase := some { sector := sector, background := background, elapsed := 0, suspensions := 0 } } }

/-- The compactor takes the completion of its background erase in its ERASING stage: PASS and FAIL lead to FINISHING,
ABANDONED and REFUSED end the round; outside that stage it takes nothing (R97, R102). -/
def State.compactorErased (s : State) (o : EraseOutcome) : State :=
  if s.comp.stage = .erasing then
    match o with
    | .pass => { s with comp := { s.comp with stage := .finishing, eraseOutcome := some true } }
    | .fail => { s with comp := { s.comp with stage := .finishing, eraseOutcome := some false } }
    | .abandoned => { s with comp := { s.comp with stage := .idle, victim := none, roundStart := none } }
    | .refused => { s with comp := { s.comp with stage := .idle, victim := none, roundStart := none } }
  else s

/-- An event reaches a stall or RECLAIM that waits with its task on top (R63, R99). -/
def State.wakeWaiting (s : State) : State :=
  match s.ctl.stack with
  | .stall _ :: _ => s.ret .wake
  | .reclaim _ :: _ => s.ret .wake
  | _ => s

/-- An erase's outcome goes to its issuer: the compactor as an event, or the foreground issuer (R113, R114). -/
def State.deliverErase (s : State) (background : Bool) (o : EraseOutcome) : State :=
  if background then (s.compactorErased o).wakeWaiting else s.ret (.erase o)

/-- A sector erase is asked for: REFUSED when halted (R110), begun at once when no erase is in flight (R109), else pending
(R113, R114). At most one erase is ever pending (log 26). -/
def State.issueErase (s : State) (sector : Nat) (background : Bool) : State :=
  if s.seq.halted then s.deliverErase background .refused
  else if s.seq.erase.isNone then s.beginErase sector background
  else if s.seq.pending.isNone then
    { s with seq := { s.seq with pending := some { sector := sector, background := background } } }
  else s

/-- The waiting operation is served once the erase is out of the way; a program is REFUSED when the sequencer is halted
(R116, R119). -/
def State.serveWaiting (s : State) : State :=
  match s.seq.waiting with
  | none => s
  | some op =>
    let s := { s with seq := { s.seq with waiting := none } }
    if s.seq.halted && op.isProgram then s.ret (.prog .refused) else s.serve op

/-- The erase in flight ends PASS or FAIL: the sector's lines, the record discarded, the outcome delivered, and the waiting
operation served before any pending erase (R109, R116). -/
def State.eraseEnds (s : State) (passed : Bool) : State :=
  match s.seq.erase with
  | none => s
  | some e =>
    if s.seq.state = .erasing then
      let lines : Nat → Line := if passed then (fun _ => .blank) else abandonedLine s.freeCtr
      let s := (s.withCells (replaceSector s.seq.cells e.sector lines)).drawFree
      let s := { s with seq := { s.seq with state := .idle, erase := none } }
      (s.deliverErase e.background (if passed then .pass else .fail)).serveWaiting
    else s

/-- The erase in flight is abandoned: its lines and its record, with no delivery (R110). -/
def State.abandonErase (s : State) : State :=
  match s.seq.erase with
  | none => s
  | some e =>
    let s := (s.withCells (replaceSector s.seq.cells e.sector (abandonedLine s.freeCtr))).drawFree
    { s with seq := { s.seq with erase := none } }

/-- The pending erase begins when the sequencer is IDLE with no operation in hand; REFUSED when halted (R110, R116). -/
def State.startPending (s : State) : Option State :=
  match s.seq.pending with
  | none => none
  | some p =>
    if s.seq.erase.isNone && s.seq.inHand.isNone && s.seq.waiting.isNone then
      some (State.issueErase { s with seq := { s.seq with pending := none } } p.sector p.background)
    else none

/-- The sequencer's state after it takes the warning, by the work in hand (R119). -/
def Sequencer.afterWarning (q : Sequencer) : SeqState :=
  match q.inHand with
  | some (.program _ _ _) => .programming
  | _ => .halted

/-- The sequencer takes the power-fail warning: the halted flag is set, an erase in flight ABANDONED, a waiting read served
and a waiting program REFUSED, a pending erase REFUSED; a program in hand continues (R118, R119). -/
def State.sequencerWarning (s : State) : State :=
  let e := s.seq.erase
  let p := s.seq.pending
  let s := s.abandonErase
  let s := { s with seq := { s.seq with halted := true, pending := none, state := s.seq.afterWarning } }
  let s := match e with
    | none => s
    | some e => s.deliverErase e.background .abandoned
  let s := match p with
    | none => s
    | some p => s.deliverErase p.background .refused
  s.serveWaiting

/-- The sequencer takes a soft reset: a program in hand continues without an issuer, an erase is ABANDONED without an
outcome, everything else is discarded, and the halted flag is cleared (R121). -/
def State.sequencerSoftReset (s : State) : State :=
  let s := s.abandonErase
  let fresh := Sequencer.reset s.seq.cells
  match s.seq.inHand with
  | some (.program sec l d) =>
    { s with seq := { fresh with state := .programming, inHand := some (.program sec l d), delivers := false } }
  | _ => { s with seq := fresh }

/-- The program in hand is cut short: its BLANK line is left as the free value says; a line that was not BLANK has had no
pulse and keeps its contents (R107, R111). -/
def State.cutProgramShort (s : State) : State :=
  match s.seq.inHand with
  | some (.program sec l d) =>
    if s.lineAt sec l = .blank then
      let left : Line := match Config.cutProgram s.freeCtr with
        | .blank => .blank
        | .defective => .defective
        | .good => .good d
      (s.setLine sec l left).drawFree
    else s
  | _ => s

/-- The erase in flight is cut short: each line of its sector reads BLANK or DEFECTIVE (R111). -/
def State.cutEraseShort (s : State) : State :=
  match s.seq.erase with
  | none => s
  | some e => (s.withCells (replaceSector s.seq.cells e.sector (cutShortLine s.freeCtr))).drawFree

/-- A pin reset or power loss reaches the sequencer: everything in flight is cut short or discarded (R111, R122). -/
def State.sequencerCutShort (s : State) : State :=
  let s := s.cutProgramShort.cutEraseShort
  { s with seq := Sequencer.reset s.seq.cells }

/-- A programmed line loses its contents by itself: GOOD becomes DEFECTIVE; a BLANK or DEFECTIVE line is as it was (R105). -/
def State.ownLoss (s : State) (sector line : Nat) : State :=
  match s.lineAt sector line with
  | .good _ => s.setLine sector line .defective
  | _ => s

end Sys2Proof.Machine
end

