-- ==== Sys2Proof/Machine/LogManager.lean ====
section
/-! DEFINITION. The log manager's tables, the anchor unit's writes, retirement, and the opening, closing and formatting
of sectors (01_the_record_log sections 1.2 to 1.4, 08 sections 8.1 to 8.4). -/

namespace Sys2Proof.Machine

open Sys2Proof

/-! ### The sector table, the free list and the ring (R4, R11, R12, R14) -/

/-- A pool sector's record; a number that is no pool sector has no record and reads RETIRED. -/
def LogTables.record (t : LogTables) (sector : Nat) : SectorRec :=
  if 2 ≤ sector then t.sectors.getD (sector - 2) .retired else .retired

/-- The tables with a pool sector's record replaced. -/
def LogTables.setRecord (t : LogTables) (sector : Nat) (r : SectorRec) : LogTables :=
  if 2 ≤ sector then { t with sectors := t.sectors.set (sector - 2) r } else t

/-- Whether a record is RETIRED. -/
def SectorRec.isRetired : SectorRec → Bool
  | .retired => true
  | _ => false

/-- Whether a record is CLOSED. -/
def SectorRec.isClosed : SectorRec → Bool
  | .closed _ _ _ _ _ => true
  | _ => false

/-- Whether a record is BLANK. -/
def SectorRec.isBlank : SectorRec → Bool
  | .blank _ => true
  | _ => false

/-- The erase count a record carries (R4). -/
def SectorRec.eraseCount : SectorRec → Option Nat
  | .blank c => c
  | .free c => some c
  | .head _ c _ _ _ _ => some c
  | .closed _ c _ _ _ => some c
  | .victim _ c _ _ => some c
  | .erasing _ c _ => some c
  | .retired => none

/-- U: 62 less the RETIRED records (R4). -/
def LogTables.usable (t : LogTables) : Nat := 62 - (t.sectors.filter SectorRec.isRetired).length

/-- The number of CLOSED sectors (R84, R87). -/
def LogTables.closedCount (t : LogTables) : Nat := (t.sectors.filter SectorRec.isClosed).length

/-- The erase counts present in the sector table (R61). -/
def LogTables.eraseCounts (t : LogTables) : List Nat := t.sectors.filterMap SectorRec.eraseCount

/-- The highest erase count present, or none (R136, R155). -/
def LogTables.highestErase (t : LogTables) : Option Nat := t.eraseCounts.max?

/-- The head's sector and next line (R14). -/
def LogTables.headPos (t : LogTables) : Option (Nat × Nat) :=
  match t.head with
  | none => none
  | some sec =>
    match t.record sec with
    | .head _ _ _ lastUsed _ _ => some (sec, lastUsed + 1)
    | _ => none

/-- A sector leaves whichever of the two lists held it. -/
def LogTables.unlist (t : LogTables) (sector : Nat) : LogTables :=
  { t with free := t.free.filter (· != sector), ring := t.ring.filter (· != sector) }

/-- The tables changed, when they are held. -/
def State.withLog (s : State) (f : LogTables → LogTables) : State := { s with log := s.log.map f }

/-- The FREE count, 0 while no tables are held (R4, R11). -/
def State.freeCount (s : State) : Nat :=
  match s.log with
  | some t => t.free.length
  | none => 0

/-- U as the log manager reports it, 0 while no tables are held (R4). -/
def State.usable (s : State) : Nat :=
  match s.log with
  | some t => t.usable
  | none => 0

/-- L as reported (R31). -/
def State.limit (s : State) : Nat := admissionLimit s.usable

/-- The head's position, if a head exists. -/
def State.headPos (s : State) : Option (Nat × Nat) :=
  match s.log with
  | some t => t.headPos
  | none => none

/-- A pool sector's record; RETIRED while no tables are held. -/
def State.record (s : State) (sector : Nat) : SectorRec :=
  match s.log with
  | some t => t.record sector
  | none => .retired

/-- The tail of the ring list (R12). -/
def State.tail (s : State) : Option Nat :=
  match s.log with
  | some t => t.ring.head?
  | none => none

/-- The number of CLOSED sectors, 0 while no tables are held. -/
def State.closedCount (s : State) : Nat :=
  match s.log with
  | some t => t.closedCount
  | none => 0

/-- A frame of n lines fits from a next line on when the sum is at most 256 (R21). -/
def fits (nextLine n : Nat) : Bool := decide (nextLine + n ≤ 256)

/-- The placement query: whether n lines from the head's next line would need a new head (R21, R88). -/
def State.needsNewHead (s : State) (n : Nat) : Bool :=
  match s.headPos with
  | some (_, nextLine) => !fits nextLine n
  | none => true

/-! ### The anchor record and its writing (R141 to R147) -/

/-- The default contents of a part with no valid record (R144). -/
def AnchorRecord.default : AnchorRecord :=
  { generation := 0, formatId := 0, zones := Vector.replicate 4 { policy := .policyOpen, code := List.replicate 8 0 },
    retired := [] }

/-- The working contents, which every other block uses (R143). -/
def State.contents (s : State) : AnchorRecord :=
  match s.anchor.working with
  | some r => r
  | none => .default

/-- The format id reported to INFO: 0 while no contents are held (R143). -/
def State.formatId (s : State) : Seq := s.contents.formatId

/-- The retired set with a sector added, in ascending order, each sector once (R147). -/
def insertSector (x : Nat) : List Nat → List Nat
  | [] => [x]
  | y :: rest => if x < y then x :: y :: rest else if x = y then y :: rest else y :: insertSector x rest

/-- The generation of the next record: one more; after the greatest, a free value (R145; log 22). -/
def nextGeneration (g : Seq) : Seq := if g = BitVec.allOnes 32 then Config.generationPastMax else g + 1

/-- The tasks of a FORMAT. -/
def Task.isFormat : Task → Bool
  | .formatAnchor _ => true
  | .formatRead _ _ _ => true
  | .formatErase _ _ => true
  | .formatSector _ => true
  | .formatOpen _ => true
  | _ => false

/-- A FORMAT executes, whether or not the power-fail warning has made the store HALTED since it was taken (R44, R157). -/
def State.formatRuns (s : State) : Bool := s.ctl.stack.any Task.isFormat

/-- An anchor write ends FAILED: recorded for the end of mount or FORMAT, else reported (R146, R156). -/
def State.anchorFailure (s : State) : State :=
  if s.engine.store = .mounting ∨ s.formatRuns = true then
    { s with engine := { s.engine with anchorFailed := true } }
  else s.reportReadOnly

/-- The anchor write ends with an outcome, handed to its requester (R145, R146). -/
def State.anchorEnds (s : State) (o : AnchorOutcome) : State :=
  match o with
  | .failed => s.anchorFailure.ret (.anchor .failed)
  | .written => s.ret (.anchor .written)
  | .refused => s.ret (.anchor .refused)

/-- One line of a slot is programmed (R142, R145). -/
def State.programPart (s : State) (r : AnchorRecord) (second : Bool) (sector slot part : Nat) : State :=
  (s.push (.anchorWrite r second (.line sector slot part))).issueProgram sector (6 * slot + part) (.anchor r part)

/-- The record is placed: at the write position, or after an erase of the other anchor sector, or of sector 0 when no write
position is held (R145). -/
def State.placeRecord (s : State) (r : AnchorRecord) (second : Bool) : State :=
  match s.anchor.writePos with
  | none => (s.push (.anchorWrite r second (.erasing 0))).issueErase 0 false
  | some (sector, slot) =>
    if slot < Config.anchorSlots then s.programPart r second sector slot 0
    else (s.push (.anchorWrite r second (.erasing (1 - sector)))).issueErase (1 - sector) false

/-- An anchor write is asked for: the new record becomes the working contents at once and is then placed (R145). -/
def State.anchorWrite (s : State) (change : AnchorRecord → AnchorRecord) : State :=
  let r := change { s.contents with generation := nextGeneration s.contents.generation }
  ({ s with anchor := { s.anchor with working := some r } }).placeRecord r false

/-- The anchor unit goes on after an erase or a line program of its write (R145, R146). -/
def State.anchorWriteReply (s : State) (r : AnchorRecord) (second : Bool) : AnchorPhase → Reply → State
  | .erasing sector, .erase .pass =>
    ({ s with anchor := { s.anchor with writePos := some (sector, 0) } }).programPart r second sector 0 0
  | .erasing _, .erase .fail => s.anchorEnds .failed
  | .erasing _, .erase .abandoned => s.anchorEnds .refused
  | .erasing _, .erase .refused => s.anchorEnds .refused
  | .line sector slot part, .prog .pass =>
    if part < 5 then s.programPart r second sector slot (part + 1)
    else
      State.anchorEnds { s with anchor := { s.anchor with
        location := some (sector, slot), writePos := some (sector, slot + 1) } } .written
  | .line _ _ _, .prog .refused => s.anchorEnds .refused
  | .line sector slot _, .prog _ =>
    let s := { s with anchor := { s.anchor with writePos := some (sector, slot + 1) } }
    if second then s.anchorEnds .failed else s.placeRecord r true
  | _, _ => s

/-! ### Retirement (R10) -/

/-- The retirement procedure begins with its anchor write. -/
def State.retireBegin (s : State) (sector : Nat) : State :=
  (s.push (.retire sector)).anchorWrite (fun r => { r with retired := insertSector sector r.retired })

/-- The sector leaves its list and its record becomes RETIRED; U below 8 is reported (R10). -/
def State.retireSector (s : State) (sector : Nat) : State :=
  let s := s.withLog (fun t => (t.unlist sector).setRecord sector .retired)
  if s.usable < Config.minimumPool then s.reportReadOnly else s

/-! ### Formatting a sector (R5) -/

/-- The format line is programmed with the current format id and the given erase count. -/
def State.formatSector (s : State) (sector eraseCount : Nat) : State :=
  (s.push (.formatLine sector eraseCount)).issueProgram sector 0 (.format s.formatId eraseCount)

/-- The record becomes FREE, leaves the ring list and joins the back of the free list (R5, R11, R12). -/
def LogTables.freed (t : LogTables) (sector eraseCount : Nat) : LogTables :=
  let t := (t.unlist sector).setRecord sector (.free eraseCount)
  { t with free := t.free ++ [sector] }

/-- The format line's program ends: FREE on PASS, retirement on FAIL or NOT_BLANK, left as it was on REFUSED (R5). -/
def State.formatLineReply (s : State) (sector eraseCount : Nat) : Reply → State
  | .prog .pass => (s.withLog (fun t => t.freed sector eraseCount)).ret (.formatted true)
  | .prog .refused => s.ret (.formatted false)
  | .prog _ => s.retireBegin sector
  | _ => s

/-! ### Opening and closing the head (R6, R7, R8) -/

/-- The head is opened from the front of the free list; the ring sequence is used up whatever follows (R6). -/
def State.openHead (s : State) : State :=
  match s.log with
  | none => s.ret (.opened .noSector)
  | some t =>
    match t.free with
    | [] => s.ret (.opened .noSector)
    | sec :: _ =>
      let s := s.withLog (fun t => { t with nextRing := t.nextRing + 1 })
      (s.push (.openHead sec t.nextRing)).issueProgram sec 1 (.opened s.formatId t.nextRing s.engine.seq)

/-- The retirement of a sector whose open line failed has ended: the opening is attempted again with the new front (R6). Within
FORMAT a REFUSED anchor write of the retirement ends the opening, since FORMAT stops at its first REFUSED outcome (R157;
log 41). DESIGN CHOICE (log 42): when the retirement whose anchor write was REFUSED has emptied the free list, the opening ends
OUT_OF_SECTORS by R6 and R22, and a write that asked for it completes MEDIA_FAULT (R54, R79), where R44 says that a job which
has a program refused completes HALTED. -/
def State.openRetryReply (s : State) : Reply → State
  | .retired o => if o = .refused ∧ s.formatRuns = true then s.ret (.opened .refused) else s.openHead
  | _ => s

/-- A FREE sector becomes the head, last in the ring list (R6, R12). -/
def LogTables.becomeHead (t : LogTables) (sector : Nat) (ring : Seq) : LogTables :=
  let c := (t.record sector).eraseCount.getD 0
  let t := (t.unlist sector).setRecord sector (.head ring c 0 2 0 0)
  { t with ring := t.ring ++ [sector], head := some sector }

/-- The open line's program ends: the head is open, or the sector is retired and the next is tried, or the opening ends
without a head on REFUSED (R6). -/
def State.openHeadReply (s : State) (sector : Nat) (ring : Seq) : Reply → State
  | .prog .pass => (s.withLog (fun t => t.becomeHead sector ring)).ret (.opened .opened)
  | .prog .refused => s.ret (.opened .refused)
  | .prog _ => (s.push .openRetry).retireBegin sector
  | _ => s

/-- The head's close line is programmed (R7). Without a head there is nothing to close. -/
def State.closeHead (s : State) : State :=
  match s.log with
  | none => s.ret (.closed false)
  | some t =>
    match t.head with
    | none => s.ret (.closed false)
    | some sec =>
      match t.record sec with
      | .head _ _ faults lastUsed frames highest =>
        (s.push (.closeHead sec)).issueProgram sec 2 (.closed lastUsed frames highest faults)
      | _ => s.ret (.closed false)

/-- A HEAD record becomes CLOSED; it is condemned when its fault count is 3 or its close line failed (R7, R8). -/
def SectorRec.close (failed : Bool) : SectorRec → SectorRec
  | .head ring c faults lastUsed _ _ => .closed ring c faults lastUsed (failed || decide (3 ≤ faults))
  | r => r

/-- The head's record is CLOSED and no head is held. -/
def LogTables.headClosed (t : LogTables) (sector : Nat) (failed : Bool) : LogTables :=
  { t.setRecord sector ((t.record sector).close failed) with head := none }

/-- The close line's program ends: CLOSED whatever the outcome (R7). -/
def State.closeHeadReply (s : State) (sector : Nat) : Reply → State
  | .prog o =>
    (s.withLog (fun t => t.headClosed sector (o = .fail || o = .notBlank))).ret (.closed (o = .refused))
  | _ => s

end Sys2Proof.Machine
end

