-- ==== Sys2Proof/Machine/Append.lean ====
section
/-! DEFINITION. Frames (01 section 1.5), the appending of a frame (01 section 1.8) and the reading of an entry's frame
(R58, R91). -/

namespace Sys2Proof.Machine

open Sys2Proof

/-- The lines a frame occupies (R16). -/
def FrameHeader.lines : FrameHeader → Nat
  | .put _ _ _ n => putLines n
  | .delete _ _ _ => 1
  | .commit _ _ _ => 1

/-- The frame sequence (R15). -/
def FrameHeader.seq : FrameHeader → Seq
  | .put _ q _ _ => q
  | .delete _ q _ => q
  | .commit q _ _ => q

/-- The transaction number a header carries, in member and COMMIT frames (R15). -/
def FrameHeader.txn : FrameHeader → Option TxnNo
  | .put _ _ m _ => m
  | .delete _ _ m => m
  | .commit _ t _ => some t

/-- Header fields are legal: value length at most 256, member count 1 to 8, transaction number not 0 (R17), and frame sequence
not 0, the range R15 gives it and R25 and R50 give versions (DEDUCED, log 43: R17 does not name the sequence). -/
def FrameHeader.legal (h : FrameHeader) : Bool :=
  h.seq != 0 && h.txn != some 0 &&
    match h with
    | .put _ _ _ n => decide (n ≤ 256)
    | .delete _ _ _ => true
    | .commit _ _ c => decide (1 ≤ c) && decide (c ≤ 8)

/-- The header a GOOD line gives when it is read where a header is expected: a frame's header line gives its fields, a
payload line a free value, and a line of another kind none; only legal fields are a header (R17, R18; log 2). -/
def LineData.asHeader (d : LineData) : Option FrameHeader :=
  let h := match d with
    | .frame h => some h
    | .payload b => Config.payloadAsHeader b
    | _ => none
  h.filter FrameHeader.legal

/-- The 16 bytes a GOOD line gives when it is read as a payload line (R16; log 3). -/
def LineData.asPayload : LineData → Vector Byte 16
  | .payload b => b
  | d => Config.lineImage d

/-- Payload line i of a value: bytes 16 i to 16 i + 15, zero beyond the value's end (R16). -/
def payloadLine (value : List Byte) (i : Nat) : Vector Byte 16 := Vector.ofFn (fun k => value.getD (16 * i + k.val) 0)

/-- Line `idx` of a frame's attempt: the header line, then the payload lines (R15, R16, R23). -/
def frameLine (j : AppendJob) : Nat → LineData
  | 0 => .frame j.header
  | i + 1 => .payload (payloadLine j.value i)

/-! ### Appending (R21 to R24) -/

/-- One line of an attempt is programmed (R23). -/
def State.programAttempt (s : State) (j : AppendJob) (sector start idx : Nat) : State :=
  (s.push (.append j (.programming sector start idx))).issueProgram sector (start + idx) (frameLine j idx)

/-- The append ends with an outcome, handed back to the record engine. -/
def State.appendEnds (s : State) (o : AppendOutcome) : State := s.ret (.appended o)

/-- The append ends OUT_OF_SECTORS and the exhaustion is reported (R22). -/
def State.appendExhausted (s : State) : State := s.reportReadOnly.appendEnds .outOfSectors

/-- A new head is needed: the floor first, then the close of the head, then the opening (R22). -/
def State.appendNewHead (s : State) (j : AppendJob) (hostFloor : Bool) : State :=
  if s.freeCount < (if hostFloor then 2 else 1) then
    if hostFloor then s.appendEnds .waitForSpace else s.appendExhausted
  else if s.headPos.isSome then (s.push (.append j .closingForRoom)).closeHead
  else (s.push (.append j .opening)).openHead

/-- An attempt is placed at the head's next line when the frame fits, else it needs a new head (R21, R24). -/
def State.placeAttempt (s : State) (j : AppendJob) (hostFloor : Bool) : State :=
  match s.headPos with
  | some (sector, nextLine) =>
    if fits nextLine j.header.lines then s.programAttempt j sector nextLine 0 else s.appendNewHead j hostFloor
  | none => s.appendNewHead j hostFloor

/-- An append begins: the first attempt of a HOST job that has programmed no line is held to the host-open floor (R21, R22). -/
def State.appendBegin (s : State) (j : AppendJob) : State := s.placeAttempt j (j.host && !j.programmed)

/-- A HEAD record after a program of a line: the line is the last used data line (R14, R23). -/
def SectorRec.used (line : Nat) : SectorRec → SectorRec
  | .head r c f _ n q => .head r c f line n q
  | r => r

/-- A HEAD record after a failed line: the fault count rises by one (R24). -/
def SectorRec.faulted : SectorRec → SectorRec
  | .head r c f l n q => .head r c (f + 1) l n q
  | r => r

/-- A HEAD record after a completed append: frame count and highest sequence (R14, R23). -/
def SectorRec.framed (q : Seq) : SectorRec → SectorRec
  | .head r c f l n h => .head r c f l (n + 1) (Seq.later h q)
  | r => r

/-- A HEAD record's fault count, 0 for another record. -/
def SectorRec.faults : SectorRec → Nat
  | .head _ _ f _ _ _ => f
  | _ => 0

/-- A pool sector's record changed by a function. -/
def State.mapRecord (s : State) (sector : Nat) (f : SectorRec → SectorRec) : State :=
  s.withLog (fun t => t.setRecord sector (f (t.record sector)))

/-- After a failed line: the head is closed at once when its fault count has reached 3, else the frame is rewritten at the
head's next line or in a new head under the compaction-open floor (R24). -/
def State.rewrite (s : State) (j : AppendJob) (sector : Nat) : State :=
  if 3 ≤ (s.record sector).faults then (s.push (.append j .closingCondemned)).closeHead
  else s.placeAttempt j false

/-- The append goes on after a reply (R22 to R24). -/
def State.appendReply (s : State) (j : AppendJob) : AppendPhase → Reply → State
  | .programming _ _ _, .prog .refused => s.appendEnds .refused
  | .programming sector start idx, .prog .pass =>
    let s := s.mapRecord sector (SectorRec.used (start + idx))
    if idx + 1 < j.header.lines then s.programAttempt j sector start (idx + 1)
    else (s.mapRecord sector (SectorRec.framed j.header.seq)).appendEnds (.placed sector start j.header.lines)
  | .programming sector start idx, .prog _ =>
    ((s.mapRecord sector (SectorRec.used (start + idx))).mapRecord sector SectorRec.faulted).rewrite j sector
  | .closingForRoom, .closed true => s.appendEnds .refused
  | .closingForRoom, .closed false => (s.push (.append j .opening)).openHead
  | .closingCondemned, .closed true => s.appendEnds .refused
  | .closingCondemned, .closed false => s.appendNewHead j false
  | .opening, .opened .opened => s.placeAttempt j false
  | .opening, .opened .noSector => s.appendExhausted
  | .opening, .opened .refused => s.appendEnds .refused
  | _, _ => s

/-! ### Reading an entry's frame (R58, R91) -/

/-- The header line matches a LIVE entry: a legal PUT header with the entry's key, version and value length whose lines end
at or before line 255. -/
def headerMatches (e : Entry) (n : Nat) (l : Line) : Bool :=
  match l with
  | .good d =>
    match d.asHeader with
    | some (.put k q _ len) =>
      decide (k = e.key) && decide (q = e.version) && decide (len = n) && decide (e.line + putLines n ≤ 256)
    | _ => false
  | _ => false

/-- The frame of a LIVE entry is read, header line first. -/
def State.readFrameBegin (s : State) (e : Entry) : State := (s.push (.readFrame e 0 [])).issueRead e.sector e.line

/-- After a line of the frame: the next line, the value when all lines read GOOD and match, or no value at the first line
that does not (R58, R91). `idx` is the line just read, 0 for the header. -/
def State.readFrameReply (s : State) (e : Entry) (idx : Nat) (got : List Byte) : Reply → State
  | .line l =>
    let n := e.live.getD 0
    let next := fun (bytes : List Byte) =>
      if idx + 1 < putLines n then (s.push (.readFrame e (idx + 1) bytes)).issueRead e.sector (e.line + idx + 1)
      else s.ret (.frame (some (bytes.take n)))
    if idx = 0 then
      if headerMatches e n l then next [] else s.ret (.frame none)
    else
      match l with
      | .good d => next (got ++ d.asPayload.toList)
      | _ => s.ret (.frame none)
  | _ => s

end Sys2Proof.Machine
end

