-- ==== Sys2Proof/Machine/Compactor.lean ====
section
/-! DEFINITION. The compactor's triggers and steps (05_compaction). -/

namespace Sys2Proof.Machine

open Sys2Proof

/-- Whether the tail of the ring list is CLOSED (R84, R88). -/
def State.tailClosed (s : State) : Bool :=
  match s.tail with
  | some sec => (s.record sec).isClosed
  | none => false

/-- A stall or a RECLAIM executes, so steps run within its job (R84, R86). -/
def State.stepsInJob (s : State) : Bool := s.comp.stallMode || s.comp.reclaimTarget.isSome

/-- The FREE count is below W (R84). -/
def State.belowLowWater (s : State) : Bool := decide (s.freeCount < s.window.lowWater.toNat)

/-- The background reason to select a victim (R84). -/
def State.selectsInBackground (s : State) : Bool :=
  s.belowLowWater && s.tailClosed && decide (s.comp.noGain < max 1 s.closedCount)
    && decide (s.comp.refused ≠ some s.freeCount)

/-- The compactor asks for a step (R84). -/
def State.asksForStep (s : State) : Bool :=
  (decide (s.engine.store = .ready) || decide (s.engine.store = .readOnly)) && !s.comp.stopped &&
    match s.comp.stage with
    | .finishing => true
    | .copying => s.belowLowWater || s.stepsInJob
    | .erasing => false
    | .idle => s.selectsInBackground || s.stepsInJob

/-- A compaction step ends: a READ_ONLY cause reported in it takes effect, and the job it ran in, if any, makes its tests
(R86, R20, R95). -/
def State.stepEnds (s : State) (cannotGain : Bool) : State := s.applyReadOnly.ret (.stepEnd cannotGain)

/-- The end of a round by its finishing step or the retirement of its victim: the no-gain count, the stage, and the
exhaustion reported at a FREE count of 0 (R87, R98). -/
def State.endRound (s : State) : State :=
  let gained := decide (s.comp.roundStart.getD 0 < s.freeCount)
  let s := { s with comp := { s.comp with
      noGain := if gained then 0 else min 62 (s.comp.noGain + 1),
      stage := .idle, victim := none, roundStart := none, eraseOutcome := none } }
  if s.freeCount = 0 then s.reportReadOnly else s

/-- The round ends without a finishing step having changed anything (R98, as after ABANDONED in R97). -/
def State.abortRound (s : State) : State :=
  { s with comp := { s.comp with stage := .idle, victim := none, roundStart := none, eraseOutcome := none } }

/-- A CLOSED record becomes VICTIM and loses its last used data line (R9). -/
def SectorRec.selected : SectorRec → SectorRec
  | .closed r c f _ cond => .victim r c f cond
  | r => r

/-- A VICTIM record becomes ERASING (R9). -/
def SectorRec.startErasing : SectorRec → SectorRec
  | .victim r c f _ => .erasing r c f
  | r => r

/-- Whether a victim is retired instead of erased: condemned or worn (R95). -/
def SectorRec.retiredInstead : SectorRec → Bool
  | .victim _ c _ cond => cond || decide (Config.wornCount ≤ c)
  | _ => false

/-- A select step of a CLOSED tail is refused for want of space (R88, R89): its live lines need a new head and no sector is FREE.
DESIGN CHOICE (log 40): with no head, no FREE sector and no LIVE entry in the tail, R88's placement query asks for a new head
and R89 selects the victim at a FREE count of 0; the model follows R89. -/
def State.selectLacksSpace (s : State) (sector : Nat) : Bool :=
  let lines := liveLinesIn s.engine.dir.entries sector
  decide (0 < lines) && s.needsNewHead lines && decide (s.freeCount = 0)

/-- The select step: the CLOSED tail becomes the victim, or the step is refused because the tail is not CLOSED, or for want
of space, where the refused marker is set and the exhaustion reported (R88, R89). -/
def State.selectVictim (s : State) : State :=
  match s.tail with
  | none => s.stepEnds true
  | some sec =>
    if !(s.record sec).isClosed then s.stepEnds true
    else if s.selectLacksSpace sec then
      State.stepEnds ({ s with comp := { s.comp with refused := some s.freeCount } }).reportReadOnly false
    else
      let s := s.mapRecord sec SectorRec.selected
      State.stepEnds { s with comp := { s.comp with
        stage := .copying, victim := some sec, roundStart := some s.freeCount, refused := none } } false

/-- The erase step: a condemned or worn victim is retired, another is erased in the background (R95, R96). -/
def State.eraseVictim (s : State) (victim : Nat) : State :=
  if (s.record victim).retiredInstead then (s.push .finishRound).retireBegin victim
  else
    let s := s.mapRecord victim SectorRec.startErasing
    let s := { s with comp := { s.comp with stage := .erasing } }
    (s.issueErase victim true).stepEnds false

/-- The copy step: the smallest-key entry still located in the victim is removed when DEAD, or its frame read when LIVE;
with no entry left the step is the erase step (R90). -/
def State.copyOne (s : State) : State :=
  match s.comp.victim with
  | none => s.stepEnds false
  | some victim =>
    match locatedEntry s.engine.dir.entries victim with
    | none => s.eraseVictim victim
    | some e =>
      if e.isLive then (s.push (.copyRead e)).readFrameBegin e
      else (s.withDir (fun d => d.remove e.key)).stepEnds false

/-- The finishing step: after PASS the victim is formatted with one more erase, after FAIL it is retired (R98). -/
def State.finishVictim (s : State) : State :=
  match s.comp.victim with
  | none => s.abortRound.stepEnds false
  | some victim =>
    if s.comp.eraseOutcome = some true then
      (s.push .finishRound).formatSector victim ((s.record victim).eraseCount.getD 0 + 1)
    else (s.push .finishRound).retireBegin victim

/-- The step the compactor asked for is granted (R84, R85). In the ERASING stage none is asked for. -/
def State.grantStep (s : State) : State :=
  match s.comp.stage with
  | .idle => s.selectVictim
  | .copying => s.copyOne
  | .erasing => s
  | .finishing => s.finishVictim

/-- The victim's formatting or retirement has ended (R95, R98). -/
def State.finishRoundReply (s : State) : Reply → State
  | .formatted true => s.endRound.stepEnds false
  | .formatted false => s.abortRound.stepEnds false
  | .retired _ => s.endRound.stepEnds false
  | _ => s

/-- A new frame's append has completed: S rises by one, and reaching the limit is reported (R19, R20). -/
def State.bumpSeq (s : State) : State :=
  let s := { s with engine := { s.engine with seq := s.engine.seq + 1 } }
  if Config.sequenceLimit ≤ s.engine.seq.toNat then s.reportReadOnly else s

/-- The copy step goes on with the frame read: a copy of a matching frame, or a tombstone for a media loss (R91, R92). -/
def State.copyReadReply (s : State) (e : Entry) : Reply → State
  | .frame (some v) =>
    (s.push (.copyAppend e)).appendBegin
      { header := .put e.key e.version none (e.live.getD 0), value := v, host := false, programmed := false }
  | .frame none =>
    (s.push (.lossAppend e s.engine.seq)).appendBegin
      { header := .delete e.key s.engine.seq none, value := [], host := false, programmed := false }
  | _ => s

/-- A copy step's append has ended otherwise than PLACED: OUT_OF_SECTORS stops the compactor (R93). -/
def State.copyFailed (s : State) (o : AppendOutcome) : State :=
  if o = .outOfSectors then State.stepEnds { s with comp := { s.comp with stopped := true } } false
  else s.stepEnds false

/-- The copy's append has ended: PLACED relocates the entry (R91, R93). -/
def State.copyAppendReply (s : State) (e : Entry) : Reply → State
  | .appended (.placed sec line _) =>
    (s.withDir (fun d => d.relocate e.key e.version sec line)).stepEnds false
  | .appended o => s.copyFailed o
  | _ => s

/-- The media loss's tombstone has ended: PLACED converts the entry and raises MEDIA_LOSS (R92, R93). -/
def State.lossAppendReply (s : State) (e : Entry) (q : Seq) : Reply → State
  | .appended (.placed sec line _) =>
    ((s.bumpSeq.withDir (fun d => d.convertOnLoss e.key e.version q sec line)).raiseMediaLoss e.key).stepEnds false
  | .appended o => s.copyFailed o
  | _ => s

end Sys2Proof.Machine
end

