-- ==== Sys2Proof/Machine/Operands.lean ====
section
/-! DEFINITION. Requests as operands: numeric codes (R173), flags, the state test (R45), the form check (R46), the zone
tests (R48, R49), and the little-endian bytes of the INFO block (R175). -/

namespace Sys2Proof.Machine

open Sys2Proof

/-! ### Numeric codes (R173) -/

/-- Kind codes. -/
def kPut : Byte := 1
/-- GET. -/
def kGet : Byte := 2
/-- DELETE. -/
def kDelete : Byte := 3
/-- NEXT. -/
def kNext : Byte := 4
/-- BEGIN. -/
def kBegin : Byte := 5
/-- COMMIT. -/
def kCommit : Byte := 6
/-- ABANDON. -/
def kAbandon : Byte := 7
/-- RECLAIM. -/
def kReclaim : Byte := 8
/-- INFO. -/
def kInfo : Byte := 9
/-- UNLOCK. -/
def kUnlock : Byte := 10
/-- LOCK. -/
def kLock : Byte := 11
/-- SET_CODE. -/
def kSetCode : Byte := 12
/-- SET_POLICY. -/
def kSetPolicy : Byte := 13
/-- FORMAT. -/
def kFormat : Byte := 14

/-- Status codes. -/
def Status.code : Status → Byte
  | .ok => 1 | .notFound => 2 | .exists_ => 3 | .versionMismatch => 4 | .conflict => 5 | .full => 6 | .noRoom => 7
  | .denied => 8 | .lockedOut => 9 | .badRequest => 10 | .noTxn => 11 | .txnOpen => 12 | .txnFull => 13
  | .expired => 14 | .cancelled => 15 | .readOnly => 16 | .notReady => 17 | .mediaFault => 18 | .halted => 19

/-- Store state codes. -/
def StoreState.code : StoreState → Byte
  | .mounting => 0 | .ready => 1 | .readOnly => 2 | .unformatted => 3 | .formatting => 4 | .halted => 5

/-- Submission result codes. -/
def SubmitResult.code : SubmitResult → Byte
  | .none => 0 | .accepted => 1 | .queueFull => 2 | .length => 3 | .overflow => 4

/-- Compaction stage codes. -/
def Stage.code : Stage → Byte
  | .idle => 0 | .copying => 1 | .erasing => 2 | .finishing => 3

/-- The policy a SET_POLICY key field names, if any. -/
def policyOfKey (k : Key) : Option Policy :=
  if k = 0 then some .policyOpen else if k = 1 then some .guarded else if k = 2 then some .readGuarded else none

/-! ### Flags (R158, R173) -/

/-- The request carries IN_TXN. -/
def Request.inTxn (r : Request) : Bool := r.flags.getLsbD 0
/-- The request carries CHAIN. -/
def Request.chain (r : Request) : Bool := r.flags.getLsbD 1
/-- The request carries IF_ABSENT. -/
def Request.ifAbsent (r : Request) : Bool := r.flags.getLsbD 2
/-- The request carries IF_VERSION. -/
def Request.ifVersion (r : Request) : Bool := r.flags.getLsbD 3

/-- The condition a request carries (R51). -/
def Request.condition (r : Request) : Condition :=
  if r.ifAbsent then .ifAbsent else if r.ifVersion then .ifVersion r.version else .always

/-- The length of the value a request's payload carries. -/
def Request.valueLength (r : Request) : Nat := r.payload.length

/-- The kind code names one of the 14 kinds. -/
def Request.namesKind (r : Request) : Bool := decide (1 ≤ r.kind) && decide (r.kind ≤ 14)

/-- A PUT, GET or DELETE. -/
def Request.isRecordKind (r : Request) : Bool := r.kind == kPut || r.kind == kGet || r.kind == kDelete

/-- A transaction request: BEGIN, COMMIT, ABANDON, or a PUT, GET or DELETE carrying IN_TXN (04, R72). -/
def Request.isTxnRequest (r : Request) : Bool :=
  r.kind == kBegin || r.kind == kCommit || r.kind == kAbandon || (r.isRecordKind && r.inTxn)

/-! ### The state test (R45) -/

/-- The status with which the state test completes a request at once, or none when it passes. -/
def stateTest (st : StoreState) (complete : Bool) (r : Request) : Option Status :=
  match st with
  | .ready => none
  | .readOnly =>
    if r.kind == kGet || r.kind == kNext || r.kind == kInfo || r.kind == kUnlock || r.kind == kLock || r.kind == kFormat
    then none else some .readOnly
  | .unformatted =>
    if r.kind == kFormat || r.kind == kInfo || r.kind == kUnlock || r.kind == kLock then none else some .notReady
  | .halted =>
    if complete && (r.kind == kGet || r.kind == kNext || r.kind == kInfo) && !r.inTxn then none else some .halted
  | .mounting => none
  | .formatting => none

/-! ### The form check (R46) -/

/-- The flags a kind takes. -/
def flagsTaken (kind : Byte) : Byte :=
  if kind = kPut then 0x0F else if kind = kGet then 0x03 else if kind = kDelete then 0x0B else 0x02

/-- The value length a kind requires. -/
def lengthAllowed (kind : Byte) (n : Nat) : Bool :=
  if kind = kPut then decide (n ≤ 256) else if kind = kUnlock ∨ kind = kSetCode then n == 8 else n == 0

/-- The parameter lies in the range the kind's chapter gives: a zone (R148) or a RECLAIM target (R99). -/
def paramAllowed (kind param : Byte) : Bool :=
  if kind = kReclaim then decide (1 ≤ param) && decide (param ≤ 62)
  else if kind = kUnlock ∨ kind = kLock ∨ kind = kSetCode ∨ kind = kSetPolicy then decide (param ≤ 3)
  else true

/-- The form check passes. -/
def Request.formOk (r : Request) : Bool :=
  r.namesKind && (r.flags &&& ~~~(flagsTaken r.kind)) == 0 && !(r.ifAbsent && r.ifVersion)
    && lengthAllowed r.kind r.length.toNat && paramAllowed r.kind r.param

/-! ### Zones (R48, R49) -/

/-- The zone a parameter names; parameters above 3 fail the form check first (R148). -/
def paramZone (p : Byte) : Fin 4 := ⟨p.toNat % 4, by omega⟩

/-- A zone's entry in the working contents (R48). -/
def State.zoneEntry (s : State) (z : Fin 4) : ZoneEntry := s.contents.zones[z]

/-- A zone's runtime flags. -/
def State.zoneFlags (s : State) (z : Fin 4) : ZoneFlags := s.zones[z]

/-- The state with a zone's runtime flags replaced. -/
def State.setZoneFlags (s : State) (z : Fin 4) (f : ZoneFlags) : State := { s with zones := s.zones.set z f }

/-- A test that an unlocked, not locked out zone passes: LOCKED_OUT or DENIED otherwise (R48, R49). -/
def unlockTest (f : ZoneFlags) : Option Status :=
  if f.lockout then some .lockedOut else if f.unlocked then none else some .denied

/-- The write access test on a zone (R48). -/
def State.writeAccess (s : State) (z : Fin 4) : Option Status :=
  if (s.zoneEntry z).policy = .policyOpen then none else unlockTest (s.zoneFlags z)

/-- The read access test on a zone (R49). -/
def State.readAccess (s : State) (z : Fin 4) : Option Status :=
  if (s.zoneEntry z).policy = .readGuarded then unlockTest (s.zoneFlags z) else none

/-! ### Bytes (R175) -/

/-- The n bytes of a number, least significant first. -/
def leBytes : Nat → Nat → List Byte
  | 0, _ => []
  | n + 1, x => BitVec.ofNat 8 x :: leBytes n (x / 256)

/-- The lowest erase count present in the sector table, 0 if none (R61). -/
def State.lowestErase (s : State) : Nat :=
  match s.log with
  | some t => t.eraseCounts.min?.getD 0
  | none => 0

/-- The highest erase count present in the sector table, 0 if none (R61). -/
def State.highestErase (s : State) : Nat :=
  match s.log with
  | some t => t.highestErase.getD 0
  | none => 0

/-- The open transaction's number, 0 if none is open (R61). -/
def State.openNumber (s : State) : TxnNo :=
  match s.engine.txn.openTxn with
  | some t => t.number
  | none => 0

/-- The 32-byte INFO block (R61, R175). -/
def State.infoBlock (s : State) : List Byte :=
  [s.engine.store.code, BitVec.ofNat 8 s.usable, BitVec.ofNat 8 s.freeCount,
   BitVec.ofNat 8 ((s.headPos.map Prod.fst).getD 0), BitVec.ofNat 8 (s.tail.getD 0), s.comp.stage.code]
    ++ leBytes 2 s.engine.dir.liveCount ++ leBytes 2 s.engine.dir.deadCount
    ++ leBytes 2 s.engine.dir.accounted ++ leBytes 2 s.limit ++ leBytes 4 s.engine.seq.toNat
    ++ leBytes 4 s.formatId.toNat ++ leBytes 4 s.lowestErase ++ leBytes 4 s.highestErase
    ++ leBytes 2 s.openNumber.toNat

end Sys2Proof.Machine
end

