-- ==== Sys2Proof/Machine/Engine.lean ====
section
/-! DEFINITION. The record engine: posting a completion (R47, R167), taking the front request (R163 to R165), the idle
timer (R72, R73), the write stall (R62, R63) and the jobs of PUT, DELETE, GET and COMMIT after their checks. -/

namespace Sys2Proof.Machine

open Sys2Proof

/-! ### The idle timer (R72, R73) -/

/-- The idle timer restarts with the limit TXN_LIMIT holds now, while a transaction is open (R72). -/
def State.restartTimer (s : State) : State :=
  if s.engine.txn.openTxn.isSome then
    let limit := s.window.txnLimit.toNat
    { s with engine := { s.engine with txn := { s.engine.txn with
        timer := if limit = 0 then .notRunning else .running limit 0 } } }
  else s

/-- The idle timer stops (R72). -/
def State.stopTimer (s : State) : State :=
  { s with engine := { s.engine with txn := { s.engine.txn with timer := .stopped } } }

/-- The idle timer expires: the transaction is dropped, the expired mark and EXPIRED_TXN take its number and TXN_EXPIRED is
raised (R73). A timer that is not running does not expire. -/
def State.timerExpires (s : State) : State :=
  match s.engine.txn.timer, s.engine.txn.openTxn with
  | .running _ _, some t =>
    let s := { s with engine := { s.engine with txn := { openTxn := none, timer := .stopped, expired := some t.number } } }
    { s with window := { s.window with events := s.window.events ||| evTxnExpired, expiredTxn := t.number } }
  | _, _ => s

/-! ### Posting (R47, R161, R162, R164, R167) -/

/-- The completion joins the completion queue and the executing request leaves the request queue; QUEUE_SPACE on a fall from
4, chain-broken on a status other than OK (R162, R164, R167). -/
def State.postRecord (s : State) (c : Completion) : State :=
  let q := s.queues
  let s := if q.requests.length = 4 then s.raise evQueueSpace else s
  { s with queues :=
    { requests := q.requests.tail, executing := false, chainBroken := q.chainBroken || decide (c.status ≠ .ok),
      completions := q.completions ++ [c], readPtr := if q.completions.isEmpty then 0 else q.readPtr } }

/-- A request's job ends: its completion is posted, a transaction request that was not cancelled restarts the idle timer
(R72), and a READ_ONLY cause reported in the job takes effect (R20, R54). -/
def State.post (s : State) (r : Request) (c : Completion) : State :=
  let s := s.clearControl.postRecord c
  let s := if r.isTxnRequest && decide (c.status ≠ .cancelled) then s.restartTimer else s
  s.applyReadOnly

/-- A completion with the request's tag, kind and key and nothing else (R47). -/
def Request.completion (r : Request) (st : Status) : Completion :=
  { tag := r.tag, kind := r.kind, status := st, key := r.key, version := 0, length := 0, aux := 0, payload := [] }

/-- The request completes with a status and no further contents. -/
def State.answer (s : State) (r : Request) (st : Status) : State := s.post r (r.completion st)

/-- The request completes with a status and an aux value. -/
def State.answerAux (s : State) (r : Request) (st : Status) (aux : BitVec 16) : State :=
  s.post r { r.completion st with aux := aux }

/-- The request completes with a status, a version and a value length. -/
def State.answerRecord (s : State) (r : Request) (st : Status) (version : Seq) (n : Nat) : State :=
  s.post r { r.completion st with version := version, length := n }

/-! ### Taking the front request (R163 to R165) -/

/-- The front request can be taken (R163). -/
def State.canTake (s : State) : Bool :=
  s.busActive && !s.queues.requests.isEmpty && !s.queues.executing
    && decide (s.engine.store ≠ .mounting) && decide (s.engine.store ≠ .formatting)
    && decide (s.queues.completions.length < 8) && s.ctl.stack.isEmpty

/-- The request is turned away by the state test or the form check: its completion carries nothing further, but for aux, the FREE
count, in a RECLAIM's (R45, R46, R100). -/
def State.turnAway (s : State) (r : Request) (st : Status) : State :=
  if r.kind = kReclaim then s.answerAux r st (BitVec.ofNat 16 s.freeCount) else s.answer r st

/-- A taken request's checks before its kind's own: the timer stops for a transaction request (R72), then the state test
(R45) and the form check (R46). -/
def State.checked (s : State) (r : Request) (body : Request → State → State) : State :=
  let s := if r.isTxnRequest then s.stopTimer else s
  match stateTest s.engine.store s.engine.dir.complete r with
  | some st => s.turnAway r st
  | none => if r.formOk then body r s else s.turnAway r .badRequest

/-- A request is taken: marked executing, then the chain test (R161, R164, R165). -/
def State.takeRequest (s : State) (r : Request) (body : Request → State → State) : State :=
  let s := { s with queues := { s.queues with executing := true } }
  if r.chain then
    if s.queues.chainBroken then s.answer r .cancelled else s.checked r body
  else State.checked { s with queues := { s.queues with chainBroken := false } } r body

/-- The front request is taken when it can be and is of the row's kind; otherwise the event does not happen (log 8). -/
def State.takeFront (s : State) (isRow : Request → Bool) (body : Request → State → State) : State :=
  match s.queues.requests with
  | [] => s
  | r :: _ => if s.canTake && isRow r then s.takeRequest r body else s

/-! ### The granting of a step on its own (R85) -/

/-- A compaction step is granted as a job of its own: no job executes, no request can be taken, and the compactor asks. -/
def State.canGrant (s : State) : Bool := s.busActive && s.ctl.stack.isEmpty && !s.canTake && s.asksForStep

/-! ### The write stall (R62, R63) -/

/-- The lines a stalled write needs (R62, R76). -/
def StalledWrite.lines : StalledWrite → Nat
  | .put r => putLines r.valueLength
  | .delete _ => 1
  | .commit c => commitLines c.staged

/-- The stalled write's request. -/
def StalledWrite.request : StalledWrite → Request
  | .put r => r
  | .delete r => r
  | .commit c => c.request

/-- A PUT's append is asked for (R53). -/
def State.putAppend (s : State) (r : Request) : State :=
  (s.push (.put r)).appendBegin
    { header := .put r.key s.engine.seq none r.valueLength, value := r.payload, host := true, programmed := false }

/-- A DELETE's append is asked for (R56). -/
def State.deleteAppend (s : State) (r : Request) : State :=
  (s.push (.delete r)).appendBegin
    { header := .delete r.key s.engine.seq none, value := [], host := true, programmed := false }

/-- The next frame of a commit: member frames in staged order, then the COMMIT frame (R77). -/
def commitHeader (c : CommitJob) (q : Seq) : FrameHeader × List Byte :=
  match c.staged[c.placed.length]? with
  | some e =>
    match e.value with
    | some v => (.put e.key q (some c.number) v.length, v)
    | none => (.delete e.key q (some c.number), [])
  | none => (.commit q c.number c.staged.length, [])

/-- A commit's next append is asked for; after the first, lines have been programmed (R77). -/
def State.commitAppend (s : State) (c : CommitJob) : State :=
  let f := commitHeader c s.engine.seq
  (s.push (.commit c)).appendBegin
    { header := f.1, value := f.2, host := true, programmed := !c.placed.isEmpty }

/-- A write proceeds to its append (R63, R77). -/
def State.writeProceeds (s : State) : StalledWrite → State
  | .put r => s.putAppend r
  | .delete r => s.deleteAppend r
  | .commit c => s.commitAppend c

/-- The no-gain limit recorded for a stall or a RECLAIM (R87). -/
def State.gainLimit (s : State) : Nat := max 1 s.closedCount

/-- The compactor reports that it cannot gain (R87, R88). -/
def State.cannotGain (s : State) (reported : Bool) : Bool :=
  reported ||
    match s.comp.noGainLimit with
    | some l => decide (l ≤ s.comp.noGain)
    | none => false

/-- The job goes on with the next step if the compactor asks for one, and waits otherwise (R86). -/
def State.nextStepInJob (s : State) (t : Task) : State :=
  if s.asksForStep then (s.push t).grantStep else s.push t

/-- A write enters the stall: stall mode, the no-gain count 0 and its limit, then steps within the job (R62, R87). -/
def State.enterStall (s : State) (w : StalledWrite) : State :=
  State.nextStepInJob { s with comp := { s.comp with
    stallMode := true, noGain := 0, noGainLimit := some s.gainLimit } } (.stall w)

/-- The compactor leaves stall mode (R63). -/
def State.leaveStall (s : State) : State :=
  { s with comp := { s.comp with stallMode := false, noGainLimit := none } }

/-- The stall's tests, in their order (R63). -/
def State.stallTests (s : State) (w : StalledWrite) (reported : Bool) : State :=
  if s.engine.store = .halted then s.leaveStall.answer w.request .halted
  else if s.engine.store = .readOnly then s.leaveStall.answer w.request .readOnly
  else if !s.needsNewHead w.lines || decide (2 ≤ s.freeCount) then s.leaveStall.writeProceeds w
  else if s.cannotGain reported then s.leaveStall.answer w.request .full
  else s.nextStepInJob (.stall w)

/-- A step has ended within the stall, or an event reaches it while it waits (R63). -/
def State.stallReply (s : State) (w : StalledWrite) : Reply → State
  | .stepEnd reported => s.stallTests w reported
  | .wake => s.stallTests w false
  | _ => s

/-- An admitted write stalls when its lines need a new head and fewer than 2 sectors are FREE, and otherwise proceeds
(R62, R76). -/
def State.writeAdmitted (s : State) (w : StalledWrite) : State :=
  if s.needsNewHead w.lines && decide (s.freeCount < 2) then s.enterStall w else s.writeProceeds w

/-- A host job's append has ended PLACED: S rises and the no-gain count is 0 (R19, R87). -/
def State.hostPlaced (s : State) : State :=
  let s := s.bumpSeq
  { s with comp := { s.comp with noGain := 0 } }

/-- A host write's append has ended otherwise than PLACED (R54, R79). -/
def State.writeFailed (s : State) (w : StalledWrite) : AppendOutcome → State
  | .waitForSpace => s.enterStall w
  | .outOfSectors => s.answer w.request .mediaFault
  | .refused => s.answer w.request .halted
  | .placed _ _ _ => s

/-- A PUT's append has ended (R53, R54). -/
def State.putReply (s : State) (r : Request) : Reply → State
  | .appended (.placed sec line _) =>
    (s.hostPlaced.withDir (fun d => d.installLive r.key s.engine.seq sec line r.valueLength)).answerRecord
      r .ok s.engine.seq r.valueLength
  | .appended o => s.writeFailed (.put r) o
  | _ => s

/-- A DELETE's append has ended (R56). -/
def State.deleteReply (s : State) (r : Request) : Reply → State
  | .appended (.placed sec line _) =>
    (s.hostPlaced.withDir (fun d => d.markDead r.key s.engine.seq sec line)).answerRecord r .ok s.engine.seq 0
  | .appended o => s.writeFailed (.delete r) o
  | _ => s

/-- One change of a commit's batch (R39). -/
def Directory.applyStaged (d : Directory) (e : Staged) (at_ : Seq × Nat × Nat) : Directory :=
  match e.value with
  | some v => d.installLive e.key at_.1 at_.2.1 at_.2.2 v.length
  | none => d.markDead e.key at_.1 at_.2.1 at_.2.2

/-- A commit's batch, in staged order (R39, R78). -/
def Directory.applyBatch (d : Directory) : List Staged → List (Seq × Nat × Nat) → Directory
  | e :: es, a :: as => (d.applyStaged e a).applyBatch es as
  | _, _ => d

/-- One of a commit's appends has ended: the next frame, the batch after the COMMIT frame, or the abort (R77 to R79). -/
def State.commitReply (s : State) (c : CommitJob) : Reply → State
  | .appended (.placed sec line _) =>
    let q := s.engine.seq
    let s := s.hostPlaced
    if c.placed.length < c.staged.length then
      s.commitAppend { c with placed := c.placed ++ [(q, sec, line)] }
    else
      (s.withDir (fun d => d.applyBatch c.staged c.placed)).post c.request
        { c.request.completion .ok with version := q, aux := BitVec.ofNat 16 c.staged.length }
  | .appended o => s.writeFailed (.commit c) o
  | _ => s

/-- A GET's frame has been read: OK with its value, or MEDIA_FAULT with MEDIA_LOSS raised (R58, R59). -/
def State.getReply (s : State) (r : Request) (e : Entry) : Reply → State
  | .frame (some v) =>
    s.post r { r.completion .ok with version := e.version, length := e.live.getD 0, payload := v }
  | .frame none => (s.raiseMediaLoss r.key).answerRecord r .mediaFault e.version 0
  | _ => s

/-! ### RECLAIM (R99, R100) -/

/-- A RECLAIM ends: its target and the no-gain limit are discarded, aux is the FREE count (R100). -/
def State.reclaimEnds (s : State) (r : Request) (st : Status) : State :=
  State.answerAux { s with comp := { s.comp with reclaimTarget := none, noGainLimit := none } } r st
    (BitVec.ofNat 16 s.freeCount)

/-- The tests of a RECLAIM, in their order (R100). -/
def State.reclaimTests (s : State) (r : Request) (reported : Bool) : State :=
  if s.engine.store = .halted then s.reclaimEnds r .halted
  else if s.engine.store = .readOnly then s.reclaimEnds r .readOnly
  else if s.comp.reclaimTarget.getD 0 ≤ s.freeCount then s.reclaimEnds r .ok
  else if s.cannotGain reported then s.reclaimEnds r .full
  else s.nextStepInJob (.reclaim r)

/-- A step has ended within a RECLAIM, or an event reaches it while it waits (R99). -/
def State.reclaimReply (s : State) (r : Request) : Reply → State
  | .stepEnd reported => s.reclaimTests r reported
  | .wake => s.reclaimTests r false
  | _ => s

end Sys2Proof.Machine
end

