-- ==== Sys2Proof/Machine/Format.lean ====
section
/-! DEFINITION. FORMAT after it is taken (08 section 8.6), and the jobs of SET_CODE and SET_POLICY (R151, R152). -/

namespace Sys2Proof.Machine

open Sys2Proof

/-- The pool sectors, ascending. -/
def poolSectors : List Nat := (List.range 62).map (· + 2)

/-- Whether a sector is worn by a known erase count (R136, R155). -/
def SectorRec.worn (r : SectorRec) : Bool :=
  match r.eraseCount with
  | some c => decide (Config.wornCount ≤ c)
  | none => false

/-- The erase count a BLANK sector is formatted with after its erase: its count plus one, else the highest count present plus
one, else 1 (R136, R155). -/
def State.formatCount (s : State) (sector : Nat) : Nat :=
  match (s.record sector).eraseCount with
  | some c => c + 1
  | none =>
    match s.log with
    | some t =>
      match t.highestErase with
      | some c => c + 1
      | none => 1
    | none => 1

/-- The first BLANK pool sector, in ascending order (R136, R155). -/
def State.firstBlank (s : State) : Option Nat := poolSectors.find? (fun x => (s.record x).isBlank)

/-- The low 16 bits of the working format id (R147). -/
def State.formatAux (s : State) : BitVec 16 := s.formatId.setWidth 16

/-- The format id that FORMAT takes (R147). -/
def nextFormatId (old : AnchorRecord) : Seq :=
  if old.generation = 0 then 1 else if old.formatId = BitVec.allOnes 32 then 1 else old.formatId + 1

/-- The compactor as FORMAT leaves it when it is taken (R102). -/
def Compactor.atFormat (c : Compactor) : Compactor :=
  { c with stage := .idle, victim := none, roundStart := none, eraseOutcome := none, noGain := 0, stopped := false,
           refused := none }

/-- FORMAT begins: FORMATTING, the open transaction dropped, the compactor's round ended, and the anchor write asked for
(R153, R154). -/
def State.formatBegin (s : State) (r : Request) : State :=
  let s := (s.setStore .formatting).dropTxn
  let s := { s with comp := s.comp.atFormat, engine := { s.engine with anchorFailed := false, readOnlyDue := false } }
  let id := nextFormatId s.contents
  (s.push (.formatAnchor r)).anchorWrite (fun a => { a with formatId := id })

/-- FORMAT stops at a REFUSED or ABANDONED operation and completes HALTED (R157). -/
def State.formatStops (s : State) (r : Request) : State := s.answerAux r .halted s.formatAux

/-- FORMAT ends: READ_ONLY or READY, then the completion (R156). A store that became HALTED while the last line was being
programmed stays HALTED (R44; log 41). -/
def State.formatEnds (s : State) (r : Request) : State :=
  let failed := s.engine.anchorFailed
  let readOnly := decide (s.usable < Config.minimumPool) || decide (s.freeCount = 0) || failed
  let s := s.leaveStore .formatting (if readOnly then .readOnly else .ready)
  State.answerAux { s with engine := { s.engine with anchorFailed := false } } r
    (if failed then .mediaFault else .ok) s.formatAux

/-- FORMAT's fresh sector table: RETIRED by the retired set, else BLANK with the erase count known (R154). -/
def freshTables (retired : List Nat) (old : Nat → Option Nat) : LogTables :=
  { sectors := poolSectors.map (fun x => if retired.contains x then .retired else .blank (old x)),
    free := [], ring := [], head := none, nextRing := 1 }

/-- Every pool sector has been dealt with: S, the counters and the opening of the first head (R156). -/
def State.formatOpening (s : State) (r : Request) : State :=
  let s := { s with engine := { s.engine with seq := 1, txnCounter := 1 } }
  ((s.withLog (fun t => { t with nextRing := 1 })).push (.formatOpen r)).openHead

/-- FORMAT deals with the next BLANK sector: retired when worn, else erased (R155). -/
def State.formatNext (s : State) (r : Request) : State :=
  match s.firstBlank with
  | none => s.formatOpening r
  | some x =>
    if (s.record x).worn then (s.push (.formatSector r)).retireBegin x
    else (s.push (.formatErase r x)).issueErase x false

/-- FORMAT reads line 0 of the next sector without a known erase count, then goes on to the erases (R154). -/
def State.formatReadNext (s : State) (r : Request) : List Nat → State
  | [] => s.formatNext r
  | x :: todo => (s.push (.formatRead r x todo)).issueRead x 0

/-- FORMAT builds its tables: the directory emptied and a fresh sector table; then it reads line 0 of each sector whose erase count
the discarded record did not hold (R154). DESIGN CHOICE (log 44), unsafe: R154 gives these reads no order, and the model makes them
in ascending sector number, as R155 orders the erases. -/
def State.formatTables (s : State) (r : Request) : State :=
  let retired := s.contents.retired
  let old := fun x => (s.record x).eraseCount
  let t := freshTables retired old
  let s := { (s.withDir Directory.emptied) with log := some t }
  s.formatReadNext r (poolSectors.filter (fun x => !retired.contains x && (old x).isNone))

/-- FORMAT's anchor write has ended (R154, R157). -/
def State.formatAnchorReply (s : State) (r : Request) : Reply → State
  | .anchor .refused => s.formatStops r
  | .anchor _ => s.formatTables r
  | _ => s

/-- The erase count of a line 0 that reads GOOD with line kind FORMAT, whatever its format id (R154). -/
def formatLineCount : Line → Option Nat
  | .good (.format _ c) => some c
  | _ => none

/-- FORMAT has read a sector's line 0 (R154). -/
def State.formatReadReply (s : State) (r : Request) (sector : Nat) (todo : List Nat) : Reply → State
  | .line l => (s.mapRecord sector (fun _ => .blank (formatLineCount l))).formatReadNext r todo
  | _ => s

/-- FORMAT's erase of a sector has ended (R155, R157). -/
def State.formatEraseReply (s : State) (r : Request) (sector : Nat) : Reply → State
  | .erase .pass => (s.push (.formatSector r)).formatSector sector (s.formatCount sector)
  | .erase .fail => (s.push (.formatSector r)).retireBegin sector
  | .erase _ => s.formatStops r
  | _ => s

/-- FORMAT's formatting or retirement of a sector has ended (R155, R157). -/
def State.formatSectorReply (s : State) (r : Request) : Reply → State
  | .formatted true => s.formatNext r
  | .formatted false => s.formatStops r
  | .retired .refused => s.formatStops r
  | .retired _ => s.formatNext r
  | _ => s

/-- FORMAT's opening of the head has ended (R156, R157). -/
def State.formatOpenReply (s : State) (r : Request) : Reply → State
  | .opened .refused => s.formatStops r
  | .opened _ => s.formatEnds r
  | _ => s

/-- A zone request's anchor write has ended (R151, R152). -/
def State.setZoneReply (s : State) (r : Request) : Reply → State
  | .anchor .written => s.answer r .ok
  | .anchor .failed => s.answer r .mediaFault
  | .anchor .refused => s.answer r .halted
  | _ => s

end Sys2Proof.Machine
end

