-- ==== Sys2Proof/Machine/Requests.lean ====
section
/-! DEFINITION. The request kinds' own checks and effects, after the state test and the form check: record requests (03),
transaction requests (04), RECLAIM (05), zone requests and FORMAT (08). -/

namespace Sys2Proof.Machine

open Sys2Proof

/-! ### Record requests (03) -/

/-- A failed condition's completion (R51). -/
def State.conditionFailed (s : State) (r : Request) (st : Status) : State :=
  let c := liveContents s.engine.dir.entries r.key
  s.answerRecord r st c.1 c.2

/-- PUT: zone, condition, admission, stall or append (R46, R48, R51, R52). -/
def putBody (r : Request) (s : State) : State :=
  match s.writeAccess (zoneOf r.key) with
  | some st => s.answer r st
  | none =>
    let es := s.engine.dir.entries
    match conditionFails es r.key r.condition with
    | some st => s.conditionFailed r st
    | none =>
      match s.engine.dir.admission s.limit (writeCharge es r.key (putLines r.valueLength)) (newEntryOf es r.key) with
      | some st => s.answer r st
      | none => s.writeAdmitted (.put r)

/-- DELETE: zone, the key LIVE, condition, admission, stall or append (R55). -/
def deleteBody (r : Request) (s : State) : State :=
  match s.writeAccess (zoneOf r.key) with
  | some st => s.answer r st
  | none =>
    let es := s.engine.dir.entries
    if (findLive es r.key).isNone then s.answer r .notFound
    else
      match conditionFails es r.key r.condition with
      | some st => s.conditionFailed r st
      | none =>
        match s.engine.dir.admission s.limit (writeCharge es r.key 1) 0 with
        | some st => s.answer r st
        | none => s.writeAdmitted (.delete r)

/-- A GET served from the committed state: NOT_FOUND, or the frame of the LIVE entry is read (R57, R58). -/
def committedGet (r : Request) (s : State) : State :=
  match findLive s.engine.dir.entries r.key with
  | none => s.answer r .notFound
  | some (e, _) => (s.push (.get r e)).readFrameBegin e

/-- GET: zone, then the committed state (R49, R57). -/
def getBody (r : Request) (s : State) : State :=
  match s.readAccess (zoneOf r.key) with
  | some st => s.answer r st
  | none => committedGet r s

/-- NEXT: the next LIVE key of a readable zone (R49, R60). -/
def nextBody (r : Request) (s : State) : State :=
  match nextEntry s.engine.dir.entries r.key (fun z => (s.readAccess z).isNone) with
  | some e => s.post r { r.completion .ok with key := e.key, version := e.version, length := e.live.getD 0 }
  | none => s.answer r .notFound

/-- INFO: the INFO block as the owning blocks hold it (R61, R166). -/
def infoBody (r : Request) (s : State) : State :=
  s.post r { r.completion .ok with length := 32, payload := s.infoBlock }

/-! ### Transaction requests (04) -/

/-- The transaction number after a number: 65535 is followed by 1 (R65). -/
def nextTxnNo (n : TxnNo) : TxnNo := if n = BitVec.allOnes 16 then 1 else n + 1

/-- The transaction context with a transaction in it or none. -/
def State.setTxn (s : State) (t : Option OpenTxn) : State :=
  { s with engine := { s.engine with txn := { s.engine.txn with openTxn := t } } }

/-- BEGIN (R65, R66). -/
def beginBody (r : Request) (s : State) : State :=
  match s.engine.txn.openTxn with
  | some t => s.answerAux r .txnOpen t.number
  | none =>
    let n := s.engine.txnCounter
    State.answerAux { s with engine := { s.engine with
      txnCounter := nextTxnNo n,
      txn := { s.engine.txn with openTxn := some { number := n, staged := [] }, expired := none } } } r .ok n

/-- A transaction request that finds no transaction: EXPIRED once after an expiry, else NO_TXN (R67). -/
def State.noTransaction (s : State) (r : Request) : State :=
  match s.engine.txn.expired with
  | some n => State.answerAux { s with engine := { s.engine with txn := { s.engine.txn with expired := none } } } r .expired n
  | none => s.answer r .noTxn

/-- The staged bytes (R68). -/
def stagedBytes (l : List Staged) : Nat := (l.map Staged.length).sum

/-- The staged list with an entry replaced in its place, or joined at the back (R68). -/
def stageEntry : List Staged → Staged → List Staged
  | [], e => [e]
  | x :: rest, e => if x.key = e.key then e :: rest else x :: stageEntry rest e

/-- The limits on the list as it would be: 8 entries and 1024 value bytes (R68). -/
def stagingFits (l : List Staged) : Bool := decide (l.length ≤ 8) && decide (stagedBytes l ≤ 1024)

/-- The staging of an entry that has passed its checks (R68 to R70). -/
def State.stage (s : State) (r : Request) (t : OpenTxn) (e : Staged) : State :=
  let l := stageEntry t.staged e
  if stagingFits l then
    (s.setTxn (some { t with staged := l })).post r
      { r.completion .ok with length := e.length, aux := BitVec.ofNat 16 l.length }
  else s.answerAux r .txnFull (BitVec.ofNat 16 t.staged.length)

/-- IN_TXN PUT (R69). -/
def inTxnPutBody (r : Request) (s : State) : State :=
  match s.engine.txn.openTxn with
  | none => s.noTransaction r
  | some t =>
    match s.writeAccess (zoneOf r.key) with
    | some st => s.answer r st
    | none =>
      match conditionFails s.engine.dir.entries r.key r.condition with
      | some st => s.conditionFailed r st
      | none => s.stage r t { key := r.key, value := some r.payload, cond := r.condition }

/-- IN_TXN DELETE (R70). -/
def inTxnDeleteBody (r : Request) (s : State) : State :=
  match s.engine.txn.openTxn with
  | none => s.noTransaction r
  | some t =>
    match s.writeAccess (zoneOf r.key) with
    | some st => s.answer r st
    | none =>
      if (findLive s.engine.dir.entries r.key).isNone then s.answer r .notFound
      else
        match conditionFails s.engine.dir.entries r.key r.condition with
        | some st => s.conditionFailed r st
        | none => s.stage r t { key := r.key, value := none, cond := r.condition }

/-- IN_TXN GET (R71). -/
def inTxnGetBody (r : Request) (s : State) : State :=
  match s.engine.txn.openTxn with
  | none => s.noTransaction r
  | some t =>
    match s.readAccess (zoneOf r.key) with
    | some st => s.answer r st
    | none =>
      match t.staged.find? (fun e => e.key == r.key) with
      | none => committedGet r s
      | some e =>
        match e.value with
        | some v => s.post r { r.completion .ok with length := v.length, payload := v }
        | none => s.answer r .notFound

/-- Whether a staged entry passes the commit's recheck (R75). -/
def State.recheckPasses (s : State) (e : Staged) : Bool :=
  (s.writeAccess (zoneOf e.key)).isNone && (conditionFails s.engine.dir.entries e.key e.cond).isNone
    && (e.value.isSome || (findLive s.engine.dir.entries e.key).isSome)

/-- COMMIT: the list is taken, rechecked, admitted, and its frames appended (R75 to R77). -/
def commitBody (r : Request) (s : State) : State :=
  match s.engine.txn.openTxn with
  | none => s.noTransaction r
  | some t =>
    let s := s.dropTxn
    if t.staged.isEmpty then s.answer r .ok
    else
      match t.staged.find? (fun e => !s.recheckPasses e) with
      | some e =>
        let c := liveContents s.engine.dir.entries e.key
        s.post r { r.completion .conflict with key := e.key, version := c.1, length := c.2 }
      | none =>
        let es := s.engine.dir.entries
        match s.engine.dir.admission s.limit (commitCharge es t.staged) (commitNewEntries es t.staged) with
        | some st => s.answer r st
        | none => s.writeAdmitted (.commit { request := r, number := t.number, staged := t.staged, placed := [] })

/-- ABANDON (R80). -/
def abandonBody (r : Request) (s : State) : State :=
  match s.engine.txn.openTxn with
  | none => s.noTransaction r
  | some t => s.dropTxn.answerAux r .ok t.number

/-! ### RECLAIM (05) -/

/-- RECLAIM: target, no-gain count and limit, then the tests before any step (R99). -/
def reclaimBody (r : Request) (s : State) : State :=
  State.reclaimTests { s with comp := { s.comp with
    reclaimTarget := some r.param.toNat, noGain := 0, noGainLimit := some s.gainLimit } } r false

/-! ### Zone requests and FORMAT (08) -/

/-- UNLOCK (R149). -/
def unlockBody (r : Request) (s : State) : State :=
  let z := paramZone r.param
  let f := s.zoneFlags z
  let e := s.zoneEntry z
  if e.policy = .policyOpen then s.answerAux r .ok (BitVec.ofNat 16 (3 - f.failed))
  else if f.lockout then s.answer r .lockedOut
  else if r.payload = e.code then
    (s.setZoneFlags z { f with unlocked := true, failed := 0 }).answerAux r .ok 3
  else if f.failed + 1 < 3 then
    (s.setZoneFlags z { f with unlocked := false, failed := f.failed + 1 }).answerAux r .denied
      (BitVec.ofNat 16 (3 - (f.failed + 1)))
  else
    ((s.setZoneFlags z { unlocked := false, failed := 3, lockout := true }).raise evZoneLockout).answer r .denied

/-- LOCK (R150). -/
def lockBody (r : Request) (s : State) : State :=
  let z := paramZone r.param
  (s.setZoneFlags z { s.zoneFlags z with unlocked := false }).answer r .ok

/-- The zone table with a zone's entry changed. -/
def AnchorRecord.mapZone (a : AnchorRecord) (z : Fin 4) (f : ZoneEntry → ZoneEntry) : AnchorRecord :=
  { a with zones := a.zones.set z (f a.zones[z]) }

/-- SET_CODE (R151). -/
def setCodeBody (r : Request) (s : State) : State :=
  let z := paramZone r.param
  match s.writeAccess z with
  | some st => s.answer r st
  | none =>
    if r.payload = (s.zoneEntry z).code then s.answer r .ok
    else (s.push (.setZone r)).anchorWrite (fun a => a.mapZone z (fun e => { e with code := r.payload }))

/-- SET_POLICY (R152). -/
def setPolicyBody (r : Request) (s : State) : State :=
  let z := paramZone r.param
  match policyOfKey r.key with
  | none => s.answer r .badRequest
  | some p =>
    match s.writeAccess z with
    | some st => s.answer r st
    | none =>
      if p = (s.zoneEntry z).policy then s.answer r .ok
      else
        let s := if p = .policyOpen then s.setZoneFlags z { s.zoneFlags z with failed := 0 } else s
        (s.push (.setZone r)).anchorWrite (fun a => a.mapZone z (fun e => { e with policy := p }))

/-- The zones that fail FORMAT's zone test: not OPEN and not unlocked (R153). -/
def State.formatTestFails (s : State) (z : Fin 4) : Bool :=
  decide ((s.zoneEntry z).policy ≠ .policyOpen) && !(s.zoneFlags z).unlocked

/-- FORMAT: the zone test on all four zones, then the procedure (R153). -/
def formatBody (r : Request) (s : State) : State :=
  let failing := ([0, 1, 2, 3] : List (Fin 4)).filter s.formatTestFails
  if failing.isEmpty then s.formatBegin r
  else if failing.any (fun z => (s.zoneFlags z).lockout) then s.answer r .lockedOut
  else s.answer r .denied

end Sys2Proof.Machine
end

