-- ==== Sys2Proof/Machine/Mount.lean ====
section
/-! DEFINITION. Start-up mount (07_start_up_mount): anchor, survey, ring, replay, head, tidy, opening and end. -/

namespace Sys2Proof.Machine

open Sys2Proof

/-! ### The anchor phase (R125, R144) -/

/-- Whether line `part` of a slot carries its part number and the generation given (R141). -/
def anchorPartOk (g : Seq) (part : Nat) : Line → Bool
  | .good (.anchor r p) => decide (p = part) && decide (r.generation = g)
  | _ => false

/-- Whether the lines, from part `part` on, all carry their part numbers and the generation given (R141). -/
def anchorPartsOk (g : Seq) : Nat → List Line → Bool
  | _, [] => true
  | part, l :: rest => anchorPartOk g part l && anchorPartsOk g (part + 1) rest

/-- The record of a slot's six lines, when it is valid (R141; log 21). -/
def slotRecord (ls : List Line) : Option AnchorRecord :=
  match ls with
  | .good (.anchor r _) :: _ => if ls.length = 6 ∧ anchorPartsOk r.generation 0 ls then some r else none
  | _ => none

/-- The authoritative record so far with a slot's record taken into account: a higher generation only, so that of equal
generations the lower sector and slot stands (R144). -/
def betterRecord (best : Option (AnchorRecord × Nat × Nat)) (r : Option AnchorRecord) (sector slot : Nat) :
    Option (AnchorRecord × Nat × Nat) :=
  match r, best with
  | none, b => b
  | some r, none => some (r, sector, slot)
  | some r, some b => if b.1.generation < r.generation then some (r, sector, slot) else some b

/-- The anchor scan after a line has been read (R144). -/
def AnchorScan.read (a : AnchorScan) (l : Line) : AnchorScan :=
  let slot := a.line / 6
  let ls := a.slotLines ++ [l]
  let a := if l = .blank then a
    else if a.sector = 0 then { a with used0 := some slot } else { a with used1 := some slot }
  let a := if a.line % 6 = 5 then
      { a with best := betterRecord a.best (slotRecord ls) a.sector slot, slotLines := [] }
    else { a with slotLines := ls }
  if a.line < 251 then { a with line := a.line + 1 } else { a with sector := a.sector + 1, line := 0 }

/-! ### Survey and classification (R126, R127) -/

/-- A good format line's format id and erase count (R126). -/
def goodFormat : Line → Option (Seq × Nat)
  | .good (.format f c) => some (f, c)
  | _ => none

/-- A good open line's ring sequence and store sequence: of the anchor's format id (R126). -/
def goodOpen (fid : Seq) : Line → Option (Seq × Seq)
  | .good (.opened f ring s) => if f = fid then some (ring, s) else none
  | _ => none

/-- A good close line's last used data line, frame count, highest sequence and fault count (R126; log 33). -/
def goodClose : Line → Option (Nat × Nat × Seq × Nat)
  | .good (.closed lu n q f) => if 2 ≤ lu ∧ lu ≤ 255 ∧ f ≤ 3 then some (lu, n, q, f) else none
  | _ => none

/-- A surveyed sector's class, the first row that applies (R127). -/
def classify (fid : Seq) (l0 l1 l2 : Line) : SurveyNote :=
  match goodFormat l0 with
  | none => .blank none
  | some (f, c) =>
    if f ≠ fid then .blank (some c)
    else
      match goodOpen fid l1 with
      | none => .free c (((goodClose l2).map (fun h => h.2.2.1)).getD 0)
      | some (ring, sq) =>
        match goodClose l2 with
        | some (lu, n, q, faults) => .closed ring sq c lu n q faults
        | none => .unclosed ring sq c (l2 == .blank)

/-- A pool sector's survey note; a sector without one counts as BLANK. -/
def noteOf (notes : List (Nat × SurveyNote)) (sector : Nat) : SurveyNote :=
  match notes.find? (fun n => n.1 == sector) with
  | some n => n.2
  | none => .blank none

/-! ### The ring phase (R128) -/

/-- The ring sequence and store sequence of a sector classed CLOSED or UNCLOSED. -/
def SurveyNote.opened : SurveyNote → Option (Seq × Seq)
  | .closed ring sq _ _ _ _ _ => some (ring, sq)
  | .unclosed ring sq _ _ => some (ring, sq)
  | _ => none

/-- A sector inserted in ring order: ascending ring sequence, equal ones by sector number (R128). -/
def insertRing (x : Seq × Nat) : List (Seq × Nat) → List (Seq × Nat)
  | [] => [x]
  | y :: rest => if x.1 < y.1 ∨ (x.1 = y.1 ∧ x.2 < y.2) then x :: y :: rest else y :: insertRing x rest

/-- The ring of a survey, tail first (R128). -/
def ringOf (notes : List (Nat × SurveyNote)) : List Nat :=
  let opened := notes.filterMap (fun n => n.2.opened.map (fun o => (o.1, n.1)))
  (opened.foldr insertRing []).map Prod.snd

/-! ### Replay (R129 to R132) -/

/-- The line at which a sector's scan ends at the latest: after the close line's last used data line, or 256 (R129). -/
def Replay.stop (p : Replay) : Nat :=
  match noteOf p.notes p.sector with
  | .closed _ _ _ lu _ _ _ => min 256 (lu + 1)
  | _ => 256

/-- A key has no entry, or one of a version that is q or lower (R130). -/
def Directory.admitsVersion (d : Directory) (k : Key) (q : Seq) : Bool :=
  match findEntry d.entries k with
  | some e => decide (e.version ≤ q)
  | none => true

/-- A valid non-COMMIT frame is applied when its key has no entry, or one of its version or lower (R130). -/
def Directory.replay (d : Directory) (m : Member) : Directory :=
  match m.header with
  | .put k q _ n => if d.admitsVersion k q then d.installLive k q m.sector m.line n else d
  | .delete k q _ => if d.admitsVersion k q then d.markDead k q m.sector m.line else d
  | .commit _ _ _ => d

/-- The transaction number of a member frame: a PUT or DELETE with the member mark set (R15). -/
def FrameHeader.memberOf : FrameHeader → Option TxnNo
  | .put _ _ m _ => m
  | .delete _ _ m => m
  | .commit _ _ _ => none

/-- Whether a sequence is one more than another, as plain numbers. -/
def isNext (a b : Seq) : Bool := decide (a.toNat + 1 = b.toNat)

/-- The pending-member run after a member frame: started, joined, its last member replaced, or started anew (R131). -/
def joinRun (run : List Member) (m : Member) : List Member :=
  match run.getLast? with
  | none => [m]
  | some last =>
    if last.header.memberOf = m.header.memberOf then
      if isNext last.header.seq m.header.seq && decide (run.length < 8) then run ++ [m]
      else if last.header.seq = m.header.seq then run.dropLast ++ [m]
      else [m]
    else [m]

/-- Whether a COMMIT frame matches the pending-member run (R132). -/
def commitMatches (run : List Member) (q : Seq) (t : TxnNo) (count : Nat) : Bool :=
  match run.getLast? with
  | none => false
  | some last =>
    decide (last.header.memberOf = some t) && isNext last.header.seq q && decide (count = run.length)

/-- The directory and the run after a valid frame (R130 to R132). -/
def replayFrame (d : Directory) (run : List Member) (m : Member) : Directory × List Member :=
  match m.header with
  | .commit q t count => (if commitMatches run q t count then run.foldl Directory.replay d else d, [])
  | h => if h.memberOf.isSome then (d, joinRun run m) else (d.replay m, [])

/-- The highest values with a legal header that reads GOOD taken into account (R129). -/
def Replay.sawHeader (p : Replay) (h : FrameHeader) : Replay :=
  let t := h.txn.getD 0
  { p with maxSeq := Seq.later p.maxSeq h.seq, maxTxn := if p.maxTxn < t then t else p.maxTxn }

/-- A valid frame is yielded: counted, and handed to the replay rules (R18, R129). -/
def Replay.yields (p : Replay) (d : Directory) (h : FrameHeader) : Replay × Directory :=
  let r := replayFrame d p.run { header := h, sector := p.sector, line := p.pos }
  ({ p with frames := p.frames + 1, highest := Seq.later p.highest h.seq, run := r.2, cur := none,
            pos := p.pos + h.lines }, r.1)

/-- What a scanned line makes of the scan (R18, R129): the scan goes on, or this sector's scan ends. -/
def Replay.scanLine (p : Replay) (d : Directory) (l : Line) : Replay × Directory × Bool :=
  match p.cur with
  | none =>
    match l with
    | .blank => (p, d, true)
    | .defective => ({ p with defects := p.defects + 1, pos := p.pos + 1 }, d, false)
    | .good c =>
      match c.asHeader with
      | none => ({ p with pos := p.pos + 1 }, d, false)
      | some h =>
        let p := p.sawHeader h
        if 256 < p.pos + h.lines then ({ p with pos := p.pos + 1 }, d, false)
        else if h.lines = 1 then
          let r := p.yields d h
          (r.1, r.2, false)
        else ({ p with cur := some (h, 0) }, d, false)
  | some (h, k) =>
    match l with
    | .good _ =>
      if k + 2 < h.lines then ({ p with cur := some (h, k + 1) }, d, false)
      else
        let r := p.yields d h
        (r.1, r.2, false)
    | .defective => ({ p with defects := p.defects + 1, pos := p.pos + k + 2, cur := none }, d, false)
    | .blank => ({ p with pos := p.pos + h.lines, cur := none }, d, false)

/-- The line the scan reads next: a header position, or the next payload line of the frame being read. -/
def Replay.nextLine (p : Replay) : Nat :=
  match p.cur with
  | none => p.pos
  | some (_, k) => p.pos + 1 + k

/-- The scan of the sector has ended, by itself at a BLANK header position or at the stop; what R129 records of it. -/
def Replay.recordScan (p : Replay) (ended : Bool) : Replay :=
  { p with scans := p.scans ++ [{ sector := p.sector, endLine := if ended then p.pos else p.stop, frames := p.frames,
                                  highest := p.highest, defects := p.defects }] }

/-- The scan stands at line 3 of a sector. -/
def Replay.enter (p : Replay) (sector : Nat) (todo : List Nat) : Replay :=
  { p with sector := sector, todo := todo, pos := 3, cur := none, frames := 0, highest := 0, defects := 0 }

/-- The next ring sector that has a line to read; false at the end of the ring, where a run that remains is discarded
(R129, R131). -/
def Replay.nextSector (p : Replay) : List Nat → Replay × Bool
  | [] => ({ p with todo := [], run := [] }, false)
  | x :: rest =>
    let p := p.enter x rest
    if 3 < p.stop then (p, true) else (p.recordScan false).nextSector rest

/-! ### Results of replay (R133, R134) -/

/-- The scan note of a ring sector. -/
def scanOf (scans : List ScanNote) (sector : Nat) : ScanNote :=
  match scans.find? (fun n => n.sector == sector) with
  | some n => n
  | none => { sector := sector, endLine := 3, frames := 0, highest := 0, defects := 0 }

/-- An UNCLOSED sector's fault count: its defect count, up to 3 (R129). -/
def ScanNote.faults (n : ScanNote) : Nat := min 3 n.defects

/-- The sequences a survey note contributes to S: an open line's store sequence and a good close line's highest, in every
sector not classed BLANK (R19, R133). -/
def SurveyNote.topSeq : SurveyNote → Seq
  | .closed _ sq _ _ _ q _ => Seq.later sq q
  | .unclosed _ sq _ _ => sq
  | .free _ q => q
  | _ => 0

/-- S at the end of replay: one more than the greatest sequence found, 1 if none (R133). -/
def Replay.storeSeq (p : Replay) : Seq := (p.notes.foldl (fun m n => Seq.later m n.2.topSeq) p.maxSeq) + 1

/-- The next ring sequence at the end of replay (R133). -/
def Replay.nextRing (p : Replay) : Seq :=
  (p.notes.foldl (fun m n => Seq.later m ((n.2.opened.map Prod.fst).getD 0)) 0) + 1

/-- The record a survey note hands over; an UNCLOSED sector's is CLOSED until its close line has been programmed (R133,
R135; log 24). -/
def handOver (scans : List ScanNote) (sector : Nat) : SurveyNote → SectorRec
  | .retired => .retired
  | .blank c => .blank c
  | .free c _ => .free c
  | .closed ring _ c lu _ _ f => .closed ring c f lu (decide (3 ≤ f))
  | .unclosed ring _ c _ =>
    let n := scanOf scans sector
    .closed ring c n.faults (n.endLine - 1) (decide (3 ≤ n.faults))

/-- Whether a note is of a FREE sector. -/
def SurveyNote.isFree : SurveyNote → Bool
  | .free _ _ => true
  | _ => false

/-- The newest ring sector becomes the head when it is UNCLOSED and eligible, its fault count is below 3 and its scan ended
before line 256; its HEAD record (R134). -/
def headRecord (p : Replay) (sector : Nat) : Option SectorRec :=
  match noteOf p.notes sector with
  | .unclosed ring _ c true =>
    let n := scanOf p.scans sector
    if n.faults < 3 ∧ n.endLine < 256 then some (.head ring c n.faults (n.endLine - 1) n.frames n.highest) else none
  | _ => none

/-- The tables mount hands over, with the head chosen (R133, R134). -/
def Replay.tables (p : Replay) : LogTables :=
  let ring := ringOf p.notes
  let t : LogTables :=
    { sectors := poolSectors.map (fun x => handOver p.scans x (noteOf p.notes x)),
      free := poolSectors.filter (fun x => (noteOf p.notes x).isFree), ring := ring, head := none, nextRing := p.nextRing }
  match ring.getLast? with
  | none => t
  | some x =>
    match headRecord p x with
    | some r => { t.setRecord x r with head := some x }
    | none => t

/-- The UNCLOSED sectors that are not the head, in ring order, with what their close lines carry (R135). -/
def Replay.unclosed (p : Replay) (head : Option Nat) : List Unclosed :=
  (ringOf p.notes).filterMap (fun x =>
    match noteOf p.notes x with
    | .unclosed _ _ _ _ =>
      if head = some x then none
      else
        let n := scanOf p.scans x
        some { sector := x, lastUsed := n.endLine - 1, frames := n.frames, highest := n.highest, faults := n.faults }
    | _ => none)

/-! ### Mount's course -/

/-- Mount stops: it issues no further operation, and what it has built stays (R139). -/
def State.mountStops (s : State) : State := s.clearControl

/-- Mount ends: READ_ONLY or READY, and the directory is complete (R138). -/
def State.mountEnds (s : State) : State :=
  let readOnly := decide (s.usable < Config.minimumPool) || decide (s.freeCount = 0)
    || decide (Config.sequenceLimit ≤ s.engine.seq.toNat) || s.engine.dir.overflow || s.engine.anchorFailed
  let s := s.clearControl.withDir (fun d => { d with complete := true })
  let s := s.leaveStore .mounting (if readOnly then .readOnly else .ready)
  { s with engine := { s.engine with anchorFailed := false } }

/-- The opening phase (R137). -/
def State.mountOpening (s : State) : State :=
  match s.log with
  | some t => if t.head.isNone then (s.push .mountOpen).openHead else s.mountEnds
  | none => s.mountEnds

/-- A sector inserted by erase count, equal counts by sector number (R11, R136). -/
def insertFree (x : Nat × Nat) : List (Nat × Nat) → List (Nat × Nat)
  | [] => [x]
  | y :: rest => if x.1 < y.1 ∨ (x.1 = y.1 ∧ x.2 < y.2) then x :: y :: rest else y :: insertFree x rest

/-- The free list in ascending order of erase count, equal counts in ascending sector number (R11, R136). -/
def LogTables.sortFree (t : LogTables) : LogTables :=
  let keyed := t.free.map (fun x => ((t.record x).eraseCount.getD 0, x))
  { t with free := (keyed.foldr insertFree []).map Prod.snd }

/-- The tidy phase deals with the next BLANK sector; with none left the free list is put in order (R136). -/
def State.tidyNext (s : State) : State :=
  match s.firstBlank with
  | none => (s.withLog LogTables.sortFree).mountOpening
  | some x =>
    if (s.record x).worn then (s.push .mountSector).retireBegin x
    else (s.push (.mountErase x)).issueErase x false

/-- The next UNCLOSED sector is closed, then the tidy phase (R135). -/
def State.mountCloseNext (s : State) : List Unclosed → State
  | [] => s.tidyNext
  | u :: todo =>
    (s.push (.mountClose u todo)).issueProgram u.sector 2 (.closed u.lastUsed u.frames u.highest u.faults)

/-- Replay has ended: S, the counters and the tables are handed over and the head is chosen (R133 to R135). -/
def State.replayEnds (s : State) (p : Replay) : State :=
  let t := p.tables
  let s := { s with engine := { s.engine with seq := p.storeSeq, txnCounter := nextTxnNo p.maxTxn }, log := some t }
  s.mountCloseNext (p.unclosed t.head)

/-- The scan reads its next line, or moves to the next ring sector, or replay ends (R129). -/
def State.scanNext (s : State) (p : Replay) (ended : Bool) : State :=
  if !ended && decide (p.nextLine < p.stop) then (s.push (.mountReplay p)).issueRead p.sector p.nextLine
  else
    let r := (p.recordScan ended).nextSector p.todo
    if r.2 then (s.push (.mountReplay r.1)).issueRead r.1.sector 3 else s.replayEnds r.1

/-- Replay begins over the ring of the survey (R128, R129). -/
def State.replayBegin (s : State) (notes : List (Nat × SurveyNote)) : State :=
  let p : Replay :=
    { notes := notes, scans := [], todo := [], sector := 0, pos := 3, cur := none, frames := 0, highest := 0,
      defects := 0, run := [], maxSeq := 0, maxTxn := 0 }
  let r := p.nextSector (ringOf notes)
  if r.2 then (s.push (.mountReplay r.1)).issueRead r.1.sector 3 else s.replayEnds r.1

/-- The survey of the next pool sector begins with its line 0 (R126). -/
def State.surveyNext (s : State) (todo : List Nat) (notes : List (Nat × SurveyNote)) : State :=
  match todo with
  | [] => s.replayBegin notes
  | x :: rest => (s.push (.mountSurvey x [] rest notes)).issueRead x 0

/-- The anchor phase has read both sectors (R125, R144). -/
def State.anchorPhaseEnds (s : State) (a : AnchorScan) : State :=
  match a.best with
  | none =>
    let s := { s with anchor := { working := some .default, location := none, writePos := none } }
    (s.clearControl.withDir (fun d => { d with complete := true })).leaveStore .mounting .unformatted
  | some (r, sector, slot) =>
    let used := (if sector = 0 then a.used0 else a.used1).getD slot
    let s := { s with anchor :=
      { working := some r, location := some (sector, slot), writePos := some (sector, used + 1) } }
    s.surveyNext (poolSectors.filter (fun x => !r.retired.contains x)) (r.retired.map (fun x => (x, .retired)))

/-- Mount begins with line 0 of anchor sector 0 (R124, R144). -/
def State.mountBegin (s : State) : State :=
  let s := { s with engine := { s.engine with anchorFailed := false } }
  (s.push (.mountAnchor
    { sector := 0, line := 0, slotLines := [], best := none, used0 := none, used1 := none })).issueRead 0 0

/-- A line of the anchor sectors has been read (R144). -/
def State.mountAnchorReply (s : State) (a : AnchorScan) : Reply → State
  | .line l =>
    let a := a.read l
    if a.sector < 2 then (s.push (.mountAnchor a)).issueRead a.sector a.line else s.anchorPhaseEnds a
  | _ => s

/-- A header line of a pool sector has been read (R126, R127). -/
def State.mountSurveyReply (s : State) (sector : Nat) (read : List Line) (todo : List Nat)
    (notes : List (Nat × SurveyNote)) : Reply → State
  | .line l =>
    match read with
    | [l0, l1] => s.surveyNext todo (notes ++ [(sector, classify s.formatId l0 l1 l)])
    | _ => (s.push (.mountSurvey sector (read ++ [l]) todo notes)).issueRead sector (read.length + 1)
  | _ => s

/-- A line of a ring sector has been read (R129). -/
def State.mountReplayReply (s : State) (p : Replay) : Reply → State
  | .line l =>
    let r := p.scanLine s.engine.dir l
    (s.withDir (fun _ => r.2.1)).scanNext r.1 r.2.2
  | _ => s

/-- A CLOSED record is condemned when its close line failed (R8, R135). -/
def SectorRec.condemn (failed : Bool) : SectorRec → SectorRec
  | .closed r c f lu cond => .closed r c f lu (cond || failed)
  | r => r

/-- Mount's close line of a sector has ended (R135). -/
def State.mountCloseReply (s : State) (u : Unclosed) (todo : List Unclosed) : Reply → State
  | .prog .refused => s.mountStops
  | .prog o => (s.mapRecord u.sector (SectorRec.condemn (o = .fail || o = .notBlank))).mountCloseNext todo
  | _ => s

/-- Tidy's erase of a sector has ended (R136). -/
def State.mountEraseReply (s : State) (sector : Nat) : Reply → State
  | .erase .pass => (s.push .mountSector).formatSector sector (s.formatCount sector)
  | .erase .fail => (s.push .mountSector).retireBegin sector
  | .erase _ => s.mountStops
  | _ => s

/-- Tidy's formatting or retirement of a sector has ended (R136). -/
def State.mountSectorReply (s : State) : Reply → State
  | .formatted true => s.tidyNext
  | .formatted false => s.mountStops
  | .retired .refused => s.mountStops
  | .retired _ => s.tidyNext
  | _ => s

/-- The opening phase's opening has ended (R137). -/
def State.mountOpenReply (s : State) : Reply → State
  | .opened .refused => s.mountStops
  | .opened _ => s.mountEnds
  | _ => s

/-- The sector whose retirement is in progress, if any. -/
def retiringSector : List Task → Option Nat
  | [] => none
  | .retire sec :: _ => some sec
  | _ :: rest => retiringSector rest

/-- The power-fail warning during mount: a retirement in progress leaves its sector RETIRED (R10, R136; log 20), the outcome
of the operation in flight is taken by nothing, and mount stops (R139). -/
def State.mountWarned (s : State) : State :=
  let s := match retiringSector s.ctl.stack with
    | some sec => s.retireSector sec
    | none => s
  State.mountStops { s with seq := { s.seq with delivers := s.seq.inHand.isNone, waiting := none } }

end Sys2Proof.Machine
end

