-- ==== Sys2Proof/Machine/Drive.lean ====
section
/-! DEFINITION. The internal moves of one command: a reply goes to the task on top of the stack, which goes on; a pending
erase begins when the sequencer is free. A command's moves end when the job waits for the array or nothing is left. -/

namespace Sys2Proof.Machine

open Sys2Proof

/-- The task that was on top goes on with the reply it waited for. -/
def State.resume (s : State) (t : Task) (r : Reply) : State :=
  match t with
  | .readFrame e idx got => s.readFrameReply e idx got r
  | .closeHead sector => s.closeHeadReply sector r
  | .openHead sector ring => s.openHeadReply sector ring r
  | .openRetry => s.openRetryReply r
  | .append job phase => s.appendReply job phase r
  | .anchorWrite record second phase => s.anchorWriteReply record second phase r
  | .retire sector =>
    match r with
    | .anchor o => (s.retireSector sector).ret (.retired o)
    | _ => s
  | .formatLine sector count => s.formatLineReply sector count r
  | .put req => s.putReply req r
  | .delete req => s.deleteReply req r
  | .get req e => s.getReply req e r
  | .commit c => s.commitReply c r
  | .stall w => s.stallReply w r
  | .reclaim req => s.reclaimReply req r
  | .setZone req => s.setZoneReply req r
  | .formatAnchor req => s.formatAnchorReply req r
  | .formatRead req sector todo => s.formatReadReply req sector todo r
  | .formatErase req sector => s.formatEraseReply req sector r
  | .formatSector req => s.formatSectorReply req r
  | .formatOpen req => s.formatOpenReply req r
  | .copyRead e => s.copyReadReply e r
  | .copyAppend e => s.copyAppendReply e r
  | .lossAppend e q => s.lossAppendReply e q r
  | .finishRound => s.finishRoundReply r
  | .mountAnchor a => s.mountAnchorReply a r
  | .mountSurvey sector read todo notes => s.mountSurveyReply sector read todo notes r
  | .mountReplay p => s.mountReplayReply p r
  | .mountClose u todo => s.mountCloseReply u todo r
  | .mountErase sector => s.mountEraseReply sector r
  | .mountSector => s.mountSectorReply r
  | .mountOpen => s.mountOpenReply r

/-- One internal move: the reply reaches the task on top; a reply with no task left is a background step's end. With no
reply a pending erase begins when it can. -/
def State.move (s : State) : Option State :=
  match s.ctl.reply, s.ctl.stack with
  | some r, t :: rest => some (State.resume { s with ctl := { stack := rest, reply := none } } t r)
  | some _, [] => some s.clearControl
  | none, _ => s.startPending

/-- Internal moves until none is left, at most the given number (log 27). -/
def State.moves : Nat → State → State
  | 0, s => s
  | n + 1, s =>
    match s.move with
    | some s' => State.moves n s'
    | none => s

/-- Every internal move of a command is made. -/
def State.settle (s : State) : State := State.moves Config.settleFuel s

end Sys2Proof.Machine
end

