-- ==== Sys2Proof/Machine/Flags.lean ====
section
/-! DEFINITION. The register window as the host reads it (10_the_host_register_window): status registers, events, INT#,
and the value every address reads as. -/

namespace Sys2Proof.Machine

open Sys2Proof

/-- EVENT_STATUS: the latched events, with COMPLETION_READY while a completion record stands (R167, R178). -/
def State.eventStatus (s : State) : Byte :=
  (s.window.events &&& evLatched) ||| (if s.queues.completions.isEmpty then 0 else 1)

/-- INT#: asserted while an enabled event is present, deasserted while RST# is asserted (R171, R179). -/
def State.intAsserted (s : State) : Bool := s.busActive && (s.eventStatus &&& s.window.eventEnable) != 0

/-- QUEUE_STATUS (R172). -/
def State.queueStatus (s : State) : Byte :=
  BitVec.ofNat 8 s.queues.requests.length ||| (if s.queues.chainBroken then 0x08 else 0)
    ||| (BitVec.ofNat 8 s.queues.completions.length <<< 4)

/-- FILL_COUNT: the fill count and the overflow flag at bit 15 (R172). -/
def State.fillCount (s : State) : BitVec 16 :=
  BitVec.ofNat 16 s.window.fill.length ||| (if s.window.fillOverflow then 0x8000 else 0)

/-- One zone's two bits of ZONE_STATUS (R172). -/
def zoneBits (f : ZoneFlags) : Byte := (if f.unlocked then 1 else 0) ||| (if f.lockout then 2 else 0)

/-- ZONE_STATUS (R172). -/
def State.zoneStatus (s : State) : Byte :=
  zoneBits s.zones[0] ||| (zoneBits s.zones[1] <<< 2) ||| (zoneBits s.zones[2] <<< 4) ||| (zoneBits s.zones[3] <<< 6)

/-- The head completion's fields as the completion registers show them, 0 while the queue is empty (R168, R174). -/
def State.cplKey (s : State) : BitVec 16 :=
  match s.queues.completions with
  | c :: _ => c.key
  | [] => 0

/-- CPL_VERSION (R168). -/
def State.cplVersion (s : State) : BitVec 32 :=
  match s.queues.completions with
  | c :: _ => c.version
  | [] => 0

/-- CPL_LENGTH (R168). -/
def State.cplLength (s : State) : BitVec 16 :=
  match s.queues.completions with
  | c :: _ => BitVec.ofNat 16 c.length
  | [] => 0

/-- CPL_AUX (R168). -/
def State.cplAux (s : State) : BitVec 16 :=
  match s.queues.completions with
  | c :: _ => c.aux
  | [] => 0

/-- CPL_TAG (R168). -/
def State.cplTag (s : State) : Byte :=
  match s.queues.completions with
  | c :: _ => c.tag
  | [] => 0

/-- CPL_KIND (R168). -/
def State.cplKind (s : State) : Byte :=
  match s.queues.completions with
  | c :: _ => c.kind
  | [] => 0

/-- CPL_STATUS (R168, R173). -/
def State.cplStatus (s : State) : Byte :=
  match s.queues.completions with
  | c :: _ => c.status.code
  | [] => 0

/-- The payload byte READ_DATA returns: the head's at the read pointer, 0 at the end of the payload or with no head (R168). -/
def State.payloadByte (s : State) : Byte :=
  match s.queues.completions with
  | c :: _ => c.payload.getD s.queues.readPtr 0
  | [] => 0

/-- Byte i of a 16-bit value, least significant byte first (R171). -/
def byteOf16 (v : BitVec 16) (i : Nat) : Byte := (v >>> (8 * i)).setWidth 8

/-- Byte i of a 32-bit value, least significant byte first (R171). -/
def byteOf32 (v : BitVec 32) (i : Nat) : Byte := (v >>> (8 * i)).setWidth 8

/-- A 16-bit value with byte i replaced. -/
def setByte16 (v : BitVec 16) (i : Nat) (b : Byte) : BitVec 16 :=
  (v &&& ~~~(0xFF#16 <<< (8 * i))) ||| (b.setWidth 16 <<< (8 * i))

/-- A 32-bit value with byte i replaced. -/
def setByte32 (v : BitVec 32) (i : Nat) (b : Byte) : BitVec 32 :=
  (v &&& ~~~(0xFF#32 <<< (8 * i))) ||| (b.setWidth 32 <<< (8 * i))

/-- What a read of an address returns, its effects aside (R171 to R174): the low byte of a read-only register of more than one
byte is of its current value and the other bytes of its capture latch; write-only and unused addresses read 0; every address
reads 0 while RST# is asserted. -/
def State.busRead (s : State) (a : BitVec 6) : Byte :=
  let w := s.window
  if !s.busActive then 0
  else
    match a.toNat with
    | 0x00 => 0x2C
    | 0x01 => 0x01
    | 0x02 => s.engine.store.code
    | 0x03 => s.queueStatus
    | 0x04 => s.eventStatus
    | 0x05 => w.eventEnable
    | 0x06 => w.submitResult.code
    | 0x08 => w.reqTag
    | 0x09 => w.reqKind
    | 0x0A => byteOf16 w.reqKey 0
    | 0x0B => byteOf16 w.reqKey 1
    | 0x0C => w.reqFlags
    | 0x0D => byteOf32 w.reqVersion 0
    | 0x0E => byteOf32 w.reqVersion 1
    | 0x0F => byteOf32 w.reqVersion 2
    | 0x10 => byteOf32 w.reqVersion 3
    | 0x11 => w.reqParam
    | 0x12 => byteOf16 w.reqLength 0
    | 0x13 => byteOf16 w.reqLength 1
    | 0x14 => byteOf16 s.fillCount 0
    | 0x15 => byteOf16 w.latchFillCount 1
    | 0x17 => s.payloadByte
    | 0x18 => s.cplTag
    | 0x19 => s.cplKind
    | 0x1A => s.cplStatus
    | 0x1B => byteOf16 s.cplKey 0
    | 0x1C => byteOf16 w.latchCplKey 1
    | 0x1D => byteOf32 s.cplVersion 0
    | 0x1E => byteOf32 w.latchCplVersion 1
    | 0x1F => byteOf32 w.latchCplVersion 2
    | 0x20 => byteOf32 w.latchCplVersion 3
    | 0x21 => byteOf16 s.cplLength 0
    | 0x22 => byteOf16 w.latchCplLength 1
    | 0x23 => byteOf16 s.cplAux 0
    | 0x24 => byteOf16 w.latchCplAux 1
    | 0x25 => w.lowWater
    | 0x26 => w.txnLimit
    | 0x27 => BitVec.ofNat 8 s.freeCount
    | 0x28 => BitVec.ofNat 8 s.usable
    | 0x29 => byteOf16 w.lossKey 0
    | 0x2A => byteOf16 w.latchLossKey 1
    | 0x2B => byteOf16 w.expiredTxn 0
    | 0x2C => byteOf16 w.latchExpiredTxn 1
    | 0x2D => s.zoneStatus
    | _ => 0

/-- The lowest address of a register with a capture latch (R172). -/
def captureAddr : CaptureReg → BitVec 6
  | .fillCount => 0x14
  | .cplKey => 0x1B
  | .cplVersion => 0x1D
  | .cplLength => 0x21
  | .cplAux => 0x23
  | .lossKey => 0x29
  | .expiredTxn => 0x2B

/-- The capture latch of a register takes the register's current whole value (R172). -/
def State.capture (s : State) : CaptureReg → State
  | .fillCount => { s with window := { s.window with latchFillCount := s.fillCount } }
  | .cplKey => { s with window := { s.window with latchCplKey := s.cplKey } }
  | .cplVersion => { s with window := { s.window with latchCplVersion := s.cplVersion } }
  | .cplLength => { s with window := { s.window with latchCplLength := s.cplLength } }
  | .cplAux => { s with window := { s.window with latchCplAux := s.cplAux } }
  | .lossKey => { s with window := { s.window with latchLossKey := s.window.lossKey } }
  | .expiredTxn => { s with window := { s.window with latchExpiredTxn := s.window.expiredTxn } }

/-- A read access drives a byte on the data lines. -/
def State.drive (s : State) (b : Byte) : State := { s with window := { s.window with busData := b } }

end Sys2Proof.Machine
end

