-- ==== Sys2Proof/Machine/Resets.lean ====
section
/-! DEFINITION. Soft reset, pin reset, power loss and power-on over every block (R177, R181 and the blocks' own reset rules). -/

namespace Sys2Proof.Machine

open Sys2Proof

/-- The window after a soft reset: enables, configuration and request fields kept (R170, R177, R181). -/
def Window.softReset (w : Window) : Window :=
  { Window.reset with
    eventEnable := w.eventEnable, lowWater := w.lowWater, txnLimit := w.txnLimit, reqTag := w.reqTag,
    reqKind := w.reqKind, reqKey := w.reqKey, reqFlags := w.reqFlags, reqVersion := w.reqVersion,
    reqParam := w.reqParam, reqLength := w.reqLength }

/-- A zone's flags after a soft reset: locked again, count and lockout kept (R148). -/
def ZoneFlags.softReset (f : ZoneFlags) : ZoneFlags := { f with unlocked := false }

/-- Soft reset of the whole part (R177): the sequencer by R121, every other block by its own rule. -/
def State.softReset (s : State) : State :=
  let s := s.sequencerSoftReset
  { s with
    window := s.window.softReset, queues := .reset, engine := .reset, ctl := { stack := [], reply := none }, log := none,
    comp := .reset, anchor := .reset, zones := s.zones.map ZoneFlags.softReset }

/-- A pin reset or a power loss: the sequencer cuts its work short, and every other block takes its power-on and pin reset
value (R122, R148, R181). The pins and the commands that wait are as they were. -/
def State.hardReset (s : State) : State :=
  let s := s.sequencerCutShort
  { s with
    window := .reset, queues := .reset, engine := .reset, ctl := { stack := [], reply := none }, log := none,
    comp := .reset, anchor := .reset, zones := Vector.replicate 4 .reset }

/-- A reset is in progress: RST# is asserted, or a soft reset waits for the program in hand to end (R118, R121; log 14). -/
def State.resetInProgress (s : State) : Bool :=
  s.pins.rstAsserted || (s.seq.inHand.isSome && !s.seq.delivers && !s.seq.halted)

/-- Mount is running: the store is MOUNTING and a mount phase waits for the array. -/
def State.mountRunning (s : State) : Bool := decide (s.engine.store = .mounting) && !s.ctl.stack.isEmpty

/-- The power-fail warning is taken: the store is HALTED with any open transaction dropped, the sequencer halts, mount stops
if it was running, and a waiting stall or RECLAIM makes its tests (R44, R63, R81, R118, R119, R139). -/
def State.takeWarning (s : State) : State :=
  let mounting := s.mountRunning
  let s := ((s.setStore .halted).dropTxn).sequencerWarning
  let s := if mounting then s.mountWarned else s.wakeWaiting
  s.settle

end Sys2Proof.Machine
end

