-- ==== Sys2Proof/Machine/Bus.lean ====
section
/-! DEFINITION. The meanings of the bus commands: CONTROL commands, data ports, event and configuration registers (09, 10). -/

namespace Sys2Proof.Machine

open Sys2Proof

/-- The outcome of a command that completes. -/
abbrev Result := Host.Outcome State Fault Refusal

/-! ### What a bus write does -/

/-- The fill buffer emptied, its count 0 and its overflow flag cleared (R159). -/
def State.clearFill (s : State) : State := { s with window := { s.window with fill := [], fillOverflow := false } }

/-- The submission result of a GO (R160). -/
def State.withSubmit (s : State) (r : SubmitResult) : State := { s with window := { s.window with submitResult := r } }

/-- The request assembled in the window, with the fill buffer as its payload (R158). -/
def State.assembled (s : State) : Request :=
  let w := s.window
  { tag := w.reqTag, kind := w.reqKind, key := w.reqKey, flags := w.reqFlags, version := w.reqVersion,
    param := w.reqParam, length := w.reqLength, payload := w.fill }

/-- GO: overflow, length and queue tests in order, else the request joins the back (R160, R161). -/
def State.submit (s : State) : State :=
  if s.window.fillOverflow then s.clearFill.withSubmit .overflow
  else if s.window.fill.length ≠ s.window.reqLength.toNat then s.clearFill.withSubmit .length
  else if 4 ≤ s.queues.requests.length then s.withSubmit .queueFull
  else
    let r := s.assembled
    let s := s.clearFill.withSubmit .accepted
    { s with queues := { s.queues with requests := s.queues.requests ++ [r] } }

/-- POP: the head record leaves; the next has its pointer at 0; nothing on an empty queue (R169). -/
def State.popHead (s : State) : State :=
  match s.queues.completions with
  | [] => s
  | _ :: rest => { s with queues := { s.queues with completions := rest, readPtr := 0 } }

/-- REWIND: the head's read pointer to 0; nothing on an empty queue (R168). -/
def State.rewindHead (s : State) : State :=
  match s.queues.completions with
  | [] => s
  | _ :: _ => { s with queues := { s.queues with readPtr := 0 } }

/-- A payload byte: stored at the fill count, or dropped with the overflow flag set at 256 (R159). -/
def State.fillByte (s : State) (b : Byte) : State :=
  if s.window.fill.length < 256 then { s with window := { s.window with fill := s.window.fill ++ [b] } }
  else { s with window := { s.window with fillOverflow := true } }

/-- EVENT_STATUS: each latched event whose bit is 1 is cleared (R178). -/
def State.clearEvents (s : State) (v : Byte) : State :=
  { s with window := { s.window with events := s.window.events &&& ~~~(v &&& evLatched) } }

/-- EVENT_ENABLE: bits 6 and 7 are stored as 0 (R179). -/
def State.setEnables (s : State) (v : Byte) : State := { s with window := { s.window with eventEnable := v &&& 0x3F } }

/-- LOW_WATER: the value clamped to 3 to 16 (R180). -/
def State.setLowWater (s : State) (v : Byte) : State :=
  { s with window := { s.window with lowWater := if v < 3 then 3 else if 16 < v then 16 else v } }

/-- CONTROL: the command the value names; a value naming none is ignored (R173, R176). -/
def State.control (s : State) (v : Byte) : State :=
  if v = 0x01 then s.submit
  else if v = 0x02 then s.popHead
  else if v = 0x03 then s.clearFill
  else if v = 0x04 then s.rewindHead
  else if v = 0xA5 then s.softReset
  else s

/-- A bus write to an address: request fields and TXN_LIMIT store the byte, the registers with an effect have it, and
read-only and unused addresses ignore it (R171, R172; log 30). -/
def State.busWrite (s : State) (a : BitVec 6) (v : Byte) : State :=
  let w := s.window
  match a.toNat with
  | 0x04 => s.clearEvents v
  | 0x05 => s.setEnables v
  | 0x07 => s.control v
  | 0x08 => { s with window := { w with reqTag := v } }
  | 0x09 => { s with window := { w with reqKind := v } }
  | 0x0A => { s with window := { w with reqKey := setByte16 w.reqKey 0 v } }
  | 0x0B => { s with window := { w with reqKey := setByte16 w.reqKey 1 v } }
  | 0x0C => { s with window := { w with reqFlags := v } }
  | 0x0D => { s with window := { w with reqVersion := setByte32 w.reqVersion 0 v } }
  | 0x0E => { s with window := { w with reqVersion := setByte32 w.reqVersion 1 v } }
  | 0x0F => { s with window := { w with reqVersion := setByte32 w.reqVersion 2 v } }
  | 0x10 => { s with window := { w with reqVersion := setByte32 w.reqVersion 3 v } }
  | 0x11 => { s with window := { w with reqParam := v } }
  | 0x12 => { s with window := { w with reqLength := setByte16 w.reqLength 0 v } }
  | 0x13 => { s with window := { w with reqLength := setByte16 w.reqLength 1 v } }
  | 0x16 => s.fillByte v
  | 0x25 => s.setLowWater v
  | 0x26 => { s with window := { w with txnLimit := v } }
  | _ => s

/-- A write access is taken unless RST# is asserted or the part has no power (R171). -/
def State.onBus (s : State) (f : State → State) : Result := .next (if s.busActive then f s else s)

/-! ### The meanings -/

/-- GO (R160). -/
def execGo (s : State) : Result := s.onBus State.submit

/-- POP (R169). -/
def execPop (s : State) : Result := s.onBus State.popHead

/-- CLEAR_FILL (R159). -/
def execClearFill (s : State) : Result := s.onBus State.clearFill

/-- REWIND (R168). -/
def execRewind (s : State) : Result := s.onBus State.rewindHead

/-- SOFT_RESET (R177). -/
def execSoftReset (s : State) : Result := s.onBus State.softReset

/-- WRITE_DATA (R159). -/
def execWriteData (b : Byte) (s : State) : Result := s.onBus (fun s => s.fillByte b)

/-- READ_DATA: the byte at the read pointer, which moves on below the payload's end; 0 while RST# is asserted (R168, R171). -/
def execReadData (s : State) : Result :=
  if s.busActive then
    let t := s.drive s.payloadByte
    match s.queues.completions with
    | [] => .next t
    | c :: _ =>
      if s.queues.readPtr < c.payload.length then
        .next { t with queues := { t.queues with readPtr := t.queues.readPtr + 1 } }
      else .next t
  else .next (s.drive 0)

/-- CAPTURE_LATCH: the latch takes the whole value and the low byte is returned; 0 while RST# is asserted (R171, R172). -/
def execCaptureLatch (r : CaptureReg) (s : State) : Result :=
  if s.busActive then .next ((s.capture r).drive (s.busRead (captureAddr r))) else .next (s.drive 0)

/-- EVENT_STATUS (R178). -/
def execEventStatus (v : Byte) (s : State) : Result := s.onBus (fun s => s.clearEvents v)

/-- EVENT_ENABLE (R179). -/
def execEventEnable (v : Byte) (s : State) : Result := s.onBus (fun s => s.setEnables v)

/-- LOW_WATER (R180). -/
def execLowWater (v : Byte) (s : State) : Result := s.onBus (fun s => s.setLowWater v)

/-- REGISTER_WRITE (R171). -/
def execRegisterWrite (a : BitVec 6) (v : Byte) (s : State) : Result := s.onBus (fun s => s.busWrite a v)

end Sys2Proof.Machine
end

