-- ==== Sys2Proof/Machine/Taking.lean ====
section
/-! DEFINITION. The meanings of the commands by which the record engine takes the front request or grants a compaction step. -/

namespace Sys2Proof.Machine

open Sys2Proof

/-- A row's kind without IN_TXN, for PUT, GET and DELETE. -/
def isPlain (kind : Byte) (r : Request) : Bool := r.kind == kind && !r.inTxn

/-- A row's kind carrying IN_TXN. -/
def isInTxn (kind : Byte) (r : Request) : Bool := r.kind == kind && r.inTxn

/-- A row's kind, whatever the flags. -/
def isKind (kind : Byte) (r : Request) : Bool := r.kind == kind

/-- The front request of a row is taken and its job runs until it waits or ends. -/
def State.taking (s : State) (isRow : Request → Bool) (body : Request → State → State) : State :=
  (s.takeFront isRow body).settle

/-- PUT (R52). -/
def execPut (s : State) : Result := .next (s.taking (isPlain kPut) putBody)

/-- GET (R57). -/
def execGet (s : State) : Result := .next (s.taking (isPlain kGet) getBody)

/-- DELETE (R55). -/
def execDelete (s : State) : Result := .next (s.taking (isPlain kDelete) deleteBody)

/-- NEXT (R60). -/
def execNext (s : State) : Result := .next (s.taking (isKind kNext) nextBody)

/-- INFO (R61). -/
def execInfo (s : State) : Result := .next (s.taking (isKind kInfo) infoBody)

/-- BEGIN (R66). -/
def execBegin (s : State) : Result := .next (s.taking (isKind kBegin) beginBody)

/-- IN_TXN PUT (R69). -/
def execInTxnPut (s : State) : Result := .next (s.taking (isInTxn kPut) inTxnPutBody)

/-- IN_TXN DELETE (R70). -/
def execInTxnDelete (s : State) : Result := .next (s.taking (isInTxn kDelete) inTxnDeleteBody)

/-- IN_TXN GET (R71). -/
def execInTxnGet (s : State) : Result := .next (s.taking (isInTxn kGet) inTxnGetBody)

/-- COMMIT (R75). -/
def execCommit (s : State) : Result := .next (s.taking (isKind kCommit) commitBody)

/-- ABANDON (R80). -/
def execAbandon (s : State) : Result := .next (s.taking (isKind kAbandon) abandonBody)

/-- RECLAIM (R99). -/
def execReclaim (s : State) : Result := .next (s.taking (isKind kReclaim) reclaimBody)

/-- UNLOCK (R149). -/
def execUnlock (s : State) : Result := .next (s.taking (isKind kUnlock) unlockBody)

/-- LOCK (R150). -/
def execLock (s : State) : Result := .next (s.taking (isKind kLock) lockBody)

/-- SET_CODE (R151). -/
def execSetCode (s : State) : Result := .next (s.taking (isKind kSetCode) setCodeBody)

/-- SET_POLICY (R152). -/
def execSetPolicy (s : State) : Result := .next (s.taking (isKind kSetPolicy) setPolicyBody)

/-- FORMAT (R153). -/
def execFormat (s : State) : Result := .next (s.taking (isKind kFormat) formatBody)

/-- A request whose kind code names no kind: the chain test, the state test, and BAD_REQUEST by the form check (R46). -/
def execKindNamingNoKind (s : State) : Result :=
  .next (s.taking (fun r => !r.namesKind) (fun r s => s.answer r .badRequest))

/-! ### Compaction steps granted on their own (R85) -/

/-- A step of a stage is granted when it can be, and runs until it waits or ends; otherwise the event does not happen (log 8). -/
def State.granting (s : State) (stage : Stage) (step : State → State) : State :=
  if s.canGrant && decide (s.comp.stage = stage) then (step s).settle else s

/-- Whether no entry is located in the victim any more, by the count of R29 (R90). -/
def State.victimEmpty (s : State) : Bool :=
  match s.comp.victim with
  | some v => decide (locatedCount s.engine.dir.entries v = 0)
  | none => false

/-- SELECT_STEP (R88). -/
def execSelectStep (s : State) : Result := .next (s.granting .idle State.selectVictim)

/-- COPY_STEP; with no entry left in the victim the step is the erase step (R90; log 31). -/
def execCopyStep (s : State) : Result := .next (s.granting .copying State.copyOne)

/-- ERASE_STEP: the copy step that finds no entry in the victim (R95, R96; log 31). -/
def execEraseStep (s : State) : Result :=
  .next (if s.victimEmpty then s.granting .copying State.copyOne else s)

/-- FINISHING_STEP (R98). -/
def execFinishingStep (s : State) : Result := .next (s.granting .finishing State.finishVictim)

end Sys2Proof.Machine
end

