-- ==== Sys2Proof/Machine/Events.lean ====
section
/-! DEFINITION. The meanings of the events: the end of array operations, the idle timer, the pins, the supply, the beginning
of mount, and the array's own loss. -/

namespace Sys2Proof.Machine

open Sys2Proof

/-- LINE_READ_DONE (R106). -/
def execLineReadDone (s : State) : Result := .next s.lineReadEnds.settle

/-- LINE_PROGRAM_DONE (R107). -/
def execLineProgramDone (verified : Bool) (s : State) : Result := .next (s.lineProgramEnds verified).settle

/-- PROGRAM_TIMEOUT (R107). -/
def execProgramTimeout (s : State) : Result := .next s.programTimesOut.settle

/-- ERASE_DONE (R109). -/
def execEraseDone (passed : Bool) (s : State) : Result := .next (s.eraseEnds passed).settle

/-- ERASE_TIME_LIMIT: the erase in flight ends FAIL (R109). -/
def execEraseTimeLimit (s : State) : Result := .next (s.eraseEnds false).settle

/-- IDLE_TIMER_EXPIRY (R73). -/
def execIdleTimerExpiry (s : State) : Result := .next s.timerExpires

/-- PFW_ASSERTED: the pin changes, and the warning is taken when the part runs, no reset is in progress and the sequencer is
not halted already (R118). -/
def execPfwAsserted (s : State) : Result :=
  let change := !s.pins.pfwAsserted
  let t := { s with pins := { s.pins with pfwAsserted := true } }
  if change && s.pins.powered && !s.resetInProgress && !s.seq.halted then .next t.takeWarning else .next t

/-- PFW_DEASSERTED: the pin changes and nothing else does; a waiting mount may begin (R118, R124). -/
def execPfwDeasserted (s : State) : Result := .next { s with pins := { s.pins with pfwAsserted := false } }

/-- RST_ASSERTED: pin reset (R111, R122). -/
def execRstAsserted (s : State) : Result :=
  let t := { s with pins := { s.pins with rstAsserted := true } }
  if s.busActive then .next t.hardReset else .next t

/-- RST_DEASSERTED: the part leaves the pin reset with its reset values (R122, R171). -/
def execRstDeasserted (s : State) : Result := .next { s with pins := { s.pins with rstAsserted := false } }

/-- POWER_ON: the part starts with its power-on values; a part that had power has lost it first (R122; log 13). -/
def execPowerOn (s : State) : Result :=
  let t := s.hardReset
  .next { t with pins := { t.pins with powered := true } }

/-- POWER_LOSS: operations in flight are cut short and everything but the array is lost (R111, R122; log 15). -/
def execPowerLoss (s : State) : Result :=
  if s.pins.powered then
    let t := s.hardReset
    .next { t with pins := { t.pins with powered := false } }
  else .next s

/-- Mount can begin: after a reset, the sequencer IDLE and PFW# deasserted (R124). -/
def State.mountCanBegin (s : State) : Bool :=
  s.busActive && !s.pins.pfwAsserted && decide (s.engine.store = .mounting) && s.ctl.stack.isEmpty
    && decide (s.seq.state = .idle) && s.seq.inHand.isNone

/-- MOUNT (R124). -/
def execMount (s : State) : Result := .next (if s.mountCanBegin then s.mountBegin.settle else s)

/-- ARRAY_OWN_LOSS (R105); a line the array does not have faults (R104; log 32). -/
def execArrayOwnLoss (sector line : Nat) (s : State) : Result :=
  if sector < 64 ∧ line < 256 then .next (s.ownLoss sector line) else .fault .noSuchLine

end Sys2Proof.Machine
end

