-- ==== Sys2Proof/Machine/Clock.lean ====
section
/-! DEFINITION. What happens when no command waits: one 10 ms tick passes (log 12). -/

namespace Sys2Proof.Machine

open Sys2Proof

/-- The idle timer counts a tick while it runs, and expires when the count reaches its limit (R72, R73). -/
def State.tickTimer (s : State) : State :=
  match s.engine.txn.timer with
  | .running limit elapsed =>
    if limit ≤ elapsed + 1 then s.timerExpires
    else { s with engine := { s.engine with txn := { s.engine.txn with timer := .running limit (elapsed + 1) } } }
  | _ => s

/-- The elapsed erase time counts while the sequencer is ERASING, and the erase ends FAIL when it reaches 200 ms (R109). -/
def State.tickErase (s : State) : State :=
  match s.seq.erase with
  | some e =>
    if s.seq.state = .erasing then
      if Config.eraseLimitMs ≤ e.elapsed + Config.tickMs then (s.eraseEnds false).settle
      else { s with seq := { s.seq with erase := some { e with elapsed := e.elapsed + Config.tickMs } } }
    else s
  | none => s

/-- One tick passes when the part runs and no line read or program is in hand, whose end is nearer than a tick and is told by
its own event (log 12). -/
def State.tick (s : State) : State :=
  if s.busActive && s.seq.inHand.isNone then s.tickTimer.tickErase else s

end Sys2Proof.Machine
end

