-- ==== Sys2Proof/Machine/Dispatch.lean ====
section
/-! DEFINITION. One arm per command: its meaning. -/

namespace Sys2Proof.Machine

def exec (i : Instr) (s : State) : Host.Outcome State Fault Refusal :=
  match i with
  | .go => Sys2Proof.Machine.execGo s
  | .pop => Sys2Proof.Machine.execPop s
  | .clearFill => Sys2Proof.Machine.execClearFill s
  | .rewind => Sys2Proof.Machine.execRewind s
  | .softReset => Sys2Proof.Machine.execSoftReset s
  | .writeData b => Sys2Proof.Machine.execWriteData b s
  | .readData => Sys2Proof.Machine.execReadData s
  | .captureLatch r => Sys2Proof.Machine.execCaptureLatch r s
  | .eventStatus v => Sys2Proof.Machine.execEventStatus v s
  | .eventEnable v => Sys2Proof.Machine.execEventEnable v s
  | .lowWater v => Sys2Proof.Machine.execLowWater v s
  | .registerWrite a v => Sys2Proof.Machine.execRegisterWrite a v s
  | .put => Sys2Proof.Machine.execPut s
  | .get => Sys2Proof.Machine.execGet s
  | .delete => Sys2Proof.Machine.execDelete s
  | .next => Sys2Proof.Machine.execNext s
  | .info => Sys2Proof.Machine.execInfo s
  | .beginTxn => Sys2Proof.Machine.execBegin s
  | .inTxnPut => Sys2Proof.Machine.execInTxnPut s
  | .inTxnDelete => Sys2Proof.Machine.execInTxnDelete s
  | .inTxnGet => Sys2Proof.Machine.execInTxnGet s
  | .commit => Sys2Proof.Machine.execCommit s
  | .abandon => Sys2Proof.Machine.execAbandon s
  | .reclaim => Sys2Proof.Machine.execReclaim s
  | .unlock => Sys2Proof.Machine.execUnlock s
  | .lock => Sys2Proof.Machine.execLock s
  | .setCode => Sys2Proof.Machine.execSetCode s
  | .setPolicy => Sys2Proof.Machine.execSetPolicy s
  | .format => Sys2Proof.Machine.execFormat s
  | .selectStep => Sys2Proof.Machine.execSelectStep s
  | .copyStep => Sys2Proof.Machine.execCopyStep s
  | .eraseStep => Sys2Proof.Machine.execEraseStep s
  | .finishingStep => Sys2Proof.Machine.execFinishingStep s
  | .lineReadDone => Sys2Proof.Machine.execLineReadDone s
  | .lineProgramDone verified => Sys2Proof.Machine.execLineProgramDone verified s
  | .programTimeout => Sys2Proof.Machine.execProgramTimeout s
  | .eraseDone passed => Sys2Proof.Machine.execEraseDone passed s
  | .eraseTimeLimit => Sys2Proof.Machine.execEraseTimeLimit s
  | .idleTimerExpiry => Sys2Proof.Machine.execIdleTimerExpiry s
  | .pfwAsserted => Sys2Proof.Machine.execPfwAsserted s
  | .pfwDeasserted => Sys2Proof.Machine.execPfwDeasserted s
  | .rstAsserted => Sys2Proof.Machine.execRstAsserted s
  | .rstDeasserted => Sys2Proof.Machine.execRstDeasserted s
  | .powerOn => Sys2Proof.Machine.execPowerOn s
  | .powerLoss => Sys2Proof.Machine.execPowerLoss s
  | .mount => Sys2Proof.Machine.execMount s
  | .kindNamingNoKind => Sys2Proof.Machine.execKindNamingNoKind s
  | .arrayOwnLoss sector line => Sys2Proof.Machine.execArrayOwnLoss sector line s

end Sys2Proof.Machine
end

