-- ==== Sys2Proof/Safety.lean ====
section
/-! DEFINITION. What holds of a state of the part that its rules keep: bounds, canonical forms and consistency. -/

namespace Sys2Proof.Machine

open Sys2Proof

/-- The array is in its canonical form. -/
def State.arrayWf (s : State) : Bool := s.seq.cells.wf

/-- Entries in ascending key order, at most 1024 of them, and A the sum of their charges (R26, R30). -/
def Directory.wf (d : Directory) : Bool :=
  keysAscending d.entries && decide (d.entries.length ≤ Config.directoryCapacity)
    && decide (d.accounted = totalCharge d.entries)

/-- The record engine's directory is well formed. -/
def State.directoryWf (s : State) : Bool := s.engine.dir.wf

/-- The tasks that end by posting a completion: the executing request's job. -/
def Task.isJob : Task → Bool
  | .put _ | .delete _ | .get _ _ | .commit _ | .stall _ | .reclaim _ | .setZone _ => true
  | .formatAnchor _ | .formatRead _ _ _ | .formatErase _ _ | .formatSector _ | .formatOpen _ => true
  | _ => false

/-- The queues and the fill buffer are within their sizes, and while a request's job executes a completion record is free for it
(R159, R161, R163, R167). -/
def State.queuesWf (s : State) : Bool :=
  decide (s.queues.requests.length ≤ 4) && decide (s.window.fill.length ≤ 256)
    && decide (s.queues.completions.length ≤ 8)
    && (!s.ctl.stack.any Task.isJob || decide (s.queues.completions.length ≤ 7))

/-- The window's registers hold only what they can hold (R178 to R180). -/
def State.windowWf (s : State) : Bool :=
  (s.window.events &&& ~~~evLatched) == 0 && (s.window.eventEnable &&& 0xC0) == 0
    && decide (3 ≤ s.window.lowWater) && decide (s.window.lowWater ≤ 16)

/-- An erase record's bounds: at most 8 suspensions and at most 200 ms of elapsed erase time (R112, R115). -/
def EraseRec.wf (e : EraseRec) : Bool :=
  decide (e.suspensions ≤ Config.maxSuspensions) && decide (e.elapsed ≤ Config.eraseLimitMs)

/-- The sequencer's state agrees with the erase in flight and the halted flag (06 section 6.5), and the erase record is within
its bounds. -/
def Sequencer.wf (q : Sequencer) : Bool :=
  (match q.state with
    | .idle => q.erase.isNone && !q.halted
    | .programming => q.erase.isNone
    | .erasing => q.erase.isSome && !q.halted
    | .suspended => q.erase.isSome && !q.halted
    | .halted => q.erase.isNone && q.halted)
  && q.erase.all EraseRec.wf

/-- The array sequencer is consistent. -/
def State.sequencerWf (s : State) : Bool := s.seq.wf

/-- A zone's flags: a locked out zone is never unlocked, and the failed-attempt count is 0 to 3 (R148). -/
def ZoneFlags.wf (f : ZoneFlags) : Bool := !(f.lockout && f.unlocked) && decide (f.failed ≤ 3)

/-- The zone guard's flags are well formed. -/
def State.zonesWf (s : State) : Bool := s.zones.toList.all ZoneFlags.wf

end Sys2Proof.Machine

namespace Sys2Proof

/-- The commands that reset the part: the soft reset, by either of its two spellings, RST#, and the supply (R177, R122). -/
def Instr.resets : Instr → Bool
  | .softReset | .rstAsserted | .powerOn | .powerLoss => true
  | .registerWrite a v => a == 0x07 && v == 0xA5
  | _ => false

end Sys2Proof
end

