-- ==== Sys2Proof/WellFormed.lean ====
section
/-! DEFINITION. When a command names something that exists: the only operands a type does not bound already are
the sector and line of ARRAY_OWN_LOSS. -/

namespace Sys2Proof

/-- The array has sectors 0 to 63, each of lines 0 to 255 (R104). -/
def lineExists (sector line : Nat) : Bool := decide (sector < 64) && decide (line < 256)

/-- A command is well formed when the line it names exists; every other operand is bounded by its type. -/
def Instr.wellFormed : Instr → Bool
  | .arrayOwnLoss sector line => lineExists sector line
  | _ => true

end Sys2Proof
end

