-- ==== Sys2Proof/Certificates/Slice0/Obligations.lean ====
section
/-! DEFINITION. The statements for the provers, and the few definitions they share: what a request's completion does to the
state, and what makes a request ready to be taken. -/

namespace Sys2Proof.Certificates

open Sys2Proof Sys2Proof.Machine

/-- The front request `r` can be taken (R163): the part runs, no job executes, the store takes requests and a completion record
is free; and nothing is left over from an earlier command: no READ_ONLY cause waits and no erase waits to begin. -/
abbrev Takes (s : State) (r : Request) : Prop :=
  s.queues.requests.head? = some r ∧ s.busActive = true ∧ s.queues.executing = false ∧
  s.engine.store ≠ .mounting ∧ s.engine.store ≠ .formatting ∧ s.queues.completions.length < 8 ∧
  s.ctl = { stack := [], reply := none } ∧ s.engine.readOnlyDue = false ∧ s.seq.pending = none

/-- `r` is taken and not cancelled by the chain (R164, R165). -/
abbrev Unchained (s : State) (r : Request) : Prop := Takes s r ∧ (r.chain = true → s.queues.chainBroken = false)

/-- `r` is taken and passes the chain test, the state test and the form check (R45, R46, R165). -/
abbrev Serves (s : State) (r : Request) : Prop :=
  Unchained s r ∧ stateTest s.engine.store s.engine.dir.complete r = none ∧ r.formOk = true

/-- The row of the command table by which a request is taken: its kind, and IN_TXN for PUT, GET and DELETE. -/
def rowOf (r : Request) : Instr :=
  if r.kind = 1 then (if r.inTxn then .inTxnPut else .put)
  else if r.kind = 2 then (if r.inTxn then .inTxnGet else .get)
  else if r.kind = 3 then (if r.inTxn then .inTxnDelete else .delete)
  else if r.kind = 4 then .next else if r.kind = 5 then .beginTxn else if r.kind = 6 then .commit
  else if r.kind = 7 then .abandon else if r.kind = 8 then .reclaim else if r.kind = 9 then .info
  else if r.kind = 10 then .unlock else if r.kind = 11 then .lock else if r.kind = 12 then .setCode
  else if r.kind = 13 then .setPolicy else if r.kind = 14 then .format else .kindNamingNoKind

/-- The rows by which requests are taken. -/
def takings : List Instr :=
  [.put, .get, .delete, .next, .info, .beginTxn, .inTxnPut, .inTxnDelete, .inTxnGet, .commit, .abandon, .reclaim, .unlock,
   .lock, .setCode, .setPolicy, .format, .kindNamingNoKind]

/-- The state once `r` has been taken: marked executing, the chain-broken flag clear, and the idle timer stopped when `r` is a
transaction request (R161, R164, R72). -/
def taken (s : State) (r : Request) : State :=
  { s with
    queues := { s.queues with executing := true, chainBroken := false },
    engine := if r.isTxnRequest then { s.engine with txn := { s.engine.txn with timer := .stopped } } else s.engine }

/-- The idle timer once a transaction request's completion has been posted (R72). -/
def timerAfter (s : State) : IdleTimer :=
  if s.engine.txn.openTxn.isSome then
    (if s.window.txnLimit = 0 then .notRunning else .running s.window.txnLimit.toNat 0)
  else s.engine.txn.timer

/-- The state once the executing request `r` has completed with `c`: the record stands at the back of the completion queue, the
request has left, QUEUE_SPACE is raised on a fall from 4, the chain is broken by a status other than OK, the idle timer
restarts for a transaction request, and no job executes (R72, R161, R162, R164, R167). Nothing else changes. -/
def completes (s : State) (r : Request) (c : Completion) : State :=
  { s with
    queues :=
      { requests := s.queues.requests.tail, executing := false,
        chainBroken := s.queues.chainBroken || decide (c.status ≠ .ok),
        completions := s.queues.completions ++ [c],
        readPtr := if s.queues.completions.isEmpty then 0 else s.queues.readPtr },
    window := if s.queues.requests.length = 4 then { s.window with events := s.window.events ||| 0x02 } else s.window,
    engine := if r.isTxnRequest = true ∧ c.status ≠ .cancelled
      then { s.engine with txn := { s.engine.txn with timer := timerAfter s } } else s.engine,
    ctl := { stack := [], reply := none } }

/-- The completion with the request's tag, kind and key, the given status and no further contents (R47). -/
def plain (r : Request) (st : Status) : Completion :=
  { tag := r.tag, kind := r.kind, status := st, key := r.key, version := 0, length := 0, aux := 0, payload := [] }

/-- The completion of a request that the state test or the form check turns away: plain, with the FREE count as the aux of a
RECLAIM's (R100). -/
def turnedAway (s : State) (r : Request) (st : Status) : Completion :=
  if r.kind = 8 then { plain r st with aux := BitVec.ofNat 16 s.freeCount } else plain r st

/-- The sequencer takes no new operation into an erase: none is in flight, and it is not halted. -/
abbrev Free (s : State) : Prop := s.seq.erase = none ∧ s.seq.halted = false

/-- The state once a line program has been issued to a free sequencer by the tasks `k`. -/
def programs (s : State) (k : List Task) (sector line : Nat) (d : LineData) : State :=
  { s with
    ctl := { stack := k, reply := none },
    seq := { s.seq with inHand := some (.program sector line d), delivers := true, state := .programming } }

/-- The state once a line read has been issued to a sequencer without an erase in flight by the tasks `k`. -/
def reads (s : State) (k : List Task) (sector line : Nat) : State :=
  { s with
    ctl := { stack := k, reply := none },
    seq := { s.seq with inHand := some (.read sector line), delivers := true } }

/-- The state once a foreground erase of `sector` has been begun on a free sequencer by the tasks `k` (R109). -/
def erases (s : State) (k : List Task) (sector : Nat) : State :=
  { s with
    ctl := { stack := k, reply := none },
    seq := { s.seq with
      cells := writeCell s.seq.cells (lineAddr sector 0) .defective, state := .erasing,
      erase := some { sector := sector, background := false, elapsed := 0, suspensions := 0 } } }

/-- The state once an anchor write of the record `a`, its first or second slot attempt, has been placed on a free sequencer by the
tasks `k` (R145): the first line of the slot at the write position, or the erase of the other anchor sector at position 42, or
the erase of anchor sector 0 when no write position is held. -/
def anchorPlaced (s : State) (k : List Task) (a : AnchorRecord) (second : Bool) : State :=
  match s.anchor.writePos with
  | some (x, slot) =>
    if slot < 42 then programs s (.anchorWrite a second (.line x slot 0) :: k) x (6 * slot) (.anchor a 0)
    else erases s (.anchorWrite a second (.erasing (1 - x)) :: k) (1 - x)
  | none => erases s (.anchorWrite a second (.erasing 0) :: k) 0

/-- The state once the tasks `k` have asked for the anchor write of the record `a`: it is the working contents at once (R145). -/
def anchorAsked (s : State) (k : List Task) (a : AnchorRecord) : State :=
  anchorPlaced { s with anchor := { s.anchor with working := some a } } k a false

/-- The record that retires `sector`: one generation higher, the sector in its retired set (R10, R145). -/
def retiring (a : AnchorRecord) (sector : Nat) : AnchorRecord :=
  { a with generation := a.generation + 1, retired := insertSector sector a.retired }

/-- The tasks `k` wait for a line program that is in hand, whatever its line reads. -/
abbrev Waits (s : State) (k : List Task) (sector line : Nat) (d : LineData) : Prop :=
  s.ctl = { stack := k, reply := none } ∧ s.seq.inHand = some (.program sector line d) ∧ s.seq.delivers = true ∧
  s.seq.pending = none ∧ s.engine.readOnlyDue = false

/-- The tasks `k` wait for the foreground erase `e` that is in flight. -/
abbrev Erases (s : State) (k : List Task) (e : EraseRec) : Prop :=
  s.ctl = { stack := k, reply := none } ∧ s.seq.erase = some e ∧ e.background = false ∧ s.seq.state = .erasing ∧
  s.seq.pending = none ∧ s.seq.waiting = none ∧ s.engine.readOnlyDue = false

/-- The tasks `k` wait for a line program that is in hand on a BLANK line. -/
abbrev Programs (s : State) (k : List Task) (sector line : Nat) (d : LineData) : Prop :=
  s.ctl = { stack := k, reply := none } ∧ s.seq.inHand = some (.program sector line d) ∧ s.seq.delivers = true ∧
  s.seq.pending = none ∧ s.engine.readOnlyDue = false ∧ s.lineAt sector line = .blank

/-- The tasks `k` wait for a line read that is in hand. -/
abbrev Reads (s : State) (k : List Task) (sector line : Nat) : Prop :=
  s.ctl = { stack := k, reply := none } ∧ s.seq.inHand = some (.read sector line) ∧ s.seq.delivers = true ∧
  s.seq.pending = none ∧ s.engine.readOnlyDue = false

/-- The sequencer once the program in hand has left line `line` of `sector` as `l` (R107). -/
def programmed (q : Sequencer) (sector line : Nat) (l : Line) : Sequencer :=
  { q with cells := writeCell q.cells (lineAddr sector line) l, inHand := none, delivers := true, state := q.afterOp }

/-- The state once the erase in flight of `sector` has ended PASS (R109). The model's counter of free values moves on. -/
def erased (s : State) (sector : Nat) : State :=
  { s with
    seq := { s.seq with cells := replaceSector s.seq.cells sector (fun _ => .blank), state := .idle, erase := none },
    freeCtr := s.freeCtr + 1 }

/-- A READ_ONLY cause takes effect at the end of a job or step: a READY store becomes READ_ONLY, an open transaction is dropped
(R10, R43, R81). -/
def turnsReadOnly (s : State) : State :=
  if s.engine.store = .ready then
    { s with
      engine := { s.engine with store := .readOnly, txn := { s.engine.txn with openTxn := none, timer := .stopped } },
      window := { s.window with events := s.window.events ||| 0x20 } }
  else s

/-- The state without a READ_ONLY cause that waits for the end of the job. -/
def undue (s : State) : State := { s with engine := { s.engine with readOnlyDue := false } }

/-- The append that raises S from its value in `s` brings it to its limit (R20). -/
def limitReached (s : State) : Bool := decide (4294963200 ≤ s.engine.seq.toNat + 1)

/-- The end `t` of a job or step in which a READ_ONLY cause was met or not (R20, R43; log 18). -/
def endsDue (due : Bool) (t : State) : State := if due then turnsReadOnly t else t

/-- The end of mount: READ_ONLY by one of the causes of R138, else READY, and the directory complete. -/
def mountEnded (s : State) : State :=
  { s with
    ctl := { stack := [], reply := none },
    engine := { s.engine with
      store := if s.usable < 8 ∨ s.freeCount = 0 ∨ 4294963200 ≤ s.engine.seq.toNat ∨ s.engine.dir.overflow = true ∨
        s.engine.anchorFailed = true then .readOnly else .ready,
      dir := { s.engine.dir with complete := true }, anchorFailed := false },
    window := { s.window with events := s.window.events ||| 0x20 } }

/-- The sequencer once the read in hand has ended (R106). -/
def readEnded (q : Sequencer) : Sequencer := { q with inHand := none, delivers := true, state := q.afterOp }

/-- A number from bytes, least significant byte first (R171). -/
def leNat : List Byte → Nat
  | [] => 0
  | b :: rest => b.toNat + 256 * leNat rest

/-- The block's reset values of power-on and pin reset (R4, R41, R42, R64, R82, R123, R143, R148, R170, R181), the array as `t`
itself holds it. -/
abbrev ResetValues (t : State) : Prop :=
  t.window = State.reset.window ∧ t.queues = State.reset.queues ∧ t.engine = State.reset.engine ∧
  t.ctl = State.reset.ctl ∧ t.log = none ∧ t.comp = State.reset.comp ∧ t.anchor = State.reset.anchor ∧
  t.zones = State.reset.zones ∧ t.seq = { State.reset.seq with cells := t.seq.cells }

/-- Members of one transaction with consecutive sequences (R131). -/
def isGroup (n : TxnNo) : List Member → Bool
  | [] => true
  | [m] => decide (m.header.memberOf = some n)
  | a :: b :: rest =>
    decide (a.header.memberOf = some n) && decide (a.header.seq.toNat + 1 = b.header.seq.toNat) && isGroup n (b :: rest)

/-- Replay of valid frames in line order, over the directory and the pending-member run. -/
def replays (d : Directory) (run : List Member) (ms : List Member) : Directory × List Member :=
  ms.foldl (fun p m => replayFrame p.1 p.2 m) (d, run)

/-- The mount phases' tasks that choose the anchor record. -/
def isAnchorScan : Task → Bool
  | .mountAnchor _ => true
  | _ => false

/-! ### Mount -/

/-- The scan of the anchor sectors when their lines read as `lines` says: lines 0 to 251 of sector 0, then of sector 1 (R144). -/
def anchorScan (lines : Nat → Nat → Line) : AnchorScan :=
  (List.range 504).foldl (fun a i => a.read (lines (i / 252) (i % 252)))
    { sector := 0, line := 0, slotLines := [], best := none, used0 := none, used1 := none }

/-- A slot whose six lines read as `line` says holds the valid record `r` (R141): all six GOOD with the part number of their
place and one generation. The fields are those of part 0 (log 21). -/
def ValidRecord (line : Nat → Line) (r : AnchorRecord) : Prop :=
  line 0 = .good (.anchor r 0) ∧ ∀ i < 6, ∃ q, line i = .good (.anchor q i) ∧ q.generation = r.generation

/-- The authoritative record (R144): the valid record with the highest generation, of equal ones that in the lower sector and
slot; and for each anchor sector the highest slot with a line that is not BLANK. -/
def AnchorChosen : Prop :=
  ∀ lines : Nat → Nat → Line,
    let valid := fun x slot r => x < 2 ∧ slot < 42 ∧ ValidRecord (fun i => lines x (6 * slot + i)) r
    let highest := fun x (used : Option Nat) => ∀ n, used = some n ↔
      n < 42 ∧ (∃ i, i < 6 ∧ lines x (6 * n + i) ≠ .blank) ∧ ∀ m, n < m → m < 42 → ∀ i, i < 6 → lines x (6 * m + i) = .blank
    let a := anchorScan lines
    (a.best = none ↔ ∀ x slot r, ¬ valid x slot r) ∧
    (∀ r x slot, a.best = some (r, x, slot) ↔ valid x slot r ∧ ∀ y m q, valid y m q →
      q.generation < r.generation ∨ (q.generation = r.generation ∧ (x < y ∨ (x = y ∧ slot ≤ m)))) ∧
    highest 0 a.used0 ∧ highest 1 a.used1

/-- The end of replay in the state `s`, with the findings `q` (R133 to R137): S, the counters and the tables are handed over;
then the first close line is issued, or tidy begins with an erase or a retirement, or mount ends or opens a head. `out` is what
the command answers. -/
def ReplayEnded (s : State) (q : Replay) (out : State → Prop) : Prop :=
  let u := { s with
    log := some q.tables,
    engine := { s.engine with
      seq := q.storeSeq, txnCounter := if q.maxTxn = (65535 : TxnNo) then 1 else q.maxTxn + 1 } }
  let g := q.tables.sortFree
  (∀ v todo, q.unclosed q.tables.head = v :: todo →
    out (programs u [.mountClose v todo] v.sector 2 (.closed v.lastUsed v.frames v.highest v.faults))) ∧
  (q.unclosed q.tables.head = [] →
    (∀ y, u.firstBlank = some y → (u.record y).worn = false → out (erases u [.mountErase y] y)) ∧
    (∀ y, u.firstBlank = some y → (u.record y).worn = true → s.contents.generation ≠ 4294967295 →
      out (anchorAsked u [.retire y, .mountSector] (retiring s.contents y))) ∧
    (u.firstBlank = none → q.tables.head.isSome = true ∨ g.free = [] → out (mountEnded { u with log := some g })) ∧
    (∀ y rest, u.firstBlank = none → q.tables.head = none → g.free = y :: rest →
      out (programs { u with log := some { g with nextRing := g.nextRing + 1 } }
        [.openHead y g.nextRing, .mountOpen] y 1 (.opened s.formatId g.nextRing q.storeSeq))))

/-- What a line makes of the scan of a ring sector (R18, R129). A header position: BLANK ends the scan, DEFECTIVE is counted and
passed over, a GOOD line without legal fields and a header that does not fit are passed over; every legal header counts toward
the highest values. A payload line: GOOD leads to the next line or yields the frame, DEFECTIVE is counted and the scan goes on
after it, BLANK after the frame's declared last line. A CLOSED sector's scan reads no line above its last used data line (log
25). -/
def ScanRules : Prop :=
  ∀ (p : Replay) (d : Directory) (l : Line),
    let seen := fun (h : FrameHeader) => { p with
      maxSeq := if p.maxSeq < h.seq then h.seq else p.maxSeq,
      maxTxn := if p.maxTxn < h.txn.getD 0 then h.txn.getD 0 else p.maxTxn }
    let yielded := fun (q : Replay) (h : FrameHeader) =>
      let r := replayFrame d p.run { header := h, sector := p.sector, line := p.pos }
      ({ q with
        frames := p.frames + 1, highest := if p.highest < h.seq then h.seq else p.highest, run := r.2, cur := none,
        pos := p.pos + h.lines }, r.1, false)
    (p.cur = none → p.nextLine = p.pos ∧
      (l = .blank → p.scanLine d l = (p, d, true)) ∧
      (l = .defective → p.scanLine d l = ({ p with defects := p.defects + 1, pos := p.pos + 1 }, d, false)) ∧
      (∀ c, l = .good c → c.asHeader = none → p.scanLine d l = ({ p with pos := p.pos + 1 }, d, false)) ∧
      (∀ c h, l = .good c → c.asHeader = some h →
        (255 < p.pos + h.lines - 1 → p.scanLine d l = ({ seen h with pos := p.pos + 1 }, d, false)) ∧
        (p.pos + h.lines - 1 ≤ 255 → h.lines = 1 → p.scanLine d l = yielded (seen h) h) ∧
        (p.pos + h.lines - 1 ≤ 255 → 1 < h.lines → p.scanLine d l = ({ seen h with cur := some (h, 0) }, d, false)))) ∧
    (∀ h k, p.cur = some (h, k) → p.nextLine = p.pos + 1 + k ∧
      (l = .defective →
        p.scanLine d l = ({ p with defects := p.defects + 1, pos := p.nextLine + 1, cur := none }, d, false)) ∧
      (l = .blank → p.scanLine d l = ({ p with pos := p.pos + h.lines, cur := none }, d, false)) ∧
      (∀ c, l = .good c →
        (k + 2 < h.lines → p.scanLine d l = ({ p with cur := some (h, k + 1) }, d, false)) ∧
        (h.lines ≤ k + 2 → p.scanLine d l = yielded p h))) ∧
    (∀ ring q c lu n hi f, noteOf p.notes p.sector = .closed ring q c lu n hi f → lu ≤ 255 → p.stop = lu + 1) ∧
    (∀ ring q c ok, noteOf p.notes p.sector = .unclosed ring q c ok → p.stop = 256) ∧
    (∀ ended, p.recordScan ended = { p with scans := p.scans ++
      [{ sector := p.sector, endLine := if ended then p.pos else p.stop, frames := p.frames, highest := p.highest,
         defects := p.defects }] })

/-- The scan of another ring sector begins at its line 3 (R18, R129). -/
def entering (p : Replay) (sector : Nat) (todo : List Nat) : Replay :=
  { p with sector := sector, todo := todo, pos := 3, cur := none, frames := 0, highest := 0, defects := 0 }

/-- The ring sectors still to be scanned, in the state `s` (R128, R129): line 3 of the next one that has a line to read is read,
a sector without one gives a scan without findings, and at the end of the ring a run that remains is discarded and replay ends.
`out` is what the command answers. -/
def RingGoesOn (s : State) (out : State → Prop) : List Nat → Replay → Prop
  | [], q => s.engine.store = .mounting → Free s → ReplayEnded s { q with todo := [], run := [] } out
  | x :: rest, q =>
    let p := entering q x rest
    (3 < p.stop → out (reads s [.mountReplay p] x 3)) ∧
    (p.stop ≤ 3 → RingGoesOn s out rest { p with scans := p.scans ++
      [{ sector := x, endLine := p.stop, frames := 0, highest := 0, defects := 0 }] })

/-! ### Reading a frame -/

/-- A LIVE entry's header line (R58, R91): it reads GOOD as a legal PUT header with the entry's key, version and value length,
whose frame lines end at or before line 255, with either member mark. A frame's header line is legal by R17 and R15 (log 43), a
payload line read as a header gives a free value (log 2) and any other line none. -/
def HeaderTests : Prop :=
  (∀ (e : Entry) (n : Nat) (l : Line), headerMatches e n l = true ↔
    e.line + putLines n - 1 ≤ 255 ∧ ∃ d m, l = .good d ∧ d.asHeader = some (.put e.key e.version m n)) ∧
  (∀ h g : FrameHeader, (LineData.frame h).asHeader = some g ↔
    g = h ∧ 1 ≤ h.seq.toNat ∧ (∀ t, h.txn = some t → 1 ≤ t.toNat) ∧ (∀ k q m n, h = .put k q m n → n ≤ 256) ∧
      ∀ q t c, h = .commit q t c → 1 ≤ c ∧ c ≤ 8) ∧
  (∀ d : LineData, (∀ h, d ≠ .frame h) → (∀ b, d ≠ .payload b) → d.asHeader = none)

/-- The lines after an erase of `x` that ended FAIL (R109). -/
abbrev FailedErase (s t : State) (x : Nat) : Prop :=
  t.lineAt x 0 = .defective ∧ (∀ l, l < 256 → t.lineAt x l = .blank ∨ t.lineAt x l = .defective) ∧
  ∀ y l, y ≠ x → l < 256 → t.lineAt y l = s.lineAt y l

/-! ### Appends that end without a placed frame (R22, R24, R54, R93) -/

/-- A line of the append in hand is being programmed whose failure ends it OUT_OF_SECTORS: the frame does not fit in the rest of
the head, which stays below 3 faults, and no sector is FREE (R22, R24). `v` is the state once the line has failed. -/
abbrev LastAttempt (s : State) (k : List Task) (j : AppendJob) (x st i : Nat) (v : State) : Prop :=
  ∃ t d ring w f lu n hi, Programs (undue s) (.append j (.programming x st i) :: k) x (st + i) d ∧ s.log = some t ∧ 2 ≤ x ∧ x < 64 ∧
    t.sectors.length = 62 ∧ t.head = some x ∧ t.record x = .head ring w f lu n hi ∧ f + 1 < 3 ∧
    256 < st + i + 1 + j.header.lines ∧ t.free = [] ∧
    v = { s with
      ctl := { stack := [], reply := none },
      seq := programmed s.seq x (st + i) .defective,
      log := some (t.setRecord x (.head ring w (f + 1) (st + i) n hi)) }

/-- A line of the append in hand is being programmed that is not its last, and the sequencer is halted, so that the next line will
be REFUSED (R118, R120). `v` is the state once the line has passed. -/
abbrev NextRefused (s : State) (k : List Task) (j : AppendJob) (x st i : Nat) (v : State) : Prop :=
  ∃ d, Programs (undue s) (.append j (.programming x st i) :: k) x (st + i) d ∧ s.seq.halted = true ∧ i + 1 < j.header.lines ∧
    v = { s with
      ctl := { stack := [], reply := none },
      seq := programmed s.seq x (st + i) (.good d),
      log := s.log.map (fun t => t.setRecord x ((t.record x).used (st + i))) }

/-- The append of a host write that waits as `task r` ends otherwise than PLACED (R54, R56): OUT_OF_SECTORS completes it
MEDIA_FAULT, a READY store then becoming READ_ONLY, and REFUSED HALTED; the directory and S stay. -/
def HostFails (task : Request → Task) : Prop :=
  ∀ (s : State) (r : Request) (j : AppendJob) (x st i : Nat) (v : State),
    (LastAttempt s [task r] j x st i v → ∀ event ∈ [Instr.lineProgramDone false, .programTimeout],
      exec event s = .next (turnsReadOnly (completes (undue v) r (plain r .mediaFault)))) ∧
    (NextRefused s [task r] j x st i v →
      exec (.lineProgramDone true) s = .next (endsDue s.engine.readOnlyDue (completes (undue v) r (plain r .halted))))

/-- The append of a copy, or of a media loss's tombstone, ends otherwise than PLACED, within the tasks `k` (R93): OUT_OF_SECTORS
sets the stopped marker and makes the store READ_ONLY, and what follows is `readOnly`; REFUSED leaves the store HALTED, and what
follows is `halted`; the directory, S and the stage stay. -/
def CopyFails (k : List Task) (readOnly halted : State → State) : Prop :=
  ∀ (s : State) (task : Task) (j : AppendJob) (x st i : Nat) (v : State),
    (∃ e, task = .copyAppend e) ∨ (∃ e q, task = .lossAppend e q) →
    (LastAttempt s (task :: k) j x st i v → s.engine.store = .ready → ∀ event ∈ [Instr.lineProgramDone false, .programTimeout],
      exec event s = .next (readOnly (turnsReadOnly (undue { v with comp := { s.comp with stopped := true } })))) ∧
    (NextRefused s (task :: k) j x st i v → s.engine.store = .halted →
      exec (.lineProgramDone true) s = .next (halted (undue v)))

/-! ### Compaction steps within a job (R86) -/

/-- The write `w` that the request `r`, once taken, brings to the placement test, and the state `u` then (R52, R55, R76): it has
passed its kind's checks and admission; a COMMIT has closed the transaction. -/
def Admitted (s : State) (r : Request) (w : StalledWrite) (u : State) : Prop :=
  let es := s.engine.dir.entries
  let passes := fun f n => s.engine.dir.admission s.limit (writeCharge es r.key f) n = none
  (r.kind = 1 ∧ r.inTxn = false ∧ s.writeAccess (zoneOf r.key) = none ∧ conditionFails es r.key r.condition = none ∧
    passes (putLines r.payload.length) (newEntryOf es r.key) ∧ w = .put r ∧ u = taken s r) ∨
  (r.kind = 3 ∧ r.inTxn = false ∧ s.writeAccess (zoneOf r.key) = none ∧ (findLive es r.key).isSome = true ∧
    conditionFails es r.key r.condition = none ∧ passes 1 0 ∧ w = .delete r ∧ u = taken s r) ∨
  (r.kind = 6 ∧ ∃ t, s.engine.txn.openTxn = some t ∧ t.staged ≠ [] ∧ t.staged.all s.recheckPasses = true ∧
    s.engine.dir.admission s.limit (commitCharge es t.staged) (commitNewEntries es t.staged) = none ∧
    w = .commit { request := r, number := t.number, staged := t.staged, placed := [] } ∧
    u = { taken s r with engine := { s.engine with txn := { s.engine.txn with openTxn := none, timer := .stopped } } })

/-- The write has written nothing yet; a COMMIT's list is not empty. -/
def Fresh : StalledWrite → Prop
  | .commit c => c.placed = [] ∧ c.staged ≠ []
  | _ => True

/-- A staged entry's member frame with its value (R77). -/
def memberFrame (e : Staged) (q : Seq) (n : TxnNo) : FrameHeader × List Byte :=
  match e.value with
  | some v => (.put e.key q (some n) v.length, v)
  | none => (.delete e.key q (some n), [])

/-- The first frame of a write with its value, at sequence `q` (R53, R56, R77). -/
def firstFrame (q : Seq) : StalledWrite → FrameHeader × List Byte
  | .put r => (.put r.key q none r.payload.length, r.payload)
  | .delete r => (.delete r.key q none, [])
  | .commit c => match c.staged.head? with
    | some e => memberFrame e q c.number
    | none => (.commit q c.number 0, [])

/-- The task that waits for a write's append. -/
def writeTask : StalledWrite → Task
  | .put r => .put r
  | .delete r => .delete r
  | .commit c => .commit c

/-- The state once a write has entered the stall: stall mode, the no-gain count 0 and the limit recorded (R62, R87). -/
def stalling (s : State) : State :=
  { s with comp := { s.comp with stallMode := true, noGain := 0, noGainLimit := some (max 1 s.closedCount) } }

/-- The state once a RECLAIM's target, the no-gain count 0 and the limit have been recorded (R87, R99). -/
def reclaiming (s : State) (target : Nat) : State :=
  { s with comp := { s.comp with reclaimTarget := some target, noGain := 0, noGainLimit := some (max 1 s.closedCount) } }

/-- The tests of the stall or the RECLAIM that waits as task `k` do not end it, and the compactor goes on (R63, R84, R100). -/
def GoesOn (s : State) (k : Task) : Prop :=
  s.engine.store = .ready ∧ s.comp.stopped = false ∧ (∀ l, s.comp.noGainLimit = some l → s.comp.noGain < l) ∧
  match k with
  | .stall w => s.comp.stallMode = true ∧ s.needsNewHead w.lines = true ∧ s.freeCount < 2
  | .reclaim _ => ∃ n, s.comp.reclaimTarget = some n ∧ s.freeCount < n
  | _ => False

/-- The copy step on the victim `x` within the job `k`, from the state `u` (R90, R96): the frame of a LIVE entry is read, also
when the step before it removed a DEAD one; with no entry left the background erase begins and the job waits. `out` is what the
command answers. -/
def CopyInJob (u : State) (k : Task) (x : Nat) (out : State → Prop) : Prop :=
  (∀ e, locatedEntry u.engine.dir.entries x = some e → u.seq.erase = none →
    (e.live ≠ none → out (reads u [.readFrame e 0 [], .copyRead e, k] e.sector e.line)) ∧
    (∀ e', e.live = none → locatedEntry (u.engine.dir.remove e.key).entries x = some e' → e'.live ≠ none →
      out (reads { u with engine := { u.engine with dir := u.engine.dir.remove e.key } }
        [.readFrame e' 0 [], .copyRead e', k] e'.sector e'.line))) ∧
  (∀ t ring c f, locatedEntry u.engine.dir.entries x = none → u.log = some t → t.record x = .victim ring c f false →
    c < 100000 → Free u →
    out { u with
      ctl := { stack := [k], reply := none },
      log := some (t.setRecord x (.erasing ring c f)),
      comp := { u.comp with stage := .erasing },
      seq := { u.seq with
        cells := writeCell u.seq.cells (lineAddr x 0) .defective, state := .erasing,
        erase := some { sector := x, background := true, elapsed := 0, suspensions := 0 } } })

/-- The compactor's next step within the job `k`, from the state `u`, by its stage (R84, R86, R88, R89, R98): a CLOSED tail
becomes the victim (one without LIVE entries also when there is no head and no FREE sector: log 40) and the first copy step
follows; a round under way is continued; an erase in flight is waited for. -/
def StepInJob (u : State) (k : Task) (out : State → Prop) : Prop :=
  (∀ t x ring c f lu cond, u.comp.stage = .idle → u.log = some t → t.ring.head? = some x →
    t.record x = .closed ring c f lu cond →
    u.needsNewHead (liveLinesIn u.engine.dir.entries x) = false ∨ 0 < u.freeCount ∨ liveLinesIn u.engine.dir.entries x = 0 →
    CopyInJob { u with
      log := some (t.setRecord x (.victim ring c f cond)),
      comp := { u.comp with stage := .copying, victim := some x, roundStart := some u.freeCount, refused := none } } k x out) ∧
  (∀ x, u.comp.stage = .copying → u.comp.victim = some x → CopyInJob u k x out) ∧
  (u.comp.stage = .erasing → out { u with ctl := { stack := [k], reply := none } }) ∧
  (∀ t x ring c f, u.comp.stage = .finishing → u.comp.victim = some x → u.comp.eraseOutcome = some true →
    u.log = some t → t.record x = .erasing ring c f → Free u →
    out (programs u [.formatLine x (c + 1), .finishRound, k] x 0 (.format u.formatId (c + 1))))

/-- The job `k` waits for the compactor's background erase `e` (R86, R96). -/
abbrev WaitsForErase (s : State) (k : Task) (e : EraseRec) : Prop :=
  s.ctl = { stack := [k], reply := none } ∧ s.seq.erase = some e ∧ e.background = true ∧ s.seq.state = .erasing ∧
  s.seq.pending = none ∧ s.seq.waiting = none ∧ s.engine.readOnlyDue = false ∧ s.comp.stage = .erasing ∧
  s.comp.victim = some e.sector

/-- The end of the background erase that the job `k` waits for (R97, R98): after PASS the finishing step follows within the job,
its format line with one more erase; after FAIL the retirement of the victim. -/
def ErasedInJob (k : Task) : Prop :=
  ∀ (s : State) (e : EraseRec) (t : LogTables) (ring : Seq) (c f : Nat), WaitsForErase s k e → s.seq.halted = false →
    GoesOn s k → s.log = some t → t.record e.sector = .erasing ring c f →
    exec (.eraseDone true) s = .next (programs
      { erased s e.sector with comp := { s.comp with stage := .finishing, eraseOutcome := some true } }
      [.formatLine e.sector (c + 1), .finishRound, k] e.sector 0 (.format s.formatId (c + 1))) ∧
    (s.contents.generation ≠ 4294967295 → ∀ event ∈ [Instr.eraseDone false, .eraseTimeLimit],
      ∃ u, exec event s = .next (anchorAsked u [.retire e.sector, .finishRound, k] (retiring s.contents e.sector)) ∧
        u = { s with
          seq := { s.seq with cells := u.seq.cells, state := .idle, erase := none }, freeCtr := u.freeCtr,
          comp := { s.comp with stage := .finishing, eraseOutcome := some false } } ∧ FailedErase s u e.sector)

/-- The state once the victim's format line has passed and the round has ended, for a job's tests (R5, R87, R98). -/
def roundEnded (s : State) (t : LogTables) (x c : Nat) (d : LineData) : State :=
  { s with
    ctl := { stack := [], reply := none },
    seq := programmed s.seq x 0 (.good d),
    log := some { t.setRecord x (.free c) with
      free := t.free.filter (· != x) ++ [x], ring := t.ring.filter (· != x) },
    comp := { s.comp with
      stage := .idle, victim := none, roundStart := none, eraseOutcome := none,
      noGain := if s.comp.roundStart.getD 0 < (t.free.filter (· != x)).length + 1 then 0 else min 62 (s.comp.noGain + 1) } }

/-- The state once a copy has been placed and its entry relocated, for a job's tests (R91). -/
def copyEnded (s : State) (j : AppendJob) (e : Entry) (x st i : Nat) (d : LineData) : State :=
  { s with
    ctl := { stack := [], reply := none },
    seq := programmed s.seq x (st + i) (.good d),
    log := s.log.map (fun (t : LogTables) => t.setRecord x (((t.record x).used (st + i)).framed j.header.seq)),
    engine := { s.engine with dir := s.engine.dir.relocate e.key e.version x st } }

/-- The state once a media loss's tombstone with sequence `q` has been placed and its entry converted, for a job's tests (R92). -/
def lossEnded (s : State) (j : AppendJob) (e : Entry) (q : Seq) (x st i : Nat) (d : LineData) : State :=
  { s with
    ctl := { stack := [], reply := none },
    seq := programmed s.seq x (st + i) (.good d),
    log := s.log.map (fun (t : LogTables) => t.setRecord x (((t.record x).used (st + i)).framed j.header.seq)),
    engine := { s.engine with seq := s.engine.seq + 1, dir := s.engine.dir.convertOnLoss e.key e.version q x st },
    window := { s.window with events := s.window.events ||| 0x08, lossKey := e.key } }

/-- The end of a copy step of the job `k` whose append has been placed, a copy or a tombstone: a READ_ONLY cause met in the
step, S reaching its limit among them, makes the READY store READ_ONLY and ends the job as `readOnly` says; otherwise the next
step follows (R20, R63, R86, R91, R92, R100). -/
def PlacedInJob (k : Task) (readOnly : State → State) : Prop :=
  (∀ (s : State) (j : AppendJob) (e : Entry) (x st i : Nat) (d : LineData),
    Programs (undue s) [.append j (.programming x st i), .copyAppend e, k] x (st + i) d → i + 1 = j.header.lines →
    s.engine.store = .ready →
    let u := copyEnded s j e x st i d
    (s.engine.readOnlyDue = true → exec (.lineProgramDone true) s = .next (readOnly (turnsReadOnly (undue u)))) ∧
    (s.engine.readOnlyDue = false → GoesOn u k → StepInJob u k (fun v => exec (.lineProgramDone true) s = .next v))) ∧
  (∀ (s : State) (j : AppendJob) (e : Entry) (q : Seq) (x st i : Nat) (d : LineData),
    Programs (undue s) [.append j (.programming x st i), .lossAppend e q, k] x (st + i) d → i + 1 = j.header.lines →
    s.engine.store = .ready → s.engine.seq ≠ 4294967295 →
    let u := lossEnded s j e q x st i d
    ((s.engine.readOnlyDue || limitReached s) = true →
      exec (.lineProgramDone true) s = .next (readOnly (turnsReadOnly (undue u)))) ∧
    ((s.engine.readOnlyDue || limitReached s) = false → GoesOn u k →
      StepInJob u k (fun v => exec (.lineProgramDone true) s = .next v)))

/-- The first append of a write that leaves the stall in the state `u` (R21, R22, R63): the header line at the head's next line
when the frame fits there, and otherwise the head's close line; without a head the open line of the next. -/
def WriteProceeds (u : State) (w : StalledWrite) (out : State → Prop) : Prop :=
  let f := firstFrame u.engine.seq w
  let j : AppendJob := { header := f.1, value := f.2, host := true, programmed := false }
  (∀ x nl, u.headPos = some (x, nl) → nl + j.header.lines ≤ 256 →
    out (programs u [.append j (.programming x nl 0), writeTask w] x nl (.frame j.header))) ∧
  (∀ t x ring c f lu n hi, u.log = some t → t.head = some x → t.record x = .head ring c f lu n hi →
    256 < lu + 1 + j.header.lines → 2 ≤ t.free.length →
    out (programs u [.closeHead x, .append j .closingForRoom, writeTask w] x 2 (.closed lu n hi f))) ∧
  (∀ t y rest, u.log = some t → t.head = none → t.free = y :: rest → 2 ≤ t.free.length →
    out (programs { u with log := some { t with nextRing := t.nextRing + 1 } }
      [.openHead y t.nextRing, .append j .opening, writeTask w] y 1 (.opened u.formatId t.nextRing u.engine.seq)))

end Sys2Proof.Certificates

open Sys2Proof Sys2Proof.Machine Sys2Proof.Certificates

/-! ### The step -/

/-- A step takes the command at the front of the queue and runs it on the state with the queue's rest. -/
def Obligations.StepRunsFrontCommand : Prop :=
  ∀ (c : Instr) (rest : List Instr) (s : State), s.pending = c :: rest → step s = exec c { s with pending := rest }

/-- THE MODEL'S CHOICE (log 12): a step on an empty queue is one 10 ms tick when the part runs and no line read or program is in
hand. The idle timer's count rises and the timer expires at its limit; the elapsed erase time rises by 10 ms (R72, R73,
R109). -/
def Obligations.EmptyQueueTicks : Prop :=
  ∀ s : State, s.pending = [] →
    (s.busActive = false ∨ s.seq.inHand ≠ none → step s = .next s) ∧
    (∀ l e, s.busActive = true → s.seq.inHand = none → s.seq.erase = none → s.engine.txn.timer = .running l e →
      e + 1 < l →
      step s = .next { s with engine := { s.engine with txn := { s.engine.txn with timer := .running l (e + 1) } } }) ∧
    (∀ l e t, s.busActive = true → s.seq.inHand = none → s.seq.erase = none → s.engine.txn.timer = .running l e →
      s.engine.txn.openTxn = some t → l ≤ e + 1 →
      step s = .next { s with
        engine := { s.engine with txn := { openTxn := none, timer := .stopped, expired := some t.number } },
        window := { s.window with events := s.window.events ||| 0x04, expiredTxn := t.number } }) ∧
    (∀ e, s.busActive = true → s.seq.inHand = none → s.engine.txn.timer = .stopped → s.seq.erase = some e →
      s.seq.state = .erasing → e.elapsed + 10 < 200 →
      step s = .next { s with seq := { s.seq with erase := some { e with elapsed := e.elapsed + 10 } } })

/-- Every command has its meaning in every state; the one fault is an ARRAY_OWN_LOSS of a line the array does not have: R104 gives
the lines there are, and that such an operand faults is the model's choice (log 32). -/
def Obligations.EveryCommandCompletes : Prop :=
  (∀ (c : Instr) (s : State), c.wellFormed = true → ∃ t, exec c s = .next t) ∧
  (∀ (x l : Nat) (s : State), ¬ (x < 64 ∧ l < 256) → exec (.arrayOwnLoss x l) s = .fault .noSuchLine)

/-- No command changes the queue of commands that wait. -/
def Obligations.CommandsKeepQueue : Prop :=
  ∀ (c : Instr) (s t : State), exec c s = .next t → t.pending = s.pending

/-! ### The register window -/

/-- GO (R160): the four results in the order of their tests, what each does to the request queue and the fill buffer, in every
store state; the result is shown in SUBMIT_RESULT and reads NONE after every reset. -/
def Obligations.GoSubmits : Prop :=
  (∀ s : State, s.busActive = true →
    exec .go s = .next (
      if s.window.fillOverflow = true then
        { s with window := { s.window with fill := [], fillOverflow := false, submitResult := .overflow } }
      else if s.window.fill.length ≠ s.window.reqLength.toNat then
        { s with window := { s.window with fill := [], fillOverflow := false, submitResult := .length } }
      else if 4 ≤ s.queues.requests.length then { s with window := { s.window with submitResult := .queueFull } }
      else
        { s with
          window := { s.window with fill := [], fillOverflow := false, submitResult := .accepted },
          queues := { s.queues with requests := s.queues.requests ++
            [{ tag := s.window.reqTag, kind := s.window.reqKind, key := s.window.reqKey, flags := s.window.reqFlags,
               version := s.window.reqVersion, param := s.window.reqParam, length := s.window.reqLength,
               payload := s.window.fill }] } })) ∧
  (∀ s : State, s.window.fill.length ≤ 256 → 256 < s.window.reqLength.toNat →
    s.window.fill.length ≠ s.window.reqLength.toNat) ∧
  (∀ s : State, s.busActive = true → s.busRead 0x06 = s.window.submitResult.code) ∧
  (∀ (c : Instr) (s : State), c.resets = true → s.busActive = true ∨ c = .powerOn →
    ∃ t, exec c s = .next t ∧ t.window.submitResult = .none)

/-- The fill buffer (R159): WRITE_DATA stores a byte at the fill count or drops it with the overflow flag set, CLEAR_FILL
empties the buffer and clears the flag and leaves the rest, FILL_COUNT reports the count, and the bytes cannot be read back. -/
def Obligations.FillBuffer : Prop :=
  (∀ (b : Byte) (s : State), s.busActive = true →
    exec (.writeData b) s = .next (
      if s.window.fill.length < 256 then { s with window := { s.window with fill := s.window.fill ++ [b] } }
      else { s with window := { s.window with fillOverflow := true } })) ∧
  (∀ s : State, s.busActive = true →
    exec .clearFill s = .next { s with window := { s.window with fill := [], fillOverflow := false } }) ∧
  (∀ s : State, s.busActive = true → s.window.fill.length ≤ 256 →
    s.busRead 0x14 = BitVec.ofNat 8 s.window.fill.length ∧
    (s.fillCount &&& 0x01FF).toNat = s.window.fill.length ∧ s.fillCount.getLsbD 15 = s.window.fillOverflow) ∧
  (∀ (s : State) (f : List Byte) (a : BitVec 6), f.length = s.window.fill.length →
    State.busRead { s with window := { s.window with fill := f } } a = s.busRead a)

/-- POP, READ_DATA, REWIND and the completion registers (R168, R169): what each does with a head record and with an empty queue.
That the byte a read returns is held in State is the model's choice (log 17). -/
def Obligations.CompletionReading : Prop :=
  (∀ (s : State) (c : Completion) (rest : List Completion), s.busActive = true → s.queues.completions = c :: rest →
    exec .pop s = .next { s with queues := { s.queues with completions := rest, readPtr := 0 } } ∧
    exec .rewind s = .next { s with queues := { s.queues with readPtr := 0 } } ∧
    (s.queues.readPtr < c.payload.length →
      exec .readData s = .next { s with
        window := { s.window with busData := c.payload.getD s.queues.readPtr 0 },
        queues := { s.queues with readPtr := s.queues.readPtr + 1 } }) ∧
    (c.payload.length ≤ s.queues.readPtr →
      exec .readData s = .next { s with window := { s.window with busData := 0 } }) ∧
    s.busRead 0x18 = c.tag ∧ s.busRead 0x19 = c.kind ∧ s.busRead 0x1A = c.status.code ∧
    s.busRead 0x1B = c.key.setWidth 8 ∧ s.busRead 0x1D = c.version.setWidth 8 ∧
    s.busRead 0x21 = BitVec.ofNat 8 c.length ∧ s.busRead 0x23 = c.aux.setWidth 8) ∧
  (∀ s : State, s.busActive = true → s.queues.completions = [] →
    exec .pop s = .next s ∧ exec .rewind s = .next s ∧
    exec .readData s = .next { s with window := { s.window with busData := 0 } } ∧
    s.busRead 0x17 = 0 ∧ s.busRead 0x18 = 0 ∧ s.busRead 0x19 = 0 ∧ s.busRead 0x1A = 0 ∧ s.busRead 0x1B = 0 ∧
    s.busRead 0x1D = 0 ∧ s.busRead 0x21 = 0 ∧ s.busRead 0x23 = 0)

/-- CAPTURE_LATCH (R172): the read of the lowest byte loads the latch with the whole value and returns the low byte, and
changes nothing else; the other bytes read from the latch. That the byte a read returns is held in State is the model's choice
(log 17). -/
def Obligations.CaptureLatches : Prop :=
  ∀ s : State, s.busActive = true →
    exec (.captureLatch .fillCount) s = .next { s with window := { s.window with
      latchFillCount := s.fillCount, busData := s.fillCount.setWidth 8 } } ∧
    exec (.captureLatch .cplKey) s = .next { s with window := { s.window with
      latchCplKey := s.cplKey, busData := s.cplKey.setWidth 8 } } ∧
    exec (.captureLatch .cplVersion) s = .next { s with window := { s.window with
      latchCplVersion := s.cplVersion, busData := s.cplVersion.setWidth 8 } } ∧
    exec (.captureLatch .cplLength) s = .next { s with window := { s.window with
      latchCplLength := s.cplLength, busData := s.cplLength.setWidth 8 } } ∧
    exec (.captureLatch .cplAux) s = .next { s with window := { s.window with
      latchCplAux := s.cplAux, busData := s.cplAux.setWidth 8 } } ∧
    exec (.captureLatch .lossKey) s = .next { s with window := { s.window with
      latchLossKey := s.window.lossKey, busData := s.window.lossKey.setWidth 8 } } ∧
    exec (.captureLatch .expiredTxn) s = .next { s with window := { s.window with
      latchExpiredTxn := s.window.expiredTxn, busData := s.window.expiredTxn.setWidth 8 } } ∧
    s.busRead 0x15 = (s.window.latchFillCount >>> 8).setWidth 8 ∧ s.busRead 0x1C = (s.window.latchCplKey >>> 8).setWidth 8 ∧
    s.busRead 0x1E = (s.window.latchCplVersion >>> 8).setWidth 8 ∧
    s.busRead 0x1F = (s.window.latchCplVersion >>> 16).setWidth 8 ∧
    s.busRead 0x20 = (s.window.latchCplVersion >>> 24).setWidth 8 ∧
    s.busRead 0x22 = (s.window.latchCplLength >>> 8).setWidth 8 ∧ s.busRead 0x24 = (s.window.latchCplAux >>> 8).setWidth 8 ∧
    s.busRead 0x2A = (s.window.latchLossKey >>> 8).setWidth 8 ∧
    s.busRead 0x2C = (s.window.latchExpiredTxn >>> 8).setWidth 8

/-- EVENT_STATUS and the status registers (R171 to R174, R178, R181): a write to EVENT_STATUS clears each latched event whose
bit is 1 and nothing else; the register shows the level COMPLETION_READY at bit 0, the latched events at bits 1 to 5, and 0 at
bits 6 and 7. While the part runs, IDENT_PART, IDENT_LEVEL, STORE_STATE, QUEUE_STATUS, EVENT_STATUS, FREE_COUNT, USABLE,
LOSS_KEY, EXPIRED_TXN and ZONE_STATUS read as their owners' values, and the write-only and unused addresses read 0. -/
def Obligations.EventStatusClears : Prop :=
  (∀ (v : Byte) (s : State), s.busActive = true →
    exec (.eventStatus v) s = .next { s with window := { s.window with events := s.window.events &&& ~~~(v &&& 0x3E) } }) ∧
  (∀ (s : State) (i : Nat), s.eventStatus.getLsbD i =
    if i = 0 then !s.queues.completions.isEmpty
    else if i ≤ 5 then s.window.events.getLsbD i
    else false) ∧
  (∀ s : State, s.busActive = true →
    s.busRead 0x00 = 0x2C ∧ s.busRead 0x01 = 0x01 ∧
    s.busRead 0x02 = (match s.engine.store with
      | .mounting => 0 | .ready => 1 | .readOnly => 2 | .unformatted => 3 | .formatting => 4 | .halted => 5) ∧
    (s.queuesWf = true →
      (s.busRead 0x03 &&& 0x07).toNat = s.queues.requests.length ∧
      (s.busRead 0x03).getLsbD 3 = s.queues.chainBroken ∧
      (s.busRead 0x03 >>> 4).toNat = s.queues.completions.length) ∧
    s.busRead 0x04 = s.eventStatus ∧
    (∀ t, s.log = some t → t.free.length ≤ 62 →
      (s.busRead 0x27).toNat = t.free.length ∧
      (s.busRead 0x28).toNat = 62 - (t.sectors.filter (· == .retired)).length) ∧
    (s.log = none → s.busRead 0x27 = 0 ∧ s.busRead 0x28 = 0) ∧
    s.busRead 0x29 = s.window.lossKey.setWidth 8 ∧ s.busRead 0x2B = s.window.expiredTxn.setWidth 8 ∧
    (∀ z : Fin 4, (s.busRead 0x2D).getLsbD (2 * z.val) = s.zones[z].unlocked ∧
      (s.busRead 0x2D).getLsbD (2 * z.val + 1) = s.zones[z].lockout) ∧
    (∀ a : BitVec 6, a.toNat = 0x07 ∨ a.toNat = 0x16 ∨ 0x2E ≤ a.toNat → s.busRead a = 0))

/-- EVENT_ENABLE and INT# (R179): bits 6 and 7 are stored as 0, and the register reads back what is stored; INT# is asserted
exactly while the part runs and an event is present with its enable set; power-on and pin reset clear the enables and the soft
reset keeps them; after a soft reset INT# is deasserted; with STATE_CHANGED enabled the end of mount asserts it. -/
def Obligations.EventEnableAndInt : Prop :=
  (∀ (v : Byte) (s : State), s.busActive = true →
    exec (.eventEnable v) s = .next { s with window := { s.window with eventEnable := v &&& 0x3F } }) ∧
  (∀ s : State, s.busActive = true → s.busRead 0x05 = s.window.eventEnable) ∧
  (∀ s : State, s.intAsserted = true ↔
    s.busActive = true ∧ ∃ i, i < 6 ∧ s.eventStatus.getLsbD i = true ∧ s.window.eventEnable.getLsbD i = true) ∧
  (∀ s : State,
    (∃ t, exec .powerOn s = .next t ∧ t.window.eventEnable = 0) ∧
    (s.busActive = true → ∃ t, exec .rstAsserted s = .next t ∧ t.window.eventEnable = 0) ∧
    (s.busActive = true → ∃ t, exec .softReset s = .next t ∧
      t.window.eventEnable = s.window.eventEnable ∧ t.queues.completions = [] ∧ t.window.events = 0 ∧
      t.intAsserted = false)) ∧
  (∀ s : State, s.busActive = true → s.engine.store = .mounting → s.window.eventEnable.getLsbD 5 = true →
    s.mountEnds.intAsserted = true)

/-- LOW_WATER and TXN_LIMIT (R180): LOW_WATER is clamped to 3 to 16, TXN_LIMIT stores any value; both read back; the compactor
compares the FREE count with LOW_WATER at each test and a round is not touched by a write; a write leaves a running timer as
it was and the next restart takes the new limit, where 0 leaves it not running; power-on and pin reset give 4 and 50 and the
soft reset keeps both. -/
def Obligations.ConfigurationValues : Prop :=
  (∀ (v : Byte) (s : State), s.busActive = true →
    let w : Byte := if v < 3 then 3 else if 16 < v then 16 else v
    exec (.lowWater v) s = .next { s with window := { s.window with lowWater := w } } ∧
    exec (.registerWrite 0x26 v) s = .next { s with window := { s.window with txnLimit := v } }) ∧
  (∀ s : State, s.busActive = true → s.busRead 0x25 = s.window.lowWater ∧ s.busRead 0x26 = s.window.txnLimit) ∧
  (∀ s : State, s.engine.store = .ready ∨ s.engine.store = .readOnly → s.comp.stopped = false →
    s.comp.stallMode = false → s.comp.reclaimTarget = none →
    (s.comp.stage = .copying → (s.asksForStep = true ↔ s.freeCount < s.window.lowWater.toNat)) ∧
    (s.comp.stage = .idle → (s.asksForStep = true ↔
      s.freeCount < s.window.lowWater.toNat ∧ s.tailClosed = true ∧ s.comp.noGain < max 1 s.closedCount ∧
        s.comp.refused ≠ some s.freeCount))) ∧
  (∀ s : State, s.engine.txn.openTxn.isSome = true → s.restartTimer.engine.txn.timer =
    if s.window.txnLimit = 0 then .notRunning else .running s.window.txnLimit.toNat 0) ∧
  (∀ s : State,
    (∃ t, exec .powerOn s = .next t ∧ t.window.lowWater = 4 ∧ t.window.txnLimit = 50) ∧
    (s.busActive = true → ∃ t, exec .rstAsserted s = .next t ∧ t.window.lowWater = 4 ∧ t.window.txnLimit = 50) ∧
    (s.busActive = true → ∃ t, exec .softReset s = .next t ∧
      t.window.lowWater = s.window.lowWater ∧ t.window.txnLimit = s.window.txnLimit))

/-- REGISTER_WRITE (R171, R172, R181): a byte written to a request field register is stored and reads back, and changes no other
register; a write to a read-only or unused register is ignored; CONTROL carries out the command its value names and ignores
another value (R176); a write to EVENT_STATUS, EVENT_ENABLE, WRITE_DATA or LOW_WATER acts as that register's own row. That a
write to an address with a row of its own acts as that row is the model's reading (log 30). -/
def Obligations.RegisterWrites : Prop :=
  ∀ (a : BitVec 6) (v : Byte) (s : State), s.busActive = true →
    (0x08 ≤ a.toNat → a.toNat ≤ 0x13 →
      ∃ t, exec (.registerWrite a v) s = .next t ∧ t.busRead a = v ∧ (∀ b, b ≠ a → t.busRead b = s.busRead b) ∧
        t = { s with window := { s.window with
          reqTag := t.window.reqTag, reqKind := t.window.reqKind, reqKey := t.window.reqKey, reqFlags := t.window.reqFlags,
          reqVersion := t.window.reqVersion, reqParam := t.window.reqParam, reqLength := t.window.reqLength } }) ∧
    (a.toNat < 0x04 ∨ a.toNat = 0x06 ∨ a.toNat = 0x14 ∨ a.toNat = 0x15 ∨ (0x17 ≤ a.toNat ∧ a.toNat ≤ 0x24) ∨
      0x27 ≤ a.toNat → exec (.registerWrite a v) s = .next s) ∧
    exec (.registerWrite 0x04 v) s = exec (.eventStatus v) s ∧ exec (.registerWrite 0x05 v) s = exec (.eventEnable v) s ∧
    exec (.registerWrite 0x16 v) s = exec (.writeData v) s ∧ exec (.registerWrite 0x25 v) s = exec (.lowWater v) s ∧
    exec (.registerWrite 0x07 0x01) s = exec .go s ∧ exec (.registerWrite 0x07 0x02) s = exec .pop s ∧
    exec (.registerWrite 0x07 0x03) s = exec .clearFill s ∧ exec (.registerWrite 0x07 0x04) s = exec .rewind s ∧
    exec (.registerWrite 0x07 0xA5) s = exec .softReset s ∧
    (v ≠ 0x01 → v ≠ 0x02 → v ≠ 0x03 → v ≠ 0x04 → v ≠ 0xA5 → exec (.registerWrite 0x07 v) s = .next s)

/-! ### Resets, the supply and the power-fail warning -/

/-- SOFT_RESET (R177 with R121, R148, R170): every block takes its reset value; the window keeps the enables, the configuration
values and the request fields; the zones keep their counts and lockouts; a program in hand goes on without its issuer, and
with no erase in flight the array is unchanged. That the pins and the queue of commands stay is the model's frame; the value 0
of what is discarded (log 16) and of the byte the data lines last carried (log 17) are its choices. -/
def Obligations.SoftResetValues : Prop :=
  ∀ s : State, s.busActive = true → ∃ t, exec .softReset s = .next t ∧
    t.window = { State.reset.window with
      eventEnable := s.window.eventEnable, lowWater := s.window.lowWater, txnLimit := s.window.txnLimit,
      reqTag := s.window.reqTag, reqKind := s.window.reqKind, reqKey := s.window.reqKey, reqFlags := s.window.reqFlags,
      reqVersion := s.window.reqVersion, reqParam := s.window.reqParam, reqLength := s.window.reqLength } ∧
    t.queues = State.reset.queues ∧ t.engine = State.reset.engine ∧ t.ctl = State.reset.ctl ∧ t.log = none ∧
    t.comp = State.reset.comp ∧ t.anchor = State.reset.anchor ∧ t.pins = s.pins ∧ t.pending = s.pending ∧
    (∀ z : Fin 4, t.zones[z] = { s.zones[z] with unlocked := false }) ∧
    t.seq.halted = false ∧ t.seq.erase = none ∧ t.seq.pending = none ∧ t.seq.waiting = none ∧
    (∀ x l d, s.seq.inHand = some (.program x l d) →
      t.seq.inHand = some (.program x l d) ∧ t.seq.delivers = false ∧ t.seq.state = .programming) ∧
    ((∀ x l d, s.seq.inHand ≠ some (.program x l d)) → t.seq.inHand = none ∧ t.seq.state = .idle) ∧
    (s.seq.erase = none → t.seq.cells = s.seq.cells) ∧
    (∀ e, s.seq.erase = some e →
      t.lineAt e.sector 0 = .defective ∧
      (∀ l, l < 256 → t.lineAt e.sector l = .blank ∨ t.lineAt e.sector l = .defective) ∧
      (∀ x l, x ≠ e.sector → l < 256 → t.lineAt x l = s.lineAt x l))

/-- RST_ASSERTED, POWER_LOSS and POWER_ON give every block its power-on and pin reset value (R122, R148, R170, R181), and leave
the array as it was when no program and no erase is in flight; the releases of RST# and PFW# change the pin alone; under RST#
every register reads 0, INT# is deasserted and writes are ignored (R171). The value 0 of what R42 and R65 call discarded
(log 16) and of the byte the data lines last carried (log 17), that the values are taken at POWER_LOSS already (log 15), and
that a part without power reads 0 and ignores writes as one under RST# does (logs 15 and 17) are the model's choices. -/
def Obligations.HardResetValues : Prop :=
  (∀ s : State,
    (s.busActive = true → ∃ t, exec .rstAsserted s = .next t ∧ ResetValues t ∧
      t.pins = { s.pins with rstAsserted := true } ∧ t.pending = s.pending ∧
      (s.seq.inHand = none → s.seq.erase = none → t.seq.cells = s.seq.cells)) ∧
    (s.pins.powered = true → ∃ t, exec .powerLoss s = .next t ∧ ResetValues t ∧
      t.pins = { s.pins with powered := false } ∧ t.pending = s.pending ∧
      (s.seq.inHand = none → s.seq.erase = none → t.seq.cells = s.seq.cells)) ∧
    (∃ t, exec .powerOn s = .next t ∧ ResetValues t ∧
      t.pins = { s.pins with powered := true } ∧ t.pending = s.pending ∧
      (s.seq.inHand = none → s.seq.erase = none → t.seq.cells = s.seq.cells)) ∧
    exec .rstDeasserted s = .next { s with pins := { s.pins with rstAsserted := false } } ∧
    exec .pfwDeasserted s = .next { s with pins := { s.pins with pfwAsserted := false } }) ∧
  (∀ s : State, s.busActive = false →
    s.intAsserted = false ∧ (∀ a, s.busRead a = 0) ∧
    (∀ c ∈ [Instr.go, .pop, .clearFill, .rewind, .softReset], exec c s = .next s) ∧
    (∀ (a : BitVec 6) (v : Byte), exec (.registerWrite a v) s = .next s ∧ exec (.writeData v) s = .next s ∧
      exec (.eventStatus v) s = .next s ∧ exec (.eventEnable v) s = .next s ∧ exec (.lowWater v) s = .next s))

/-- Operations that RST# or a power loss cuts short (R111): a program leaves its line BLANK, DEFECTIVE or GOOD with the bytes that
were being programmed; an erase leaves each line of its sector BLANK or DEFECTIVE; no other line changes. A program served
inside a suspended erase is cut short with it. Whatever the free values are. -/
def Obligations.CutShortLines : Prop :=
  ∀ (c : Instr) (s t : State), c = .rstAsserted ∨ c = .powerLoss → s.busActive = true → s.arrayWf = true →
    exec c s = .next t →
    (∀ x l d, s.seq.inHand = some (.program x l d) → s.lineAt x l = .blank → s.seq.erase = none →
      (t.lineAt x l = .blank ∨ t.lineAt x l = .defective ∨ t.lineAt x l = .good d) ∧
      (∀ x' l', lineAddr x' l' ≠ lineAddr x l → t.lineAt x' l' = s.lineAt x' l')) ∧
    (∀ e, s.seq.erase = some e → (∀ x l d, s.seq.inHand ≠ some (.program x l d)) →
      (∀ l, l < 256 → t.lineAt e.sector l = .blank ∨ t.lineAt e.sector l = .defective) ∧
      (∀ x l, x ≠ e.sector → l < 256 → t.lineAt x l = s.lineAt x l)) ∧
    (∀ x l d e, s.seq.inHand = some (.program x l d) → s.seq.erase = some e → x ≠ e.sector → l < 256 →
      (s.lineAt x l = .blank → t.lineAt x l = .blank ∨ t.lineAt x l = .defective ∨ t.lineAt x l = .good d) ∧
      (s.lineAt x l ≠ .blank → t.lineAt x l = s.lineAt x l) ∧
      (∀ l', l' < 256 → t.lineAt e.sector l' = .blank ∨ t.lineAt e.sector l' = .defective) ∧
      (∀ x' l', x' ≠ e.sector → l' < 256 → ¬ (x' = x ∧ l' = l) → t.lineAt x' l' = s.lineAt x' l')) ∧
    (∀ x l, s.seq.inHand = some (.read x l) → s.seq.erase = none → t.seq.cells = s.seq.cells)

/-- PFW_ASSERTED (R44, R81, R118, R119): taken while no reset is in progress and the halted flag is clear, it makes the store
HALTED and the sequencer halted without an erase, drops an open transaction and keeps the expired mark; with nothing in flight
that is all it does; in a reset or with the halted flag set only the pin changes. Taken while mount runs, it stops mount: the
line operation in hand ends with its outcome taken by nothing, an erase is abandoned with its sector's record as it was (R139).
That a soft reset which waits for its program to end is still in progress is the model's reading (log 14). -/
def Obligations.PowerFailHalts : Prop :=
  (∀ s : State, s.pins.powered = true → s.resetInProgress = false → s.pins.pfwAsserted = false → s.seq.halted = false →
    ∃ t, exec .pfwAsserted s = .next t ∧ t.engine.store = .halted ∧ t.seq.halted = true ∧ t.seq.erase = none ∧
      t.engine.txn.openTxn = none ∧ t.engine.txn.expired = s.engine.txn.expired ∧
      t.pins = { s.pins with pfwAsserted := true }) ∧
  (∀ s : State, s.pins.powered = true → s.resetInProgress = false → s.pins.pfwAsserted = false → s.seq.halted = false →
    s.ctl = { stack := [], reply := none } → s.seq.inHand = none → s.seq.erase = none → s.seq.pending = none →
    s.seq.waiting = none → s.engine.store ≠ .halted →
    exec .pfwAsserted s = .next { s with
      pins := { s.pins with pfwAsserted := true },
      engine := { s.engine with store := .halted, txn := { s.engine.txn with openTxn := none, timer := .stopped } },
      window := { s.window with events := s.window.events ||| 0x20 },
      seq := { s.seq with halted := true, state := .halted } }) ∧
  (∀ s : State, s.resetInProgress = true ∨ s.seq.halted = true →
    exec .pfwAsserted s = .next { s with pins := { s.pins with pfwAsserted := true } }) ∧
  (∀ (s : State) (op : LineOp), s.pins.powered = true → s.resetInProgress = false → s.pins.pfwAsserted = false →
    s.seq.halted = false → s.engine.store = .mounting → s.ctl.stack ≠ [] → s.ctl.reply = none → s.seq.inHand = some op →
    s.seq.erase = none → s.seq.pending = none → s.seq.waiting = none → retiringSector s.ctl.stack = none →
    exec .pfwAsserted s = .next { s with
      pins := { s.pins with pfwAsserted := true },
      ctl := { stack := [], reply := none },
      engine := { s.engine with store := .halted, txn := { s.engine.txn with openTxn := none, timer := .stopped } },
      window := { s.window with events := s.window.events ||| 0x20 },
      seq := { s.seq with halted := true, delivers := false, state := if op.isProgram then .programming else .halted } }) ∧
  (∀ (s : State) (e : EraseRec), s.pins.powered = true → s.resetInProgress = false → s.pins.pfwAsserted = false →
    s.seq.halted = false → s.engine.store = .mounting → s.ctl.stack ≠ [] → s.ctl.reply = none → s.seq.inHand = none →
    s.seq.erase = some e → e.background = false → s.seq.pending = none → s.seq.waiting = none →
    retiringSector s.ctl.stack = none →
    ∃ u, exec .pfwAsserted s = .next u ∧ FailedErase s u e.sector ∧ u = { s with
      pins := { s.pins with pfwAsserted := true },
      ctl := { stack := [], reply := none },
      engine := { s.engine with store := .halted, txn := { s.engine.txn with openTxn := none, timer := .stopped } },
      window := { s.window with events := s.window.events ||| 0x20 },
      seq := { s.seq with cells := u.seq.cells, halted := true, delivers := true, erase := none, state := .halted },
      freeCtr := u.freeCtr })

/-! ### Mount -/

/-- MOUNT (R124 to R126, R128, R129, R133 to R138, R141, R144): it begins with the read of line 0 of anchor sector 0 when the
sequencer is IDLE, PFW# is deasserted and no mount runs; that the command does nothing otherwise is the model's choice (log 8).
The anchor phase reads lines 0 to 251 of anchor sectors 0 and 1 in order and chooses the valid record of the highest generation,
in the lower sector and slot on a tie (its fields are read from part 0: log 21); with none mount ends UNFORMATTED with the default
zone table, else the survey reads lines 0 to 2 of each sector that is not retired, and after the last the ring is scanned line by
line from line 3 of its first sector. At the end of replay S is one more than the highest sequence found, the next ring sequence
one more than the highest, the transaction counter follows the highest number, and the newest ring sector becomes the head when it
is UNCLOSED, eligible, below 3 faults and not full. Each other UNCLOSED sector is closed in ring order, a close line that fails or
is found not BLANK condemning it; that its record is CLOSED before its close line is programmed is the model's reading (log 24),
as it is that the scan of a CLOSED sector stops above its last used data line also inside a frame (log 25). Each BLANK sector is
erased and formatted; mount then ends when it has a head, and otherwise opens the front of the free list, sorted by erase count.
It ends READ_ONLY by one of the causes of R138 and READY otherwise. -/
def Obligations.MountBeginsAndEnds : Prop :=
  AnchorChosen ∧
  (∀ s : State, s.busActive = true → s.pins.pfwAsserted = false → s.engine.store = .mounting →
    s.ctl = { stack := [], reply := none } → s.seq.state = .idle → s.seq.inHand = none → s.sequencerWf = true →
    exec .mount s = .next (reads { s with engine := { s.engine with anchorFailed := false } }
      [.mountAnchor { sector := 0, line := 0, slotLines := [], best := none, used0 := none, used1 := none }] 0 0)) ∧
  (∀ s : State, s.busActive = false ∨ s.pins.pfwAsserted = true ∨ s.engine.store ≠ .mounting ∨ s.ctl.stack ≠ [] ∨
    s.seq.state ≠ .idle ∨ s.seq.inHand ≠ none → exec .mount s = .next s) ∧
  (∀ (s : State) (a : AnchorScan), Reads s [.mountAnchor a] 1 251 → a.sector = 1 → a.line = 251 → a.best = none →
    slotRecord (a.slotLines ++ [s.lineAt 1 251]) = none → s.engine.store = .mounting →
    exec .lineReadDone s = .next { s with
      ctl := { stack := [], reply := none },
      seq := readEnded s.seq,
      anchor :=
        { working := some
            { generation := 0, formatId := 0,
              zones := Vector.replicate 4 { policy := .policyOpen, code := List.replicate 8 0 }, retired := [] },
          location := none, writePos := none },
      engine := { s.engine with store := .unformatted, dir := { s.engine.dir with complete := true } },
      window := { s.window with events := s.window.events ||| 0x20 } }) ∧
  (∀ (s : State) (a : AnchorScan), Reads s [.mountAnchor a] a.sector a.line → s.seq.erase = none →
    let b := a.read (s.lineAt a.sector a.line)
    let u := { s with seq := readEnded s.seq }
    (a.sector < 2 → a.line < 251 → exec .lineReadDone s = .next (reads u [.mountAnchor b] a.sector (a.line + 1))) ∧
    (a.sector = 0 → a.line = 251 → exec .lineReadDone s = .next (reads u [.mountAnchor b] 1 0)) ∧
    (∀ r x slot y rest, a.sector = 1 → a.line = 251 → b.best = some (r, x, slot) →
      poolSectors.filter (fun z => !r.retired.contains z) = y :: rest →
      exec .lineReadDone s = .next (reads
        { u with anchor :=
            { working := some r, location := some (x, slot),
              writePos := some (x, (if x = 0 then b.used0 else b.used1).getD slot + 1) } }
        [.mountSurvey y [] rest (r.retired.map (fun z => (z, .retired)))] y 0))) ∧
  (∀ (s : State) (x : Nat) (read : List Line) (todo : List Nat) (notes : List (Nat × SurveyNote)),
    Reads s [.mountSurvey x read todo notes] x read.length → s.seq.erase = none →
    let u := { s with seq := readEnded s.seq }
    let l := s.lineAt x read.length
    (read.length < 2 →
      exec .lineReadDone s = .next (reads u [.mountSurvey x (read ++ [l]) todo notes] x (read.length + 1))) ∧
    (∀ l0 l1 y rest, read = [l0, l1] → todo = y :: rest →
      exec .lineReadDone s = .next (reads u
        [.mountSurvey y [] rest (notes ++ [(x, classify s.formatId l0 l1 l)])] y 0)) ∧
    (∀ l0 l1, read = [l0, l1] → todo = [] →
      let ns := notes ++ [(x, classify s.formatId l0 l1 l)]
      let p : Replay :=
        { notes := ns, scans := [], todo := [], sector := 0, pos := 3, cur := none, frames := 0, highest := 0, defects := 0,
          run := [], maxSeq := 0, maxTxn := 0 }
      RingGoesOn u (fun v => exec .lineReadDone s = .next v) (ringOf ns) p)) ∧
  (∀ (s : State) (t : LogTables) (x : Nat) (ring : Seq) (d : LineData),
    Programs s [.openHead x ring, .mountOpen] x 1 d → s.engine.store = .mounting → s.log = some t →
    exec (.lineProgramDone true) s = .next (mountEnded
      { s with seq := programmed s.seq x 1 (.good d), log := some (t.becomeHead x ring) })) ∧
  (∀ p : Replay,
    let tops := p.maxSeq :: p.notes.map (fun n => n.2.topSeq)
    let rings := p.notes.map (fun n => (n.2.opened.map Prod.fst).getD 0)
    ((∀ q ∈ tops, q ≠ 4294967295) →
      (∀ q ∈ tops, q.toNat < p.storeSeq.toNat) ∧ ∃ q ∈ tops, p.storeSeq.toNat = q.toNat + 1) ∧
    ((∀ q ∈ rings, q ≠ 4294967295) →
      (∀ q ∈ rings, q.toNat < p.nextRing.toNat) ∧ ∃ q ∈ 0 :: rings, p.nextRing.toNat = q.toNat + 1) ∧
    (∀ x, p.tables.head = some x ↔
      (ringOf p.notes).getLast? = some x ∧ ∃ ring q c, noteOf p.notes x = .unclosed ring q c true ∧
        (scanOf p.scans x).defects < 3 ∧ (scanOf p.scans x).endLine < 256) ∧
    (∀ x ring q c, p.tables.head = some x → 2 ≤ x → x < 64 → noteOf p.notes x = .unclosed ring q c true →
      let n := scanOf p.scans x
      p.tables.record x = .head ring c n.defects (n.endLine - 1) n.frames n.highest)) ∧
  (∀ (s : State) (p : Replay), Reads s [.mountReplay p] p.sector p.nextLine → s.seq.erase = none →
    let r := p.scanLine s.engine.dir (s.lineAt p.sector p.nextLine)
    let u := { s with seq := readEnded s.seq, engine := { s.engine with dir := r.2.1 } }
    (r.2.2 = false → r.1.nextLine < r.1.stop →
      exec .lineReadDone s = .next (reads u [.mountReplay r.1] r.1.sector r.1.nextLine)) ∧
    (r.2.2 = true ∨ r.1.stop ≤ r.1.nextLine →
      RingGoesOn u (fun v => exec .lineReadDone s = .next v) p.todo (r.1.recordScan r.2.2))) ∧
  (∀ (s : State) (v : Unclosed) (todo : List Unclosed) (t : LogTables) (ring : Seq) (c f lu : Nat) (cond : Bool) (d : LineData),
    Waits s [.mountClose v todo] v.sector 2 d → Free s → s.log = some t → t.record v.sector = .closed ring c f lu cond →
    let blank := s.lineAt v.sector 2 = .blank
    ∀ event, (blank ∧ event ∈ [Instr.lineProgramDone true, .lineProgramDone false, .programTimeout]) ∨
        (¬ blank ∧ event ∈ [Instr.lineProgramDone true, .lineProgramDone false]) →
      let good := blank ∧ event = .lineProgramDone true
      let u := { s with
        seq := programmed s.seq v.sector 2 (if good then .good d else if blank then .defective else s.lineAt v.sector 2),
        log := some (t.setRecord v.sector (.closed ring c f lu (cond || decide (¬ good)))) }
      (∀ w rest, todo = w :: rest →
        exec event s = .next (programs u [.mountClose w rest] w.sector 2 (.closed w.lastUsed w.frames w.highest w.faults))) ∧
      (∀ y, todo = [] → u.firstBlank = some y → (u.record y).worn = false →
        exec event s = .next (erases u [.mountErase y] y)) ∧
      (∀ y, todo = [] → u.firstBlank = some y → (u.record y).worn = true → s.contents.generation ≠ 4294967295 →
        exec event s = .next (anchorAsked u [.retire y, .mountSector] (retiring s.contents y)))) ∧
  (∀ (s : State) (e : EraseRec), Erases s [.mountErase e.sector] e → s.seq.halted = false →
    let count := ((s.record e.sector).eraseCount.orElse (fun _ => s.log.bind LogTables.highestErase)).getD 0 + 1
    exec (.eraseDone true) s = .next (programs (erased s e.sector)
      [.formatLine e.sector count, .mountSector] e.sector 0 (.format s.formatId count))) ∧
  (∀ (s : State) (t : LogTables) (x c : Nat) (d : LineData), Programs s [.formatLine x c, .mountSector] x 0 d → Free s →
    s.log = some t → s.engine.store = .mounting →
    let g := (t.freed x c).sortFree
    let u := { s with seq := programmed s.seq x 0 (.good d), log := some (t.freed x c) }
    (∀ y, u.firstBlank = some y → (u.record y).worn = false →
      exec (.lineProgramDone true) s = .next (erases u [.mountErase y] y)) ∧
    (u.firstBlank = none → t.head.isSome = true →
      exec (.lineProgramDone true) s = .next (mountEnded { u with log := some g })) ∧
    (∀ y rest, u.firstBlank = none → t.head = none → g.free = y :: rest →
      exec (.lineProgramDone true) s = .next (programs { u with log := some { g with nextRing := t.nextRing + 1 } }
        [.openHead y t.nextRing, .mountOpen] y 1 (.opened s.formatId t.nextRing s.engine.seq))))

/-- The survey's classes (R126, R127), row by row, for the header lines of a pool sector and the anchor's format id; a FREE
sector keeps the highest sequence of its close line when that line is good, for S (R19, R133). A GOOD line of another kind is no
good format, open or close line, and an open line of another format id is none. That a close line is good with a last used data
line of 2 to 255 and a fault count of at most 3, and format and open lines with any values, is the model's reading of R3 (log
33). The ring is formed of the sectors classed CLOSED or UNCLOSED in ascending order of ring sequence, equal ones by sector
number (R128). -/
def Obligations.SurveyClasses : Prop :=
  (∀ (fid : Seq) (l1 l2 : Line),
    (∀ l0, (∀ f c, l0 ≠ .good (.format f c)) → classify fid l0 l1 l2 = .blank none) ∧
    (∀ f c, f ≠ fid → classify fid (.good (.format f c)) l1 l2 = .blank (some c)) ∧
    (∀ c, (∀ ring q, l1 ≠ .good (.opened fid ring q)) →
      ((∀ lu n hi f, l2 = .good (.closed lu n hi f) → ¬ (2 ≤ lu ∧ lu ≤ 255 ∧ f ≤ 3)) →
        classify fid (.good (.format fid c)) l1 l2 = .free c 0) ∧
      ∀ lu n hi f, 2 ≤ lu → lu ≤ 255 → f ≤ 3 →
        classify fid (.good (.format fid c)) l1 (.good (.closed lu n hi f)) = .free c hi) ∧
    (∀ c ring q lu n hi f, 2 ≤ lu → lu ≤ 255 → f ≤ 3 →
      classify fid (.good (.format fid c)) (.good (.opened fid ring q)) (.good (.closed lu n hi f)) =
        .closed ring q c lu n hi f) ∧
    (∀ c ring q, classify fid (.good (.format fid c)) (.good (.opened fid ring q)) .blank = .unclosed ring q c true) ∧
    (∀ c ring q, l2 ≠ .blank → (∀ lu n hi f, l2 = .good (.closed lu n hi f) → ¬ (2 ≤ lu ∧ lu ≤ 255 ∧ f ≤ 3)) →
      classify fid (.good (.format fid c)) (.good (.opened fid ring q)) l2 = .unclosed ring q c false)) ∧
  (∀ notes : List (Nat × SurveyNote), ∃ ps : List (Seq × Nat),
    ringOf notes = ps.map Prod.snd ∧
    ps.Perm (notes.filterMap (fun n => n.2.opened.map (fun o => (o.1, n.1)))) ∧
    ps.Pairwise (fun a b => a.1 < b.1 ∨ (a.1 = b.1 ∧ a.2 ≤ b.2))) ∧
  (∀ o : SurveyNote, ∀ ring q, o.opened = some (ring, q) ↔
    (∃ c lu n hi f, o = .closed ring q c lu n hi f) ∨ ∃ c ok, o = .unclosed ring q c ok)

/-- Replay (R18, R129 to R132): what each line makes of the scan of a ring sector. A PUT or DELETE frame is applied when its key
has no entry or one of its sequence or lower, and passed over otherwise; a plain one discards the pending-member run first. A
member frame starts the run, joins it when it is consecutive and the run holds fewer than 8, replaces the last member on a
repeated sequence, and starts it anew otherwise, a ninth member too. Up to 8 members of one transaction with consecutive sequences
change nothing until their COMMIT frame, whose sequence, number and count match, applies them in order; a COMMIT frame with
another count, number or sequence, or with an empty run, applies none. That the scan of a CLOSED sector reads no line above its
last used data line also inside a frame is the model's reading (log 25). -/
def Obligations.ReplayAppliesWholeGroups : Prop :=
  (∀ (d : Directory) (n : TxnNo) (ms : List Member), isGroup n ms = true → ms.length ≤ 8 →
    replays d [] ms = (d, ms) ∧
    (∀ (last : Member) (q : Seq) (x l : Nat), ms.getLast? = some last → last.header.seq.toNat + 1 = q.toNat →
      replays d [] (ms ++ [{ header := .commit q n ms.length, sector := x, line := l }]) =
        (ms.foldl Directory.replay d, [])) ∧
    (∀ (last : Member) (q : Seq) (k : TxnNo) (count x l : Nat), ms.getLast? = some last →
      count ≠ ms.length ∨ k ≠ n ∨ last.header.seq.toNat + 1 ≠ q.toNat →
      replays d [] (ms ++ [{ header := .commit q k count, sector := x, line := l }]) = (d, []))) ∧
  (∀ (d : Directory) (run : List Member) (m : Member) (k : Key) (q : Seq),
    (∀ mark n, m.header = .put k q mark n →
      (findEntry d.entries k = none ∨ (∃ e, findEntry d.entries k = some e ∧ e.version ≤ q) →
        d.replay m = d.installLive k q m.sector m.line n) ∧
      (∀ e, findEntry d.entries k = some e → q < e.version → d.replay m = d)) ∧
    (∀ mark, m.header = .delete k q mark →
      (findEntry d.entries k = none ∨ (∃ e, findEntry d.entries k = some e ∧ e.version ≤ q) →
        d.replay m = d.markDead k q m.sector m.line) ∧
      (∀ e, findEntry d.entries k = some e → q < e.version → d.replay m = d)) ∧
    ((∃ n, m.header = .put k q none n) ∨ m.header = .delete k q none → replayFrame d run m = (d.replay m, []))) ∧
  (∀ (d : Directory) (run : List Member) (m : Member) (t : TxnNo), m.header.memberOf = some t →
    replayFrame d [] m = (d, [m]) ∧
    (∀ last, last.header.memberOf = some t → last.header.seq.toNat + 1 = m.header.seq.toNat → run.length < 7 →
      replayFrame d (run ++ [last]) m = (d, run ++ [last, m])) ∧
    (∀ last, last.header.memberOf = some t → last.header.seq = m.header.seq →
      replayFrame d (run ++ [last]) m = (d, run ++ [m])) ∧
    (∀ last : Member, last.header.memberOf ≠ some t ∨
        (last.header.seq ≠ m.header.seq ∧ (last.header.seq.toNat + 1 ≠ m.header.seq.toNat ∨ 7 ≤ run.length)) →
      replayFrame d (run ++ [last]) m = (d, [m]))) ∧
  (∀ (d : Directory) (run : List Member) (last : Member) (q : Seq) (n : TxnNo) (c x l : Nat),
    let m : Member := { header := .commit q n c, sector := x, line := l }
    let hits := last.header.memberOf = some n ∧ last.header.seq.toNat + 1 = q.toNat ∧ c = run.length + 1
    replayFrame d [] m = (d, []) ∧
    (hits → replayFrame d (run ++ [last]) m = ((run ++ [last]).foldl Directory.replay d, [])) ∧
    (¬ hits → replayFrame d (run ++ [last]) m = (d, []))) ∧
  ScanRules

/-! ### Taking a request -/

/-- No request is taken while any condition of R163 fails; the command that would take it then changes nothing (log 8). -/
def Obligations.NothingTakenEarly : Prop :=
  ∀ c ∈ takings, ∀ s : State, s.move = none →
    s.queues.requests = [] ∨ s.busActive = false ∨ s.queues.executing = true ∨ s.engine.store = .mounting ∨
      s.engine.store = .formatting ∨ 8 ≤ s.queues.completions.length ∨ s.ctl.stack ≠ [] →
    exec c s = .next s

/-- A request carrying CHAIN that is taken while the chain-broken flag is set completes CANCELLED and has no other effect (R165),
whatever its kind and whatever the store state. -/
def Obligations.ChainCancels : Prop :=
  ∀ (s : State) (r : Request), Takes s r → r.chain = true → s.queues.chainBroken = true →
    exec (rowOf r) s = .next (completes s r (plain r .cancelled))

/-- The state test (R45): in READ_ONLY, UNFORMATTED and HALTED the kinds that do not pass complete at once with the state's status
and have no other effect; a RECLAIM's completion carries the FREE count in aux (R100). -/
def Obligations.StateTestAnswers : Prop :=
  ∀ (s : State) (r : Request), Unchained s r →
    (s.engine.store = .readOnly → r.kind ∉ [(2 : Byte), 4, 9, 10, 11, 14] →
      exec (rowOf r) s = .next (completes (taken s r) r (turnedAway s r .readOnly))) ∧
    (s.engine.store = .unformatted → r.kind ∉ [(9 : Byte), 10, 11, 14] →
      exec (rowOf r) s = .next (completes (taken s r) r (turnedAway s r .notReady))) ∧
    (s.engine.store = .halted → s.engine.dir.complete = false →
      exec (rowOf r) s = .next (completes (taken s r) r (turnedAway s r .halted))) ∧
    (s.engine.store = .halted → s.engine.dir.complete = true → r.kind ∉ [(2 : Byte), 4, 9] ∨ r.inTxn = true →
      exec (rowOf r) s = .next (completes (taken s r) r (turnedAway s r .halted)))

/-- The form check (R46): a request passes exactly when its kind is one of the 14, it carries only flags its kind takes and not
both conditions, and its value length and parameter are its kind's; a request that passes the state test and fails it completes
BAD_REQUEST, a RECLAIM with the FREE count in aux (R100). A kind code that names no kind is among these. -/
def Obligations.FormCheck : Prop :=
  (∀ r : Request, r.formOk = true ↔
    (1 ≤ r.kind.toNat ∧ r.kind.toNat ≤ 14) ∧
    (∀ i, 4 ≤ i → r.flags.getLsbD i = false) ∧
    (r.inTxn = true → r.kind = 1 ∨ r.kind = 2 ∨ r.kind = 3) ∧
    (r.ifAbsent = true → r.kind = 1) ∧ (r.ifVersion = true → r.kind = 1 ∨ r.kind = 3) ∧
    ¬ (r.ifAbsent = true ∧ r.ifVersion = true) ∧
    (r.kind = 1 → r.length.toNat ≤ 256) ∧ (r.kind = 10 ∨ r.kind = 12 → r.length.toNat = 8) ∧
    (r.kind ≠ 1 → r.kind ≠ 10 → r.kind ≠ 12 → r.length.toNat = 0) ∧
    (r.kind = 8 → 1 ≤ r.param.toNat ∧ r.param.toNat ≤ 62) ∧
    (r.kind = 10 ∨ r.kind = 11 ∨ r.kind = 12 ∨ r.kind = 13 → r.param.toNat ≤ 3)) ∧
  (∀ (s : State) (r : Request), Unchained s r → stateTest s.engine.store s.engine.dir.complete r = none →
    r.formOk = false → exec (rowOf r) s = .next (completes (taken s r) r (turnedAway s r .badRequest))) ∧
  (∀ (s : State) (r : Request), Unchained s r → s.engine.store = .ready → r.kind = 0 ∨ 14 < r.kind →
    exec .kindNamingNoKind s = .next (completes (taken s r) r (turnedAway s r .badRequest)))

/-! ### Record requests -/

/-- The checks of PUT and DELETE before anything is written (R48, R50, R51, R52, R55): zone, the key's state and the condition, an
expected version of 0 matching no key, then admission, which a DELETE fails when its charge is 0, the value being empty, while A
is above L. -/
def Obligations.WriteChecks : Prop :=
  ∀ (s : State) (r : Request), Serves s r → r.kind = 1 ∨ r.kind = 3 → r.inTxn = false →
    let es := s.engine.dir.entries
    let z := zoneOf r.key
    ((s.zoneEntry z).policy ≠ .policyOpen → s.zones[z].lockout = true →
      exec (rowOf r) s = .next (completes (taken s r) r (plain r .lockedOut))) ∧
    ((s.zoneEntry z).policy ≠ .policyOpen → s.zones[z].lockout = false → s.zones[z].unlocked = false →
      exec (rowOf r) s = .next (completes (taken s r) r (plain r .denied))) ∧
    (((s.zoneEntry z).policy = .policyOpen ∨ (s.zones[z].unlocked = true ∧ s.zones[z].lockout = false)) →
      (r.kind = 3 → findLive es r.key = none → exec (rowOf r) s = .next (completes (taken s r) r (plain r .notFound))) ∧
      (∀ e n, findLive es r.key = some (e, n) → r.ifAbsent = true →
        exec (rowOf r) s = .next (completes (taken s r) r { plain r .exists_ with version := e.version, length := n })) ∧
      (∀ e n, findLive es r.key = some (e, n) → r.ifVersion = true → e.version ≠ r.version ∨ r.version = 0 →
        exec (rowOf r) s =
          .next (completes (taken s r) r { plain r .versionMismatch with version := e.version, length := n })) ∧
      (r.kind = 1 → findLive es r.key = none → r.ifVersion = true →
        exec (rowOf r) s = .next (completes (taken s r) r (plain r .versionMismatch))) ∧
      (r.kind = 1 → conditionFails es r.key r.condition = none →
        let delta : Int := (putLines r.payload.length : Int) - chargeOf es r.key
        (¬ ((s.engine.dir.accounted : Int) + delta ≤ s.limit ∨ delta < 0) →
          exec (rowOf r) s = .next (completes (taken s r) r (plain r .full))) ∧
        ((s.engine.dir.accounted : Int) + delta ≤ s.limit ∨ delta < 0 → findEntry es r.key = none → 1024 ≤ es.length →
          exec (rowOf r) s = .next (completes (taken s r) r (plain r .noRoom)))) ∧
      (∀ e n, r.kind = 3 → findLive es r.key = some (e, n) → conditionFails es r.key r.condition = none →
        n = 0 → s.limit < s.engine.dir.accounted →
        exec (rowOf r) s = .next (completes (taken s r) r (plain r .full))))

/-- PUT (R52, R53, R20): a PUT that passes its checks and fits in the head has its header line issued at the head's next line;
when its last line passes, S rises by one, the key is installed LIVE at the frame, the no-gain count is 0 and the PUT completes OK
with the frame's sequence as its version. When S has then reached 4,294,963,200, or a READ_ONLY cause was met in the
append, a READY store becomes READ_ONLY once the completion is posted (log 18). An append that runs out of sectors completes it
MEDIA_FAULT and makes the store READ_ONLY, and one whose next line is refused completes it HALTED, with no install and S as it was
(R54). -/
def Obligations.PutAppends : Prop :=
  (∀ (s : State) (r : Request) (x nl : Nat), Serves s r → Free s → r.kind = 1 → r.inTxn = false →
    s.writeAccess (zoneOf r.key) = none → conditionFails s.engine.dir.entries r.key r.condition = none →
    s.engine.dir.admission s.limit (writeCharge s.engine.dir.entries r.key (putLines r.payload.length))
      (newEntryOf s.engine.dir.entries r.key) = none →
    s.headPos = some (x, nl) → nl + putLines r.payload.length ≤ 256 →
    let h : FrameHeader := .put r.key s.engine.seq none r.payload.length
    exec .put s = .next (programs (taken s r)
      [.append { header := h, value := r.payload, host := true, programmed := false } (.programming x nl 0), .put r]
      x nl (.frame h))) ∧
  (∀ (s : State) (r : Request) (j : AppendJob) (x st i : Nat) (d : LineData),
    Programs (undue s) [.append j (.programming x st i), .put r] x (st + i) d → i + 1 = j.header.lines →
    s.engine.seq ≠ 4294967295 →
    exec (.lineProgramDone true) s = .next (endsDue (s.engine.readOnlyDue || limitReached s) (completes
      { s with
        seq := programmed s.seq x (st + i) (.good d),
        log := s.log.map (fun t => t.setRecord x (((t.record x).used (st + i)).framed j.header.seq)),
        comp := { s.comp with noGain := 0 },
        engine := { s.engine with
          seq := s.engine.seq + 1,
          dir := s.engine.dir.installLive r.key s.engine.seq x st r.payload.length, readOnlyDue := false } }
      r { plain r .ok with version := s.engine.seq, length := r.payload.length }))) ∧
  HostFails .put

/-- DELETE (R55, R56, R20): as PUT, with a one-line tombstone and the key marked DEAD; S at its limit makes a READY store
READ_ONLY (log 18), and an append that fails completes it as a PUT's does (R54). -/
def Obligations.DeleteAppends : Prop :=
  (∀ (s : State) (r : Request) (e : Entry) (n x nl : Nat), Serves s r → Free s → r.kind = 3 → r.inTxn = false →
    s.writeAccess (zoneOf r.key) = none → findLive s.engine.dir.entries r.key = some (e, n) →
    conditionFails s.engine.dir.entries r.key r.condition = none →
    s.engine.dir.admission s.limit (writeCharge s.engine.dir.entries r.key 1) 0 = none →
    s.headPos = some (x, nl) → nl + 1 ≤ 256 →
    let h : FrameHeader := .delete r.key s.engine.seq none
    exec .delete s = .next (programs (taken s r)
      [.append { header := h, value := [], host := true, programmed := false } (.programming x nl 0), .delete r]
      x nl (.frame h))) ∧
  (∀ (s : State) (r : Request) (j : AppendJob) (x st i : Nat) (d : LineData),
    Programs (undue s) [.append j (.programming x st i), .delete r] x (st + i) d → i + 1 = j.header.lines →
    s.engine.seq ≠ 4294967295 →
    exec (.lineProgramDone true) s = .next (endsDue (s.engine.readOnlyDue || limitReached s) (completes
      { s with
        seq := programmed s.seq x (st + i) (.good d),
        log := s.log.map (fun t => t.setRecord x (((t.record x).used (st + i)).framed j.header.seq)),
        comp := { s.comp with noGain := 0 },
        engine := { s.engine with
          seq := s.engine.seq + 1, dir := s.engine.dir.markDead r.key s.engine.seq x st, readOnlyDue := false } }
      r { plain r .ok with version := s.engine.seq }))) ∧
  HostFails .delete

/-- The write stall (R62, R63, R76, R86 to R89): a PUT, DELETE or COMMIT that has passed admission and needs a new head while
fewer than 2 sectors are FREE stalls, with stall mode set, the no-gain count 0 and the limit recorded, and the compactor's next
step follows within the job: a CLOSED tail becomes the victim and its first entry's frame is read, or its erase begins and the
job waits; a round under way is continued. A COMMIT's total lines stand for its frame lines. A tail that is not CLOSED completes
it FULL, and a select step refused for want of space READ_ONLY. While a write is stalled, each placed copy or tombstone is
followed by the next step, or completes it READ_ONLY when a READ_ONLY cause was met; one whose append runs out of sectors stops
the compactor and completes it READ_ONLY, a refused one HALTED; the end of the erase is followed by the finishing step. The
stall ends with the write's first append when its lines fit or 2 sectors are FREE, FULL when the no-gain count has reached the
limit, and HALTED at once when PFW# is taken during the wait for the erase. Each end leaves stall mode and discards the limit.
That a tail without LIVE entries becomes the victim also when there is no head and no FREE sector is the model's choice (log
40); that a READ_ONLY cause takes effect at the end of its step is its reading (log 18). -/
def Obligations.StalledPutFull : Prop :=
  (∀ (s : State) (r : Request) (w : StalledWrite) (u : State), Serves s r → s.engine.store = .ready → Admitted s r w u →
    s.needsNewHead w.lines = true → s.freeCount < 2 → s.comp.stopped = false →
    let ended := { s.comp with stallMode := false, noGain := 0, noGainLimit := none }
    (s.comp.stage = .idle → s.tailClosed = false →
      exec (rowOf r) s = .next (completes { u with comp := ended } r (plain r .full))) ∧
    (∀ x, s.comp.stage = .idle → s.tail = some x → s.tailClosed = true → 0 < liveLinesIn s.engine.dir.entries x →
      s.needsNewHead (liveLinesIn s.engine.dir.entries x) = true → s.freeCount = 0 →
      exec (rowOf r) s = .next (completes (turnsReadOnly { u with comp := { ended with refused := some 0 } }) r
        (plain r .readOnly))) ∧
    StepInJob (stalling u) (.stall w) (fun v => exec (rowOf r) s = .next v)) ∧
  (∀ w : StalledWrite, w.lines = match w with
    | .put r => putLines r.payload.length
    | .delete _ => 1
    | .commit c => (c.staged.map (fun e => match e.value with
      | some v => putLines v.length
      | none => 1)).sum + 1) ∧
  (∀ w : StalledWrite,
    let ended := fun (st : Status) (v : State) =>
      completes { v with comp := { v.comp with stallMode := false, noGainLimit := none } } w.request (plain w.request st)
    PlacedInJob (.stall w) (ended .readOnly) ∧ CopyFails [.stall w] (ended .readOnly) (ended .halted)) ∧
  (∀ (s : State) (w : StalledWrite) (j : AppendJob) (e : Entry) (x st i : Nat) (d : LineData),
    Programs s [.append j (.programming x st i), .copyAppend e, .stall w] x (st + i) d → i + 1 = j.header.lines →
    let u := copyEnded s j e x st i d
    Fresh w → s.engine.store = .ready → Free s → u.needsNewHead w.lines = false →
      WriteProceeds { u with comp := { s.comp with stallMode := false, noGainLimit := none } } w
        (fun v => exec (.lineProgramDone true) s = .next v)) ∧
  (∀ (s : State) (w : StalledWrite) (j : AppendJob) (e : Entry) (q : Seq) (x st i : Nat) (d : LineData),
    Programs s [.append j (.programming x st i), .lossAppend e q, .stall w] x (st + i) d → i + 1 = j.header.lines →
    let u := lossEnded s j e q x st i d
    Fresh w → s.engine.store = .ready → s.engine.seq ≠ 4294967295 → limitReached s = false → Free s →
    u.needsNewHead w.lines = false →
      WriteProceeds { u with comp := { s.comp with stallMode := false, noGainLimit := none } } w
        (fun v => exec (.lineProgramDone true) s = .next v)) ∧
  (∀ w : StalledWrite, ErasedInJob (.stall w)) ∧
  (∀ (s : State) (w : StalledWrite) (t : LogTables) (x c : Nat) (d : LineData),
    Programs s [.formatLine x c, .finishRound, .stall w] x 0 d → s.log = some t → s.engine.store = .ready →
    let u := roundEnded s t x c d
    let ended := { u with comp := { u.comp with stallMode := false, noGainLimit := none } }
    (Fresh w → Free s → 2 ≤ u.freeCount → WriteProceeds ended w (fun v => exec (.lineProgramDone true) s = .next v)) ∧
    (∀ l, u.needsNewHead w.lines = true → u.freeCount < 2 → s.comp.noGainLimit = some l → l ≤ u.comp.noGain →
      exec (.lineProgramDone true) s = .next (completes ended w.request (plain w.request .full))) ∧
    (GoesOn u (.stall w) → StepInJob u (.stall w) (fun v => exec (.lineProgramDone true) s = .next v))) ∧
  (∀ (s : State) (w : StalledWrite) (e : EraseRec), WaitsForErase s (.stall w) e → s.engine.store ≠ .mounting →
    s.pins.powered = true → s.resetInProgress = false → s.pins.pfwAsserted = false → s.seq.halted = false →
    ∃ t, exec .pfwAsserted s = .next t ∧ t.queues.completions = s.queues.completions ++ [plain w.request .halted] ∧
      t.engine.store = .halted ∧ t.ctl = { stack := [], reply := none } ∧
      t.comp = { s.comp with stage := .idle, victim := none, roundStart := none, stallMode := false, noGainLimit := none })

/-- GET (R17, R49, R57 to R59): the read access test; NOT_FOUND for a key that is not LIVE; for a LIVE key the frame's lines are
read in order, header first; when all match it completes OK with the value, and at the first that does not it completes
MEDIA_FAULT with MEDIA_LOSS raised and the key in LOSS_KEY, the directory as it was. A header line matches when it reads GOOD as a
legal PUT header with the entry's key, version and value length that fits; that a header with sequence 0 is not legal is the
model's reading (log 43), and what a payload line gives as a header is free (log 2). -/
def Obligations.GetReadsFrame : Prop :=
  HeaderTests ∧
  (∀ (s : State) (r : Request), Serves s r → r.kind = 2 → r.inTxn = false →
    (∀ st, s.readAccess (zoneOf r.key) = some st → exec .get s = .next (completes (taken s r) r (plain r st))) ∧
    (s.readAccess (zoneOf r.key) = none → findLive s.engine.dir.entries r.key = none →
      exec .get s = .next (completes (taken s r) r (plain r .notFound))) ∧
    (∀ e n, s.readAccess (zoneOf r.key) = none → findLive s.engine.dir.entries r.key = some (e, n) →
      s.seq.erase = none →
      exec .get s = .next (reads (taken s r) [.readFrame e 0 [], .get r e] e.sector e.line))) ∧
  (∀ (s : State) (r : Request) (e : Entry) (n i : Nat) (got : List Byte),
    Reads s [.readFrame e i got, .get r e] e.sector (e.line + i) → e.live = some n →
    let l := s.lineAt e.sector (e.line + i)
    let t := { s with seq := readEnded s.seq }
    let lost := completes
      { t with window := { s.window with events := s.window.events ||| 0x08, lossKey := r.key } }
      r { plain r .mediaFault with version := e.version }
    (i = 0 → headerMatches e n l = false → exec .lineReadDone s = .next lost) ∧
    (i = 0 → headerMatches e n l = true → n = 0 →
      exec .lineReadDone s = .next (completes t r { plain r .ok with version := e.version })) ∧
    (i = 0 → headerMatches e n l = true → 0 < n → s.seq.erase = none →
      exec .lineReadDone s = .next (reads t [.readFrame e 1 [], .get r e] e.sector (e.line + 1))) ∧
    (0 < i → (∀ d, l ≠ .good d) → exec .lineReadDone s = .next lost) ∧
    (∀ d, 0 < i → l = .good d → i + 1 < putLines n → s.seq.erase = none →
      exec .lineReadDone s =
        .next (reads t [.readFrame e (i + 1) (got ++ d.asPayload.toList), .get r e] e.sector (e.line + (i + 1)))) ∧
    (∀ d, 0 < i → l = .good d → putLines n ≤ i + 1 →
      exec .lineReadDone s = .next (completes t r { plain r .ok with
        version := e.version, length := n, payload := (got ++ d.asPayload.toList).take n })))

/-- NEXT (R49, R60): the entry that the next-key search gives over the readable zones, or NOT_FOUND with the request's key. -/
def Obligations.NextAnswers : Prop :=
  ∀ (s : State) (r : Request), Serves s r → r.kind = 4 →
    (∀ e, nextEntry s.engine.dir.entries r.key (fun z => (s.readAccess z).isNone) = some e →
      exec .next s = .next (completes (taken s r) r
        { plain r .ok with key := e.key, version := e.version, length := e.live.getD 0 })) ∧
    (nextEntry s.engine.dir.entries r.key (fun z => (s.readAccess z).isNone) = none →
      exec .next s = .next (completes (taken s r) r (plain r .notFound)))

/-- INFO (R61, R166, R175): it completes OK with the 32-byte INFO block of the moment it is taken, each field at its place, least
significant byte first. -/
def Obligations.InfoAnswers : Prop :=
  (∀ (s : State) (r : Request), Serves s r → r.kind = 9 →
    exec .info s = .next (completes (taken s r) r { plain r .ok with length := 32, payload := s.infoBlock })) ∧
  (∀ s : State, s.infoBlock.length = 32 ∧
    s.infoBlock.take 6 = [s.engine.store.code, BitVec.ofNat 8 s.usable, BitVec.ofNat 8 s.freeCount,
      BitVec.ofNat 8 ((s.headPos.map Prod.fst).getD 0), BitVec.ofNat 8 (s.tail.getD 0), s.comp.stage.code] ∧
    leNat ((s.infoBlock.drop 6).take 2) = s.engine.dir.liveCount % 65536 ∧
    leNat ((s.infoBlock.drop 8).take 2) = s.engine.dir.deadCount % 65536 ∧
    leNat ((s.infoBlock.drop 10).take 2) = s.engine.dir.accounted % 65536 ∧
    leNat ((s.infoBlock.drop 12).take 2) = s.limit % 65536 ∧
    leNat ((s.infoBlock.drop 14).take 4) = s.engine.seq.toNat ∧
    leNat ((s.infoBlock.drop 18).take 4) = s.formatId.toNat ∧
    leNat ((s.infoBlock.drop 22).take 4) = s.lowestErase % 4294967296 ∧
    leNat ((s.infoBlock.drop 26).take 4) = s.highestErase % 4294967296 ∧
    leNat ((s.infoBlock.drop 30).take 2) = s.openNumber.toNat)

/-! ### Transactions -/

/-- BEGIN and ABANDON (R65, R66, R80): BEGIN opens a transaction with the counter's number and clears the expired mark, or answers
TXN_OPEN with the open one's number; ABANDON drops the open transaction and returns its number. -/
def Obligations.BeginAndAbandon : Prop :=
  ∀ (s : State) (r : Request), Serves s r →
    (r.kind = 5 → s.engine.txn.openTxn = none →
      let n := s.engine.txnCounter
      exec .beginTxn s = .next (completes
        { taken s r with engine := { s.engine with
          txnCounter := if n = 65535 then 1 else n + 1,
          txn := { openTxn := some { number := n, staged := [] }, timer := .stopped, expired := none } } }
        r { plain r .ok with aux := n })) ∧
    (∀ t, r.kind = 5 → s.engine.txn.openTxn = some t →
      exec .beginTxn s = .next (completes (taken s r) r { plain r .txnOpen with aux := t.number })) ∧
    (∀ t, r.kind = 7 → s.engine.txn.openTxn = some t →
      exec .abandon s = .next (completes
        { taken s r with engine := { s.engine with txn := { s.engine.txn with openTxn := none, timer := .stopped } } }
        r { plain r .ok with aux := t.number }))

/-- A transaction request with no transaction open (R67): EXPIRED with the number once after an expiry, and the mark is cleared;
NO_TXN otherwise. Nothing else changes. -/
def Obligations.NoTransaction : Prop :=
  ∀ (s : State) (r : Request), Serves s r → r.isTxnRequest = true → r.kind ≠ 5 → s.engine.txn.openTxn = none →
    (∀ n, s.engine.txn.expired = some n →
      exec (rowOf r) s = .next (completes
        { taken s r with engine := { s.engine with txn := { openTxn := none, timer := .stopped, expired := none } } }
        r { plain r .expired with aux := n })) ∧
    (s.engine.txn.expired = none → exec (rowOf r) s = .next (completes (taken s r) r (plain r .noTxn)))

/-- Staging (R68 to R70): the zone test, the key's committed state and the condition answer an IN_TXN PUT or DELETE first, and
leave the transaction as it was, a DELETE of a key that is not LIVE being NOT_FOUND whether or not it carries IF_VERSION, and an
expected version of 0 matching no key (R50); one that passes its checks joins the back of the staged list, or replaces its key's
entry in its place, when the list then holds at most 8 entries and 1024 value bytes, and completes OK with the entry count; else
TXN_FULL with the list unchanged. Neither the directory nor the array nor S changes. -/
def Obligations.Staging : Prop :=
  (∀ (s : State) (r : Request) (t : OpenTxn), Serves s r → r.kind = 1 ∨ r.kind = 3 → r.inTxn = true →
    s.engine.txn.openTxn = some t →
    let es := s.engine.dir.entries
    (∀ st, s.writeAccess (zoneOf r.key) = some st → exec (rowOf r) s = .next (completes (taken s r) r (plain r st))) ∧
    (s.writeAccess (zoneOf r.key) = none →
      (r.kind = 3 → findLive es r.key = none → exec .inTxnDelete s = .next (completes (taken s r) r (plain r .notFound))) ∧
      (∀ e n, findLive es r.key = some (e, n) → r.ifAbsent = true →
        exec (rowOf r) s = .next (completes (taken s r) r { plain r .exists_ with version := e.version, length := n })) ∧
      (∀ e n, findLive es r.key = some (e, n) → r.ifVersion = true → e.version ≠ r.version ∨ r.version = 0 →
        exec (rowOf r) s =
          .next (completes (taken s r) r { plain r .versionMismatch with version := e.version, length := n })) ∧
      (r.kind = 1 → findLive es r.key = none → r.ifVersion = true →
        exec .inTxnPut s = .next (completes (taken s r) r (plain r .versionMismatch))))) ∧
  (∀ (s : State) (r : Request) (t : OpenTxn), Serves s r → r.inTxn = true → s.engine.txn.openTxn = some t →
    s.writeAccess (zoneOf r.key) = none → conditionFails s.engine.dir.entries r.key r.condition = none →
    let staged := fun (l : List Staged) => { taken s r with engine := { s.engine with
      txn := { s.engine.txn with openTxn := some { t with staged := l }, timer := .stopped } } }
    (r.kind = 1 →
      let l := stageEntry t.staged { key := r.key, value := some r.payload, cond := r.condition }
      (l.length ≤ 8 ∧ stagedBytes l ≤ 1024 → exec .inTxnPut s = .next (completes (staged l) r
        { plain r .ok with length := r.payload.length, aux := BitVec.ofNat 16 l.length })) ∧
      (8 < l.length ∨ 1024 < stagedBytes l → exec .inTxnPut s = .next (completes (taken s r) r
        { plain r .txnFull with aux := BitVec.ofNat 16 t.staged.length }))) ∧
    (r.kind = 3 → (findLive s.engine.dir.entries r.key).isSome = true →
      let l := stageEntry t.staged { key := r.key, value := none, cond := r.condition }
      (l.length ≤ 8 ∧ stagedBytes l ≤ 1024 → exec .inTxnDelete s = .next (completes (staged l) r
        { plain r .ok with aux := BitVec.ofNat 16 l.length })) ∧
      (8 < l.length ∨ 1024 < stagedBytes l → exec .inTxnDelete s = .next (completes (taken s r) r
        { plain r .txnFull with aux := BitVec.ofNat 16 t.staged.length })))) ∧
  (∀ (l : List Staged) (e : Staged), (l.map Staged.key).Nodup →
    ((stageEntry l e).map Staged.key).Nodup ∧ e ∈ stageEntry l e ∧
    (∀ x ∈ l, x.key ≠ e.key → x ∈ stageEntry l e) ∧
    (e.key ∈ l.map Staged.key → (stageEntry l e).map Staged.key = l.map Staged.key) ∧
    (e.key ∉ l.map Staged.key → stageEntry l e = l ++ [e]))

/-- IN_TXN GET (R71): a staged PUT's bytes without reading the array, NOT_FOUND for a staged DELETE, and otherwise the committed
state; the read access test first. -/
def Obligations.InTxnGetAnswers : Prop :=
  ∀ (s : State) (r : Request) (t : OpenTxn), Serves s r → r.kind = 2 → r.inTxn = true → s.engine.txn.openTxn = some t →
    (∀ st, s.readAccess (zoneOf r.key) = some st → exec .inTxnGet s = .next (completes (taken s r) r (plain r st))) ∧
    (s.readAccess (zoneOf r.key) = none →
      (∀ e v, t.staged.find? (fun x => x.key == r.key) = some e → e.value = some v →
        exec .inTxnGet s = .next (completes (taken s r) r { plain r .ok with length := v.length, payload := v })) ∧
      (∀ e, t.staged.find? (fun x => x.key == r.key) = some e → e.value = none →
        exec .inTxnGet s = .next (completes (taken s r) r (plain r .notFound))) ∧
      (t.staged.find? (fun x => x.key == r.key) = none → findLive s.engine.dir.entries r.key = none →
        exec .inTxnGet s = .next (completes (taken s r) r (plain r .notFound))) ∧
      (∀ e n, t.staged.find? (fun x => x.key == r.key) = none → findLive s.engine.dir.entries r.key = some (e, n) →
        s.seq.erase = none →
        exec .inTxnGet s = .next (reads (taken s r) [.readFrame e 0 [], .get r e] e.sector e.line)))

/-- COMMIT (R20, R75 to R79): an empty list completes OK at once; the first staged entry that fails the recheck gives CONFLICT; a
list that passes and is not admitted completes FULL or NO_ROOM with nothing written, by the sum of its entries' changes to A and
its new keys; one that fits in the head has its first member's header issued with sequence S; each placed member raises S and is
followed by the next frame, the COMMIT frame after the last; when the COMMIT frame is placed the whole batch is applied and the
COMMIT completes OK. An append that runs out of sectors, after a failed line or when the next frame is asked for, applies nothing:
MEDIA_FAULT, and a READY store becomes READ_ONLY once the completion is posted; a refused one completes HALTED. S reaching
4,294,963,200 with one of the frames makes a READY store READ_ONLY once the completion is posted (log 18). The transaction is
closed when the COMMIT is taken. -/
def Obligations.CommitWritesAndApplies : Prop :=
  (∀ (s : State) (r : Request) (t : OpenTxn), Serves s r → r.kind = 6 → s.engine.txn.openTxn = some t →
    let u : State :=
      { taken s r with engine := { s.engine with txn := { s.engine.txn with openTxn := none, timer := .stopped } } }
    (t.staged = [] → exec .commit s = .next (completes u r (plain r .ok))) ∧
    (∀ e, t.staged.find? (fun x => !s.recheckPasses x) = some e →
      let c := liveContents s.engine.dir.entries e.key
      exec .commit s = .next (completes u r { plain r .conflict with key := e.key, version := c.1, length := c.2 })) ∧
    (t.staged ≠ [] → t.staged.all s.recheckPasses = true →
      let es := s.engine.dir.entries
      let delta := (t.staged.map (fun e => ((match e.value with
        | some v => putLines v.length
        | none => 1 : Nat) : Int) - (chargeOf es e.key : Int))).sum
      let news := (t.staged.filter (fun e => e.value.isSome && (findEntry es e.key).isNone)).length
      (¬ ((s.engine.dir.accounted : Int) + delta ≤ s.limit ∨ delta < 0) →
        exec .commit s = .next (completes u r (plain r .full))) ∧
      ((s.engine.dir.accounted : Int) + delta ≤ s.limit ∨ delta < 0 → 1024 < es.length + news →
        exec .commit s = .next (completes u r (plain r .noRoom)))) ∧
    (∀ e rest x nl, t.staged = e :: rest → t.staged.all s.recheckPasses = true → Free s →
      s.engine.dir.admission s.limit (commitCharge s.engine.dir.entries t.staged)
        (commitNewEntries s.engine.dir.entries t.staged) = none →
      s.headPos = some (x, nl) → nl + commitLines t.staged ≤ 256 →
      let f := memberFrame e s.engine.seq t.number
      exec .commit s = .next (programs u
        [.append { header := f.1, value := f.2, host := true, programmed := false } (.programming x nl 0),
         .commit { request := r, number := t.number, staged := t.staged, placed := [] }] x nl (.frame f.1)))) ∧
  (∀ (s : State) (c : CommitJob) (j : AppendJob) (x st i : Nat) (d : LineData),
    Programs (undue s) [.append j (.programming x st i), .commit c] x (st + i) d → i + 1 = j.header.lines →
    c.placed.length = c.staged.length → s.engine.seq ≠ 4294967295 →
    exec (.lineProgramDone true) s = .next (endsDue (s.engine.readOnlyDue || limitReached s) (completes
      { s with
        seq := programmed s.seq x (st + i) (.good d),
        log := s.log.map (fun t => t.setRecord x (((t.record x).used (st + i)).framed j.header.seq)),
        comp := { s.comp with noGain := 0 },
        engine := { s.engine with
          seq := s.engine.seq + 1, dir := s.engine.dir.applyBatch c.staged c.placed, readOnlyDue := false } }
      c.request { plain c.request .ok with
        version := s.engine.seq, aux := BitVec.ofNat 16 c.staged.length }))) ∧
  (∀ (s : State) (c : CommitJob) (j : AppendJob) (t : LogTables) (x st i : Nat) (d : LineData) (ring hi : Seq) (w f lu n : Nat),
    Programs (undue s) [.append j (.programming x st i), .commit c] x (st + i) d → s.seq.erase = none → s.log = some t →
    2 ≤ x → x < 64 → t.sectors.length = 62 → t.head = some x → t.record x = .head ring w f lu n hi →
    s.engine.seq ≠ 4294967295 →
    let c' := { c with placed := c.placed ++ [(s.engine.seq, x, st)] }
    let g : FrameHeader × List Byte := match c.staged[c.placed.length + 1]? with
      | some e => memberFrame e (s.engine.seq + 1) c.number
      | none => (.commit (s.engine.seq + 1) c.number c.staged.length, [])
    let due := s.engine.readOnlyDue || (decide (s.engine.store = .ready) && limitReached s)
    let u := { s with
      seq := programmed s.seq x (st + i) (.good d),
      log := some (t.setRecord x (.head ring w f (st + i) (n + 1) (Seq.later hi j.header.seq))),
      comp := { s.comp with noGain := 0 },
      engine := { s.engine with seq := s.engine.seq + 1, readOnlyDue := due } }
    let v := { s with
      seq := programmed s.seq x (st + i) .defective,
      log := some (t.setRecord x (.head ring w (f + 1) (st + i) n hi)) }
    (i + 1 = j.header.lines → c.placed.length < c.staged.length →
      (s.seq.halted = false → st + i + 1 + g.1.lines ≤ 256 →
        exec (.lineProgramDone true) s = .next (programs u
          [.append { header := g.1, value := g.2, host := true, programmed := true } (.programming x (st + i + 1) 0), .commit c']
          x (st + i + 1) (.frame g.1))) ∧
      (s.seq.halted = true → st + i + 1 + g.1.lines ≤ 256 →
        exec (.lineProgramDone true) s = .next (endsDue due (completes (undue u) c.request (plain c.request .halted)))) ∧
      (256 < st + i + 1 + g.1.lines → t.free = [] →
        exec (.lineProgramDone true) s =
          .next (turnsReadOnly (completes (undue u) c.request (plain c.request .mediaFault))))) ∧
    (f + 1 < 3 → 256 < st + i + 1 + j.header.lines → t.free = [] → ∀ event ∈ [Instr.lineProgramDone false, .programTimeout],
      exec event s = .next (turnsReadOnly (completes (undue v) c.request (plain c.request .mediaFault)))))

/-! ### RECLAIM, zones and FORMAT -/

/-- RECLAIM (R86 to R89, R99, R100): a target already met completes OK at once; otherwise the target and the no-gain limit are
recorded with the no-gain count 0, and the compactor's next step follows within the job, as in a stall. A tail that is not
CLOSED completes it FULL and a select step refused for want of space READ_ONLY; each placed copy or tombstone is followed by the
next step, or completes it READ_ONLY when a READ_ONLY cause was met; one whose append runs out of sectors stops the compactor
and completes it READ_ONLY, a refused one HALTED; the end of the erase is followed by the finishing step. It completes OK when a
round has met the target, FULL when the no-gain count has reached the limit, and HALTED at once when PFW# is taken during the
wait for the erase. Aux is the FREE count, and the target and the no-gain limit are discarded at the end. That a tail without
LIVE entries becomes the victim also when there is no head and no FREE sector is the model's choice (log 40); that a READ_ONLY
cause takes effect at the end of its step is its reading (log 18). -/
def Obligations.ReclaimAnswers : Prop :=
  (∀ (s : State) (r : Request), Serves s r → r.kind = 8 →
    let ended := { s.comp with noGain := 0, reclaimTarget := none, noGainLimit := none }
    (r.param.toNat ≤ s.freeCount →
      exec .reclaim s =
        .next (completes { taken s r with comp := ended } r { plain r .ok with aux := BitVec.ofNat 16 s.freeCount })) ∧
    (s.freeCount < r.param.toNat → s.comp.stopped = false →
      (s.comp.stage = .idle → s.tailClosed = false →
        exec .reclaim s =
          .next (completes { taken s r with comp := ended } r { plain r .full with aux := BitVec.ofNat 16 s.freeCount })) ∧
      (∀ x, s.comp.stage = .idle → s.tail = some x → s.tailClosed = true → 0 < liveLinesIn s.engine.dir.entries x →
        s.needsNewHead (liveLinesIn s.engine.dir.entries x) = true → s.freeCount = 0 →
        exec .reclaim s = .next (completes (turnsReadOnly { taken s r with comp := { ended with refused := some 0 } }) r
          { plain r .readOnly with aux := 0 })) ∧
      StepInJob (reclaiming (taken s r) r.param.toNat) (.reclaim r) (fun v => exec .reclaim s = .next v))) ∧
  (∀ r : Request,
    let ended := fun (st : Status) (v : State) =>
      completes { v with comp := { v.comp with reclaimTarget := none, noGainLimit := none } } r
        { plain r st with aux := BitVec.ofNat 16 v.freeCount }
    PlacedInJob (.reclaim r) (ended .readOnly) ∧ CopyFails [.reclaim r] (ended .readOnly) (ended .halted)) ∧
  (∀ r : Request, ErasedInJob (.reclaim r)) ∧
  (∀ (s : State) (r : Request) (t : LogTables) (x c n : Nat) (d : LineData),
    Programs s [.formatLine x c, .finishRound, .reclaim r] x 0 d → s.log = some t → s.engine.store = .ready →
    s.comp.reclaimTarget = some n →
    let u := roundEnded s t x c d
    let ended := { u with comp := { u.comp with reclaimTarget := none, noGainLimit := none } }
    (n ≤ u.freeCount →
      exec (.lineProgramDone true) s = .next (completes ended r { plain r .ok with aux := BitVec.ofNat 16 u.freeCount })) ∧
    (∀ l, u.freeCount < n → s.comp.noGainLimit = some l → l ≤ u.comp.noGain →
      exec (.lineProgramDone true) s = .next (completes ended r { plain r .full with aux := BitVec.ofNat 16 u.freeCount })) ∧
    (GoesOn u (.reclaim r) → StepInJob u (.reclaim r) (fun v => exec (.lineProgramDone true) s = .next v))) ∧
  (∀ (s : State) (r : Request) (e : EraseRec), WaitsForErase s (.reclaim r) e → s.engine.store ≠ .mounting →
    s.pins.powered = true → s.resetInProgress = false → s.pins.pfwAsserted = false → s.seq.halted = false →
    ∃ t, exec .pfwAsserted s = .next t ∧ t.engine.store = .halted ∧ t.ctl = { stack := [], reply := none } ∧
      t.queues.completions = s.queues.completions ++ [{ plain r .halted with aux := BitVec.ofNat 16 s.freeCount }] ∧
      t.comp = { s.comp with
        stage := .idle, victim := none, roundStart := none, reclaimTarget := none, noGainLimit := none })

/-- UNLOCK (R149), row by row. -/
def Obligations.UnlockTable : Prop :=
  ∀ (s : State) (r : Request) (z : Fin 4), Serves s r → r.kind = 10 → z.val = r.param.toNat →
    let e := s.contents.zones[z]
    let f := s.zones[z]
    let withFlags := fun (g : ZoneFlags) => { taken s r with zones := s.zones.set z g }
    (e.policy = .policyOpen →
      exec .unlock s = .next (completes (taken s r) r { plain r .ok with aux := BitVec.ofNat 16 (3 - f.failed) })) ∧
    (e.policy ≠ .policyOpen → f.lockout = true →
      exec .unlock s = .next (completes (taken s r) r (plain r .lockedOut))) ∧
    (e.policy ≠ .policyOpen → f.lockout = false → r.payload = e.code →
      exec .unlock s = .next (completes (withFlags { unlocked := true, failed := 0, lockout := false }) r
        { plain r .ok with aux := 3 })) ∧
    (e.policy ≠ .policyOpen → f.lockout = false → r.payload ≠ e.code → f.failed + 1 < 3 →
      exec .unlock s = .next (completes (withFlags { unlocked := false, failed := f.failed + 1, lockout := false }) r
        { plain r .denied with aux := BitVec.ofNat 16 (3 - (f.failed + 1)) })) ∧
    (e.policy ≠ .policyOpen → f.lockout = false → r.payload ≠ e.code → 3 ≤ f.failed + 1 →
      exec .unlock s = .next (completes
        { withFlags { unlocked := false, failed := 3, lockout := true } with
          window := { s.window with events := s.window.events ||| 0x10 } } r (plain r .denied)))

/-- LOCK (R150): it clears the zone's unlocked flag and completes OK with aux 0, whatever the policy and the flags; count and
lockout are unchanged; from then on the zone fails the write test unless it is OPEN and the read test when it is READ_GUARDED;
a COMMIT with a write staged in a zone that is locked and not OPEN completes CONFLICT. -/
def Obligations.LockZone : Prop :=
  (∀ (s : State) (r : Request) (z : Fin 4), Serves s r → r.kind = 11 → z.val = r.param.toNat →
    let t := completes
      { taken s r with zones := s.zones.set z { s.zones[z] with unlocked := false } } r (plain r .ok)
    exec .lock s = .next t ∧
    (s.contents.zones[z].policy ≠ .policyOpen → t.writeAccess z ≠ none) ∧
    (s.contents.zones[z].policy = .readGuarded → t.readAccess z ≠ none)) ∧
  (∀ (s : State) (r : Request) (t : OpenTxn) (e : Staged), Serves s r → r.kind = 6 → s.engine.txn.openTxn = some t →
    e ∈ t.staged → s.contents.zones[zoneOf e.key].policy ≠ .policyOpen → s.zones[zoneOf e.key].unlocked = false →
    ∃ u, exec .commit s = .next u ∧ u.queues.completions.getLast?.map Completion.status = some .conflict)

/-- SET_CODE and SET_POLICY (R151, R152, R145, R146): a zone that is neither OPEN nor unlocked answers LOCKED_OUT or DENIED; the
value the zone has already answers OK without an anchor write; another becomes the working contents at once, with a generation
one higher, and its record is placed at the write position, or by an erase of the other anchor sector at position 42 or of
sector 0 with none. Each line that passes is followed by the next; a slot whose line fails is given up and the record placed
once more past it; when the sixth line passes the request completes OK, when a second slot or the erase fails MEDIA_FAULT and a
READY store becomes READ_ONLY, and when a line is refused or the erase abandoned HALTED. That a refused line leaves the write
position where it was is the model's reading (log 39), and that the generation after 4,294,967,295 is a free value its choice
(log 22). An erase that fails leaves line 0 DEFECTIVE and the others BLANK or DEFECTIVE. -/
def Obligations.ZoneChanges : Prop :=
  (∀ (s : State) (r : Request) (z : Fin 4), Serves s r → r.kind = 12 ∨ r.kind = 13 → z.val = r.param.toNat →
    (r.kind = 13 → 2 < r.key.toNat →
      exec .setPolicy s = .next (completes (taken s r) r (plain r .badRequest))) ∧
    (∀ st, (r.kind = 13 → r.key.toNat ≤ 2) → s.writeAccess z = some st →
      exec (rowOf r) s = .next (completes (taken s r) r (plain r st))) ∧
    (s.writeAccess z = none → r.kind = 12 → r.payload = s.contents.zones[z].code →
      exec .setCode s = .next (completes (taken s r) r (plain r .ok))) ∧
    (∀ p, s.writeAccess z = none → r.kind = 13 → policyOfKey r.key = some p → p = s.contents.zones[z].policy →
      exec .setPolicy s = .next (completes (taken s r) r (plain r .ok))) ∧
    (s.writeAccess z = none → Free s →
      let base := { s.contents with generation :=
        if s.contents.generation = 4294967295 then Config.generationPastMax else s.contents.generation + 1 }
      (r.kind = 12 → r.payload ≠ s.contents.zones[z].code →
        let a := { base with zones := s.contents.zones.set z { s.contents.zones[z] with code := r.payload } }
        exec .setCode s = .next (anchorAsked (taken s r) [.setZone r] a)) ∧
      (∀ p, r.kind = 13 → policyOfKey r.key = some p → p ≠ s.contents.zones[z].policy →
        let a := { base with zones := s.contents.zones.set z { s.contents.zones[z] with policy := p } }
        exec .setPolicy s = .next (anchorAsked
          { taken s r with zones := if p = .policyOpen then s.zones.set z { s.zones[z] with failed := 0 } else s.zones }
          [.setZone r] a)))) ∧
  (∀ (s : State) (k : List Task) (a : AnchorRecord) (b : Bool) (x slot part : Nat) (d : LineData),
    Waits s (.anchorWrite a b (.line x slot part) :: k) x (6 * slot + part) d → Free s →
    let past := fun l => { s with
      seq := programmed s.seq x (6 * slot + part) l, anchor := { s.anchor with writePos := some (x, slot + 1) } }
    (s.lineAt x (6 * slot + part) = .blank → part < 5 →
      exec (.lineProgramDone true) s = .next (programs { s with seq := programmed s.seq x (6 * slot + part) (.good d) }
        (.anchorWrite a b (.line x slot (part + 1)) :: k) x (6 * slot + (part + 1)) (.anchor a (part + 1)))) ∧
    (s.lineAt x (6 * slot + part) = .blank → b = false → ∀ event ∈ [Instr.lineProgramDone false, .programTimeout],
      exec event s = .next (anchorPlaced (past .defective) k a true)) ∧
    (s.lineAt x (6 * slot + part) ≠ .blank → b = false → ∀ v,
      exec (.lineProgramDone v) s = .next (anchorPlaced (past (s.lineAt x (6 * slot + part))) k a true))) ∧
  (∀ (s : State) (k : List Task) (a : AnchorRecord) (b : Bool) (e : EraseRec),
    Erases s (.anchorWrite a b (.erasing e.sector) :: k) e → s.seq.halted = false →
    exec (.eraseDone true) s = .next (programs
      { erased s e.sector with anchor := { s.anchor with writePos := some (e.sector, 0) } }
      (.anchorWrite a b (.line e.sector 0 0) :: k) e.sector 0 (.anchor a 0))) ∧
  (∀ (s : State) (r : Request) (a : AnchorRecord) (x slot part : Nat) (d : LineData),
    Waits s [.anchorWrite a true (.line x slot part), .setZone r] x (6 * slot + part) d → s.engine.store ≠ .mounting →
    s.lineAt x (6 * slot + part) ≠ .blank → ∀ v,
      exec (.lineProgramDone v) s = .next (turnsReadOnly (completes
        { s with seq := programmed s.seq x (6 * slot + part) (s.lineAt x (6 * slot + part)),
                 anchor := { s.anchor with writePos := some (x, slot + 1) } } r (plain r .mediaFault)))) ∧
  (∀ (s : State) (r : Request) (a : AnchorRecord) (b : Bool) (x slot part : Nat) (d : LineData),
    Programs s [.anchorWrite a b (.line x slot part), .setZone r] x (6 * slot + part) d →
    s.engine.store ≠ .mounting →
    (b = true → ∀ event ∈ [Instr.lineProgramDone false, .programTimeout],
      exec event s = .next (turnsReadOnly (completes
        { s with seq := programmed s.seq x (6 * slot + part) .defective,
                 anchor := { s.anchor with writePos := some (x, slot + 1) } } r (plain r .mediaFault)))) ∧
    (part < 5 → s.seq.halted = true → s.seq.erase = none →
      exec (.lineProgramDone true) s = .next (completes
        { s with seq := programmed s.seq x (6 * slot + part) (.good d) } r (plain r .halted)))) ∧
  (∀ (s : State) (r : Request) (a : AnchorRecord) (b : Bool) (e : EraseRec),
    Erases s [.anchorWrite a b (.erasing e.sector), .setZone r] e → s.engine.store ≠ .mounting →
    (∀ event ∈ [Instr.eraseDone false, .eraseTimeLimit], ∃ t, exec event s = .next t ∧
      t = turnsReadOnly (completes
        { s with seq := { s.seq with cells := t.seq.cells, state := .idle, erase := none }, freeCtr := t.freeCtr }
        r (plain r .mediaFault)) ∧
      FailedErase s t e.sector) ∧
    (s.pins.powered = true → s.resetInProgress = false → s.pins.pfwAsserted = false → s.seq.halted = false →
      ∃ t, exec .pfwAsserted s = .next t ∧ t.queues.completions = s.queues.completions ++ [plain r .halted])) ∧
  (∀ (s : State) (r : Request) (a : AnchorRecord) (b : Bool) (x slot : Nat) (d : LineData),
    Programs s [.anchorWrite a b (.line x slot 5), .setZone r] x (6 * slot + 5) d →
    exec (.lineProgramDone true) s = .next (completes
      { s with
        seq := programmed s.seq x (6 * slot + 5) (.good d),
        anchor := { s.anchor with location := some (x, slot), writePos := some (x, slot + 1) } } r (plain r .ok)))

/-- FORMAT (R153 to R157, R102, R81, R44): a zone that is neither OPEN nor unlocked answers LOCKED_OUT or DENIED; otherwise the
store becomes FORMATTING with STATE_CHANGED, an open transaction is dropped, the compactor's round is ended, and the anchor record
with the new format id is formed and placed. After that write, WRITTEN or FAILED, the directory is empty, the sector table fresh
and the sectors without a known erase count are read; each BLANK sector is erased or, when worn or its erase fails, retired; an
erased one is formatted with one more erase and joins the free list; then S, the counters and the ring sequence are 1 and the
front of the free list is opened. FORMAT ends READ_ONLY or READY, MEDIA_FAULT when an anchor write failed and OK otherwise, and
stops HALTED at a refused operation or an erase of its own that is abandoned. That the fresh tables stand before the line 0 reads
(log 34), that a refused line leaves the write position where it was (log 39), and that a store which has become HALTED while the
last line was programmed stays HALTED at FORMAT's end (log 41) are the model's readings; that the line 0 reads go in ascending
sector number is its choice (log 44). -/
def Obligations.FormatTaken : Prop :=
  (∀ (s : State) (r : Request), Serves s r → r.kind = 14 →
    ((∃ z : Fin 4, s.contents.zones[z].policy ≠ .policyOpen ∧ s.zones[z].unlocked = false ∧ s.zones[z].lockout = true) →
      exec .format s = .next (completes (taken s r) r (plain r .lockedOut))) ∧
    ((∃ z : Fin 4, s.contents.zones[z].policy ≠ .policyOpen ∧ s.zones[z].unlocked = false) →
      (∀ z : Fin 4, s.contents.zones[z].policy ≠ .policyOpen → s.zones[z].unlocked = false → s.zones[z].lockout = false) →
      exec .format s = .next (completes (taken s r) r (plain r .denied))) ∧
    ((∀ z : Fin 4, s.contents.zones[z].policy = .policyOpen ∨ s.zones[z].unlocked = true) →
      Free s → s.contents.generation ≠ 4294967295 →
      exec .format s = .next (anchorAsked
        { taken s r with
          engine := { s.engine with
            store := .formatting, anchorFailed := false, readOnlyDue := false,
            txn := { s.engine.txn with openTxn := none, timer := .stopped } },
          window := { s.window with events := s.window.events ||| 0x20 },
          comp := { s.comp with
            stage := .idle, victim := none, roundStart := none, eraseOutcome := none, noGain := 0, stopped := false,
            refused := none } }
        [.formatAnchor r]
        { s.contents with
          generation := s.contents.generation + 1,
          formatId := if s.contents.generation = 0 then 1 else if s.contents.formatId = 4294967295 then 1
            else s.contents.formatId + 1 }))) ∧
  (∀ (s : State) (r : Request) (a : AnchorRecord) (b : Bool) (x slot part : Nat) (d : LineData),
    Programs s [.anchorWrite a b (.line x slot part), .formatAnchor r] x (6 * slot + part) d → s.seq.erase = none →
    s.anchor.working = some a →
    let unknown := poolSectors.filter (fun y => !a.retired.contains y && (s.record y).eraseCount.isNone)
    let u := fun (good : Bool) => { s with
      seq := programmed s.seq x (6 * slot + part) (if good then .good d else .defective),
      anchor := { s.anchor with
        location := if good then some (x, slot) else s.anchor.location, writePos := some (x, slot + 1) },
      engine := { s.engine with
        dir := { Directory.reset with complete := s.engine.dir.complete },
        anchorFailed := s.engine.anchorFailed || !good },
      log := some (freshTables a.retired (fun y => (s.record y).eraseCount)) }
    (∀ y todo, part = 5 → unknown = y :: todo →
      exec (.lineProgramDone true) s = .next (reads (u true) [.formatRead r y todo] y 0)) ∧
    (∀ y, part = 5 → s.seq.halted = false → unknown = [] → (u true).firstBlank = some y → ((u true).record y).worn = false →
      exec (.lineProgramDone true) s = .next (erases (u true) [.formatErase r y] y)) ∧
    (∀ y todo, b = true → unknown = y :: todo → ∀ event ∈ [Instr.lineProgramDone false, .programTimeout],
      exec event s = .next (reads (u false) [.formatRead r y todo] y 0)) ∧
    (part < 5 → s.seq.halted = true →
      exec (.lineProgramDone true) s = .next (completes { s with seq := programmed s.seq x (6 * slot + part) (.good d) } r
        { plain r .halted with aux := s.formatId.setWidth 16 }))) ∧
  (∀ (s : State) (r : Request) (t : LogTables) (x : Nat) (todo : List Nat), Reads s [.formatRead r x todo] x 0 →
    s.seq.erase = none → s.log = some t →
    let u := { s with
      seq := readEnded s.seq,
      log := some (t.setRecord x (.blank (match s.lineAt x 0 with
        | .good (.format _ c) => some c
        | _ => none))) }
    (∀ y rest, todo = y :: rest → exec .lineReadDone s = .next (reads u [.formatRead r y rest] y 0)) ∧
    (∀ y, todo = [] → s.seq.halted = false → u.firstBlank = some y → (u.record y).worn = false →
      exec .lineReadDone s = .next (erases u [.formatErase r y] y))) ∧
  (∀ (s : State) (r : Request) (e : EraseRec), Erases s [.formatErase r e.sector] e →
    let count := ((s.record e.sector).eraseCount.orElse (fun _ => s.log.bind LogTables.highestErase)).getD 0 + 1
    (s.seq.halted = false →
      exec (.eraseDone true) s = .next (programs (erased s e.sector)
        [.formatLine e.sector count, .formatSector r] e.sector 0 (.format s.formatId count))) ∧
    (s.seq.halted = false → s.contents.generation ≠ 4294967295 → ∀ event ∈ [Instr.eraseDone false, .eraseTimeLimit],
      ∃ t, exec event s = .next (anchorAsked t [.retire e.sector, .formatSector r] (retiring s.contents e.sector)) ∧
        t = { s with seq := { s.seq with cells := t.seq.cells, state := .idle, erase := none }, freeCtr := t.freeCtr } ∧
        FailedErase s t e.sector) ∧
    (s.engine.store = .formatting → s.pins.powered = true → s.resetInProgress = false → s.pins.pfwAsserted = false →
      s.seq.halted = false → ∃ t, exec .pfwAsserted s = .next t ∧
        t.queues.completions = s.queues.completions ++ [{ plain r .halted with aux := s.formatId.setWidth 16 }])) ∧
  (∀ (s : State) (r : Request) (t : LogTables) (x c : Nat) (d : LineData),
    Programs s [.formatLine x c, .formatSector r] x 0 d → s.seq.erase = none → s.log = some t →
    let u := { s with seq := programmed s.seq x 0 (.good d), log := some (t.freed x c) }
    (∀ y, s.seq.halted = false → u.firstBlank = some y → (u.record y).worn = false →
      exec (.lineProgramDone true) s = .next (erases u [.formatErase r y] y)) ∧
    (∀ y, s.seq.halted = false → s.contents.generation ≠ 4294967295 → u.firstBlank = some y → (u.record y).worn = true →
      exec (.lineProgramDone true) s = .next (anchorAsked u [.retire y, .formatSector r] (retiring s.contents y))) ∧
    (∀ y, s.seq.halted = true → u.firstBlank = some y → (u.record y).worn = false →
      exec (.lineProgramDone true) s = .next (completes u r { plain r .halted with aux := s.formatId.setWidth 16 })) ∧
    (∀ y rest, s.seq.halted = false → u.firstBlank = none → (t.freed x c).free = y :: rest →
      exec (.lineProgramDone true) s = .next (programs
        { u with engine := { s.engine with seq := 1, txnCounter := 1 }, log := some { t.freed x c with nextRing := 2 } }
        [.openHead y 1, .formatOpen r] y 1 (.opened s.formatId 1 1)))) ∧
  (∀ (s : State) (r : Request) (t : LogTables) (x : Nat) (ring : Seq) (d : LineData),
    Programs s [.openHead x ring, .formatOpen r] x 1 d → s.engine.store = .formatting ∨ s.engine.store = .halted →
    s.log = some t →
    let h := t.becomeHead x ring
    exec (.lineProgramDone true) s = .next (completes
      { s with
        seq := programmed s.seq x 1 (.good d),
        log := some h,
        engine := { s.engine with
          store := if s.engine.store = .halted then .halted
            else if h.usable < 8 ∨ h.free.length = 0 ∨ s.engine.anchorFailed = true then .readOnly else .ready,
          anchorFailed := false },
        window := if s.engine.store = .halted then s.window else { s.window with events := s.window.events ||| 0x20 } }
      r { plain r (if s.engine.anchorFailed = true then .mediaFault else .ok) with aux := s.formatId.setWidth 16 }))

/-! ### Compaction -/

/-- The compaction steps granted on their own (R20, R84, R85, R88 to R92, R95, R96, R98): a step command does nothing while the
compactor asks for no step or stands in another stage, a request can be taken or no bus access is possible (log 8), and
SELECT_STEP nothing while the tail is not CLOSED. SELECT_STEP makes the CLOSED tail the victim, and is refused for want of space
with the refused marker set and the exhaustion reported (that a tail without LIVE entries is selected even when there is no head
is the model's choice, log 40); COPY_STEP removes the smallest-key entry of the victim when it is DEAD and reads its frame when
it is LIVE; ERASE_STEP, and a COPY_STEP that finds no entry (log 31), begin the background erase with line 0 voided, or retire a
condemned or worn victim; FINISHING_STEP issues the format line with one more erase after PASS and retires the victim after
FAIL. A frame that matches is appended again with its sequence and the entry relocated, one that does not is a media loss: a
tombstone with sequence S is appended, S rises by one, the entry becomes DEAD and MEDIA_LOSS is raised with the key; S at its
limit, or a READ_ONLY cause met in the append, makes a READY store READ_ONLY when the step ends (log 18). A copy or tombstone
that runs out of sectors makes no directory change, sets the stopped marker and makes the store READ_ONLY; a refused one changes
nothing more (R93). What a header line must hold is stated with logs 2 and 43. -/
def Obligations.CompactionSteps : Prop :=
  HeaderTests ∧
  (∀ s : State, s.ctl = { stack := [], reply := none } → s.seq.pending = none →
    (s.comp.stage = .idle → s.tailClosed = false → s.engine.readOnlyDue = false → exec .selectStep s = .next s) ∧
    (s.busActive = false ∨ s.canTake = true ∨ s.asksForStep = false →
      ∀ c ∈ [Instr.selectStep, .copyStep, .eraseStep, .finishingStep], exec c s = .next s) ∧
    (s.comp.stage ≠ .idle → exec .selectStep s = .next s) ∧
    (s.comp.stage ≠ .copying → exec .copyStep s = .next s ∧ exec .eraseStep s = .next s) ∧
    (s.comp.stage ≠ .finishing → exec .finishingStep s = .next s)) ∧
  (∀ s : State, s.busActive = true → s.ctl = { stack := [], reply := none } → s.canTake = false → s.asksForStep = true →
    s.engine.readOnlyDue = false → s.seq.pending = none →
    (∀ x, s.comp.stage = .idle → s.tail = some x → s.tailClosed = true → 0 < liveLinesIn s.engine.dir.entries x →
      s.needsNewHead (liveLinesIn s.engine.dir.entries x) = true → s.freeCount = 0 →
      exec .selectStep s = .next (turnsReadOnly { s with comp := { s.comp with refused := some 0 } })) ∧
    (∀ t x ring c f lu cond, s.comp.stage = .idle → s.log = some t → t.ring.head? = some x →
      t.record x = .closed ring c f lu cond →
      s.needsNewHead (liveLinesIn s.engine.dir.entries x) = false ∨ 0 < s.freeCount ∨ liveLinesIn s.engine.dir.entries x = 0 →
      exec .selectStep s = .next { s with
        log := some (t.setRecord x (.victim ring c f cond)),
        comp := { s.comp with stage := .copying, victim := some x, roundStart := some s.freeCount, refused := none } }) ∧
    (∀ x e, s.comp.stage = .copying → s.comp.victim = some x → locatedEntry s.engine.dir.entries x = some e →
      (e.live = none → exec .copyStep s = .next { s with engine := { s.engine with dir := s.engine.dir.remove e.key } }) ∧
      (e.live ≠ none → s.seq.erase = none →
        exec .copyStep s = .next (reads s [.readFrame e 0 [], .copyRead e] e.sector e.line)) ∧
      exec .eraseStep s = .next s) ∧
    (∀ t x ring c f, s.comp.stage = .copying → s.comp.victim = some x → locatedEntry s.engine.dir.entries x = none →
      s.log = some t → t.record x = .victim ring c f false → c < 100000 → Free s →
      let u := { s with
        log := some (t.setRecord x (.erasing ring c f)),
        comp := { s.comp with stage := .erasing },
        seq := { s.seq with
          cells := writeCell s.seq.cells (lineAddr x 0) .defective, state := .erasing,
          erase := some { sector := x, background := true, elapsed := 0, suspensions := 0 } } }
      exec .eraseStep s = .next u ∧ exec .copyStep s = .next u) ∧
    (∀ t x ring c f cond, s.comp.stage = .copying → s.comp.victim = some x →
      locatedEntry s.engine.dir.entries x = none → s.log = some t → t.record x = .victim ring c f cond →
      cond = true ∨ 100000 ≤ c → Free s → s.contents.generation ≠ 4294967295 →
      let u := anchorAsked s [.retire x, .finishRound] (retiring s.contents x)
      exec .eraseStep s = .next u ∧ exec .copyStep s = .next u) ∧
    (∀ x, s.comp.stage = .finishing → s.comp.victim = some x → s.comp.eraseOutcome = some false → Free s →
      s.contents.generation ≠ 4294967295 →
      exec .finishingStep s = .next (anchorAsked s [.retire x, .finishRound] (retiring s.contents x))) ∧
    (∀ t x ring c f, s.comp.stage = .finishing → s.comp.victim = some x → s.comp.eraseOutcome = some true →
      s.log = some t → t.record x = .erasing ring c f → Free s →
      exec .finishingStep s = .next (programs s [.formatLine x (c + 1), .finishRound] x 0 (.format s.formatId (c + 1))))) ∧
  (∀ (s : State) (e : Entry) (n i : Nat) (got : List Byte),
    Reads s [.readFrame e i got, .copyRead e] e.sector (e.line + i) → Free s → e.live = some n →
    let l := s.lineAt e.sector (e.line + i)
    let u := { s with seq := readEnded s.seq }
    (∀ x nl v, s.headPos = some (x, nl) → nl + putLines n ≤ 256 →
      (i = 0 ∧ n = 0 ∧ headerMatches e n l = true ∧ v = []) ∨
        (0 < i ∧ putLines n ≤ i + 1 ∧ ∃ d, l = .good d ∧ v = (got ++ d.asPayload.toList).take n) →
      exec .lineReadDone s = .next (programs u
        [.append { header := .put e.key e.version none n, value := v, host := false, programmed := false }
          (.programming x nl 0), .copyAppend e] x nl (.frame (.put e.key e.version none n)))) ∧
    (∀ x nl, s.headPos = some (x, nl) → nl + 1 ≤ 256 →
      (i = 0 ∧ headerMatches e n l = false) ∨ (0 < i ∧ ∀ d, l ≠ .good d) →
      exec .lineReadDone s = .next (programs u
        [.append { header := .delete e.key s.engine.seq none, value := [], host := false, programmed := false }
          (.programming x nl 0), .lossAppend e s.engine.seq] x nl (.frame (.delete e.key s.engine.seq none))))) ∧
  (∀ (s : State) (j : AppendJob) (e : Entry) (q : Seq) (x st i : Nat) (d : LineData), i + 1 = j.header.lines →
    let u : State := { s with
      ctl := { stack := [], reply := none },
      seq := programmed s.seq x (st + i) (.good d),
      log := s.log.map (fun (t : LogTables) => t.setRecord x (((t.record x).used (st + i)).framed j.header.seq)) }
    (Programs (undue s) [.append j (.programming x st i), .copyAppend e] x (st + i) d →
      exec (.lineProgramDone true) s = .next (endsDue s.engine.readOnlyDue { u with
        engine := { s.engine with dir := s.engine.dir.relocate e.key e.version x st, readOnlyDue := false } })) ∧
    (Programs (undue s) [.append j (.programming x st i), .lossAppend e q] x (st + i) d → s.engine.seq ≠ 4294967295 →
      exec (.lineProgramDone true) s = .next (endsDue (s.engine.readOnlyDue || limitReached s) { u with
        engine := { s.engine with
          seq := s.engine.seq + 1, dir := s.engine.dir.convertOnLoss e.key e.version q x st, readOnlyDue := false },
        window := { s.window with events := s.window.events ||| 0x08, lossKey := e.key } }))) ∧
  CopyFails [] id id

/-- The end of a round (R5, R10, R87, R95, R98): when the victim's format line passes, the sector leaves the ring list,
becomes FREE with the new erase count and joins the back of the free list, the no-gain count is set to 0 by a gain and raised
otherwise, and the stage becomes IDLE. A victim that is retired instead leaves the ring list and is RETIRED whether its anchor
write was written or failed; no sector is gained, and a failed write, a pool below 8 or a FREE count of 0 makes a READY store
READ_ONLY. -/
def Obligations.FinishingFrees : Prop :=
  (∀ (s : State) (t : LogTables) (x c : Nat) (d : LineData), Programs s [.formatLine x c, .finishRound] x 0 d →
    s.log = some t →
    let u : LogTables := { (t.setRecord x (.free c)) with
      free := t.free.filter (· != x) ++ [x], ring := t.ring.filter (· != x) }
    exec (.lineProgramDone true) s = .next { s with
      ctl := { stack := [], reply := none },
      seq := programmed s.seq x 0 (.good d),
      log := some u,
      comp := { s.comp with
        stage := .idle, victim := none, roundStart := none, eraseOutcome := none,
        noGain := if s.comp.roundStart.getD 0 < u.free.length then 0 else min 62 (s.comp.noGain + 1) } }) ∧
  (∀ (s : State) (t : LogTables) (a : AnchorRecord) (b : Bool) (x y slot part : Nat) (d : LineData),
    Programs s [.anchorWrite a b (.line y slot part), .retire x, .finishRound] y (6 * slot + part) d → s.log = some t →
    s.engine.store ≠ .mounting →
    let u : LogTables := { (t.setRecord x .retired) with
      free := t.free.filter (· != x), ring := t.ring.filter (· != x) }
    let ended := fun (good : Bool) => { s with
      ctl := { stack := [], reply := none },
      seq := programmed s.seq y (6 * slot + part) (if good then .good d else .defective),
      anchor := { s.anchor with
        location := if good then some (y, slot) else s.anchor.location, writePos := some (y, slot + 1) },
      log := some u,
      comp := { s.comp with
        stage := .idle, victim := none, roundStart := none, eraseOutcome := none,
        noGain := if s.comp.roundStart.getD 0 < u.free.length then 0 else min 62 (s.comp.noGain + 1) } }
    (part = 5 → exec (.lineProgramDone true) s =
      .next (if u.usable < 8 ∨ u.free.length = 0 then turnsReadOnly (ended true) else ended true)) ∧
    (b = true → ∀ event ∈ [Instr.lineProgramDone false, .programTimeout],
      exec event s = .next (turnsReadOnly (ended false))))

/-! ### The array sequencer -/

/-- Foreground operations (R106 to R108, R115 to R117, R120, R121): how an operation is served by the state it finds, and what
the end of an operation whose issuer a soft reset took away leaves: a passing program GOOD with its bytes, a failing one and one
that has run 400 µs DEFECTIVE, a program of a line that is not BLANK nothing, a read nothing. That PROGRAM_TIMEOUT, which no
program of a line that is not BLANK runs long enough to meet, then changes nothing and leaves the program in hand is the model's
choice (logs 8 and 10). Erases (R109, R110, R113, R114): one asked for begins when none is in flight, becomes the pending erase
otherwise, and is REFUSED when the sequencer is halted; at the end of the erase in flight the waiting operation is served before
the pending erase, which begins when no operation is in hand, also on the sector just erased. -/
def Obligations.LineOperations : Prop :=
  (∀ (s : State) (op : LineOp),
    (s.seq.halted = true → op.isProgram = true → s.issue op = s.ret (.prog .refused)) ∧
    (∀ e, s.seq.halted = false ∨ op.isProgram = false → s.seq.erase = some e → e.sector = op.sector →
      s.issue op = s.ret (if op.isProgram then .prog .fail else .line .defective)) ∧
    (∀ e, s.seq.halted = false ∨ op.isProgram = false → s.seq.erase = some e → e.sector ≠ op.sector →
      s.seq.state = .erasing → e.suspensions < 8 →
      s.issue op = { s with seq := { s.seq with
        state := .suspended, inHand := some op, delivers := true,
        erase := some { e with suspensions := e.suspensions + 1 } } }) ∧
    (∀ e, s.seq.halted = false ∨ op.isProgram = false → s.seq.erase = some e → e.sector ≠ op.sector →
      s.seq.state ≠ .erasing ∨ 8 ≤ e.suspensions →
      s.issue op = { s with seq := { s.seq with waiting := some op } }) ∧
    (s.seq.halted = false ∨ op.isProgram = false → s.seq.erase = none →
      s.issue op = { s with seq := { s.seq with
        inHand := some op, delivers := true, state := if op.isProgram then .programming else s.seq.state } })) ∧
  (∀ (s : State) (x l : Nat) (d : LineData), s.ctl = { stack := [], reply := none } → s.seq.pending = none →
    s.seq.delivers = false → s.seq.inHand = some (.program x l d) → s.arrayWf = true →
    (s.lineAt x l = .blank →
      exec (.lineProgramDone true) s = .next { s with seq := programmed s.seq x l (.good d) } ∧
      exec (.lineProgramDone false) s = .next { s with seq := programmed s.seq x l .defective } ∧
      exec .programTimeout s = .next { s with seq := programmed s.seq x l .defective }) ∧
    (s.lineAt x l ≠ .blank →
      (∀ v, ∃ t, exec (.lineProgramDone v) s = .next t ∧ t.seq.inHand = none ∧ ∀ a, readCell t.seq.cells a = readCell s.seq.cells a) ∧
      exec .programTimeout s = .next s)) ∧
  (∀ (s : State) (x l : Nat), s.ctl = { stack := [], reply := none } → s.seq.pending = none → s.seq.delivers = false →
    s.seq.inHand = some (.read x l) → exec .lineReadDone s = .next { s with seq := readEnded s.seq }) ∧
  (∀ (s : State) (x : Nat) (bg : Bool),
    (s.seq.halted = true →
      s.issueErase x false = s.ret (.erase .refused) ∧
      (s.comp.stage = .erasing → s.ctl.stack = [] →
        s.issueErase x true = { s with comp := { s.comp with stage := .idle, victim := none, roundStart := none } })) ∧
    (s.seq.halted = false → s.seq.erase = none →
      s.issueErase x bg = { s with seq := { s.seq with
        cells := writeCell s.seq.cells (lineAddr x 0) .defective, state := .erasing,
        erase := some { sector := x, background := bg, elapsed := 0, suspensions := 0 } } }) ∧
    (s.seq.halted = false → s.seq.erase ≠ none → s.seq.pending = none →
      s.issueErase x bg = { s with seq := { s.seq with pending := some { sector := x, background := bg } } })) ∧
  (∀ (s : State) (p : PendingErase), s.seq.pending = some p →
    (s.seq.erase ≠ none ∨ s.seq.inHand ≠ none ∨ s.seq.waiting ≠ none → s.startPending = none) ∧
    (s.seq.erase = none → s.seq.inHand = none → s.seq.waiting = none → s.seq.halted = true → p.background = false →
      s.startPending = some (State.ret { s with seq := { s.seq with pending := none } } (.erase .refused)))) ∧
  (∀ (s : State) (op : LineOp), s.seq.waiting = some op →
    (s.seq.halted = true → op.isProgram = true →
      s.serveWaiting = State.ret { s with seq := { s.seq with waiting := none } } (.prog .refused)) ∧
    (s.seq.halted = false ∨ op.isProgram = false →
      s.serveWaiting = { s with seq := { s.seq with
        waiting := none, inHand := some op, delivers := true,
        state := if op.isProgram then .programming else s.seq.state } })) ∧
  (∀ (s : State) (e : EraseRec) (k : List Task), s.ctl = { stack := k, reply := none } → s.seq.erase = some e →
    e.background = true → s.seq.state = .erasing → s.seq.halted = false → s.seq.inHand = none →
    (∀ w, k.head? ≠ some (.stall w)) → (∀ r, k.head? ≠ some (.reclaim r)) →
    (∀ op, s.seq.waiting = some op → s.comp.stage = .erasing →
      exec (.eraseDone true) s = .next { s with
        seq := { s.seq with
          cells := replaceSector s.seq.cells e.sector (fun _ => .blank), erase := none, waiting := none, inHand := some op,
          delivers := true, state := if op.isProgram then .programming else .idle },
        comp := { s.comp with stage := .finishing, eraseOutcome := some true }, freeCtr := s.freeCtr + 1 }) ∧
    (∀ x, s.seq.waiting = none → s.seq.pending = some { sector := x, background := false } → s.comp.stage ≠ .erasing →
      exec (.eraseDone true) s = .next (erases
        { erased s e.sector with seq := { (erased s e.sector).seq with pending := none } } k x)))

/-- An append (R6, R7, R10, R21 to R24): a first attempt that does not fit in the head closes it, or opens a new head when none is
held. A line that passes is followed by the next line of the attempt. A line that fails or is found not BLANK counts as used, and
the head's fault count rises by one; while it is below 3 the frame's header is issued again on the line after it when the frame
fits there, and otherwise the head's close line is issued; at the third failure the head is closed at once with fault count 3.
After the close the front of the free list is opened with the next ring sequence; after the open line the frame's header goes to
line 3; a sector whose open line fails is retired and the next one opened. -/
def Obligations.AppendAfterEachLine : Prop :=
  (∀ (s : State) (r : Request) (t : LogTables), Serves s r → Free s → r.kind = 1 → r.inTxn = false →
    s.writeAccess (zoneOf r.key) = none → conditionFails s.engine.dir.entries r.key r.condition = none →
    s.engine.dir.admission s.limit (writeCharge s.engine.dir.entries r.key (putLines r.payload.length))
      (newEntryOf s.engine.dir.entries r.key) = none →
    s.log = some t → 2 ≤ t.free.length →
    let j : AppendJob :=
      { header := .put r.key s.engine.seq none r.payload.length, value := r.payload, host := true, programmed := false }
    (∀ x ring c f lu n hi, t.head = some x → t.record x = .head ring c f lu n hi → 256 < lu + 1 + j.header.lines →
      exec .put s = .next (programs (taken s r) [.closeHead x, .append j .closingForRoom, .put r] x 2 (.closed lu n hi f))) ∧
    (∀ y rest, t.head = none → t.free = y :: rest →
      exec .put s = .next (programs { taken s r with log := some { t with nextRing := t.nextRing + 1 } }
        [.openHead y t.nextRing, .append j .opening, .put r] y 1 (.opened s.formatId t.nextRing s.engine.seq)))) ∧
  (∀ (s : State) (j : AppendJob) (k : List Task) (t : LogTables) (x st i : Nat) (d : LineData) (ring hi : Seq) (c f lu n : Nat),
    Waits s (.append j (.programming x st i) :: k) x (st + i) d → Free s → s.log = some t → 2 ≤ x → x < 64 →
    t.sectors.length = 62 → t.head = some x → t.record x = .head ring c f lu n hi →
    let blank := s.lineAt x (st + i) = .blank
    let failed := if blank then .defective else s.lineAt x (st + i)
    let u := { s with seq := programmed s.seq x (st + i) failed, log := some (t.setRecord x (.head ring c (f + 1) (st + i) n hi)) }
    (blank → i + 1 < j.header.lines →
      exec (.lineProgramDone true) s = .next (programs
        { s with seq := programmed s.seq x (st + i) (.good d),
                 log := some (t.setRecord x (.head ring c f (st + i) n hi)) }
        (.append j (.programming x st (i + 1)) :: k) x (st + (i + 1)) (frameLine j (i + 1)))) ∧
    (∀ event, (blank ∧ event ∈ [Instr.lineProgramDone false, .programTimeout]) ∨
        (¬ blank ∧ event ∈ [Instr.lineProgramDone false, .lineProgramDone true]) →
      (f + 1 < 3 → st + i + 1 + j.header.lines ≤ 256 →
        exec event s = .next (programs u
          (.append j (.programming x (st + i + 1) 0) :: k) x (st + i + 1) (.frame j.header))) ∧
      (f + 1 < 3 → 256 < st + i + 1 + j.header.lines → t.free ≠ [] →
        exec event s = .next (programs u
          (.closeHead x :: .append j .closingForRoom :: k) x 2 (.closed (st + i) n hi (f + 1)))) ∧
      (f + 1 = 3 →
        exec event s = .next (programs u
          (.closeHead x :: .append j .closingCondemned :: k) x 2 (.closed (st + i) n hi 3))))) ∧
  (∀ (s : State) (j : AppendJob) (p : AppendPhase) (k : List Task) (t : LogTables) (x y : Nat) (rest : List Nat) (d : LineData)
      (ring hi : Seq) (c f lu n : Nat),
    p = .closingForRoom ∨ p = .closingCondemned → Programs s (.closeHead x :: .append j p :: k) x 2 d → Free s →
    s.log = some t → t.head = some x → t.record x = .head ring c f lu n hi → t.free = y :: rest →
    ∀ event ∈ [Instr.lineProgramDone true, .lineProgramDone false, .programTimeout],
      let good := event = .lineProgramDone true
      exec event s = .next (programs
        { s with
          seq := programmed s.seq x 2 (if good then .good d else .defective),
          log := some { t.setRecord x (.closed ring c f lu (decide (¬ good) || decide (3 ≤ f))) with
            head := none, nextRing := t.nextRing + 1 } }
        (.openHead y t.nextRing :: .append j .opening :: k) y 1 (.opened s.formatId t.nextRing s.engine.seq))) ∧
  (∀ (s : State) (j : AppendJob) (k : List Task) (t : LogTables) (y c : Nat) (ring : Seq) (d : LineData),
    Programs s (.openHead y ring :: .append j .opening :: k) y 1 d → Free s → s.log = some t → 2 ≤ y → y < 64 →
    t.sectors.length = 62 → t.record y = .free c →
    (3 + j.header.lines ≤ 256 →
      exec (.lineProgramDone true) s = .next (programs
        { s with
          seq := programmed s.seq y 1 (.good d),
          log := some { t.setRecord y (.head ring c 0 2 0 0) with
            free := t.free.filter (· != y), ring := t.ring.filter (· != y) ++ [y], head := some y } }
        (.append j (.programming y 3 0) :: k) y 3 (.frame j.header))) ∧
    (s.contents.generation ≠ 4294967295 → ∀ event ∈ [Instr.lineProgramDone false, .programTimeout],
      exec event s = .next (anchorAsked { s with seq := programmed s.seq y 1 .defective }
        (.retire y :: .openRetry :: .append j .opening :: k) (retiring s.contents y)))) ∧
  (∀ (s : State) (j : AppendJob) (k : List Task) (t : LogTables) (a : AnchorRecord) (b : Bool) (x slot y z : Nat)
      (rest : List Nat) (d : LineData),
    Programs s (.anchorWrite a b (.line x slot 5) :: .retire y :: .openRetry :: .append j .opening :: k) x (6 * slot + 5) d →
    Free s → s.log = some t → t.free.filter (· != y) = z :: rest → 8 ≤ (t.setRecord y .retired).usable →
    exec (.lineProgramDone true) s = .next (programs
      { s with
        seq := programmed s.seq x (6 * slot + 5) (.good d),
        anchor := { s.anchor with location := some (x, slot), writePos := some (x, slot + 1) },
        log := some { t.setRecord y .retired with
          free := z :: rest, ring := t.ring.filter (· != y), nextRing := t.nextRing + 1 } }
      (.openHead z t.nextRing :: .append j .opening :: k) z 1 (.opened s.formatId t.nextRing s.engine.seq)))

/-- The end of the compactor's background erase (R97, R105, R109): after PASS every line of the sector reads BLANK; after FAIL,
and when the elapsed time reaches 200 ms, line 0 reads DEFECTIVE and each other line BLANK or DEFECTIVE, whatever the free
values are; no other line changes; the sequencer is IDLE and the compactor FINISHING with the outcome. -/
def Obligations.EraseEnds : Prop :=
  ∀ (s : State) (e : EraseRec), s.ctl = { stack := [], reply := none } → s.seq.pending = none → s.seq.waiting = none →
    s.seq.erase = some e → s.seq.state = .erasing → e.background = true → s.comp.stage = .erasing →
    ∀ event ∈ [Instr.eraseDone true, .eraseDone false, .eraseTimeLimit], ∃ t, exec event s = .next t ∧
      t = { s with
        seq := { s.seq with cells := t.seq.cells, state := .idle, erase := none },
        comp := { s.comp with stage := .finishing, eraseOutcome := some (event = .eraseDone true) },
        freeCtr := t.freeCtr } ∧
      (event = .eraseDone true → ∀ l, l < 256 → t.lineAt e.sector l = .blank) ∧
      (event ≠ .eraseDone true → t.lineAt e.sector 0 = .defective ∧
        ∀ l, l < 256 → t.lineAt e.sector l = .blank ∨ t.lineAt e.sector l = .defective) ∧
      (∀ x l, x ≠ e.sector → l < 256 → t.lineAt x l = s.lineAt x l)

/-- IDLE_TIMER_EXPIRY (R73): the running timer's transaction is dropped, the expired mark and EXPIRED_TXN take its number and
TXN_EXPIRED is raised; a timer that is not running does not expire (log 8). Directory and array are unchanged. -/
def Obligations.IdleTimerExpires : Prop :=
  ∀ s : State,
    (∀ l e t, s.engine.txn.timer = .running l e → s.engine.txn.openTxn = some t →
      exec .idleTimerExpiry s = .next { s with
        engine := { s.engine with txn := { openTxn := none, timer := .stopped, expired := some t.number } },
        window := { s.window with events := s.window.events ||| 0x04, expiredTxn := t.number } }) ∧
    ((∀ l e, s.engine.txn.timer ≠ .running l e) → exec .idleTimerExpiry s = .next s)

/-- ARRAY_OWN_LOSS (R105): a GOOD line reads DEFECTIVE from then on and every other line as before; a BLANK or DEFECTIVE line
stays as it is; nothing but the array changes. -/
def Obligations.OwnLoss : Prop :=
  ∀ (s : State) (x l : Nat), x < 64 → l < 256 → s.arrayWf = true →
    (∀ d, s.lineAt x l = .good d → ∃ t, exec (.arrayOwnLoss x l) s = .next t ∧
      t = { s with seq := { s.seq with cells := t.seq.cells } } ∧ t.lineAt x l = .defective ∧
      (∀ x' l', lineAddr x' l' ≠ lineAddr x l → t.lineAt x' l' = s.lineAt x' l')) ∧
    ((∀ d, s.lineAt x l ≠ .good d) → exec (.arrayOwnLoss x l) s = .next s)

/-! ### The directory and frames -/

/-- The directory operations (R34 to R38) on a well-formed directory: what the key's entry becomes, that no other entry changes,
and how A changes. -/
def Obligations.DirectoryOperations : Prop :=
  ∀ (d : Directory) (k : Key) (v : Seq) (x l n : Nat), d.wf = true →
    ((findEntry d.entries k).isSome = true ∨ d.entries.length < 1024 →
      findEntry (d.installLive k v x l n).entries k =
        some { key := k, live := some n, version := v, sector := x, line := l } ∧
      (d.installLive k v x l n).accounted + chargeOf d.entries k = d.accounted + putLines n ∧
      findEntry (d.markDead k v x l).entries k =
        some { key := k, live := none, version := v, sector := x, line := l } ∧
      (d.markDead k v x l).accounted + chargeOf d.entries k = d.accounted + 1) ∧
    (findEntry d.entries k = none → 1024 ≤ d.entries.length →
      d.installLive k v x l n = { d with overflow := true } ∧ d.markDead k v x l = { d with overflow := true }) ∧
    (findEntry (d.remove k).entries k = none ∧ (d.remove k).accounted + chargeOf d.entries k = d.accounted) ∧
    (∀ e, findEntry d.entries k = some e → e.live.isSome = true → e.version = v →
      findEntry (d.relocate k v x l).entries k = some { e with sector := x, line := l } ∧
      (d.relocate k v x l).accounted = d.accounted ∧
      ∀ q, findEntry (d.convertOnLoss k v q x l).entries k =
          some { key := k, live := none, version := q, sector := x, line := l } ∧
        (d.convertOnLoss k v q x l).accounted + e.charge = d.accounted + 1) ∧
    ((∀ e, findEntry d.entries k = some e → e.live.isSome = false ∨ e.version ≠ v) →
      d.relocate k v x l = d ∧ ∀ q, d.convertOnLoss k v q x l = d) ∧
    (∀ k', k' ≠ k →
      findEntry (d.installLive k v x l n).entries k' = findEntry d.entries k' ∧
      findEntry (d.markDead k v x l).entries k' = findEntry d.entries k' ∧
      findEntry (d.remove k).entries k' = findEntry d.entries k' ∧
      findEntry (d.relocate k v x l).entries k' = findEntry d.entries k' ∧
      ∀ q, findEntry (d.convertOnLoss k v q x l).entries k' = findEntry d.entries k')

/-- The searches (R27 to R29) on a directory in key order: the exact search finds the key's entry, the next-key search the LIVE
entry with the smallest key above k in a readable zone, the located-entry search the smallest-key entry located in a sector;
each reports none exactly when there is none. The companion count is the number of entries located in the sector: an entry adds
one to it or nothing, and it is 0 exactly when the located-entry search reports none. -/
def Obligations.DirectorySearches : Prop :=
  ∀ (es : List Entry) (k : Key) (readable : Fin 4 → Bool) (x : Nat) (e : Entry), keysAscending es = true →
    (findEntry es k = some e ↔ e ∈ es ∧ e.key = k) ∧
    (nextEntry es k readable = some e ↔
      (e ∈ es ∧ k < e.key ∧ e.live.isSome = true ∧ readable (zoneOf e.key) = true) ∧
      ∀ e' ∈ es, k < e'.key → e'.live.isSome = true → readable (zoneOf e'.key) = true → e.key ≤ e'.key) ∧
    (nextEntry es k readable = none ↔
      ∀ e' ∈ es, ¬ (k < e'.key ∧ e'.live.isSome = true ∧ readable (zoneOf e'.key) = true)) ∧
    (locatedEntry es x = some e ↔ (e ∈ es ∧ e.sector = x) ∧ ∀ e' ∈ es, e'.sector = x → e.key ≤ e'.key) ∧
    (locatedEntry es x = none ↔ ∀ e' ∈ es, e'.sector ≠ x) ∧
    (locatedCount [] x = 0 ∧ locatedCount (e :: es) x = (if e.sector = x then 1 else 0) + locatedCount es x) ∧
    (locatedCount es x = 0 ↔ locatedEntry es x = none)

/-- Frame lines and payload bytes (R16): DELETE and COMMIT frames take one line and a PUT frame of n bytes 1 + ceil(n / 16); value
byte i lies in payload line 1 + i / 16 at position i mod 16, and the positions beyond the value's end hold zero bytes. -/
def Obligations.PayloadLayout : Prop :=
  (∀ k q m n, (FrameHeader.put k q m n).lines = 1 + (n + 15) / 16) ∧
  (∀ k q m, (FrameHeader.delete k q m).lines = 1) ∧ (∀ q t n, (FrameHeader.commit q t n).lines = 1) ∧
  (∀ (j : AppendJob) (i : Nat), ∃ bytes : Vector Byte 16, frameLine j (1 + i / 16) = .payload bytes ∧
    bytes[i % 16]? = some (j.value.getD i 0)) ∧
  (∀ b : Vector Byte 16, (LineData.payload b).asPayload = b)

/-! ### What every step keeps -/

/-- The array keeps its canonical form: lines in rising order of address and none of them BLANK. -/
def Obligations.ArrayStaysCanonical : Prop :=
  ∀ s t : State, s.arrayWf = true → step s = .next t → t.arrayWf = true

/-- The directory stays in ascending key order with at most 1024 entries, and A always equals the sum of the frame lines of the
LIVE entries plus one line for each DEAD entry (R26, R30). -/
def Obligations.DirectoryStaysAccounted : Prop :=
  ∀ s t : State, s.directoryWf = true → step s = .next t → t.directoryWf = true

/-- The request queue holds at most 4 requests, the completion queue at most 8 records and the fill buffer at most 256 bytes,
and a job always finds a completion record free when it ends (R159, R161, R163, R167). -/
def Obligations.QueuesStayBounded : Prop :=
  ∀ s t : State, s.queuesWf = true → step s = .next t → t.queuesWf = true

/-- The latched events keep to bits 1 to 5, the enables to bits 0 to 5 and LOW_WATER to 3 to 16 (R178 to R180). -/
def Obligations.WindowStaysLegal : Prop :=
  ∀ s t : State, s.windowWf = true → step s = .next t → t.windowWf = true

/-- The sequencer's state agrees with the erase in flight and the halted flag, and an erase in flight never exceeds 8 suspensions
and 200 ms of erase time (R112, R115). -/
def Obligations.SequencerStaysConsistent : Prop :=
  ∀ s t : State, s.sequencerWf = true → step s = .next t → t.sequencerWf = true

/-- A locked out zone is never unlocked and the failed-attempt count is 0 to 3; a lockout ends by power-on, power loss and pin
reset only (R148). -/
def Obligations.LockoutUntilHardReset : Prop :=
  (∀ s t : State, s.zonesWf = true → step s = .next t → t.zonesWf = true) ∧
  (∀ (s t : State) (z : Fin 4), s.zones[z].lockout = true → step s = .next t →
    (∀ c ∈ s.pending.head?, c ≠ .rstAsserted ∧ c ≠ .powerOn ∧ c ≠ .powerLoss) → t.zones[z].lockout = true)

/-- The state after reset meets every invariant stated here. -/
def Obligations.ResetMeetsInvariants : Prop :=
  State.reset.arrayWf = true ∧ State.reset.directoryWf = true ∧ State.reset.queuesWf = true ∧
  State.reset.windowWf = true ∧ State.reset.sequencerWf = true ∧ State.reset.zonesWf = true

/-- The array is not changed once the power-fail warning has been taken and the program in hand has ended (R120): with the halted
flag set, no erase in flight and no program in hand, no command but the array's own loss changes a line. -/
def Obligations.HaltedArrayStays : Prop :=
  ∀ s t : State, s.seq.halted = true → s.seq.erase = none → (∀ x l d, s.seq.inHand ≠ some (.program x l d)) →
    (∀ x l, s.pending.head? ≠ some (.arrayOwnLoss x l)) → step s = .next t → t.seq.cells = s.seq.cells

/-- The store leaves HALTED only through a reset (R42, R44). -/
def Obligations.HaltedUntilReset : Prop :=
  ∀ s t : State, s.engine.store = .halted → (∀ c ∈ s.pending.head?, c.resets = false) → step s = .next t →
    t.engine.store = .halted

/-- The retired set never shrinks (R143, R147): while mount is not choosing the anchor record, a step that leaves the anchor
unit with contents leaves every sector of the retired set in it. -/
def Obligations.RetiredNeverShrinks : Prop :=
  ∀ (s t : State) (a b : AnchorRecord), s.ctl.stack.all (fun k => !isAnchorScan k) = true → s.pending.head? ≠ some .mount →
    step s = .next t → s.anchor.working = some a → t.anchor.working = some b → ∀ x ∈ a.retired, x ∈ b.retired
end

