-- ==== Sys2Proof/Laws/Directory.lean ====
section
/-! SUPPORT. The directory's list of entries: what a search finds and what the charges sum to after an entry is put or dropped. -/

namespace Sys2Proof.Machine

open Sys2Proof

/-- A key below every entry is not found. -/
theorem findEntry_none_of_above {es : List Entry} {k : Key} (h : ∀ e ∈ es, k < e.key) : findEntry es k = none := by
  induction es with
  | nil => rfl
  | cons e es ih =>
    have : e.key ≠ k := by intro he; have := h e (by simp); rw [he] at this; exact absurd this (BitVec.lt_irrefl _)
    simp [findEntry, this, ih (fun e he => h e (by simp [he]))]

/-- Ascending order of a longer list: the first key is below the others. -/
theorem keysAscending_cons {e : Entry} {es : List Entry} : keysAscending (e :: es) = true ↔ (∀ x ∈ es, e.key < x.key) ∧ keysAscending es = true := by
  simp [keysAscending]

/-- Search after an entry is put: the entry for its own key, and what was there for any other. -/
theorem findEntry_putEntry {es : List Entry} (e : Entry) (h : keysAscending es = true) (k : Key) :
    findEntry (putEntry es e) k = if e.key = k then some e else findEntry es k := by
  induction es with
  | nil => simp [putEntry, findEntry]
  | cons x es ih =>
    have ⟨h1, h2⟩ := keysAscending_cons.1 h
    simp only [putEntry]
    by_cases hlt : e.key < x.key
    · simp only [hlt, if_true, findEntry]
    · simp only [hlt, if_false]
      by_cases heq : x.key = e.key
      · simp only [heq, if_true, findEntry]; split <;> rfl
      · simp only [heq, if_false, findEntry, ih h2]
        by_cases hk : e.key = k
        · have : ¬ x.key = k := by rw [← hk]; exact heq
          simp [hk, this]
        · simp [hk]

/-- Search after a key's entry is dropped: none for that key, and what was there for any other. -/
theorem findEntry_dropEntry {es : List Entry} (k k' : Key) (h : keysAscending es = true) :
    findEntry (dropEntry es k) k' = if k = k' then none else findEntry es k' := by
  induction es with
  | nil => simp [dropEntry, findEntry]
  | cons x es ih =>
    have ⟨h1, h2⟩ := keysAscending_cons.1 h
    simp only [dropEntry]
    by_cases hk : x.key = k
    · simp only [hk, if_true, findEntry]
      by_cases hkk : k = k'
      · subst hkk; simp [findEntry_none_of_above (k := k) (by rw [← hk]; exact h1)]
      · simp [hkk]
    · simp only [hk, if_false, findEntry, ih h2]
      by_cases hkk : k = k'
      · subst hkk; simp [hk]
      · simp [hkk]

/-- The sum of the charges after an entry is put: the key's old charge gives way to the new one (R30). -/
theorem totalCharge_putEntry {es : List Entry} (e : Entry) (h : keysAscending es = true) :
    totalCharge (putEntry es e) + chargeOf es e.key = totalCharge es + e.charge := by
  induction es with
  | nil => simp [putEntry, totalCharge, chargeOf, findEntry]
  | cons x es ih =>
    have ⟨h1, h2⟩ := keysAscending_cons.1 h
    simp only [putEntry]
    by_cases hlt : e.key < x.key
    · have : findEntry (x :: es) e.key = none := findEntry_none_of_above (by
        intro y hy; simp only [List.mem_cons] at hy; rcases hy with rfl | hy
        · exact hlt
        · exact BitVec.lt_trans hlt (h1 y hy))
      simp only [hlt, if_true, chargeOf, this]
      simp [totalCharge]; omega
    · simp only [hlt, if_false]
      by_cases heq : x.key = e.key
      · simp [heq, totalCharge, chargeOf, findEntry]; omega
      · have ih := ih h2
        simp only [heq, if_false]
        have hc : chargeOf (x :: es) e.key = chargeOf es e.key := by simp [chargeOf, findEntry, heq]
        rw [hc]; simp only [totalCharge, List.map_cons, List.sum_cons] at *; omega

/-- The sum of the charges after a key's entry is dropped (R30). -/
theorem totalCharge_dropEntry {es : List Entry} (k : Key) (h : keysAscending es = true) :
    totalCharge (dropEntry es k) + chargeOf es k = totalCharge es := by
  induction es with
  | nil => rfl
  | cons x es ih =>
    have ⟨h1, h2⟩ := keysAscending_cons.1 h
    simp only [dropEntry]
    by_cases hk : x.key = k
    · simp [hk, totalCharge, chargeOf, findEntry]; omega
    · have ih := ih h2
      have hc : chargeOf (x :: es) k = chargeOf es k := by simp [chargeOf, findEntry, hk]
      simp only [hk, if_false]; rw [hc]; simp only [totalCharge, List.map_cons, List.sum_cons] at *; omega

/-- A key's charge is part of the sum. -/
theorem chargeOf_le_totalCharge {es : List Entry} (k : Key) : chargeOf es k ≤ totalCharge es := by
  induction es with
  | nil => simp [chargeOf, findEntry]
  | cons x es ih =>
    by_cases hk : x.key = k
    · simp [chargeOf, findEntry, hk, totalCharge]
    · have hc : chargeOf (x :: es) k = chargeOf es k := by simp [chargeOf, findEntry, hk]
      rw [hc]; simp only [totalCharge, List.map_cons, List.sum_cons] at *; omega

/-- An entry placed where it has room: the entries and A (R34, R35, R39). -/
theorem Directory.place_fits (d : Directory) (e : Entry) (h : d.wf = true) (hr : (findEntry d.entries e.key).isSome = true ∨ d.entries.length < 1024) :
    (d.place e).entries = putEntry d.entries e ∧ (d.place e).accounted + chargeOf d.entries e.key = d.accounted + e.charge := by
  simp only [Directory.wf, Bool.and_eq_true, decide_eq_true_eq] at h
  obtain ⟨⟨h1, h2⟩, h3⟩ := h
  have hle := chargeOf_le_totalCharge (es := d.entries) e.key
  unfold Directory.place
  cases hf : findEntry d.entries e.key with
  | some old =>
    have hc : chargeOf d.entries e.key = old.charge := by simp [chargeOf, hf]
    rw [hc] at hle ⊢
    refine ⟨rfl, ?_⟩
    simp only; omega
  | none =>
    have hc : chargeOf d.entries e.key = 0 := by simp [chargeOf, hf]
    have : d.entries.length < 1024 := by rcases hr with hr | hr; simp [hf] at hr; exact hr
    simp [Config.directoryCapacity, this, hc]

/-- An entry placed where it has no room: only the overflow mark is set (R40). -/
theorem Directory.place_overflows (d : Directory) (e : Entry) (h1 : findEntry d.entries e.key = none) (h2 : 1024 ≤ d.entries.length) : d.place e = { d with overflow := true } := by
  unfold Directory.place; simp only [h1]; rw [if_neg (show ¬ d.entries.length < Config.directoryCapacity from Nat.not_lt.2 h2)]

/-- Placing an entry leaves every other key as it was. -/
theorem Directory.place_other (d : Directory) (e : Entry) (h : d.wf = true) (k' : Key) (hk : k' ≠ e.key) : findEntry (d.place e).entries k' = findEntry d.entries k' := by
  by_cases hr : (findEntry d.entries e.key).isSome = true ∨ d.entries.length < 1024
  · have h' := h
    simp only [Directory.wf, Bool.and_eq_true, decide_eq_true_eq] at h'
    rw [(Directory.place_fits d e h hr).1, findEntry_putEntry e h'.1.1, if_neg (Ne.symm hk)]
  · simp only [not_or] at hr
    have : findEntry d.entries e.key = none := by cases hf : findEntry d.entries e.key <;> simp_all
    rw [Directory.place_overflows d e this (by omega)]

/-- What a search finds is an entry of the list with that key. -/
theorem findEntry_mem {es : List Entry} {k : Key} {e : Entry} (h : findEntry es k = some e) : e.key = k ∧ e ∈ es := by
  induction es with
  | nil => simp [findEntry] at h
  | cons x es ih =>
    simp only [findEntry] at h
    split at h
    · simp at h; subst h; exact ⟨‹_›, by simp⟩
    · have := ih h; exact ⟨this.1, by simp [this.2]⟩

/-! ### Conditions and versions (R50, R51) -/

/-- IF_VERSION is met exactly by a LIVE entry with the expected version, which is not 0. -/
theorem conditionFails_ifVersion_eq_none (es : List Entry) (k : Key) (v : Seq) :
    conditionFails es k (.ifVersion v) = none ↔ v ≠ 0 ∧ ∃ e n, findLive es k = some (e, n) ∧ e.version = v := by
  unfold conditionFails
  cases findLive es k with
  | none => simp
  | some p =>
    obtain ⟨e, n⟩ := p
    by_cases h : v ≠ 0 ∧ e.version = v
    · simp only [if_pos h, true_iff]; exact ⟨h.1, e, n, rfl, h.2⟩
    · simp only [if_neg h, reduceCtorEq, false_iff]
      rintro ⟨h0, e', n', he, hv⟩
      simp only [Option.some.injEq, Prod.mk.injEq] at he
      exact h ⟨h0, he.1 ▸ hv⟩

/-- An expected version of 0 matches no key. -/
theorem conditionFails_ifVersion_zero (es : List Entry) (k : Key) : conditionFails es k (.ifVersion 0) = some .versionMismatch := by
  unfold conditionFails
  cases findLive es k <;> simp

/-- A line read as a header never gives sequence 0 (log 43). -/
theorem asHeader_seq_ne_zero {d : LineData} {h : FrameHeader} (hd : d.asHeader = some h) : h.seq ≠ 0 := by
  have hl := (Option.filter_eq_some_iff.1 hd).2
  intro h0
  simp [FrameHeader.legal, h0] at hl

end Sys2Proof.Machine
end

