-- ==== Sys2Proof/Laws/State.lean ====
section
/-! SUPPORT. What each update of the state leaves in each field: one lemma per field per update, true by rfl. -/

namespace Sys2Proof.Machine

open Sys2Proof

variable (s : State)

/-! ### withCells -/

@[simp] theorem State.withCells_window (c : Cells) : (s.withCells c).window = s.window := rfl
@[simp] theorem State.withCells_queues (c : Cells) : (s.withCells c).queues = s.queues := rfl
@[simp] theorem State.withCells_engine (c : Cells) : (s.withCells c).engine = s.engine := rfl
@[simp] theorem State.withCells_ctl (c : Cells) : (s.withCells c).ctl = s.ctl := rfl
@[simp] theorem State.withCells_log (c : Cells) : (s.withCells c).log = s.log := rfl
@[simp] theorem State.withCells_comp (c : Cells) : (s.withCells c).comp = s.comp := rfl
@[simp] theorem State.withCells_seq (c : Cells) : (s.withCells c).seq = { s.seq with cells := c } := rfl
@[simp] theorem State.withCells_anchor (c : Cells) : (s.withCells c).anchor = s.anchor := rfl
@[simp] theorem State.withCells_zones (c : Cells) : (s.withCells c).zones = s.zones := rfl
@[simp] theorem State.withCells_pins (c : Cells) : (s.withCells c).pins = s.pins := rfl
@[simp] theorem State.withCells_freeCtr (c : Cells) : (s.withCells c).freeCtr = s.freeCtr := rfl
@[simp] theorem State.withCells_pending (c : Cells) : (s.withCells c).pending = s.pending := rfl

/-! ### setLine -/

@[simp] theorem State.setLine_window (x l : Nat) (v : Line) : (s.setLine x l v).window = s.window := rfl
@[simp] theorem State.setLine_queues (x l : Nat) (v : Line) : (s.setLine x l v).queues = s.queues := rfl
@[simp] theorem State.setLine_engine (x l : Nat) (v : Line) : (s.setLine x l v).engine = s.engine := rfl
@[simp] theorem State.setLine_ctl (x l : Nat) (v : Line) : (s.setLine x l v).ctl = s.ctl := rfl
@[simp] theorem State.setLine_log (x l : Nat) (v : Line) : (s.setLine x l v).log = s.log := rfl
@[simp] theorem State.setLine_comp (x l : Nat) (v : Line) : (s.setLine x l v).comp = s.comp := rfl
@[simp] theorem State.setLine_seq (x l : Nat) (v : Line) : (s.setLine x l v).seq = { s.seq with cells := writeCell s.seq.cells (lineAddr x l) v } := rfl
@[simp] theorem State.setLine_anchor (x l : Nat) (v : Line) : (s.setLine x l v).anchor = s.anchor := rfl
@[simp] theorem State.setLine_zones (x l : Nat) (v : Line) : (s.setLine x l v).zones = s.zones := rfl
@[simp] theorem State.setLine_pins (x l : Nat) (v : Line) : (s.setLine x l v).pins = s.pins := rfl
@[simp] theorem State.setLine_freeCtr (x l : Nat) (v : Line) : (s.setLine x l v).freeCtr = s.freeCtr := rfl
@[simp] theorem State.setLine_pending (x l : Nat) (v : Line) : (s.setLine x l v).pending = s.pending := rfl

/-! ### push -/

@[simp] theorem State.push_window (t : Task) : (s.push t).window = s.window := rfl
@[simp] theorem State.push_queues (t : Task) : (s.push t).queues = s.queues := rfl
@[simp] theorem State.push_engine (t : Task) : (s.push t).engine = s.engine := rfl
@[simp] theorem State.push_ctl (t : Task) : (s.push t).ctl = { s.ctl with stack := t :: s.ctl.stack } := rfl
@[simp] theorem State.push_log (t : Task) : (s.push t).log = s.log := rfl
@[simp] theorem State.push_comp (t : Task) : (s.push t).comp = s.comp := rfl
@[simp] theorem State.push_seq (t : Task) : (s.push t).seq = s.seq := rfl
@[simp] theorem State.push_anchor (t : Task) : (s.push t).anchor = s.anchor := rfl
@[simp] theorem State.push_zones (t : Task) : (s.push t).zones = s.zones := rfl
@[simp] theorem State.push_pins (t : Task) : (s.push t).pins = s.pins := rfl
@[simp] theorem State.push_freeCtr (t : Task) : (s.push t).freeCtr = s.freeCtr := rfl
@[simp] theorem State.push_pending (t : Task) : (s.push t).pending = s.pending := rfl

/-! ### ret -/

@[simp] theorem State.ret_window (r : Reply) : (s.ret r).window = s.window := rfl
@[simp] theorem State.ret_queues (r : Reply) : (s.ret r).queues = s.queues := rfl
@[simp] theorem State.ret_engine (r : Reply) : (s.ret r).engine = s.engine := rfl
@[simp] theorem State.ret_ctl (r : Reply) : (s.ret r).ctl = { s.ctl with reply := some r } := rfl
@[simp] theorem State.ret_log (r : Reply) : (s.ret r).log = s.log := rfl
@[simp] theorem State.ret_comp (r : Reply) : (s.ret r).comp = s.comp := rfl
@[simp] theorem State.ret_seq (r : Reply) : (s.ret r).seq = s.seq := rfl
@[simp] theorem State.ret_anchor (r : Reply) : (s.ret r).anchor = s.anchor := rfl
@[simp] theorem State.ret_zones (r : Reply) : (s.ret r).zones = s.zones := rfl
@[simp] theorem State.ret_pins (r : Reply) : (s.ret r).pins = s.pins := rfl
@[simp] theorem State.ret_freeCtr (r : Reply) : (s.ret r).freeCtr = s.freeCtr := rfl
@[simp] theorem State.ret_pending (r : Reply) : (s.ret r).pending = s.pending := rfl

/-! ### clearControl -/

@[simp] theorem State.clearControl_window : (s.clearControl).window = s.window := rfl
@[simp] theorem State.clearControl_queues : (s.clearControl).queues = s.queues := rfl
@[simp] theorem State.clearControl_engine : (s.clearControl).engine = s.engine := rfl
@[simp] theorem State.clearControl_ctl : (s.clearControl).ctl = { stack := [], reply := none } := rfl
@[simp] theorem State.clearControl_log : (s.clearControl).log = s.log := rfl
@[simp] theorem State.clearControl_comp : (s.clearControl).comp = s.comp := rfl
@[simp] theorem State.clearControl_seq : (s.clearControl).seq = s.seq := rfl
@[simp] theorem State.clearControl_anchor : (s.clearControl).anchor = s.anchor := rfl
@[simp] theorem State.clearControl_zones : (s.clearControl).zones = s.zones := rfl
@[simp] theorem State.clearControl_pins : (s.clearControl).pins = s.pins := rfl
@[simp] theorem State.clearControl_freeCtr : (s.clearControl).freeCtr = s.freeCtr := rfl
@[simp] theorem State.clearControl_pending : (s.clearControl).pending = s.pending := rfl

/-! ### raise -/

@[simp] theorem State.raise_window (e : Byte) : (s.raise e).window = { s.window with events := s.window.events ||| e } := rfl
@[simp] theorem State.raise_queues (e : Byte) : (s.raise e).queues = s.queues := rfl
@[simp] theorem State.raise_engine (e : Byte) : (s.raise e).engine = s.engine := rfl
@[simp] theorem State.raise_ctl (e : Byte) : (s.raise e).ctl = s.ctl := rfl
@[simp] theorem State.raise_log (e : Byte) : (s.raise e).log = s.log := rfl
@[simp] theorem State.raise_comp (e : Byte) : (s.raise e).comp = s.comp := rfl
@[simp] theorem State.raise_seq (e : Byte) : (s.raise e).seq = s.seq := rfl
@[simp] theorem State.raise_anchor (e : Byte) : (s.raise e).anchor = s.anchor := rfl
@[simp] theorem State.raise_zones (e : Byte) : (s.raise e).zones = s.zones := rfl
@[simp] theorem State.raise_pins (e : Byte) : (s.raise e).pins = s.pins := rfl
@[simp] theorem State.raise_freeCtr (e : Byte) : (s.raise e).freeCtr = s.freeCtr := rfl
@[simp] theorem State.raise_pending (e : Byte) : (s.raise e).pending = s.pending := rfl

/-! ### raiseMediaLoss -/

@[simp] theorem State.raiseMediaLoss_window (k : Key) : (s.raiseMediaLoss k).window = { s.window with events := s.window.events ||| evMediaLoss, lossKey := k } := rfl
@[simp] theorem State.raiseMediaLoss_queues (k : Key) : (s.raiseMediaLoss k).queues = s.queues := rfl
@[simp] theorem State.raiseMediaLoss_engine (k : Key) : (s.raiseMediaLoss k).engine = s.engine := rfl
@[simp] theorem State.raiseMediaLoss_ctl (k : Key) : (s.raiseMediaLoss k).ctl = s.ctl := rfl
@[simp] theorem State.raiseMediaLoss_log (k : Key) : (s.raiseMediaLoss k).log = s.log := rfl
@[simp] theorem State.raiseMediaLoss_comp (k : Key) : (s.raiseMediaLoss k).comp = s.comp := rfl
@[simp] theorem State.raiseMediaLoss_seq (k : Key) : (s.raiseMediaLoss k).seq = s.seq := rfl
@[simp] theorem State.raiseMediaLoss_anchor (k : Key) : (s.raiseMediaLoss k).anchor = s.anchor := rfl
@[simp] theorem State.raiseMediaLoss_zones (k : Key) : (s.raiseMediaLoss k).zones = s.zones := rfl
@[simp] theorem State.raiseMediaLoss_pins (k : Key) : (s.raiseMediaLoss k).pins = s.pins := rfl
@[simp] theorem State.raiseMediaLoss_freeCtr (k : Key) : (s.raiseMediaLoss k).freeCtr = s.freeCtr := rfl
@[simp] theorem State.raiseMediaLoss_pending (k : Key) : (s.raiseMediaLoss k).pending = s.pending := rfl

/-! ### dropTxn -/

@[simp] theorem State.dropTxn_window : (s.dropTxn).window = s.window := rfl
@[simp] theorem State.dropTxn_queues : (s.dropTxn).queues = s.queues := rfl
@[simp] theorem State.dropTxn_engine : (s.dropTxn).engine = { s.engine with txn := { s.engine.txn with openTxn := none, timer := .stopped } } := rfl
@[simp] theorem State.dropTxn_ctl : (s.dropTxn).ctl = s.ctl := rfl
@[simp] theorem State.dropTxn_log : (s.dropTxn).log = s.log := rfl
@[simp] theorem State.dropTxn_comp : (s.dropTxn).comp = s.comp := rfl
@[simp] theorem State.dropTxn_seq : (s.dropTxn).seq = s.seq := rfl
@[simp] theorem State.dropTxn_anchor : (s.dropTxn).anchor = s.anchor := rfl
@[simp] theorem State.dropTxn_zones : (s.dropTxn).zones = s.zones := rfl
@[simp] theorem State.dropTxn_pins : (s.dropTxn).pins = s.pins := rfl
@[simp] theorem State.dropTxn_freeCtr : (s.dropTxn).freeCtr = s.freeCtr := rfl
@[simp] theorem State.dropTxn_pending : (s.dropTxn).pending = s.pending := rfl

/-! ### drawFree -/

@[simp] theorem State.drawFree_window : (s.drawFree).window = s.window := rfl
@[simp] theorem State.drawFree_queues : (s.drawFree).queues = s.queues := rfl
@[simp] theorem State.drawFree_engine : (s.drawFree).engine = s.engine := rfl
@[simp] theorem State.drawFree_ctl : (s.drawFree).ctl = s.ctl := rfl
@[simp] theorem State.drawFree_log : (s.drawFree).log = s.log := rfl
@[simp] theorem State.drawFree_comp : (s.drawFree).comp = s.comp := rfl
@[simp] theorem State.drawFree_seq : (s.drawFree).seq = s.seq := rfl
@[simp] theorem State.drawFree_anchor : (s.drawFree).anchor = s.anchor := rfl
@[simp] theorem State.drawFree_zones : (s.drawFree).zones = s.zones := rfl
@[simp] theorem State.drawFree_pins : (s.drawFree).pins = s.pins := rfl
@[simp] theorem State.drawFree_freeCtr : (s.drawFree).freeCtr = s.freeCtr + 1 := rfl
@[simp] theorem State.drawFree_pending : (s.drawFree).pending = s.pending := rfl

/-! ### withDir -/

@[simp] theorem State.withDir_window (f : Directory → Directory) : (s.withDir f).window = s.window := rfl
@[simp] theorem State.withDir_queues (f : Directory → Directory) : (s.withDir f).queues = s.queues := rfl
@[simp] theorem State.withDir_engine (f : Directory → Directory) : (s.withDir f).engine = { s.engine with dir := f s.engine.dir } := rfl
@[simp] theorem State.withDir_ctl (f : Directory → Directory) : (s.withDir f).ctl = s.ctl := rfl
@[simp] theorem State.withDir_log (f : Directory → Directory) : (s.withDir f).log = s.log := rfl
@[simp] theorem State.withDir_comp (f : Directory → Directory) : (s.withDir f).comp = s.comp := rfl
@[simp] theorem State.withDir_seq (f : Directory → Directory) : (s.withDir f).seq = s.seq := rfl
@[simp] theorem State.withDir_anchor (f : Directory → Directory) : (s.withDir f).anchor = s.anchor := rfl
@[simp] theorem State.withDir_zones (f : Directory → Directory) : (s.withDir f).zones = s.zones := rfl
@[simp] theorem State.withDir_pins (f : Directory → Directory) : (s.withDir f).pins = s.pins := rfl
@[simp] theorem State.withDir_freeCtr (f : Directory → Directory) : (s.withDir f).freeCtr = s.freeCtr := rfl
@[simp] theorem State.withDir_pending (f : Directory → Directory) : (s.withDir f).pending = s.pending := rfl

/-! ### withLog -/

@[simp] theorem State.withLog_window (f : LogTables → LogTables) : (s.withLog f).window = s.window := rfl
@[simp] theorem State.withLog_queues (f : LogTables → LogTables) : (s.withLog f).queues = s.queues := rfl
@[simp] theorem State.withLog_engine (f : LogTables → LogTables) : (s.withLog f).engine = s.engine := rfl
@[simp] theorem State.withLog_ctl (f : LogTables → LogTables) : (s.withLog f).ctl = s.ctl := rfl
@[simp] theorem State.withLog_log (f : LogTables → LogTables) : (s.withLog f).log = s.log.map f := rfl
@[simp] theorem State.withLog_comp (f : LogTables → LogTables) : (s.withLog f).comp = s.comp := rfl
@[simp] theorem State.withLog_seq (f : LogTables → LogTables) : (s.withLog f).seq = s.seq := rfl
@[simp] theorem State.withLog_anchor (f : LogTables → LogTables) : (s.withLog f).anchor = s.anchor := rfl
@[simp] theorem State.withLog_zones (f : LogTables → LogTables) : (s.withLog f).zones = s.zones := rfl
@[simp] theorem State.withLog_pins (f : LogTables → LogTables) : (s.withLog f).pins = s.pins := rfl
@[simp] theorem State.withLog_freeCtr (f : LogTables → LogTables) : (s.withLog f).freeCtr = s.freeCtr := rfl
@[simp] theorem State.withLog_pending (f : LogTables → LogTables) : (s.withLog f).pending = s.pending := rfl

/-! ### setTxn -/

@[simp] theorem State.setTxn_window (t : Option OpenTxn) : (s.setTxn t).window = s.window := rfl
@[simp] theorem State.setTxn_queues (t : Option OpenTxn) : (s.setTxn t).queues = s.queues := rfl
@[simp] theorem State.setTxn_engine (t : Option OpenTxn) : (s.setTxn t).engine = { s.engine with txn := { s.engine.txn with openTxn := t } } := rfl
@[simp] theorem State.setTxn_ctl (t : Option OpenTxn) : (s.setTxn t).ctl = s.ctl := rfl
@[simp] theorem State.setTxn_log (t : Option OpenTxn) : (s.setTxn t).log = s.log := rfl
@[simp] theorem State.setTxn_comp (t : Option OpenTxn) : (s.setTxn t).comp = s.comp := rfl
@[simp] theorem State.setTxn_seq (t : Option OpenTxn) : (s.setTxn t).seq = s.seq := rfl
@[simp] theorem State.setTxn_anchor (t : Option OpenTxn) : (s.setTxn t).anchor = s.anchor := rfl
@[simp] theorem State.setTxn_zones (t : Option OpenTxn) : (s.setTxn t).zones = s.zones := rfl
@[simp] theorem State.setTxn_pins (t : Option OpenTxn) : (s.setTxn t).pins = s.pins := rfl
@[simp] theorem State.setTxn_freeCtr (t : Option OpenTxn) : (s.setTxn t).freeCtr = s.freeCtr := rfl
@[simp] theorem State.setTxn_pending (t : Option OpenTxn) : (s.setTxn t).pending = s.pending := rfl

/-! ### stopTimer -/

@[simp] theorem State.stopTimer_window : (s.stopTimer).window = s.window := rfl
@[simp] theorem State.stopTimer_queues : (s.stopTimer).queues = s.queues := rfl
@[simp] theorem State.stopTimer_engine : (s.stopTimer).engine = { s.engine with txn := { s.engine.txn with timer := .stopped } } := rfl
@[simp] theorem State.stopTimer_ctl : (s.stopTimer).ctl = s.ctl := rfl
@[simp] theorem State.stopTimer_log : (s.stopTimer).log = s.log := rfl
@[simp] theorem State.stopTimer_comp : (s.stopTimer).comp = s.comp := rfl
@[simp] theorem State.stopTimer_seq : (s.stopTimer).seq = s.seq := rfl
@[simp] theorem State.stopTimer_anchor : (s.stopTimer).anchor = s.anchor := rfl
@[simp] theorem State.stopTimer_zones : (s.stopTimer).zones = s.zones := rfl
@[simp] theorem State.stopTimer_pins : (s.stopTimer).pins = s.pins := rfl
@[simp] theorem State.stopTimer_freeCtr : (s.stopTimer).freeCtr = s.freeCtr := rfl
@[simp] theorem State.stopTimer_pending : (s.stopTimer).pending = s.pending := rfl

/-! ### setZoneFlags -/

@[simp] theorem State.setZoneFlags_window (z : Fin 4) (f : ZoneFlags) : (s.setZoneFlags z f).window = s.window := rfl
@[simp] theorem State.setZoneFlags_queues (z : Fin 4) (f : ZoneFlags) : (s.setZoneFlags z f).queues = s.queues := rfl
@[simp] theorem State.setZoneFlags_engine (z : Fin 4) (f : ZoneFlags) : (s.setZoneFlags z f).engine = s.engine := rfl
@[simp] theorem State.setZoneFlags_ctl (z : Fin 4) (f : ZoneFlags) : (s.setZoneFlags z f).ctl = s.ctl := rfl
@[simp] theorem State.setZoneFlags_log (z : Fin 4) (f : ZoneFlags) : (s.setZoneFlags z f).log = s.log := rfl
@[simp] theorem State.setZoneFlags_comp (z : Fin 4) (f : ZoneFlags) : (s.setZoneFlags z f).comp = s.comp := rfl
@[simp] theorem State.setZoneFlags_seq (z : Fin 4) (f : ZoneFlags) : (s.setZoneFlags z f).seq = s.seq := rfl
@[simp] theorem State.setZoneFlags_anchor (z : Fin 4) (f : ZoneFlags) : (s.setZoneFlags z f).anchor = s.anchor := rfl
@[simp] theorem State.setZoneFlags_zones (z : Fin 4) (f : ZoneFlags) : (s.setZoneFlags z f).zones = s.zones.set z f := rfl
@[simp] theorem State.setZoneFlags_pins (z : Fin 4) (f : ZoneFlags) : (s.setZoneFlags z f).pins = s.pins := rfl
@[simp] theorem State.setZoneFlags_freeCtr (z : Fin 4) (f : ZoneFlags) : (s.setZoneFlags z f).freeCtr = s.freeCtr := rfl
@[simp] theorem State.setZoneFlags_pending (z : Fin 4) (f : ZoneFlags) : (s.setZoneFlags z f).pending = s.pending := rfl

/-! ### clearFill -/

@[simp] theorem State.clearFill_window : (s.clearFill).window = { s.window with fill := [], fillOverflow := false } := rfl
@[simp] theorem State.clearFill_queues : (s.clearFill).queues = s.queues := rfl
@[simp] theorem State.clearFill_engine : (s.clearFill).engine = s.engine := rfl
@[simp] theorem State.clearFill_ctl : (s.clearFill).ctl = s.ctl := rfl
@[simp] theorem State.clearFill_log : (s.clearFill).log = s.log := rfl
@[simp] theorem State.clearFill_comp : (s.clearFill).comp = s.comp := rfl
@[simp] theorem State.clearFill_seq : (s.clearFill).seq = s.seq := rfl
@[simp] theorem State.clearFill_anchor : (s.clearFill).anchor = s.anchor := rfl
@[simp] theorem State.clearFill_zones : (s.clearFill).zones = s.zones := rfl
@[simp] theorem State.clearFill_pins : (s.clearFill).pins = s.pins := rfl
@[simp] theorem State.clearFill_freeCtr : (s.clearFill).freeCtr = s.freeCtr := rfl
@[simp] theorem State.clearFill_pending : (s.clearFill).pending = s.pending := rfl

/-! ### withSubmit -/

@[simp] theorem State.withSubmit_window (r : SubmitResult) : (s.withSubmit r).window = { s.window with submitResult := r } := rfl
@[simp] theorem State.withSubmit_queues (r : SubmitResult) : (s.withSubmit r).queues = s.queues := rfl
@[simp] theorem State.withSubmit_engine (r : SubmitResult) : (s.withSubmit r).engine = s.engine := rfl
@[simp] theorem State.withSubmit_ctl (r : SubmitResult) : (s.withSubmit r).ctl = s.ctl := rfl
@[simp] theorem State.withSubmit_log (r : SubmitResult) : (s.withSubmit r).log = s.log := rfl
@[simp] theorem State.withSubmit_comp (r : SubmitResult) : (s.withSubmit r).comp = s.comp := rfl
@[simp] theorem State.withSubmit_seq (r : SubmitResult) : (s.withSubmit r).seq = s.seq := rfl
@[simp] theorem State.withSubmit_anchor (r : SubmitResult) : (s.withSubmit r).anchor = s.anchor := rfl
@[simp] theorem State.withSubmit_zones (r : SubmitResult) : (s.withSubmit r).zones = s.zones := rfl
@[simp] theorem State.withSubmit_pins (r : SubmitResult) : (s.withSubmit r).pins = s.pins := rfl
@[simp] theorem State.withSubmit_freeCtr (r : SubmitResult) : (s.withSubmit r).freeCtr = s.freeCtr := rfl
@[simp] theorem State.withSubmit_pending (r : SubmitResult) : (s.withSubmit r).pending = s.pending := rfl

/-! ### drive -/

@[simp] theorem State.drive_window (b : Byte) : (s.drive b).window = { s.window with busData := b } := rfl
@[simp] theorem State.drive_queues (b : Byte) : (s.drive b).queues = s.queues := rfl
@[simp] theorem State.drive_engine (b : Byte) : (s.drive b).engine = s.engine := rfl
@[simp] theorem State.drive_ctl (b : Byte) : (s.drive b).ctl = s.ctl := rfl
@[simp] theorem State.drive_log (b : Byte) : (s.drive b).log = s.log := rfl
@[simp] theorem State.drive_comp (b : Byte) : (s.drive b).comp = s.comp := rfl
@[simp] theorem State.drive_seq (b : Byte) : (s.drive b).seq = s.seq := rfl
@[simp] theorem State.drive_anchor (b : Byte) : (s.drive b).anchor = s.anchor := rfl
@[simp] theorem State.drive_zones (b : Byte) : (s.drive b).zones = s.zones := rfl
@[simp] theorem State.drive_pins (b : Byte) : (s.drive b).pins = s.pins := rfl
@[simp] theorem State.drive_freeCtr (b : Byte) : (s.drive b).freeCtr = s.freeCtr := rfl
@[simp] theorem State.drive_pending (b : Byte) : (s.drive b).pending = s.pending := rfl

/-! ### leaveStall -/

@[simp] theorem State.leaveStall_window : (s.leaveStall).window = s.window := rfl
@[simp] theorem State.leaveStall_queues : (s.leaveStall).queues = s.queues := rfl
@[simp] theorem State.leaveStall_engine : (s.leaveStall).engine = s.engine := rfl
@[simp] theorem State.leaveStall_ctl : (s.leaveStall).ctl = s.ctl := rfl
@[simp] theorem State.leaveStall_log : (s.leaveStall).log = s.log := rfl
@[simp] theorem State.leaveStall_comp : (s.leaveStall).comp = { s.comp with stallMode := false, noGainLimit := none } := rfl
@[simp] theorem State.leaveStall_seq : (s.leaveStall).seq = s.seq := rfl
@[simp] theorem State.leaveStall_anchor : (s.leaveStall).anchor = s.anchor := rfl
@[simp] theorem State.leaveStall_zones : (s.leaveStall).zones = s.zones := rfl
@[simp] theorem State.leaveStall_pins : (s.leaveStall).pins = s.pins := rfl
@[simp] theorem State.leaveStall_freeCtr : (s.leaveStall).freeCtr = s.freeCtr := rfl
@[simp] theorem State.leaveStall_pending : (s.leaveStall).pending = s.pending := rfl

/-! ### abortRound -/

@[simp] theorem State.abortRound_window : (s.abortRound).window = s.window := rfl
@[simp] theorem State.abortRound_queues : (s.abortRound).queues = s.queues := rfl
@[simp] theorem State.abortRound_engine : (s.abortRound).engine = s.engine := rfl
@[simp] theorem State.abortRound_ctl : (s.abortRound).ctl = s.ctl := rfl
@[simp] theorem State.abortRound_log : (s.abortRound).log = s.log := rfl
@[simp] theorem State.abortRound_comp : (s.abortRound).comp = { s.comp with stage := .idle, victim := none, roundStart := none, eraseOutcome := none } := rfl
@[simp] theorem State.abortRound_seq : (s.abortRound).seq = s.seq := rfl
@[simp] theorem State.abortRound_anchor : (s.abortRound).anchor = s.anchor := rfl
@[simp] theorem State.abortRound_zones : (s.abortRound).zones = s.zones := rfl
@[simp] theorem State.abortRound_pins : (s.abortRound).pins = s.pins := rfl
@[simp] theorem State.abortRound_freeCtr : (s.abortRound).freeCtr = s.freeCtr := rfl
@[simp] theorem State.abortRound_pending : (s.abortRound).pending = s.pending := rfl

/-! ### mapRecord -/

@[simp] theorem State.mapRecord_window (x : Nat) (f : SectorRec → SectorRec) : (s.mapRecord x f).window = s.window := rfl
@[simp] theorem State.mapRecord_queues (x : Nat) (f : SectorRec → SectorRec) : (s.mapRecord x f).queues = s.queues := rfl
@[simp] theorem State.mapRecord_engine (x : Nat) (f : SectorRec → SectorRec) : (s.mapRecord x f).engine = s.engine := rfl
@[simp] theorem State.mapRecord_ctl (x : Nat) (f : SectorRec → SectorRec) : (s.mapRecord x f).ctl = s.ctl := rfl
@[simp] theorem State.mapRecord_log (x : Nat) (f : SectorRec → SectorRec) : (s.mapRecord x f).log = s.log.map (fun t => t.setRecord x (f (t.record x))) := rfl
@[simp] theorem State.mapRecord_comp (x : Nat) (f : SectorRec → SectorRec) : (s.mapRecord x f).comp = s.comp := rfl
@[simp] theorem State.mapRecord_seq (x : Nat) (f : SectorRec → SectorRec) : (s.mapRecord x f).seq = s.seq := rfl
@[simp] theorem State.mapRecord_anchor (x : Nat) (f : SectorRec → SectorRec) : (s.mapRecord x f).anchor = s.anchor := rfl
@[simp] theorem State.mapRecord_zones (x : Nat) (f : SectorRec → SectorRec) : (s.mapRecord x f).zones = s.zones := rfl
@[simp] theorem State.mapRecord_pins (x : Nat) (f : SectorRec → SectorRec) : (s.mapRecord x f).pins = s.pins := rfl
@[simp] theorem State.mapRecord_freeCtr (x : Nat) (f : SectorRec → SectorRec) : (s.mapRecord x f).freeCtr = s.freeCtr := rfl
@[simp] theorem State.mapRecord_pending (x : Nat) (f : SectorRec → SectorRec) : (s.mapRecord x f).pending = s.pending := rfl

end Sys2Proof.Machine
end

