-- ==== Sys2Proof/Laws/Drive.lean ====
section
/-! SUPPORT. Internal moves: when there are none left, one move at a time, and what every move keeps is kept by all. -/

namespace Sys2Proof.Machine

open Sys2Proof

/-- No move is left: the moves change nothing. -/
theorem State.moves_of_move_none {s : State} (h : s.move = none) (n : Nat) : State.moves n s = s := by
  cases n <;> simp [State.moves, h]

/-- One move, then the others. -/
theorem State.moves_succ_of_move {s t : State} (h : s.move = some t) (n : Nat) :
    State.moves (n + 1) s = State.moves n t := by
  simp [State.moves, h]

/-- Settling a state without a move changes nothing. -/
theorem State.settle_of_move_none {s : State} (h : s.move = none) : s.settle = s :=
  State.moves_of_move_none h _

/-- Settling is one move and then the moves that are left. -/
theorem State.settle_of_move {s t : State} (h : s.move = some t) : s.settle = State.moves 8191 t :=
  State.moves_succ_of_move h 8191

/-- What every move keeps, any number of moves keeps. -/
theorem State.moves_keeps {P : State → Prop} (step : ∀ s t, P s → s.move = some t → P t) :
    ∀ n s, P s → P (State.moves n s)
  | 0, _, h => h
  | n + 1, s, h => by
    cases hm : s.move with
    | none => rw [State.moves_of_move_none hm]; exact h
    | some t => rw [State.moves_succ_of_move hm]; exact State.moves_keeps step n t (step s t h hm)

/-- What every move keeps, settling keeps. -/
theorem State.settle_keeps {P : State → Prop} (step : ∀ s t, P s → s.move = some t → P t) {s : State} (h : P s) :
    P s.settle := State.moves_keeps step _ s h

/-- A state with no reply on its way and no pending erase has no move. -/
theorem State.move_none {s : State} (hr : s.ctl.reply = none) (hp : s.seq.pending = none) : s.move = none := by
  simp [State.move, State.startPending, hr, hp]

/-- A reply with a task on top: the task goes on with it. -/
theorem State.move_resume {s : State} {r : Reply} {t : Task} {rest : List Task} (hr : s.ctl.reply = some r)
    (hs : s.ctl.stack = t :: rest) :
    s.move = some (State.resume { s with ctl := { stack := rest, reply := none } } t r) := by
  simp [State.move, hr, hs]

/-- A reply with no task left is dropped: a background step has ended. -/
theorem State.move_drop {s : State} {r : Reply} (hr : s.ctl.reply = some r) (hs : s.ctl.stack = []) :
    s.move = some s.clearControl := by
  simp [State.move, hr, hs]

end Sys2Proof.Machine
end

