-- ==== Sys2Proof/Laws/Frames.lean ====
section
/-! SUPPORT. What no internal move changes: the pins, the commands that wait, the zone guard, the halted flag and the window but for
its latched events and LOSS_KEY. One lemma per operation. -/

namespace Sys2Proof.Machine

open Sys2Proof

/-- The part of the state that jobs, compaction steps and mount leave as it is. -/
structure Kept where
  window : Window
  zones : Vector ZoneFlags 4
  pins : Pins
  pending : List Instr
  halted : Bool
deriving DecidableEq, Repr

/-- What the internal moves leave of a state. -/
def State.kept (s : State) : Kept :=
  { window := { s.window with events := 0, lossKey := 0 }, zones := s.zones, pins := s.pins, pending := s.pending,
    halted := s.seq.halted }

@[simp] theorem State.withCells_kept (s : State) (c : Cells) : (s.withCells c).kept = s.kept := rfl
@[simp] theorem State.setLine_kept (s : State) (x l : Nat) (v : Line) : (s.setLine x l v).kept = s.kept := rfl
@[simp] theorem State.push_kept (s : State) (t : Task) : (s.push t).kept = s.kept := rfl
@[simp] theorem State.ret_kept (s : State) (r : Reply) : (s.ret r).kept = s.kept := rfl
@[simp] theorem State.clearControl_kept (s : State) : (s.clearControl).kept = s.kept := rfl
@[simp] theorem State.raise_kept (s : State) (e : Byte) : (s.raise e).kept = s.kept := rfl
@[simp] theorem State.raiseMediaLoss_kept (s : State) (k : Key) : (s.raiseMediaLoss k).kept = s.kept := rfl
@[simp] theorem State.dropTxn_kept (s : State) : (s.dropTxn).kept = s.kept := rfl
@[simp] theorem State.drawFree_kept (s : State) : (s.drawFree).kept = s.kept := rfl
@[simp] theorem State.withDir_kept (s : State) (f : Directory → Directory) : (s.withDir f).kept = s.kept := rfl
@[simp] theorem State.withLog_kept (s : State) (f : LogTables → LogTables) : (s.withLog f).kept = s.kept := rfl
@[simp] theorem State.setTxn_kept (s : State) (t : Option OpenTxn) : (s.setTxn t).kept = s.kept := rfl
@[simp] theorem State.stopTimer_kept (s : State) : (s.stopTimer).kept = s.kept := rfl
@[simp] theorem State.leaveStall_kept (s : State) : (s.leaveStall).kept = s.kept := rfl
@[simp] theorem State.abortRound_kept (s : State) : (s.abortRound).kept = s.kept := rfl
@[simp] theorem State.mapRecord_kept (s : State) (x : Nat) (f : SectorRec → SectorRec) : (s.mapRecord x f).kept = s.kept := rfl
@[simp] theorem State.setStore_kept (s : State) (st : StoreState) : (State.setStore s st).kept = s.kept := by
  unfold State.setStore; split <;> rfl
@[simp] theorem State.leaveStore_kept (s : State) (old : StoreState) (new : StoreState) : (State.leaveStore s old new).kept = s.kept := by
  unfold State.leaveStore; split <;> simp
@[simp] theorem State.reportReadOnly_kept (s : State) : (State.reportReadOnly s).kept = s.kept := by
  unfold State.reportReadOnly; split <;> rfl
@[simp] theorem State.applyReadOnly_kept (s : State) : (State.applyReadOnly s).kept = s.kept := by
  unfold State.applyReadOnly; dsimp only; (repeat' split) <;> first | rfl | (simp; done) | (simp; rfl)
@[simp] theorem State.serve_kept (s : State) (op : LineOp) : (State.serve s op).kept = s.kept := by
  unfold State.serve; split <;> rfl
@[simp] theorem State.issue_kept (s : State) (op : LineOp) : (State.issue s op).kept = s.kept := by
  unfold State.issue; (repeat' split) <;> rfl
@[simp] theorem State.issueRead_kept (s : State) (sector : Nat) (line : Nat) : (State.issueRead s sector line).kept = s.kept := by
  simp [State.issueRead]
@[simp] theorem State.issueProgram_kept (s : State) (sector : Nat) (line : Nat) (d : LineData) : (State.issueProgram s sector line d).kept = s.kept := by
  simp [State.issueProgram]
@[simp] theorem State.dropInHand_kept (s : State) : (State.dropInHand s).kept = s.kept := by
  unfold State.dropInHand; simp; rfl
@[simp] theorem State.endOp_kept (s : State) (r : Reply) : (State.endOp s r).kept = s.kept := by
  unfold State.endOp; split <;> simp
@[simp] theorem State.lineReadEnds_kept (s : State) : (State.lineReadEnds s).kept = s.kept := by
  unfold State.lineReadEnds; split <;> simp
@[simp] theorem State.lineProgramEnds_kept (s : State) (verified : Bool) : (State.lineProgramEnds s verified).kept = s.kept := by
  unfold State.lineProgramEnds; split <;> simp
@[simp] theorem State.programTimesOut_kept (s : State) : (State.programTimesOut s).kept = s.kept := by
  unfold State.programTimesOut; (repeat' split) <;> first | rfl | simp
@[simp] theorem State.beginErase_kept (s : State) (sector : Nat) (background : Bool) : (State.beginErase s sector background).kept = s.kept := by
  unfold State.beginErase; rfl
@[simp] theorem State.compactorErased_kept (s : State) (o : EraseOutcome) : (State.compactorErased s o).kept = s.kept := by
  unfold State.compactorErased; (repeat' split) <;> rfl
@[simp] theorem State.wakeWaiting_kept (s : State) : (State.wakeWaiting s).kept = s.kept := by
  unfold State.wakeWaiting; split <;> simp
@[simp] theorem State.deliverErase_kept (s : State) (background : Bool) (o : EraseOutcome) : (State.deliverErase s background o).kept = s.kept := by
  unfold State.deliverErase; split <;> simp
@[simp] theorem State.issueErase_kept (s : State) (sector : Nat) (background : Bool) : (State.issueErase s sector background).kept = s.kept := by
  unfold State.issueErase; (repeat' split) <;> first | rfl | simp
@[simp] theorem State.serveWaiting_kept (s : State) : (State.serveWaiting s).kept = s.kept := by
  unfold State.serveWaiting; dsimp only; (repeat' split) <;> rfl
@[simp] theorem State.eraseEnds_kept (s : State) (passed : Bool) : (State.eraseEnds s passed).kept = s.kept := by
  unfold State.eraseEnds; (repeat' split) <;> first | (simp; done) | (simp; rfl)
@[simp] theorem State.abandonErase_kept (s : State) : (State.abandonErase s).kept = s.kept := by
  unfold State.abandonErase; split <;> rfl
@[simp] theorem State.cutProgramShort_kept (s : State) : (State.cutProgramShort s).kept = s.kept := by
  unfold State.cutProgramShort; (repeat' split) <;> rfl
@[simp] theorem State.cutEraseShort_kept (s : State) : (State.cutEraseShort s).kept = s.kept := by
  unfold State.cutEraseShort; split <;> simp
@[simp] theorem State.ownLoss_kept (s : State) (sector : Nat) (line : Nat) : (State.ownLoss s sector line).kept = s.kept := by
  unfold State.ownLoss; split <;> simp
@[simp] theorem State.anchorFailure_kept (s : State) : (State.anchorFailure s).kept = s.kept := by
  unfold State.anchorFailure; (repeat' split) <;> first | rfl | simp
@[simp] theorem State.anchorEnds_kept (s : State) (o : AnchorOutcome) : (State.anchorEnds s o).kept = s.kept := by
  unfold State.anchorEnds; split <;> simp
@[simp] theorem State.programPart_kept (s : State) (r : AnchorRecord) (second : Bool) (sector : Nat) (slot : Nat) (part : Nat) : (State.programPart s r second sector slot part).kept = s.kept := by
  simp [State.programPart]
@[simp] theorem State.placeRecord_kept (s : State) (r : AnchorRecord) (second : Bool) : (State.placeRecord s r second).kept = s.kept := by
  unfold State.placeRecord; (repeat' split) <;> first | rfl | simp
@[simp] theorem State.anchorWrite_kept (s : State) (change : AnchorRecord → AnchorRecord) : (State.anchorWrite s change).kept = s.kept := by
  simp [State.anchorWrite]; rfl
@[simp] theorem State.anchorWriteReply_kept (s : State) (r : AnchorRecord) (second : Bool) (z0 : AnchorPhase) (z1 : Reply) : (State.anchorWriteReply s r second z0 z1).kept = s.kept := by
  unfold State.anchorWriteReply; (repeat' split) <;> first | (simp; done) | (simp; rfl)
@[simp] theorem State.retireBegin_kept (s : State) (sector : Nat) : (State.retireBegin s sector).kept = s.kept := by
  simp [State.retireBegin]
@[simp] theorem State.retireSector_kept (s : State) (sector : Nat) : (State.retireSector s sector).kept = s.kept := by
  unfold State.retireSector; dsimp only; split <;> simp
@[simp] theorem State.formatSector_kept (s : State) (sector : Nat) (eraseCount : Nat) : (State.formatSector s sector eraseCount).kept = s.kept := by
  simp [State.formatSector]
@[simp] theorem State.formatLineReply_kept (s : State) (sector : Nat) (eraseCount : Nat) (z0 : Reply) : (State.formatLineReply s sector eraseCount z0).kept = s.kept := by
  unfold State.formatLineReply; split <;> simp
@[simp] theorem State.openHead_kept (s : State) : (State.openHead s).kept = s.kept := by
  unfold State.openHead; (repeat' split) <;> first | rfl | simp
@[simp] theorem State.openRetryReply_kept (s : State) (z0 : Reply) : (State.openRetryReply s z0).kept = s.kept := by
  unfold State.openRetryReply; (repeat' split) <;> simp
@[simp] theorem State.openHeadReply_kept (s : State) (sector : Nat) (ring : Seq) (z0 : Reply) : (State.openHeadReply s sector ring z0).kept = s.kept := by
  unfold State.openHeadReply; split <;> simp
@[simp] theorem State.closeHead_kept (s : State) : (State.closeHead s).kept = s.kept := by
  unfold State.closeHead; (repeat' split) <;> first | rfl | simp
@[simp] theorem State.closeHeadReply_kept (s : State) (sector : Nat) (z0 : Reply) : (State.closeHeadReply s sector z0).kept = s.kept := by
  unfold State.closeHeadReply; split <;> simp
@[simp] theorem State.programAttempt_kept (s : State) (j : AppendJob) (sector : Nat) (start : Nat) (idx : Nat) : (State.programAttempt s j sector start idx).kept = s.kept := by
  simp [State.programAttempt]
@[simp] theorem State.appendEnds_kept (s : State) (o : AppendOutcome) : (State.appendEnds s o).kept = s.kept := by
  simp [State.appendEnds]
@[simp] theorem State.appendExhausted_kept (s : State) : (State.appendExhausted s).kept = s.kept := by
  simp [State.appendExhausted]
@[simp] theorem State.appendNewHead_kept (s : State) (j : AppendJob) (hostFloor : Bool) : (State.appendNewHead s j hostFloor).kept = s.kept := by
  unfold State.appendNewHead; (repeat' split) <;> first | rfl | simp
@[simp] theorem State.placeAttempt_kept (s : State) (j : AppendJob) (hostFloor : Bool) : (State.placeAttempt s j hostFloor).kept = s.kept := by
  unfold State.placeAttempt; (repeat' split) <;> first | rfl | simp
@[simp] theorem State.appendBegin_kept (s : State) (j : AppendJob) : (State.appendBegin s j).kept = s.kept := by
  simp [State.appendBegin]
@[simp] theorem State.rewrite_kept (s : State) (j : AppendJob) (sector : Nat) : (State.rewrite s j sector).kept = s.kept := by
  unfold State.rewrite; split <;> simp
@[simp] theorem State.appendReply_kept (s : State) (j : AppendJob) (z0 : AppendPhase) (z1 : Reply) : (State.appendReply s j z0 z1).kept = s.kept := by
  unfold State.appendReply; (repeat' split) <;> first | rfl | simp
@[simp] theorem State.readFrameBegin_kept (s : State) (e : Entry) : (State.readFrameBegin s e).kept = s.kept := by
  simp [State.readFrameBegin]
@[simp] theorem State.readFrameReply_kept (s : State) (e : Entry) (idx : Nat) (got : List Byte) (z0 : Reply) : (State.readFrameReply s e idx got z0).kept = s.kept := by
  unfold State.readFrameReply; dsimp only; (repeat' split) <;> first | rfl | simp
@[simp] theorem State.stepEnds_kept (s : State) (cannotGain : Bool) : (State.stepEnds s cannotGain).kept = s.kept := by
  simp [State.stepEnds]
@[simp] theorem State.endRound_kept (s : State) : (State.endRound s).kept = s.kept := by
  unfold State.endRound; dsimp only; (repeat' split) <;> first | rfl | (simp; done) | (simp; rfl)
@[simp] theorem State.selectVictim_kept (s : State) : (State.selectVictim s).kept = s.kept := by
  unfold State.selectVictim; (repeat' split) <;> first | (simp; done) | (simp; rfl)
@[simp] theorem State.eraseVictim_kept (s : State) (victim : Nat) : (State.eraseVictim s victim).kept = s.kept := by
  unfold State.eraseVictim; (repeat' split) <;> first | (simp; done) | (simp; rfl)
@[simp] theorem State.copyOne_kept (s : State) : (State.copyOne s).kept = s.kept := by
  unfold State.copyOne; (repeat' split) <;> first | rfl | simp
@[simp] theorem State.finishVictim_kept (s : State) : (State.finishVictim s).kept = s.kept := by
  unfold State.finishVictim; (repeat' split) <;> first | rfl | simp
@[simp] theorem State.grantStep_kept (s : State) : (State.grantStep s).kept = s.kept := by
  unfold State.grantStep; split <;> simp
@[simp] theorem State.finishRoundReply_kept (s : State) (z0 : Reply) : (State.finishRoundReply s z0).kept = s.kept := by
  unfold State.finishRoundReply; split <;> simp
@[simp] theorem State.bumpSeq_kept (s : State) : (State.bumpSeq s).kept = s.kept := by
  unfold State.bumpSeq; dsimp only; (repeat' split) <;> first | rfl | (simp; done) | (simp; rfl)
@[simp] theorem State.copyReadReply_kept (s : State) (e : Entry) (z0 : Reply) : (State.copyReadReply s e z0).kept = s.kept := by
  unfold State.copyReadReply; split <;> simp
@[simp] theorem State.copyFailed_kept (s : State) (o : AppendOutcome) : (State.copyFailed s o).kept = s.kept := by
  unfold State.copyFailed; (repeat' split) <;> first | (simp; done) | (simp; rfl)
@[simp] theorem State.copyAppendReply_kept (s : State) (e : Entry) (z0 : Reply) : (State.copyAppendReply s e z0).kept = s.kept := by
  unfold State.copyAppendReply; split <;> simp
@[simp] theorem State.lossAppendReply_kept (s : State) (e : Entry) (q : Seq) (z0 : Reply) : (State.lossAppendReply s e q z0).kept = s.kept := by
  unfold State.lossAppendReply; split <;> simp
@[simp] theorem State.restartTimer_kept (s : State) : (State.restartTimer s).kept = s.kept := by
  unfold State.restartTimer; split <;> rfl
@[simp] theorem State.postRecord_kept (s : State) (c : Completion) : (State.postRecord s c).kept = s.kept := by
  simp only [State.postRecord]; split <;> rfl
@[simp] theorem State.post_kept (s : State) (r : Request) (c : Completion) : (State.post s r c).kept = s.kept := by
  unfold State.post; split <;> simp
@[simp] theorem State.answer_kept (s : State) (r : Request) (st : Status) : (State.answer s r st).kept = s.kept := by
  simp [State.answer]
@[simp] theorem State.answerAux_kept (s : State) (r : Request) (st : Status) (aux : BitVec 16) : (State.answerAux s r st aux).kept = s.kept := by
  simp [State.answerAux]
@[simp] theorem State.turnAway_kept (s : State) (r : Request) (st : Status) : (State.turnAway s r st).kept = s.kept := by
  unfold State.turnAway; split <;> simp
@[simp] theorem State.answerRecord_kept (s : State) (r : Request) (st : Status) (version : Seq) (n : Nat) : (State.answerRecord s r st version n).kept = s.kept := by
  simp [State.answerRecord]
@[simp] theorem State.putAppend_kept (s : State) (r : Request) : (State.putAppend s r).kept = s.kept := by
  simp [State.putAppend]
@[simp] theorem State.deleteAppend_kept (s : State) (r : Request) : (State.deleteAppend s r).kept = s.kept := by
  simp [State.deleteAppend]
@[simp] theorem State.commitAppend_kept (s : State) (c : CommitJob) : (State.commitAppend s c).kept = s.kept := by
  simp [State.commitAppend]
@[simp] theorem State.writeProceeds_kept (s : State) (z0 : StalledWrite) : (State.writeProceeds s z0).kept = s.kept := by
  unfold State.writeProceeds; split <;> simp
@[simp] theorem State.nextStepInJob_kept (s : State) (t : Task) : (State.nextStepInJob s t).kept = s.kept := by
  unfold State.nextStepInJob; split <;> simp
@[simp] theorem State.enterStall_kept (s : State) (w : StalledWrite) : (State.enterStall s w).kept = s.kept := by
  simp [State.enterStall]; rfl
@[simp] theorem State.stallTests_kept (s : State) (w : StalledWrite) (reported : Bool) : (State.stallTests s w reported).kept = s.kept := by
  unfold State.stallTests; (repeat' split) <;> first | rfl | simp
@[simp] theorem State.stallReply_kept (s : State) (w : StalledWrite) (z0 : Reply) : (State.stallReply s w z0).kept = s.kept := by
  unfold State.stallReply; split <;> simp
@[simp] theorem State.writeAdmitted_kept (s : State) (w : StalledWrite) : (State.writeAdmitted s w).kept = s.kept := by
  unfold State.writeAdmitted; split <;> simp
@[simp] theorem State.hostPlaced_kept (s : State) : (State.hostPlaced s).kept = s.kept := by
  exact State.bumpSeq_kept s
@[simp] theorem State.writeFailed_kept (s : State) (w : StalledWrite) (z0 : AppendOutcome) : (State.writeFailed s w z0).kept = s.kept := by
  unfold State.writeFailed; split <;> simp
@[simp] theorem State.putReply_kept (s : State) (r : Request) (z0 : Reply) : (State.putReply s r z0).kept = s.kept := by
  unfold State.putReply; split <;> simp
@[simp] theorem State.deleteReply_kept (s : State) (r : Request) (z0 : Reply) : (State.deleteReply s r z0).kept = s.kept := by
  unfold State.deleteReply; split <;> simp
@[simp] theorem State.commitReply_kept (s : State) (c : CommitJob) (z0 : Reply) : (State.commitReply s c z0).kept = s.kept := by
  unfold State.commitReply; (repeat' split) <;> first | rfl | simp
@[simp] theorem State.getReply_kept (s : State) (r : Request) (e : Entry) (z0 : Reply) : (State.getReply s r e z0).kept = s.kept := by
  unfold State.getReply; split <;> simp
@[simp] theorem State.reclaimEnds_kept (s : State) (r : Request) (st : Status) : (State.reclaimEnds s r st).kept = s.kept := by
  simp [State.reclaimEnds]; rfl
@[simp] theorem State.reclaimTests_kept (s : State) (r : Request) (reported : Bool) : (State.reclaimTests s r reported).kept = s.kept := by
  unfold State.reclaimTests; (repeat' split) <;> first | rfl | simp
@[simp] theorem State.reclaimReply_kept (s : State) (r : Request) (z0 : Reply) : (State.reclaimReply s r z0).kept = s.kept := by
  unfold State.reclaimReply; split <;> simp
@[simp] theorem State.formatBegin_kept (s : State) (r : Request) : (State.formatBegin s r).kept = s.kept := by
  exact (State.anchorWrite_kept _ _).trans (((State.dropTxn_kept _).trans (State.setStore_kept s _)))
@[simp] theorem State.formatStops_kept (s : State) (r : Request) : (State.formatStops s r).kept = s.kept := by
  simp [State.formatStops]
@[simp] theorem State.formatEnds_kept (s : State) (r : Request) : (State.formatEnds s r).kept = s.kept := by
  exact (State.answerAux_kept _ _ _ _).trans (State.leaveStore_kept s _ _)
@[simp] theorem State.formatOpening_kept (s : State) (r : Request) : (State.formatOpening s r).kept = s.kept := by
  simp [State.formatOpening]; rfl
@[simp] theorem State.formatNext_kept (s : State) (r : Request) : (State.formatNext s r).kept = s.kept := by
  unfold State.formatNext; (repeat' split) <;> first | rfl | simp
@[simp] theorem State.formatReadNext_kept (s : State) (r : Request) (z0 : List Nat) : (State.formatReadNext s r z0).kept = s.kept := by
  unfold State.formatReadNext; split <;> simp
@[simp] theorem State.formatTables_kept (s : State) (r : Request) : (State.formatTables s r).kept = s.kept := by
  simp [State.formatTables]; rfl
@[simp] theorem State.formatAnchorReply_kept (s : State) (r : Request) (z0 : Reply) : (State.formatAnchorReply s r z0).kept = s.kept := by
  unfold State.formatAnchorReply; split <;> simp
@[simp] theorem State.formatReadReply_kept (s : State) (r : Request) (sector : Nat) (todo : List Nat) (z0 : Reply) : (State.formatReadReply s r sector todo z0).kept = s.kept := by
  unfold State.formatReadReply; split <;> simp
@[simp] theorem State.formatEraseReply_kept (s : State) (r : Request) (sector : Nat) (z0 : Reply) : (State.formatEraseReply s r sector z0).kept = s.kept := by
  unfold State.formatEraseReply; split <;> simp
@[simp] theorem State.formatSectorReply_kept (s : State) (r : Request) (z0 : Reply) : (State.formatSectorReply s r z0).kept = s.kept := by
  unfold State.formatSectorReply; split <;> simp
@[simp] theorem State.formatOpenReply_kept (s : State) (r : Request) (z0 : Reply) : (State.formatOpenReply s r z0).kept = s.kept := by
  unfold State.formatOpenReply; split <;> simp
@[simp] theorem State.setZoneReply_kept (s : State) (r : Request) (z0 : Reply) : (State.setZoneReply s r z0).kept = s.kept := by
  unfold State.setZoneReply; split <;> simp
@[simp] theorem State.conditionFailed_kept (s : State) (r : Request) (st : Status) : (State.conditionFailed s r st).kept = s.kept := by
  simp [State.conditionFailed]
@[simp] theorem putBody_kept (r : Request) (s : State) : (putBody r s).kept = s.kept := by
  unfold putBody; dsimp only; (repeat' split) <;> first | rfl | simp
@[simp] theorem deleteBody_kept (r : Request) (s : State) : (deleteBody r s).kept = s.kept := by
  unfold deleteBody; dsimp only; (repeat' split) <;> first | rfl | simp
@[simp] theorem committedGet_kept (r : Request) (s : State) : (committedGet r s).kept = s.kept := by
  unfold committedGet; split <;> simp
@[simp] theorem getBody_kept (r : Request) (s : State) : (getBody r s).kept = s.kept := by
  unfold getBody; (repeat' split) <;> simp
@[simp] theorem nextBody_kept (r : Request) (s : State) : (nextBody r s).kept = s.kept := by
  unfold nextBody; (repeat' split) <;> simp
@[simp] theorem infoBody_kept (r : Request) (s : State) : (infoBody r s).kept = s.kept := by unfold infoBody; simp
@[simp] theorem beginBody_kept (r : Request) (s : State) : (beginBody r s).kept = s.kept := by
  unfold beginBody; (repeat' split) <;> first | (simp; done) | (simp; rfl)
@[simp] theorem State.noTransaction_kept (s : State) (r : Request) : (State.noTransaction s r).kept = s.kept := by
  unfold State.noTransaction; (repeat' split) <;> first | (simp; done) | (simp; rfl)
@[simp] theorem State.stage_kept (s : State) (r : Request) (t : OpenTxn) (e : Staged) : (State.stage s r t e).kept = s.kept := by
  unfold State.stage; dsimp only; split <;> simp
@[simp] theorem inTxnPutBody_kept (r : Request) (s : State) : (inTxnPutBody r s).kept = s.kept := by
  unfold inTxnPutBody; (repeat' split) <;> first | rfl | simp
@[simp] theorem inTxnDeleteBody_kept (r : Request) (s : State) : (inTxnDeleteBody r s).kept = s.kept := by
  unfold inTxnDeleteBody; repeat' split
  all_goals simp
@[simp] theorem inTxnGetBody_kept (r : Request) (s : State) : (inTxnGetBody r s).kept = s.kept := by
  unfold inTxnGetBody; repeat' split
  all_goals simp
@[simp] theorem commitBody_kept (r : Request) (s : State) : (commitBody r s).kept = s.kept := by
  unfold commitBody; dsimp only; (repeat' split) <;> first | rfl | simp
@[simp] theorem abandonBody_kept (r : Request) (s : State) : (abandonBody r s).kept = s.kept := by
  unfold abandonBody; split <;> simp
@[simp] theorem reclaimBody_kept (r : Request) (s : State) : (reclaimBody r s).kept = s.kept := by
  unfold reclaimBody; simp; rfl
@[simp] theorem setCodeBody_kept (r : Request) (s : State) : (setCodeBody r s).kept = s.kept := by
  unfold setCodeBody; dsimp only; (repeat' split) <;> first | rfl | simp
@[simp] theorem formatBody_kept (r : Request) (s : State) : (formatBody r s).kept = s.kept := by
  unfold formatBody; dsimp only; (repeat' split) <;> first | rfl | simp
@[simp] theorem State.mountStops_kept (s : State) : (State.mountStops s).kept = s.kept := by
  simp only [State.mountStops]; rfl
@[simp] theorem State.mountEnds_kept (s : State) : (State.mountEnds s).kept = s.kept := by
  exact (State.leaveStore_kept _ _ _).trans rfl
@[simp] theorem State.mountOpening_kept (s : State) : (State.mountOpening s).kept = s.kept := by
  unfold State.mountOpening; (repeat' split) <;> first | rfl | simp
@[simp] theorem State.tidyNext_kept (s : State) : (State.tidyNext s).kept = s.kept := by
  unfold State.tidyNext; (repeat' split) <;> first | rfl | simp
@[simp] theorem State.mountCloseNext_kept (s : State) (z0 : List Unclosed) : (State.mountCloseNext s z0).kept = s.kept := by
  unfold State.mountCloseNext; split <;> simp
@[simp] theorem State.replayEnds_kept (s : State) (p : Replay) : (State.replayEnds s p).kept = s.kept := by
  simp [State.replayEnds]; rfl
@[simp] theorem State.scanNext_kept (s : State) (p : Replay) (ended : Bool) : (State.scanNext s p ended).kept = s.kept := by
  unfold State.scanNext; dsimp only; (repeat' split) <;> first | rfl | simp
@[simp] theorem State.replayBegin_kept (s : State) (notes : List (Nat × SurveyNote)) : (State.replayBegin s notes).kept = s.kept := by
  unfold State.replayBegin; dsimp only; split <;> simp
@[simp] theorem State.surveyNext_kept (s : State) (todo : List Nat) (notes : List (Nat × SurveyNote)) : (State.surveyNext s todo notes).kept = s.kept := by
  unfold State.surveyNext; split <;> simp
@[simp] theorem State.anchorPhaseEnds_kept (s : State) (a : AnchorScan) : (State.anchorPhaseEnds s a).kept = s.kept := by
  unfold State.anchorPhaseEnds; split
  · exact (State.leaveStore_kept _ _ _).trans rfl
  · exact (State.surveyNext_kept _ _ _).trans rfl
@[simp] theorem State.mountBegin_kept (s : State) : (State.mountBegin s).kept = s.kept := by
  unfold State.mountBegin; simp; rfl
@[simp] theorem State.mountAnchorReply_kept (s : State) (a : AnchorScan) (z0 : Reply) : (State.mountAnchorReply s a z0).kept = s.kept := by
  unfold State.mountAnchorReply; dsimp only; (repeat' split) <;> first | rfl | simp
@[simp] theorem State.mountSurveyReply_kept (s : State) (sector : Nat) (read : List Line) (todo : List Nat) (notes : List (Nat × SurveyNote)) (z0 : Reply) : (State.mountSurveyReply s sector read todo notes z0).kept = s.kept := by
  unfold State.mountSurveyReply; (repeat' split) <;> first | rfl | simp
@[simp] theorem State.mountReplayReply_kept (s : State) (p : Replay) (z0 : Reply) : (State.mountReplayReply s p z0).kept = s.kept := by
  unfold State.mountReplayReply; split <;> simp
@[simp] theorem State.mountCloseReply_kept (s : State) (u : Unclosed) (todo : List Unclosed) (z0 : Reply) : (State.mountCloseReply s u todo z0).kept = s.kept := by
  unfold State.mountCloseReply; split <;> simp
@[simp] theorem State.mountEraseReply_kept (s : State) (sector : Nat) (z0 : Reply) : (State.mountEraseReply s sector z0).kept = s.kept := by
  unfold State.mountEraseReply; split <;> simp
@[simp] theorem State.mountSectorReply_kept (s : State) (z0 : Reply) : (State.mountSectorReply s z0).kept = s.kept := by
  unfold State.mountSectorReply; split <;> simp
@[simp] theorem State.mountOpenReply_kept (s : State) (z0 : Reply) : (State.mountOpenReply s z0).kept = s.kept := by
  unfold State.mountOpenReply; split <;> simp
@[simp] theorem State.mountWarned_kept (s : State) : (State.mountWarned s).kept = s.kept := by
  unfold State.mountWarned; exact (State.mountStops_kept _).trans (by split <;> first | rfl | exact State.retireSector_kept s _)
@[simp] theorem State.resume_kept (s : State) (t : Task) (r : Reply) : (State.resume s t r).kept = s.kept := by
  unfold State.resume; (repeat' split) <;> first | rfl | simp

/-- One move keeps it. -/
theorem State.move_kept {s t : State} (h : s.move = some t) : t.kept = s.kept := by
  unfold State.move at h
  split at h
  · cases h; exact State.resume_kept _ _ _
  · cases h; rfl
  · unfold State.startPending at h
    split at h
    · cases h
    · split at h
      · cases h; exact State.issueErase_kept _ _ _
      · cases h

/-- All moves together keep it. -/
@[simp] theorem State.settle_kept (s : State) : s.settle.kept = s.kept :=
  State.settle_keeps (P := fun t => t.kept = s.kept) (fun _ _ h hm => (State.move_kept hm).trans h) rfl

end Sys2Proof.Machine
end

