-- ==== Sys2Proof/Laws/Taking.lean ====
section
/-! SUPPORT. Taking a request: the state it is taken in, and what the chain test, the state test and the form check make of it. -/

namespace Sys2Proof.Certificates

open Sys2Proof Sys2Proof.Machine

/-! ### What taking leaves in each field -/

variable (s : State) (r : Request)

@[simp] theorem taken_window : (taken s r).window = s.window := rfl
@[simp] theorem taken_ctl : (taken s r).ctl = s.ctl := rfl
@[simp] theorem taken_log : (taken s r).log = s.log := rfl
@[simp] theorem taken_comp : (taken s r).comp = s.comp := rfl
@[simp] theorem taken_seq : (taken s r).seq = s.seq := rfl
@[simp] theorem taken_anchor : (taken s r).anchor = s.anchor := rfl
@[simp] theorem taken_zones : (taken s r).zones = s.zones := rfl
@[simp] theorem taken_store : (taken s r).engine.store = s.engine.store := by unfold taken; simp only; split <;> rfl
@[simp] theorem taken_engineSeq : (taken s r).engine.seq = s.engine.seq := by unfold taken; simp only; split <;> rfl
@[simp] theorem taken_txnCounter : (taken s r).engine.txnCounter = s.engine.txnCounter := by unfold taken; simp only; split <;> rfl
@[simp] theorem taken_dir : (taken s r).engine.dir = s.engine.dir := by unfold taken; simp only; split <;> rfl
@[simp] theorem taken_readOnlyDue : (taken s r).engine.readOnlyDue = s.engine.readOnlyDue := by unfold taken; simp only; split <;> rfl
@[simp] theorem taken_anchorFailed : (taken s r).engine.anchorFailed = s.engine.anchorFailed := by unfold taken; simp only; split <;> rfl
@[simp] theorem taken_openTxn : (taken s r).engine.txn.openTxn = s.engine.txn.openTxn := by unfold taken; simp only; split <;> rfl
@[simp] theorem taken_expired : (taken s r).engine.txn.expired = s.engine.txn.expired := by unfold taken; simp only; split <;> rfl
@[simp] theorem taken_writeAccess (z) : (taken s r).writeAccess z = s.writeAccess z := rfl
@[simp] theorem taken_readAccess (z) : (taken s r).readAccess z = s.readAccess z := rfl
@[simp] theorem taken_limit : (taken s r).limit = s.limit := rfl
@[simp] theorem taken_headPos : (taken s r).headPos = s.headPos := rfl
@[simp] theorem taken_freeCount : (taken s r).freeCount = s.freeCount := rfl
@[simp] theorem taken_contents : (taken s r).contents = s.contents := rfl

/-! ### From the command to the kind -/

variable {s : State} {r : Request}

/-- Settling changes nothing when no reply is on its way and no erase waits to begin. -/
theorem settle_of_idle {s : State} (hr : s.ctl.reply = none) (hp : s.seq.pending = none) : s.settle = s :=
  State.settle_of_move_none (State.move_none hr hp)

/-- A byte is 0 exactly when its number is. -/
theorem byte_toNat_eq_zero (v : Byte) : v.toNat = 0 ↔ v = 0 := by
  constructor
  · intro h; apply BitVec.eq_of_toNat_eq; simpa using h
  · intro h; simp [h]

/-- What posting a completion does when no READ_ONLY cause waits (R47, R161, R164, R167). -/
theorem post_eq_completes (s : State) (r : Request) (c : Completion) (hd : s.engine.readOnlyDue = false) :
    s.post r c = completes s r c := by
  obtain ⟨w, q, ⟨est, esq, etc, ed, etx, rd, af⟩, ct, l, cm, sq, a, z, pi, fc, pe⟩ := s
  simp only at hd
  subst hd
  unfold State.post completes
  simp only [State.applyReadOnly]
  by_cases hq : q.requests.length = 4 <;> by_cases ht : (r.isTxnRequest = true ∧ c.status ≠ .cancelled)
  all_goals by_cases ho : etx.openTxn.isSome = true
  all_goals simp [State.clearControl, State.postRecord, hq, ht, State.raise, evQueueSpace, State.restartTimer, timerAfter, ho, byte_toNat_eq_zero]

/-- Nothing moves after a completion. -/
theorem settle_completes (s : State) (r : Request) (c : Completion) (hp : s.seq.pending = none) :
    (completes s r c).settle = completes s r c := settle_of_idle rfl hp

/-- A request that can be taken meets the conditions of R163. -/
theorem canTake_of_takes {s : State} {r : Request} (h : Takes s r) : s.canTake = true := by
  obtain ⟨h1, h2, h3, h4, h5, h6, h7, h8, h9⟩ := h
  have : s.queues.requests.isEmpty = false := by cases hq : s.queues.requests <;> simp_all
  simp [State.canTake, h2, h3, h4, h5, h6, h7, this]

/-- The command of the front request's row takes it. -/
theorem taking_of_takes {s : State} {r : Request} (h : Takes s r) (isRow : Request → Bool) (body) (hr : isRow r = true) :
    s.taking isRow body = (s.takeRequest r body).settle := by
  have hc := canTake_of_takes h
  unfold State.taking State.takeFront
  have := h.1
  cases hq : s.queues.requests with
  | nil => simp [hq] at this
  | cons a t =>
    simp [hq] at this; subst this
    simp [hc, hr]

/-- What taking a request that passes the chain test does: the state test, the form check, then its kind (R45, R46, R165). -/
theorem takeRequest_of_unchained {s : State} {r : Request} (h : Unchained s r) (body) :
    s.takeRequest r body =
      match stateTest s.engine.store s.engine.dir.complete r with
      | some st => (taken s r).turnAway r st
      | none => if r.formOk then body r (taken s r) else (taken s r).turnAway r .badRequest := by
  obtain ⟨h, hc⟩ := h
  unfold State.takeRequest State.checked taken
  by_cases hch : r.chain = true
  · have := hc hch
    by_cases ht : r.isTxnRequest = true
    · simp [hch, this, ht, State.stopTimer]; all_goals rfl
    · simp [hch, this, ht]; all_goals rfl
  · by_cases ht : r.isTxnRequest = true
    · simp [hch, ht, State.stopTimer]; all_goals rfl
    · simp [hch, ht]; all_goals rfl

/-- A request turned away completes with the count R100 gives in a RECLAIM's aux and nothing further (R45, R46, R47). -/
theorem turnAway_eq_post (s : State) (r : Request) (st : Status) : s.turnAway r st = s.post r (turnedAway s r st) := by
  unfold State.turnAway turnedAway
  by_cases h : r.kind = 8
  · rw [if_pos h, if_pos (show r.kind = kReclaim from h)]; rfl
  · rw [if_neg h, if_neg (show ¬ r.kind = kReclaim from h)]; rfl

/-- A request that passes every test is handled by its kind. -/
theorem taking_of_serves {s : State} {r : Request} (h : Serves s r) (isRow : Request → Bool) (body : Request → State → State)
    (hr : isRow r = true) : s.taking isRow body = (body r (taken s r)).settle := by
  rw [taking_of_takes h.1.1 _ _ hr, takeRequest_of_unchained h.1]; simp [h.2.1, h.2.2]

/-- A kind that answers at once leaves the completed state. -/
theorem settle_post {s : State} {r : Request} {c : Completion} {t : State} (hd : s.engine.readOnlyDue = false) (hp : s.seq.pending = none) (ht : t = s.post r c) :
    t.settle = completes s r c := by
  rw [ht, post_eq_completes _ _ _ hd]; exact settle_completes _ _ _ hp

end Sys2Proof.Certificates
end

