-- ==== Sys2Proof/Laws/Events.lean ====
section
/-! SUPPORT. The end of an array operation and the issue of the next: what the waiting tasks get and what they ask for. -/

namespace Sys2Proof.Certificates

open Sys2Proof Sys2Proof.Machine

/-- Settling in one move. -/
theorem settle_of_one_move {s t : State} (h : s.move = some t) (ht : t.move = none) : s.settle = t := by
  rw [State.settle_of_move h, State.moves_of_move_none ht]

/-- Settling in two moves. -/
theorem settle_of_two_moves {s t u : State} (h : s.move = some t) (h2 : t.move = some u) (hu : u.move = none) : s.settle = u := by
  rw [State.settle_of_move h, State.moves_succ_of_move h2 8190, State.moves_of_move_none hu]

/-- Settling in three moves. -/
theorem settle_of_three_moves {s t u v : State} (h : s.move = some t) (h2 : t.move = some u) (h3 : u.move = some v) (hu : v.move = none) : s.settle = v := by
  rw [State.settle_of_move h, State.moves_succ_of_move h2 8190, State.moves_succ_of_move h3 8189, State.moves_of_move_none hu]

/-- A program in hand on a BLANK line passes: the line is GOOD and the tasks that wait get PASS (R107). -/
theorem lineProgramDone_passes {s : State} {k x l d} (h : Programs s k x l d) :
    exec (.lineProgramDone true) s = .next (State.settle { s with ctl := { stack := k, reply := some (.prog .pass) }, seq := programmed s.seq x l (.good d) }) := by
  obtain ⟨h1, h2, h3, h4, h5, h6⟩ := h
  simp only [exec, execLineProgramDone, State.lineProgramEnds, h2, h6, programOutcome, programLine, if_true, State.endOp]
  rw [if_pos (by exact h3)]
  simp only [State.dropInHand, State.ret, State.setLine, State.withCells, h1, programmed]
  rfl

/-- A program in hand on a BLANK line fails or times out: the line is DEFECTIVE and the tasks that wait get FAIL (R107). -/
theorem lineProgramDone_fails {s : State} {k x l d} (h : Programs s k x l d) : ∀ event ∈ [Instr.lineProgramDone false, .programTimeout],
    exec event s = .next (State.settle { s with ctl := { stack := k, reply := some (.prog .fail) }, seq := programmed s.seq x l .defective }) := by
  obtain ⟨h1, h2, h3, h4, h5, h6⟩ := h
  intro ev hev
  simp only [List.mem_cons, List.not_mem_nil, or_false] at hev
  have key : (s.lineProgramEnds false).settle = (State.settle { s with ctl := { stack := k, reply := some (.prog .fail) }, seq := programmed s.seq x l .defective }) := by
    simp only [State.lineProgramEnds, h2, h6, programOutcome, programLine, if_true, State.endOp, Bool.false_eq_true, if_false]
    rw [if_pos (by exact h3)]
    simp only [State.dropInHand, State.ret, State.setLine, State.withCells, h1, programmed]
    rfl
  rcases hev with rfl | rfl
  · simp only [exec, execLineProgramDone, key]
  · simp only [exec, execProgramTimeout, State.programTimesOut, h2, h6, if_true, key]

/-- A read in hand ends: the tasks that wait get the line (R106). -/
theorem lineReadDone_delivers {s : State} {k x l} (h : Reads s k x l) :
    exec .lineReadDone s = .next (State.settle { s with ctl := { stack := k, reply := some (.line (s.lineAt x l)) }, seq := readEnded s.seq }) := by
  obtain ⟨h1, h2, h3, h4, h5⟩ := h
  simp only [exec, execLineReadDone, State.lineReadEnds, h2, State.endOp]
  rw [if_pos (by exact h3)]
  simp only [State.dropInHand, State.ret, h1, readEnded]

/-- S plus one, below the sequence limit. -/
theorem seq_succ_toNat {s : State} (h : s.engine.seq.toNat + 1 < 4294963200) : (s.engine.seq + 1).toNat = s.engine.seq.toNat + 1 := by
  rw [BitVec.toNat_add]; simp; omega

/-- A host write that is placed: S rises by one and the no-gain count is 0 (R19, R87). -/
theorem hostPlaced_below_limit {s : State} (h : s.engine.seq.toNat + 1 < 4294963200) :
    s.hostPlaced = { s with comp := { s.comp with noGain := 0 }, engine := { s.engine with seq := s.engine.seq + 1 } } := by
  unfold State.hostPlaced State.bumpSeq
  simp only [Config.sequenceLimit, seq_succ_toNat h]
  rw [if_neg (by omega)]

/-- Two changes of one record make one change. -/
theorem setRecord_twice (t : Option LogTables) (x : Nat) (f g : SectorRec → SectorRec) :
    (t.map (fun t => t.setRecord x (f (t.record x)))).map (fun t => t.setRecord x (g (t.record x)))
      = t.map (fun t => t.setRecord x (g (f (t.record x)))) := by
  cases t with
  | none => rfl
  | some t => 
    simp only [Option.map_some, LogTables.setRecord, LogTables.record]
    by_cases h : 2 ≤ x
    · simp only [h, if_true]
      by_cases hx : x - 2 < t.sectors.length
      · simp [List.set_set, hx]
      · simp [List.set_eq_of_length_le (Nat.not_lt.1 hx)]
    · simp [h]

/-- A program issued to a free sequencer (R107, R113). -/
theorem issueProgram_of_free (s : State) (hf : Free s) (x l : Nat) (d : LineData) :
    s.issueProgram x l d = { s with seq := { s.seq with inHand := some (.program x l d), delivers := true, state := .programming } } := by
  simp [State.issueProgram, State.issue, hf.1, hf.2, State.serve, LineOp.isProgram]

/-- A write that fits in the head proceeds (R62). -/
theorem writeAdmitted_of_fits {s : State} {w : StalledWrite} {x nl : Nat} (h : s.headPos = some (x, nl)) (hn : nl + w.lines ≤ 256) : s.writeAdmitted w = s.writeProceeds w := by
  simp [State.writeAdmitted, State.needsNewHead, h, fits, hn]

/-- An append that fits in the head issues its header line (R22). -/
theorem appendBegin_of_fits (s : State) (hf : Free s) (j : AppendJob) (x nl) (h : s.headPos = some (x, nl)) (hn : nl + j.header.lines ≤ 256) (hc : s.ctl.reply = none) :
    s.appendBegin j = programs s (.append j (.programming x nl 0) :: s.ctl.stack) x nl (frameLine j 0) := by
  simp only [State.appendBegin, State.placeAttempt, h, fits, hn, decide_true, if_true, State.programAttempt]
  rw [issueProgram_of_free _ (by exact hf)]
  simp [State.push, programs, hc]

/-- An anchor write with room in the anchor sector issues its first line (R145). -/
theorem anchorWrite_of_room (s : State) (f : AnchorRecord → AnchorRecord) (x slot : Nat) (hf : Free s) (hw : s.anchor.writePos = some (x, slot)) (hs : slot < 42)
    (hg : s.contents.generation ≠ 4294967295) (hc : s.ctl.reply = none) :
    s.anchorWrite f =
      let a := f { s.contents with generation := s.contents.generation + 1 }
      programs { s with anchor := { s.anchor with working := some a } } (.anchorWrite a false (.line x slot 0) :: s.ctl.stack) x (6 * slot) (.anchor a 0) := by
  have hg' : nextGeneration s.contents.generation = s.contents.generation + 1 := by
    have : ¬ s.contents.generation = BitVec.allOnes 32 := hg
    unfold nextGeneration; rw [if_neg this]
  simp only [State.anchorWrite, hg', State.placeRecord, hw, Config.anchorSlots, hs, if_true, State.programPart]
  rw [issueProgram_of_free _ (by exact hf)]
  simp [State.push, programs, hc]

end Sys2Proof.Certificates
end

