-- ==== Sys2Proof/Laws/Jobs.lean ====
section
/-! SUPPORT. What the operations shared by appends, anchor writes, retirement, compaction and mount do: the tables after a changed
record, a foreground erase, an anchor write, the end of a step or job with a READ_ONLY cause, and the end of mount. -/

namespace Sys2Proof.Certificates

open Sys2Proof Sys2Proof.Machine

/-! ### The sector table (R4) -/

/-- A changed record leaves the lists, the head and the ring counter. -/
theorem setRecord_lists (t : LogTables) (x : Nat) (r : SectorRec) :
    (t.setRecord x r).free = t.free ∧ (t.setRecord x r).ring = t.ring ∧ (t.setRecord x r).head = t.head ∧
    (t.setRecord x r).nextRing = t.nextRing := by
  unfold LogTables.setRecord; split <;> exact ⟨rfl, rfl, rfl, rfl⟩

/-- A changed record of a pool sector reads back. -/
theorem record_setRecord (t : LogTables) (x : Nat) (r : SectorRec) (hx : 2 ≤ x) (hx' : x < 64) (hl : t.sectors.length = 62) :
    (t.setRecord x r).record x = r := by
  have : x - 2 < t.sectors.length := by omega
  simp [LogTables.setRecord, LogTables.record, hx, List.getD, this]

/-- The later of two changes of one record stands. -/
theorem setRecord_setRecord (t : LogTables) (x : Nat) (r q : SectorRec) : (t.setRecord x r).setRecord x q = t.setRecord x q := by
  simp only [LogTables.setRecord]; split <;> simp

/-- The later of two sequences is their maximum. -/
theorem later_toNat (a b : Seq) : (Seq.later a b).toNat = max a.toNat b.toNat := by
  unfold Seq.later; split <;> rename_i h <;> simp [BitVec.lt_def] at h <;> omega

/-! ### Operations of the sequencer (R106 to R110) -/

/-- A program of a line that is not BLANK ends NOT_BLANK and leaves the line (R107). -/
theorem lineProgramDone_notBlank {s : State} {k x l d} (h : Waits s k x l d) (hb : s.lineAt x l ≠ .blank) (v : Bool) :
    exec (.lineProgramDone v) s = .next (State.settle { s with
      ctl := { stack := k, reply := some (.prog .notBlank) }, seq := programmed s.seq x l (s.lineAt x l) }) := by
  obtain ⟨h1, h2, h3, -, -⟩ := h
  simp only [exec, execLineProgramDone, State.lineProgramEnds, h2, programOutcome, if_neg hb, programLine, State.endOp]
  rw [if_pos (by exact h3)]
  simp only [State.dropInHand, State.ret, State.setLine, State.withCells, h1, programmed]
  rfl

/-- A foreground erase that passes hands its outcome to the waiting tasks (R109). -/
theorem eraseDone_passes {s : State} {k e} (h : Erases s k e) :
    exec (.eraseDone true) s =
      .next (State.settle { erased s e.sector with ctl := { stack := k, reply := some (.erase .pass) } }) := by
  obtain ⟨h1, h2, h3, h4, -, h6, -⟩ := h
  simp only [exec, execEraseDone, State.eraseEnds, h2, h4, if_true, State.drawFree, State.withCells, h3, State.deliverErase,
    Bool.false_eq_true, if_false, State.ret, State.serveWaiting, h6, h1, erased]

/-- A foreground erase begun on a free sequencer (R109). -/
theorem issueErase_of_free (s : State) (hf : Free s) (x : Nat) (hr : s.ctl.reply = none) :
    s.issueErase x false = erases s s.ctl.stack x := by
  simp only [State.issueErase, hf.2, hf.1, Bool.false_eq_true, if_false, Option.isNone_none, if_true, State.beginErase,
    State.setLine, State.withCells, erases]
  rw [← hr]

/-! ### Anchor writes and retirement (R10, R145) -/

/-- A record placed on a free sequencer (R145). -/
theorem placeRecord_of_free (s : State) (a : AnchorRecord) (second : Bool) (hf : Free s) (hr : s.ctl.reply = none) :
    s.placeRecord a second = anchorPlaced s s.ctl.stack a second := by
  unfold State.placeRecord anchorPlaced
  cases s.anchor.writePos with
  | none =>
    simp only []
    rw [issueErase_of_free _ (by exact hf) _ (by exact hr)]; rfl
  | some p =>
    obtain ⟨x, slot⟩ := p
    by_cases hs : slot < 42
    · simp only [if_pos hs, if_pos (show slot < Config.anchorSlots from hs), State.programPart]
      rw [issueProgram_of_free _ (by exact hf)]
      simp [State.push, programs, hr]
    · simp only [if_neg hs, if_neg (show ¬ slot < Config.anchorSlots from hs)]
      rw [issueErase_of_free _ (by exact hf) _ (by exact hr)]; rfl

/-- An anchor write asked for on a free sequencer: one generation higher, the working contents at once (R145). -/
theorem anchorWrite_of_free (s : State) (change : AnchorRecord → AnchorRecord) (hf : Free s)
    (hg : s.contents.generation ≠ 4294967295) (hr : s.ctl.reply = none) :
    s.anchorWrite change =
      anchorAsked s s.ctl.stack (change { s.contents with generation := s.contents.generation + 1 }) := by
  have hg' : nextGeneration s.contents.generation = s.contents.generation + 1 := by
    have : ¬ s.contents.generation = BitVec.allOnes 32 := hg
    unfold nextGeneration; rw [if_neg this]
  simp only [State.anchorWrite, hg']
  exact placeRecord_of_free _ _ _ hf hr

/-- A retirement begun on a free sequencer (R10). -/
theorem retireBegin_of_free (s : State) (x : Nat) (hf : Free s) (hg : s.contents.generation ≠ 4294967295)
    (hr : s.ctl.reply = none) :
    s.retireBegin x = anchorAsked s (.retire x :: s.ctl.stack) (retiring s.contents x) := by
  unfold State.retireBegin
  rw [anchorWrite_of_free _ _ (by exact hf) (by exact hg) (by exact hr)]
  rfl

/-- Nothing moves once a record has been placed. -/
theorem anchorPlaced_move (s : State) (k : List Task) (a : AnchorRecord) (b : Bool) (hp : s.seq.pending = none) :
    (anchorPlaced s k a b).move = none := by
  apply State.move_none <;> (unfold anchorPlaced; (repeat' split) <;> first | rfl | exact hp)

/-! ### READ_ONLY causes (R43, R81) -/

/-- A reported cause takes effect as `turnsReadOnly` says. -/
theorem applyReadOnly_reported (t : State) (h : t.engine.readOnlyDue = false) :
    t.reportReadOnly.applyReadOnly = turnsReadOnly t := by
  obtain ⟨w, q, ⟨est, esq, etc, ed, etx, rd, af⟩, ct, l, cm, sq, a, z, pi, fc, pe⟩ := t
  simp only at h; subst h
  unfold State.reportReadOnly turnsReadOnly
  by_cases hs : est = .ready
  · simp [State.applyReadOnly, hs, State.setStore, State.raise, State.dropTxn, evStateChanged]
  · simp [State.applyReadOnly, hs]

/-- A completion posted with a reported cause. -/
theorem post_reported (s : State) (r : Request) (c : Completion) (hd : s.engine.readOnlyDue = false) :
    State.post s.reportReadOnly r c = turnsReadOnly (completes s r c) := by
  obtain ⟨w, q, ⟨est, esq, etc, ed, etx, rd, af⟩, ct, l, cm, sq, a, z, pi, fc, pe⟩ := s
  simp only at hd
  subst hd
  unfold State.post completes State.reportReadOnly turnsReadOnly
  by_cases hs : est = .ready <;> by_cases hq : q.requests.length = 4 <;>
    by_cases ht : (r.isTxnRequest = true ∧ c.status ≠ .cancelled)
  all_goals by_cases ho : etx.openTxn.isSome = true
  all_goals simp [State.applyReadOnly, State.clearControl, State.postRecord, hq, ht, State.raise, evQueueSpace, evStateChanged,
    State.restartTimer, timerAfter, ho, byte_toNat_eq_zero, hs, State.setStore, State.dropTxn]

/-- The end of a compaction step without a cause (R86). -/
theorem moves_stepEnds {t : State} {b : Bool} (h1 : t.engine.readOnlyDue = false) (h2 : t.seq.pending = none)
    (h3 : t.ctl = { stack := [], reply := none }) (n : Nat) : State.moves (n + 1) (t.stepEnds b) = t := by
  simp only [State.stepEnds, State.applyReadOnly, h1, Bool.false_eq_true, if_false]
  rw [State.moves_succ_of_move (State.move_drop rfl (by simp [State.ret, h3])) n]
  rw [State.moves_of_move_none (State.move_none rfl (by exact h2))]
  simp only [State.clearControl, State.ret]; rw [← h3]

/-! ### Mount (R129, R138) -/

/-- A line read in mount's scan leaves the sectors still to be scanned (R129). -/
theorem scanLine_todo (p : Replay) (d : Directory) (l : Line) : (p.scanLine d l).1.todo = p.todo := by
  unfold Replay.scanLine Replay.yields Replay.sawHeader
  cases p.cur with
  | none =>
    cases l with
    | blank => rfl
    | defective => rfl
    | good c =>
      simp only []
      cases c.asHeader with
      | none => rfl
      | some h =>
        simp only []
        split
        · rfl
        · split <;> rfl
  | some hk =>
    cases l with
    | blank => rfl
    | defective => rfl
    | good c => simp only []; split <;> rfl

/-- The end of mount in a MOUNTING store (R138). -/
theorem mountEnds_of_mounting (v : State) (hv : v.engine.store = .mounting) : v.mountEnds = mountEnded v := by
  unfold mountEnded
  simp only [State.mountEnds, State.leaveStore, State.clearControl, State.withDir, hv, if_true, State.setStore]
  have hcc : (decide (v.usable < Config.minimumPool) || decide (v.freeCount = 0)
      || decide (Config.sequenceLimit ≤ v.engine.seq.toNat) || v.engine.dir.overflow || v.engine.anchorFailed) =
      decide (v.usable < 8 ∨ v.freeCount = 0 ∨ 4294963200 ≤ v.engine.seq.toNat ∨ v.engine.dir.overflow = true ∨
        v.engine.anchorFailed = true) := by
    rw [Bool.eq_iff_iff]; simp only [Bool.or_eq_true, decide_eq_true_eq, or_assoc]; rfl
  rw [hcc]
  split <;> rename_i hc <;> simp only [decide_eq_true_eq] at hc
  · simp only [if_pos hc]; rfl
  · simp only [if_neg hc]; rfl

end Sys2Proof.Certificates
end

