-- ==== Sys2Proof/Laws/Memory.lean ====
section
/-! SUPPORT. The array's list of lines: a read after a write, and the canonical form kept by every operation on it. -/

namespace Sys2Proof.Machine

open Sys2Proof

/-- Every listed address of a list of lines lies above a bound. -/
def Cells.above (n : Nat) (c : Cells) : Prop := ∀ p ∈ c, n < p.1

/-- The canonical form of a list with a first line. -/
theorem Cells.wf_cons {a : Nat} {l : Line} {rest : Cells} :
    Cells.wf ((a, l) :: rest) = true ↔ l ≠ .blank ∧ Cells.above a rest ∧ Cells.wf rest = true := by
  simp [Cells.wf, Cells.above, and_assoc]

/-- A list of lines above an address does not list it. -/
theorem readCell_of_above : ∀ {c : Cells} {n a : Nat}, Cells.above n c → a ≤ n → readCell c a = .blank
  | [], _, _, _, _ => rfl
  | (b, l) :: rest, n, a, h, ha => by
    have hb : n < b := h (b, l) (by simp)
    have hr : Cells.above n rest := fun p hp => h p (by simp [hp])
    have hne : ¬ b = a := by omega
    simp [readCell, hne, readCell_of_above hr ha]

/-- Reading past a line put at the front. -/
theorem readCell_consCell (a x : Nat) (l : Line) (rest : Cells) (h : Cells.above a rest) :
    readCell (consCell a l rest) x = if a = x then l else readCell rest x := by
  unfold consCell
  by_cases hl : l = .blank
  · by_cases hx : a = x
    · subst hx; simp [hl, readCell_of_above h (Nat.le_refl a)]
    · simp [hl, hx]
  · simp [hl, readCell]

/-- A read after a write: the line written at its address, the former line elsewhere. -/
theorem readCell_writeCell : ∀ {c : Cells} (a x : Nat) (l : Line), Cells.wf c = true →
    readCell (writeCell c a l) x = if a = x then l else readCell c x
  | [], a, x, l, _ => by
    simp only [writeCell]
    rw [readCell_consCell a x l [] (by intro p hp; cases hp)]
  | (b, m) :: rest, a, x, l, hw => by
    obtain ⟨hm, hab, hr⟩ := Cells.wf_cons.mp hw
    by_cases h1 : a < b
    · simp only [writeCell, if_pos h1]
      refine readCell_consCell a x l _ ?_
      intro p hp
      rcases List.mem_cons.mp hp with rfl | hp
      · exact h1
      · exact Nat.lt_trans h1 (hab p hp)
    · by_cases h2 : b = a
      · subst h2
        simp only [writeCell, Nat.lt_irrefl, if_false, if_true]
        rw [readCell_consCell b x l rest hab]
        by_cases hx : b = x
        · simp [hx]
        · simp [hx, readCell]
      · simp only [writeCell, if_neg h1, if_neg h2, readCell]
        by_cases hx : b = x
        · subst hx; simp [Ne.symm h2]
        · simp [hx, readCell_writeCell a x l hr]

/-- A line put at the front of lines above it keeps the canonical form. -/
theorem Cells.wf_consCell {a : Nat} {l : Line} {rest : Cells} (h : Cells.above a rest) (hr : Cells.wf rest = true) :
    Cells.wf (consCell a l rest) = true := by
  unfold consCell
  by_cases hl : l = .blank
  · simp [hl, hr]
  · simp only [if_neg hl]; exact Cells.wf_cons.mpr ⟨hl, h, hr⟩

/-- A line put at the front keeps the others' bound. -/
theorem Cells.above_consCell {n a : Nat} {l : Line} {rest : Cells} (ha : n < a) (h : Cells.above n rest) :
    Cells.above n (consCell a l rest) := by
  unfold consCell
  by_cases hl : l = .blank
  · simpa [hl] using h
  · intro p hp
    simp only [if_neg hl] at hp
    rcases List.mem_cons.mp hp with rfl | hp
    · exact ha
    · exact h p hp

/-- A write above a bound keeps the bound. -/
theorem Cells.above_writeCell : ∀ {c : Cells} {n a : Nat} {l : Line}, Cells.above n c → n < a →
    Cells.above n (writeCell c a l)
  | [], n, a, l, h, ha => by simp only [writeCell]; exact Cells.above_consCell ha h
  | (b, m) :: rest, n, a, l, h, ha => by
    have hr : Cells.above n rest := fun p hp => h p (by simp [hp])
    simp only [writeCell]
    split
    · exact Cells.above_consCell ha h
    · split
      · exact Cells.above_consCell ha hr
      · intro p hp
        rcases List.mem_cons.mp hp with rfl | hp
        · exact h (b, m) (by simp)
        · exact Cells.above_writeCell hr ha p hp

/-- A write keeps the canonical form. -/
theorem Cells.wf_writeCell : ∀ {c : Cells} {a : Nat} {l : Line}, Cells.wf c = true → Cells.wf (writeCell c a l) = true
  | [], a, l, _ => by
    simp only [writeCell]; exact Cells.wf_consCell (by intro p hp; cases hp) rfl
  | (b, m) :: rest, a, l, h => by
    obtain ⟨hm, hab, hr⟩ := Cells.wf_cons.mp h
    simp only [writeCell]
    split
    · rename_i h1
      refine Cells.wf_consCell ?_ h
      intro p hp
      rcases List.mem_cons.mp hp with rfl | hp
      · exact h1
      · exact Nat.lt_trans h1 (hab p hp)
    · split
      · rename_i h2; subst h2; exact Cells.wf_consCell hab hr
      · rename_i h1 h2
        exact Cells.wf_cons.mpr ⟨hm, Cells.above_writeCell hab (by omega), Cells.wf_writeCell hr⟩

/-- Leaving lines out keeps the canonical form. -/
theorem Cells.wf_filter (p : Nat × Line → Bool) : ∀ {c : Cells}, Cells.wf c = true → Cells.wf (c.filter p) = true
  | [], _ => rfl
  | (b, m) :: rest, h => by
    obtain ⟨hm, hab, hr⟩ := Cells.wf_cons.mp h
    have hr' := Cells.wf_filter p hr
    by_cases hp : p (b, m) = true
    · rw [List.filter_cons_of_pos hp]
      exact Cells.wf_cons.mpr ⟨hm, fun q hq => hab q (List.mem_of_mem_filter hq), hr'⟩
    · rw [List.filter_cons_of_neg hp]; exact hr'

/-- Two canonical lists, the first wholly below the second, make one. -/
theorem Cells.wf_append : ∀ {c d : Cells}, Cells.wf c = true → Cells.wf d = true →
    (∀ p ∈ c, ∀ q ∈ d, p.1 < q.1) → Cells.wf (c ++ d) = true
  | [], _, _, hd, _ => hd
  | (b, m) :: rest, d, hc, hd, h => by
    obtain ⟨hm, hab, hr⟩ := Cells.wf_cons.mp hc
    refine Cells.wf_cons.mpr ⟨hm, ?_, Cells.wf_append hr hd (fun p hp q hq => h p (by simp [hp]) q hq)⟩
    intro p hp
    rcases List.mem_append.mp hp with hp | hp
    · exact hab p hp
    · exact h (b, m) (by simp) p hp

/-- Every line that sectorCells lists is one of those asked for. -/
theorem mem_sectorCells {x : Nat} {f : Nat → Line} : ∀ {ls : List Nat} {p : Nat × Line}, p ∈ sectorCells x f ls →
    ∃ l ∈ ls, p = (lineAddr x l, f l)
  | l :: rest, p, h => by
    simp only [sectorCells, consCell] at h
    split at h
    · obtain ⟨l', hl', e⟩ := mem_sectorCells h
      exact ⟨l', by simp [hl'], e⟩
    · rcases List.mem_cons.mp h with rfl | h
      · exact ⟨l, by simp, rfl⟩
      · obtain ⟨l', hl', e⟩ := mem_sectorCells h
        exact ⟨l', by simp [hl'], e⟩

/-- The lines of a sector, listed in rising order, are in canonical form. -/
theorem Cells.wf_sectorCells {x : Nat} {f : Nat → Line} : ∀ {ls : List Nat}, ls.Pairwise (· < ·) →
    Cells.wf (sectorCells x f ls) = true
  | [], _ => rfl
  | l :: rest, h => by
    obtain ⟨h1, h2⟩ := List.pairwise_cons.mp h
    refine Cells.wf_consCell ?_ (Cells.wf_sectorCells h2)
    intro p hp
    obtain ⟨l', hl', rfl⟩ := mem_sectorCells hp
    have := h1 l' hl'
    simp only [lineAddr]; omega

/-- Replacing a sector's lines keeps the canonical form. -/
theorem Cells.wf_replaceSector {c : Cells} (x : Nat) (f : Nat → Line) (h : Cells.wf c = true) :
    Cells.wf (replaceSector c x f) = true := by
  unfold replaceSector
  have hm : ∀ p ∈ sectorCells x f (List.range 256), lineAddr x 0 ≤ p.1 ∧ p.1 < lineAddr x 256 := by
    intro p hp
    obtain ⟨l, hl, rfl⟩ := mem_sectorCells hp
    have := List.mem_range.mp hl
    simp only [lineAddr]; omega
  refine Cells.wf_append (Cells.wf_append (Cells.wf_filter _ h) (Cells.wf_sectorCells List.pairwise_lt_range) ?_)
    (Cells.wf_filter _ h) ?_
  · intro p hp q hq
    have h1 := (List.mem_filter.mp hp).2
    have h2 := (hm q hq).1
    simp only [decide_eq_true_eq] at h1
    omega
  · intro p hp q hq
    have h2 := (List.mem_filter.mp hq).2
    simp only [decide_eq_true_eq] at h2
    rcases List.mem_append.mp hp with hp | hp
    · have h1 := (List.mem_filter.mp hp).2
      simp only [decide_eq_true_eq] at h1
      simp only [lineAddr] at *; omega
    · have := (hm p hp).2; omega

/-- A list of lines that does not list an address is passed over. -/
theorem readCell_append (c d : Cells) (a : Nat) (h : ∀ p ∈ c, p.1 ≠ a) : readCell (c ++ d) a = readCell d a := by
  induction c with
  | nil => rfl
  | cons p c ih =>
    obtain ⟨b, l⟩ := p
    have : b ≠ a := h (b, l) (by simp)
    simp [readCell, this, ih (fun p hp => h p (by simp [hp]))]

/-- A list of lines that does not list an address adds nothing at the back. -/
theorem readCell_append_left (c d : Cells) (a : Nat) (h : ∀ p ∈ d, p.1 ≠ a) : readCell (c ++ d) a = readCell c a := by
  induction c with
  | nil =>
    induction d with
    | nil => rfl
    | cons p d ih =>
      obtain ⟨b, l⟩ := p
      have : b ≠ a := h (b, l) (by simp)
      have := ih (fun p hp => h p (by simp [hp]))
      simp_all [readCell]
  | cons p c ih => obtain ⟨b, l⟩ := p; simp [readCell, ih]

/-- A filter that keeps every entry of an address keeps what it reads as. -/
theorem readCell_filter (p : Nat × Line → Bool) (c : Cells) (a : Nat) (h : ∀ l, p (a, l) = true) :
    readCell (c.filter p) a = readCell c a := by
  induction c with
  | nil => rfl
  | cons q c ih =>
    obtain ⟨b, l⟩ := q
    by_cases hb : b = a
    · subst hb; simp [h, readCell]
    · rw [List.filter_cons]; split <;> simp [readCell, hb, ih]

/-- A listed line of a sector reads as the function gives it. -/
theorem readCell_sectorCells (x : Nat) (f : Nat → Line) (l : Nat) : ∀ ls : List Nat, l ∈ ls → ls.Nodup →
    readCell (sectorCells x f ls) (lineAddr x l) = f l
  | [], h, _ => by simp at h
  | m :: ls, h, hn => by
    simp only [sectorCells, consCell]
    have hnone : l ∉ ls → readCell (sectorCells x f ls) (lineAddr x l) = .blank := by
      intro hl
      have := readCell_append (sectorCells x f ls) [] (lineAddr x l) (by
        intro p hp he
        obtain ⟨m, hm, rfl⟩ := mem_sectorCells hp
        have : m = l := by simp only [lineAddr] at he; omega
        exact hl (this ▸ hm))
      simpa [readCell] using this
    by_cases hm : m = l
    · subst hm
      have hl : m ∉ ls := (List.nodup_cons.1 hn).1
      split
      · rename_i hb; rw [hnone hl, hb]
      · simp [readCell]
    · have hl : l ∈ ls := by simpa [Ne.symm hm] using h
      have ih := readCell_sectorCells x f l ls hl (List.nodup_cons.1 hn).2
      have hne : lineAddr x m ≠ lineAddr x l := by simp [lineAddr]; omega
      split
      · exact ih
      · simp [readCell, hne, ih]

/-- After a sector's lines are replaced, they read as the function gives them. -/
theorem readCell_replaceSector_in (c : Cells) (x : Nat) (f : Nat → Line) (l : Nat) (hl : l < 256) :
    readCell (replaceSector c x f) (lineAddr x l) = f l := by
  unfold replaceSector
  rw [readCell_append_left, readCell_append, readCell_sectorCells _ _ _ _ (by simpa using hl) List.nodup_range]
  · intro p hp; have h2 := (List.mem_filter.mp hp).2; simp only [decide_eq_true_eq] at h2; simp only [lineAddr] at *; omega
  · intro p hp; have h2 := (List.mem_filter.mp hp).2; simp only [decide_eq_true_eq] at h2; simp only [lineAddr] at *; omega

/-- Replacing a sector's lines leaves every line outside it as it was. -/
theorem readCell_replaceSector_out (c : Cells) (x : Nat) (f : Nat → Line) (a : Nat) (ha : a < 256 * x ∨ 256 * x + 256 ≤ a) :
    readCell (replaceSector c x f) a = readCell c a := by
  unfold replaceSector
  rcases ha with ha | ha
  · rw [readCell_append_left, readCell_append_left, readCell_filter]
    · intro l; simp [lineAddr]; omega
    · intro p hp; obtain ⟨m, hm, rfl⟩ := mem_sectorCells hp; simp [lineAddr] at *; omega
    · intro p hp; have h2 := (List.mem_filter.mp hp).2; simp only [decide_eq_true_eq] at h2; simp only [lineAddr] at *; omega
  · rw [readCell_append, readCell_filter]
    · intro l; rw [decide_eq_true_eq]; simp only [lineAddr]; omega
    · intro p hp
      rcases List.mem_append.1 hp with hp | hp
      · have h2 := (List.mem_filter.mp hp).2; simp only [decide_eq_true_eq] at h2; simp only [lineAddr] at *; omega
      · obtain ⟨m, hm, rfl⟩ := mem_sectorCells hp; simp [lineAddr] at *; omega

end Sys2Proof.Machine
end

