-- ==== Sys2Proof/Laws/Steps.lean ====
section
/-! SUPPORT. Compaction steps within a stall's or a RECLAIM's job (R84, R86): when the job's tests let the compactor go on, which step
it asks for, and that a changed record of a sector other than the head leaves the room for appends as it was. -/

namespace Sys2Proof.Certificates

open Sys2Proof Sys2Proof.Machine

/-- Tests that do not end the job lead to the compactor's next step, after a step's end and after a wait (R63, R86, R100). -/
theorem resume_of_goesOn {u : State} {k : Task} (h : GoesOn u k) :
    State.resume u k (.stepEnd false) = u.nextStepInJob k ∧ State.resume u k .wake = u.nextStepInJob k := by
  obtain ⟨h1, h2, h3, h4⟩ := h
  have hg : u.cannotGain false = false := by
    unfold State.cannotGain
    cases hl : u.comp.noGainLimit with
    | none => rfl
    | some l => have := h3 l hl; simp; omega
  cases k <;> try exact h4.elim
  · rename_i w
    obtain ⟨h5, h6, h7⟩ := h4
    have : State.stallTests u w false = u.nextStepInJob (.stall w) := by
      unfold State.stallTests
      rw [if_neg (by rw [h1]; simp), if_neg (by rw [h1]; simp), if_neg (by simp [h6]; omega), hg, if_neg (by simp)]
    exact ⟨this, this⟩
  · rename_i r
    obtain ⟨n, h5, h6⟩ := h4
    have : State.reclaimTests u r false = u.nextStepInJob (.reclaim r) := by
      unfold State.reclaimTests
      rw [if_neg (by rw [h1]; simp), if_neg (by rw [h1]; simp), if_neg (by simp [h5]; omega), hg, if_neg (by simp)]
    exact ⟨this, this⟩

/-- The compactor asks for a step within a job that goes on, unless its erase is in flight (R84). -/
theorem asksForStep_of_goesOn {u : State} {k : Task} (h : GoesOn u k) (hs : u.comp.stage ≠ .erasing) : u.asksForStep = true := by
  obtain ⟨h1, h2, -, h4⟩ := h
  have h5 : u.stepsInJob = true := by
    cases k <;> try exact h4.elim
    · simp [State.stepsInJob, h4.1]
    · obtain ⟨n, h5, -⟩ := h4; simp [State.stepsInJob, h5]
  unfold State.asksForStep
  rw [h1, h2, h5]
  cases hst : u.comp.stage <;> simp_all

/-- The next step within the job is granted with the job's task waiting for its end. -/
theorem nextStepInJob_grants {u : State} {k : Task} (h : GoesOn u k) (hs : u.comp.stage ≠ .erasing)
    (hc : u.ctl = { stack := [], reply := none }) :
    u.nextStepInJob k = State.grantStep { u with ctl := { stack := [k], reply := none } } := by
  unfold State.nextStepInJob
  rw [asksForStep_of_goesOn h hs, if_pos rfl]; simp [State.push, hc]

/-- While the erase is in flight the job waits for its end (R86). -/
theorem nextStepInJob_waits {u : State} {k : Task} (hs : u.comp.stage = .erasing) (hc : u.ctl = { stack := [], reply := none }) :
    u.nextStepInJob k = { u with ctl := { stack := [k], reply := none } } := by
  unfold State.nextStepInJob State.asksForStep
  rw [hs]; simp [State.push, hc]

/-- The end of a step within a job that goes on is followed by the next step. -/
theorem moves_stepEnds_job {v : State} {k : Task} (hv : GoesOn v k) (hc : v.ctl = { stack := [], reply := none })
    (hd : v.engine.readOnlyDue = false) (n : Nat) :
    State.moves (n + 1) (State.stepEnds { v with ctl := { stack := [k], reply := none } } false) =
      State.moves n (v.nextStepInJob k) := by
  have : State.stepEnds { v with ctl := { stack := [k], reply := none } } false =
      { v with ctl := { stack := [k], reply := some (.stepEnd false) } } := by
    simp [State.stepEnds, State.applyReadOnly, hd, State.ret]
  rw [this, State.moves_succ_of_move (State.move_resume rfl rfl) n]
  have hq : ({ v with ctl := { stack := [], reply := none } } : State) = v := by rw [← hc]
  exact congrArg _ ((congrArg (fun q => State.resume q k (.stepEnd false)) hq).trans (resume_of_goesOn hv).1)

/-- What `GoesOn` reads: a state that agrees on it goes on as well. -/
theorem goesOn_congr {u w : State} {k : Task} (h : GoesOn u k) (h1 : w.engine.store = u.engine.store)
    (h2 : w.comp.stopped = u.comp.stopped) (h3 : w.comp.noGain = u.comp.noGain) (h4 : w.comp.noGainLimit = u.comp.noGainLimit)
    (h5 : w.comp.stallMode = u.comp.stallMode) (h6 : w.comp.reclaimTarget = u.comp.reclaimTarget)
    (h7 : ∀ n, w.needsNewHead n = u.needsNewHead n) (h8 : w.freeCount = u.freeCount) : GoesOn w k := by
  unfold GoesOn at *
  rw [h1, h2, h3, h4, h5, h6, h8]
  refine ⟨h.1, h.2.1, h.2.2.1, ?_⟩
  have := h.2.2.2
  cases k <;> simp_all

/-! ### Room in the tables -/

/-- A changed record leaves the other sectors' records. -/
theorem record_setRecord_ne (t : LogTables) (x y : Nat) (r : SectorRec) (h : x ≠ y) : (t.setRecord x r).record y = t.record y := by
  simp only [LogTables.setRecord, LogTables.record]
  by_cases hx : 2 ≤ x <;> by_cases hy : 2 ≤ y <;> simp [hx, hy]
  rw [List.getElem?_set_ne (by omega)]

/-- A changed record reads as the new one, or as before where the table has no such sector. -/
theorem record_setRecord_or (t : LogTables) (x : Nat) (r : SectorRec) :
    (t.setRecord x r).record x = r ∨ (t.setRecord x r).record x = t.record x := by
  simp only [LogTables.setRecord, LogTables.record]
  by_cases hx : 2 ≤ x
  · simp only [hx, if_true]
    by_cases hl : x - 2 < t.sectors.length
    · left; simp [List.getD, hl]
    · right; rw [List.set_eq_of_length_le (by omega)]
  · right; simp [hx]

/-- The record is not a head's. -/
def isNoHead : SectorRec → Bool
  | .head _ _ _ _ _ _ => false
  | _ => true

/-- The append position depends on the head's record alone. -/
theorem headPos_setRecord (t : LogTables) (x : Nat) (r : SectorRec) (hr : isNoHead r = true) (ht : isNoHead (t.record x) = true) :
    (t.setRecord x r).headPos = t.headPos := by
  have none_of : ∀ q : LogTables, isNoHead (q.record x) = true → q.head = some x → q.headPos = none := by
    intro q hq hh; unfold LogTables.headPos; rw [hh]; cases hx : q.record x <;> simp_all [isNoHead]
  have hf := (setRecord_lists t x r).2.2.1
  by_cases hx : t.head = some x
  · rw [none_of t ht hx, none_of _ ?_ (hf.trans hx)]
    rcases record_setRecord_or t x r with h | h <;> rw [h] <;> assumption
  · unfold LogTables.headPos; rw [hf]
    cases hy : t.head with
    | none => rfl
    | some y => simp only []; rw [record_setRecord_ne]; rintro rfl; exact hx hy

/-- A changed record of a sector other than the head leaves the need of a new head and the FREE count (R62). -/
theorem needsNewHead_setRecord (u w : State) (t : LogTables) (x : Nat) (r : SectorRec) (n : Nat) (hl : u.log = some t)
    (hw : w.log = some (t.setRecord x r)) (hr : isNoHead r = true) (ht : isNoHead (t.record x) = true) :
    w.needsNewHead n = u.needsNewHead n ∧ w.freeCount = u.freeCount := by
  refine ⟨?_, ?_⟩
  · simp only [State.needsNewHead, State.headPos, hw, hl, headPos_setRecord t x r hr ht]
  · simp [State.freeCount, hw, hl, (setRecord_lists t x r).1]

end Sys2Proof.Certificates
end

