-- ==== Sys2Proof/Tests/Slice0.lean ====
section
/-! SUPPORT. Tests: what WellFormed refuses, witnesses for the hypotheses of the statements, and small single-step tests whose expected
results are read from the spec. -/

namespace Sys2Proof.Tests

open Sys2Proof Sys2Proof.Machine Sys2Proof.Certificates

/-! ### Small states -/

/-- Sector 2 is the head with data lines 3 to `lu` used, sector 3 is CLOSED and the tail, the others are FREE. -/
def tablesTo (lu : Nat) : LogTables :=
  { sectors := .head 2 0 0 lu 3 4 :: .closed 1 5 0 20 false :: List.replicate 60 (.free 0),
    free := (List.range 60).map (· + 4), ring := [3, 2], head := some 2, nextRing := 3 }

/-- An anchor record with one policy for every zone and unlock codes of zero bytes. -/
def anchorOf (p : Policy) : AnchorRecord :=
  { generation := 1, formatId := 9, zones := Vector.replicate 4 { policy := p, code := List.replicate 8 0 }, retired := [] }

/-- Key 1 is LIVE with 16 bytes at lines 3 and 4 of sector 2; key 0x4001, in zone 1, is DEAD. -/
def directory : Directory :=
  { entries := [{ key := 1, live := some 16, version := 1, sector := 2, line := 3 },
                { key := 0x4001, live := none, version := 2, sector := 2, line := 5 }],
    accounted := 3, overflow := false, complete := true }

/-- The entry of key 1. -/
def entry1 : Entry := { key := 1, live := some 16, version := 1, sector := 2, line := 3 }

/-- A READY store over the tables and `directory` with every zone under one policy, S = 5. -/
def readyUnder (p : Policy) : State :=
  { State.reset with
    engine := { Engine.reset with store := .ready, seq := 5, txnCounter := 1, dir := directory },
    log := some (tablesTo 10),
    anchor := { working := some (anchorOf p), location := some (0, 0), writePos := some (0, 1) } }

/-- The READY store with every zone OPEN. -/
def ready : State := readyUnder .policyOpen

/-- The READY store in another store state. -/
def inStore (st : StoreState) : State := { ready with engine := { ready.engine with store := st } }

/-- The READY store with a transaction open and its idle timer at `elapsed` of 50 ticks. -/
def opened (elapsed : Nat) (staged : List Staged) : State :=
  { ready with engine := { ready.engine with
      txn := { openTxn := some { number := 3, staged := staged }, timer := .running 50 elapsed, expired := none } } }

/-- The READY store with the compactor's erase of sector 3 in flight. -/
def erasing (ms suspensions : Nat) : State :=
  { ready with
    seq := { ready.seq with
      state := .erasing, erase := some { sector := 3, background := true, elapsed := ms, suspensions := suspensions } },
    comp := { ready.comp with stage := .erasing, victim := some 3, roundStart := some 60 } }

/-- The READY store with a program in hand for the given tasks. -/
def programming (k : List Task) (x l : Nat) (d : LineData) : State :=
  { ready with
    ctl := { stack := k, reply := none },
    seq := { ready.seq with state := .programming, inHand := some (.program x l d) } }

/-- The READY store with a read in hand for the given tasks. -/
def reading (k : List Task) (x l : Nat) : State :=
  { ready with ctl := { stack := k, reply := none }, seq := { ready.seq with inHand := some (.read x l) } }

/-- The READY store with a foreground erase of sector `x` in flight for the given tasks. -/
def erasingFor (k : List Task) (x : Nat) : State :=
  { ready with
    ctl := { stack := k, reply := none },
    seq := { ready.seq with
      state := .erasing, erase := some { sector := x, background := false, elapsed := 0, suspensions := 0 } } }

/-- A state whose array holds the given lines and no others. -/
def holding (s : State) (cells : List (Nat × Line)) : State := { s with seq := { s.seq with cells := cells } }

/-- A state with a halted sequencer. -/
def haltedSeq (s : State) : State := { s with seq := { s.seq with halted := true } }

/-- A state with other log manager's tables. -/
def withTables (s : State) (t : LogTables) : State := { s with log := some t }

/-- A mounting state. -/
def mounting (s : State) : State := { s with engine := { s.engine with store := .mounting } }

/-- A state with the zone guard's flags of zone 0. -/
def guarded (s : State) (u : Bool) (f : Nat) (l : Bool) : State :=
  { s with zones := s.zones.set 0 { unlocked := u, failed := f, lockout := l } }

/-- A request of a kind for key 1 without flags, parameter and payload. -/
def req (kind : Byte) : Request :=
  { tag := 7, kind := kind, key := 1, flags := 0, version := 0, param := 0, length := 0, payload := [] }

/-- A PUT of `n` bytes. -/
def putOf (n : Nat) : Request := { req 1 with length := BitVec.ofNat 16 n, payload := List.replicate n 0x33 }

/-- An UNLOCK or SET_CODE with a code of one repeated byte. -/
def codeOf (kind b : Byte) : Request := { req kind with length := 8, payload := List.replicate 8 b }

/-- A state with one request waiting. -/
def asked (s : State) (r : Request) : State := { s with queues := { s.queues with requests := [r] } }

/-- A payload line's 16 zero bytes. -/
def zeros : Vector Byte 16 := Vector.replicate 16 0

/-- A completion of tag 7 for key 1. -/
def cpl (kind : Byte) (st : Status) : Completion := plain (req kind) st

/-- A state with the pins set. -/
def pinned (s : State) (powered rst pfw : Bool) : State :=
  { s with pins := { powered := powered, rstAsserted := rst, pfwAsserted := pfw } }

/-- The state after a command; the state itself where the command does not complete. -/
def after (c : Instr) (s : State) : State :=
  match exec c s with
  | .next t => t
  | _ => s

/-- A state with another store sequence. -/
def atSeq (q : Seq) (s : State) : State := { s with engine := { s.engine with seq := q } }

/-- A state in whose job a READ_ONLY cause was met. -/
def dueIn (s : State) : State := { s with engine := { s.engine with readOnlyDue := true } }

/-- An append of a DELETE frame with sequence 5. -/
def deleteAppend : AppendJob := { header := .delete 1 5 none, value := [], host := true, programmed := false }

/-- An append of a 16-byte PUT frame with sequence 5. -/
def putAppend : AppendJob :=
  { header := .put 1 5 none 16, value := List.replicate 16 0x33, host := true, programmed := false }

/-! ### WellFormed -/

theorem test_wellFormed_refuses_sector : Instr.wellFormed (.arrayOwnLoss 64 0) = false := by decide
theorem test_wellFormed_refuses_line : Instr.wellFormed (.arrayOwnLoss 0 256) = false := by decide
theorem test_wellFormed_takes_last_line : Instr.wellFormed (.arrayOwnLoss 63 255) = true := by decide

/-! ### Witnesses: the step and the register window -/

theorem witness_StepRunsFrontCommand : { State.reset with pending := [.go, .pop] }.pending = .go :: [.pop] := by decide

theorem witness_EmptyQueueTicks :
    State.reset.pending = [] ∧ (pinned ready true true false).busActive = false ∧
    (reading [] 2 3).seq.inHand ≠ none ∧
    ((opened 48 []).busActive = true ∧ (opened 48 []).seq.inHand = none ∧ (opened 48 []).seq.erase = none ∧ 48 + 1 < 50) ∧
    ((opened 49 []).engine.txn.openTxn = some { number := 3, staged := [] } ∧ 50 ≤ 49 + 1) ∧
    ((erasing 180 0).engine.txn.timer = .stopped ∧ (erasing 180 0).seq.state = .erasing ∧ 180 + 10 < 200) := by decide

theorem witness_EveryCommandCompletes :
    Instr.wellFormed (.arrayOwnLoss 63 255) = true ∧ ¬ (64 < 64 ∧ 0 < 256) ∧ ¬ (63 < 64 ∧ 256 < 256) := by decide

theorem witness_CommandsKeepQueue : exec .clearFill ready = .next (after .clearFill ready) := rfl

theorem witness_GoSubmits :
    ready.busActive = true ∧ ready.window.fill.length ≤ 256 ∧
    256 < { ready with window := { ready.window with reqLength := 257 } }.window.reqLength.toNat ∧
    Instr.resets .softReset = true ∧ Instr.resets (.registerWrite 0x07 0xA5) = true := by decide

set_option maxRecDepth 4096 in
theorem witness_FillBuffer :
    ready.busActive = true ∧ { ready with window := { ready.window with fill := List.replicate 256 1 } }.window.fill.length ≤ 256 ∧
    (List.replicate 0 (1 : Byte)).length = ready.window.fill.length := by decide

theorem witness_CompletionReading :
    let s := { ready with queues := { ready.queues with
      completions := [{ cpl 2 .ok with length := 1, payload := [9] }], readPtr := 0 } }
    let e := { s with queues := { s.queues with readPtr := 1 } }
    s.busActive = true ∧ s.queues.completions = { cpl 2 .ok with length := 1, payload := [9] } :: [] ∧
    s.queues.readPtr < 1 ∧ 1 ≤ e.queues.readPtr ∧ ready.queues.completions = [] := by decide

theorem witness_CaptureLatches : ready.busActive = true := by decide
theorem witness_EventStatusClears :
    ready.busActive = true ∧ ready.queuesWf = true ∧ ready.log = some (tablesTo 10) ∧ (tablesTo 10).free.length ≤ 62 ∧
    (State.reset.log = none ∧ State.reset.busActive = true) ∧
    ((0x07 : BitVec 6).toNat = 0x07 ∧ 0x2E ≤ (0x2E : BitVec 6).toNat ∧ 0x2E ≤ (0x3F : BitVec 6).toNat) := by decide

theorem witness_EventEnableAndInt :
    let s := { State.reset with window := { State.reset.window with eventEnable := 0x20 } }
    s.busActive = true ∧ s.engine.store = .mounting ∧ s.window.eventEnable.getLsbD 5 = true := by decide

theorem witness_ConfigurationValues :
    let c := { inStore .readOnly with comp := { ready.comp with stage := .copying } }
    ready.busActive = true ∧ ready.engine.store = .ready ∧ ready.comp.stage = .idle ∧
    c.engine.store = .readOnly ∧ c.comp.stage = .copying ∧ c.comp.stopped = false ∧ c.comp.stallMode = false ∧
    c.comp.reclaimTarget = none ∧ (opened 0 []).engine.txn.openTxn.isSome = true ∧
    { ready with engine := { ready.engine with txn := { ready.engine.txn with timer := .notRunning } } }.engine.txn.timer =
      .notRunning := by decide

theorem witness_RegisterWrites :
    ready.busActive = true ∧ 0x08 ≤ (0x08 : BitVec 6).toNat ∧ (0x13 : BitVec 6).toNat ≤ 0x13 ∧ (0x03 : BitVec 6).toNat < 0x04 ∧
    (0x17 ≤ (0x24 : BitVec 6).toNat ∧ (0x24 : BitVec 6).toNat ≤ 0x24) ∧ 0x27 ≤ (0x3F : BitVec 6).toNat ∧
    ((0x05 : Byte) ≠ 0x01 ∧ (0x05 : Byte) ≠ 0x02 ∧ (0x05 : Byte) ≠ 0x03 ∧ (0x05 : Byte) ≠ 0x04 ∧ (0x05 : Byte) ≠ 0xA5) := by decide

/-! ### Witnesses: resets, the supply, the warning and mount -/

theorem witness_SoftResetValues :
    ready.busActive = true ∧ (programming [] 2 11 (.payload zeros)).seq.inHand = some (.program 2 11 (.payload zeros)) ∧
    ready.seq.erase = none ∧
    (erasing 0 0).seq.erase = some { sector := 3, background := true, elapsed := 0, suspensions := 0 } := by decide

theorem witness_no_program : ∀ x l d, ready.seq.inHand ≠ some (.program x l d) := by
  intro x l d h; exact nomatch (h : (none : Option LineOp) = some _)

theorem witness_no_program_in_erase : ∀ x l d, (erasing 0 0).seq.inHand ≠ some (.program x l d) := by
  intro x l d h; exact nomatch (h : (none : Option LineOp) = some _)

theorem witness_HardResetValues :
    ready.busActive = true ∧ ready.pins.powered = true ∧ ready.seq.inHand = none ∧ ready.seq.erase = none ∧
    (pinned ready true true false).busActive = false ∧ (pinned ready false false false).busActive = false := by decide

theorem witness_CutShortLines :
    let p := programming [] 2 11 (.payload zeros)
    (p.busActive = true ∧ p.arrayWf = true ∧ p.seq.inHand = some (.program 2 11 (.payload zeros)) ∧ p.lineAt 2 11 = .blank ∧
      p.seq.erase = none) ∧
    (erasing 0 0).seq.erase = some { sector := 3, background := true, elapsed := 0, suspensions := 0 } ∧
    ((reading [] 2 3).seq.inHand = some (.read 2 3) ∧ (reading [] 2 3).seq.erase = none) := by decide

theorem witness_CutShortLines_completes :
    exec .rstAsserted (programming [] 2 11 (.payload zeros)) = .next (after .rstAsserted (programming [] 2 11 (.payload zeros))) := rfl

theorem witness_CutShortLines_suspended :
    let s := { erasing 0 1 with seq := { (erasing 0 1).seq with
      state := .suspended, inHand := some (.program 2 11 (.payload zeros)) } }
    s.busActive = true ∧ s.arrayWf = true ∧ s.seq.inHand = some (.program 2 11 (.payload zeros)) ∧ s.lineAt 2 11 = .blank ∧
    s.seq.erase = some { sector := 3, background := true, elapsed := 0, suspensions := 1 } ∧ s.sequencerWf = true := by decide

/-- A soft reset that waits for its program to end is in progress (log 14). -/
theorem witness_PowerFailHalts_waitingReset :
    let p := programming [] 2 11 (.payload zeros)
    { p with seq := { p.seq with delivers := false } }.resetInProgress = true := by decide

theorem witness_PowerFailHalts :
    (ready.pins.powered = true ∧ ready.resetInProgress = false ∧ ready.pins.pfwAsserted = false ∧ ready.seq.halted = false ∧
      ready.ctl = { stack := [], reply := none } ∧ ready.seq.inHand = none ∧ ready.seq.erase = none ∧
      ready.seq.pending = none ∧ ready.seq.waiting = none ∧ ready.engine.store ≠ .halted) ∧
    (pinned ready true true false).resetInProgress = true ∧
    { ready with seq := { ready.seq with halted := true } }.seq.halted = true := by decide

/-- Mount with the read of a line in hand, and with the erase of a BLANK sector in flight (R139). -/
theorem witness_PowerFailHalts_mount :
    let r := mounting (reading [.mountSurvey 2 [] [] []] 2 0)
    let e := mounting (erasingFor [.mountErase 5] 5)
    (r.pins.powered = true ∧ r.resetInProgress = false ∧ r.pins.pfwAsserted = false ∧ r.seq.halted = false ∧
      r.engine.store = .mounting ∧ r.ctl.stack ≠ [] ∧ r.ctl.reply = none ∧ r.seq.inHand = some (.read 2 0) ∧ r.seq.erase = none ∧
      r.seq.pending = none ∧ r.seq.waiting = none ∧ retiringSector r.ctl.stack = none) ∧
    (e.resetInProgress = false ∧ e.engine.store = .mounting ∧ e.ctl.stack ≠ [] ∧ e.seq.inHand = none ∧
      e.seq.erase = some { sector := 5, background := false, elapsed := 0, suspensions := 0 } ∧
      retiringSector e.ctl.stack = none) := by decide

theorem witness_MountBeginsAndEnds :
    let a : AnchorScan :=
      { sector := 1, line := 251, slotLines := List.replicate 5 .blank, best := none, used0 := none, used1 := none }
    let r := { reading [.mountAnchor a] 1 251 with engine := { ready.engine with store := .mounting } }
    let o := { programming [.openHead 4 3, .mountOpen] 4 1 (.opened 9 3 5) with
      engine := { ready.engine with store := .mounting } }
    (State.reset.busActive = true ∧ State.reset.pins.pfwAsserted = false ∧ State.reset.engine.store = .mounting ∧
      State.reset.ctl = { stack := [], reply := none } ∧ State.reset.seq.state = .idle ∧ State.reset.seq.inHand = none ∧
      State.reset.sequencerWf = true) ∧
    (pinned State.reset true false true).pins.pfwAsserted = true ∧
    (Reads r [.mountAnchor a] 1 251 ∧ a.best = none ∧ slotRecord (a.slotLines ++ [r.lineAt 1 251]) = none ∧
      r.engine.store = .mounting) ∧
    (Programs o [.openHead 4 3, .mountOpen] 4 1 (.opened 9 3 5) ∧ o.engine.store = .mounting ∧
      o.log = some (tablesTo 10)) := by decide

theorem witness_MountBeginsAndEnds_anchor :
    let a := fun x l => ({ sector := x, line := l, slotLines := List.replicate (l % 6) .blank, best := none, used0 := none,
                           used1 := none } : AnchorScan)
    let s := fun x l => mounting (reading [.mountAnchor (a x l)] x l)
    (Reads (s 1 250) [.mountAnchor (a 1 250)] 1 250 ∧ (s 1 250).seq.erase = none ∧ 1 < 2 ∧ 250 < 251) ∧
    Reads (s 0 251) [.mountAnchor (a 0 251)] 0 251 := by decide

theorem witness_MountBeginsAndEnds_anchorFound :
    let r := anchorOf .policyOpen
    let a : AnchorScan := { sector := 1, line := 251, slotLines := [], best := some (r, 1, 41), used0 := none, used1 := some 41 }
    let s := mounting (reading [.mountAnchor a] 1 251)
    Reads s [.mountAnchor a] 1 251 ∧ (a.read (s.lineAt 1 251)).best = some (r, 1, 41) ∧
    poolSectors.filter (fun z => !r.retired.contains z) ≠ [] := by decide

theorem witness_MountBeginsAndEnds_survey :
    let k := fun read => [Task.mountSurvey 2 read [3] []]
    let s := fun read => mounting (reading (k read) 2 read.length)
    Reads (s []) (k []) 2 0 ∧ Reads (s [.blank]) (k [.blank]) 2 1 ∧
    (Reads (s [.blank, .blank]) (k [.blank, .blank]) 2 2 ∧ (s []).seq.erase = none) := by decide

/-- The last sector of the survey: with an UNCLOSED sector to scan, with a ring sector that has no line to read, and without a
ring, when mount erases, retires, ends or opens a head. -/
theorem witness_MountBeginsAndEnds_surveyEnds :
    let o := fun l2 => [Line.good (.format 9 1), .good (.opened 9 7 5), l2]
    let s := fun read l => holding (mounting (reading [.mountSurvey 2 read [] []] 2 2)) [(lineAddr 2 2, l)]
    let closed := Line.good (.closed 2 0 0 0)
    (Reads (s ((o closed).take 2) closed) [.mountSurvey 2 ((o closed).take 2) [] []] 2 2 ∧ (s [] closed).seq.erase = none) ∧
    ringOf [(2, classify 9 (.good (.format 9 1)) (.good (.opened 9 7 5)) .blank)] = [2] ∧
    (ringOf [(2, classify 9 (.good (.format 9 1)) (.good (.opened 9 7 5)) closed)] = [2] ∧
      classify 9 (.good (.format 9 1)) (.good (.opened 9 7 5)) closed = .closed 7 5 1 2 0 0 0) ∧
    (ringOf [(2, classify 9 .blank .blank .blank)] = [] ∧ Free (s [] .blank) ∧ (s [] .blank).engine.store = .mounting) := by decide

theorem witness_MountBeginsAndEnds_closeNotBlank :
    let k := [Task.mountClose { sector := 3, lastUsed := 20, frames := 2, highest := 9, faults := 0 } []]
    let s := holding (programming k 3 2 (.closed 20 2 9 0)) [(lineAddr 3 2, .defective)]
    Waits s k 3 2 (.closed 20 2 9 0) ∧ Free s ∧ s.lineAt 3 2 ≠ .blank ∧ Instr.lineProgramDone true ∈ [Instr.lineProgramDone true, .lineProgramDone false] := by
  decide

/-- The READY store's tables with sector 2 without a head and one sector in another state. -/
def tablesWith (r : SectorRec) (x : Nat) : LogTables := (tablesTo 10).setRecord x r

/-- The end of a replay of one ring sector, whose last line, 255 of sector 2, is read next. -/
def replayed : Replay :=
  { notes := [(2, .unclosed 7 20 0 true), (3, .free 4 90)], scans := [], todo := [], sector := 2, pos := 255, cur := none,
    frames := 1, highest := 30, defects := 2, run := [], maxSeq := 30, maxTxn := 65535 }

/-- That replay once its scan has been recorded. -/
def scanned : Replay :=
  { replayed with scans := [{ sector := 2, endLine := 255, frames := 1, highest := 30, defects := 2 }] }

theorem witness_MountBeginsAndEnds_results :
    (∀ q ∈ scanned.maxSeq :: scanned.notes.map (fun n => n.2.topSeq), q ≠ 4294967295) ∧
    (∀ q ∈ scanned.notes.map (fun n => (n.2.opened.map Prod.fst).getD 0), q ≠ 4294967295) ∧
    (ringOf scanned.notes).getLast? = some 2 :=
  ⟨show ∀ q ∈ [(30 : Seq), 20, 90], q ≠ 4294967295 by simp, show ∀ q ∈ [(7 : Seq), 0], q ≠ 4294967295 by simp, rfl⟩

theorem witness_MountBeginsAndEnds_chosen :
    noteOf scanned.notes 2 = .unclosed 7 20 0 true ∧ (scanOf scanned.scans 2).defects = 2 ∧
    (scanOf scanned.scans 2).endLine = 255 := ⟨rfl, rfl, rfl⟩

theorem witness_MountBeginsAndEnds_head : scanned.tables.head = some 2 := rfl

/-- Replays that end without an UNCLOSED sector to close: a BLANK sector to erase, a worn one, none with FREE sectors, none at all. -/
theorem witness_MountBeginsAndEnds_ended :
    let q := fun (n : SurveyNote) => { replayed with notes := (List.range 62).map (fun x => (x + 2, n)), sector := 2 }
    let u := fun n => withTables (mounting ready) (q n).tables
    ((q (.blank none)).unclosed (q (.blank none)).tables.head = [] ∧ (u (.blank none)).firstBlank = some 2 ∧
      ((u (.blank none)).record 2).worn = false) ∧
    (((u (.blank (some 100000))).record 2).worn = true ∧ (u (.blank (some 100000))).contents.generation ≠ 4294967295) ∧
    ((u (.free 4 0)).firstBlank = none ∧ (q (.free 4 0)).tables.head = none ∧ (q (.free 4 0)).tables.sortFree.free ≠ []) ∧
    ((u .retired).firstBlank = none ∧ (q .retired).tables.head = none ∧ (q .retired).tables.sortFree.free = []) := by decide

/-- R129: the scan goes on, and it moves to the next ring sector, which has a line to read or none. -/
theorem witness_MountBeginsAndEnds_scan :
    let p := { replayed with
      pos := 3, todo := [3, 4],
      notes := [(2, .unclosed 7 20 0 true), (3, .closed 8 20 0 255 3 30 0), (4, .closed 9 20 0 2 0 0 0)] }
    let s := fun l => holding (mounting (reading [.mountReplay p] 2 3)) [(lineAddr 2 3, l)]
    let r := fun l => p.scanLine (s l).engine.dir l
    (Reads (s .defective) [.mountReplay p] p.sector p.nextLine ∧ (s .defective).seq.erase = none ∧
      (r .defective).2.2 = false ∧ (r .defective).1.nextLine < (r .defective).1.stop) ∧
    ((r .blank).2.2 = true ∧ 3 < (entering p 3 [4]).stop ∧ (entering p 4 []).stop ≤ 3) := by decide

theorem witness_MountBeginsAndEnds_replayClose :
    let p := { replayed with notes := (List.range 62).map (fun x => (x + 2, .unclosed (BitVec.ofNat 32 (x + 1)) 20 0 true)) }
    let s := mounting (reading [.mountReplay p] 2 255)
    let r := p.scanLine s.engine.dir (s.lineAt 2 255)
    let q : Replay := { r.1.recordScan r.2.2 with todo := [], run := [] }
    Reads s [.mountReplay p] p.sector p.nextLine ∧ s.engine.store = .mounting ∧ p.todo = [] ∧ Free s ∧ r.2.2 = true ∧
    q.unclosed q.tables.head ≠ [] := by decide

theorem witness_MountBeginsAndEnds_replayEnd :
    let p := { replayed with notes := (2, .unclosed 7 20 0 true) :: (List.range 61).map (fun x => (x + 3, .free 4 90)) }
    let s := mounting (reading [.mountReplay p] 2 255)
    let r := p.scanLine s.engine.dir (s.lineAt 2 255)
    let q : Replay := { r.1.recordScan r.2.2 with todo := [], run := [] }
    Reads s [.mountReplay p] p.sector p.nextLine ∧ p.todo = [] ∧ Free s ∧ r.2.2 = true ∧
    q.unclosed q.tables.head = [] ∧ (withTables s q.tables).firstBlank = none ∧ q.tables.head.isSome = true := by decide

theorem witness_MountBeginsAndEnds_close :
    let v : Unclosed := { sector := 3, lastUsed := 20, frames := 2, highest := 9, faults := 0 }
    let d := LineData.closed 20 2 9 0
    let k := [Task.mountClose v []]
    let b := tablesWith (.blank none) 4
    let w := tablesWith (.blank (some 100000)) 4
    let u := fun (t : LogTables) => withTables (programming k 3 2 d) (t.setRecord 3 (.closed 1 5 0 20 false))
    (Programs (programming k 3 2 d) k 3 2 d ∧ Free (programming k 3 2 d) ∧ (tablesTo 10).record 3 = .closed 1 5 0 20 false ∧
      v.sector = 3) ∧
    (b.record 3 = .closed 1 5 0 20 false ∧ (u b).firstBlank = some 4 ∧ ((u b).record 4).worn = false) ∧
    ((u w).firstBlank = some 4 ∧ ((u w).record 4).worn = true ∧ (u w).contents.generation ≠ 4294967295) := by decide

theorem witness_MountBeginsAndEnds_tidy :
    let e : EraseRec := { sector := 4, background := false, elapsed := 0, suspensions := 0 }
    let k := [Task.formatLine 5 1, .mountSector]
    let s := mounting (programming k 5 0 (.format 9 1))
    let b := tablesWith (.blank none) 4
    let n := { tablesTo 10 with head := none }
    (Erases (erasingFor [.mountErase 4] 4) [.mountErase e.sector] e ∧ (erasingFor [.mountErase 4] 4).seq.halted = false) ∧
    (Programs s k 5 0 (.format 9 1) ∧ Free s ∧ s.engine.store = .mounting) ∧
    ((withTables s (b.freed 5 1)).firstBlank = some 4 ∧ ((withTables s (b.freed 5 1)).record 4).worn = false) ∧
    ((withTables s ((tablesTo 10).freed 5 1)).firstBlank = none ∧ (tablesTo 10).head.isSome = true) ∧
    ((withTables s (n.freed 5 1)).firstBlank = none ∧ n.head = none ∧ (n.freed 5 1).sortFree.free ≠ []) := by decide

/-- R19, R133: S counts the close line of a FREE sector, 90 being the greatest sequence found. -/
theorem test_storeSeq_free : replayed.storeSeq = 91 := by decide

/-- R15: a frame's sequence is 1 to 4,294,967,295 (log 43). -/
theorem test_header_sequence :
    (LineData.frame (.delete 1 0 none)).asHeader = none ∧
    (LineData.frame (.delete 1 4294967295 none)).asHeader = some (.delete 1 4294967295 none) := by decide

theorem witness_SurveyClasses :
    (8 : Seq) ≠ 9 ∧ (Line.defective = .blank ∨ Line.defective = .defective) ∧ (2 ≤ 2 ∧ 2 ≤ 255 ∧ 3 ≤ 3) ∧
    (2 ≤ 255 ∧ 255 ≤ 255 ∧ 0 ≤ 3) := by decide

theorem witness_SurveyClasses_noFormat : ∀ f c, Line.blank ≠ .good (.format f c) := nofun

theorem witness_SurveyClasses_otherKinds :
    (∀ ring q, Line.good (.format 9 1) ≠ .good (.opened 9 ring q)) ∧
    (∀ lu n hi f, Line.good (.format 9 1) = .good (.closed lu n hi f) → ¬ (2 ≤ lu ∧ lu ≤ 255 ∧ f ≤ 3)) :=
  ⟨nofun, nofun⟩

theorem witness_SurveyClasses_badClose :
    ∀ lu n hi f, Line.good (.closed 256 0 0 4) = .good (.closed lu n hi f) → ¬ (2 ≤ lu ∧ lu ≤ 255 ∧ f ≤ 3) := by
  intro lu n hi f h
  injection h with h; injection h with h1 h2 h3 h4; omega

/-- Eight members of transaction 3 with sequences 10 to 17. -/
def members : List Member :=
  (List.range 8).map (fun i => { header := .delete 1 (BitVec.ofNat 32 (10 + i)) (some 3), sector := 2, line := 3 + i })

theorem witness_ReplayAppliesWholeGroups :
    isGroup 3 members = true ∧ members.length ≤ 8 ∧
    members.getLast? = some { header := .delete 1 17 (some 3), sector := 2, line := 10 } ∧
    (FrameHeader.delete 1 17 (some 3)).seq.toNat + 1 = (18 : Seq).toNat ∧ 7 ≠ members.length ∧
    isGroup 3 [] = true := by decide

/-- R130: a key without entry, one of the frame's version or a lower one, and one of a higher. -/
theorem witness_ReplayAppliesWholeGroups_plain :
    let m : Member := { header := .put 1 2 none 16, sector := 2, line := 3 }
    m.header = .put 1 2 none 16 ∧ findEntry directory.entries 2 = none ∧
    (findEntry directory.entries 1 = some entry1 ∧ entry1.version ≤ 1 ∧ entry1.version ≤ 2 ∧ (0 : Seq) < entry1.version) ∧
    (FrameHeader.delete 1 2 none).memberOf = none := by decide

/-- R131: a run of seven, its last with sequence 16; the eighth, a repeated, another transaction's and a ninth member. -/
theorem witness_ReplayAppliesWholeGroups_runs :
    let member := fun (q : Seq) (t : TxnNo) => ({ header := .delete 1 q (some t), sector := 2, line := 3 } : Member)
    (member 17 3).header.memberOf = some 3 ∧ (member 16 3).header.seq.toNat + 1 = (member 17 3).header.seq.toNat ∧
    (members.take 6).length < 7 ∧ (member 16 3).header.seq = (FrameHeader.delete 2 16 (some 3)).seq ∧
    (member 16 4).header.memberOf ≠ some 3 ∧
    ((member 16 3).header.seq ≠ (member 18 3).header.seq ∧ (16 : Seq).toNat + 1 ≠ (18 : Seq).toNat) ∧
    ((member 17 3).header.seq ≠ (member 18 3).header.seq ∧ 7 ≤ (members.take 7).length) := by decide

/-- R132: a COMMIT frame that hits a run of one, and one with another count. -/
theorem witness_ReplayAppliesWholeGroups_commit :
    let last : Member := { header := .delete 1 17 (some 3), sector := 2, line := 10 }
    (last.header.memberOf = some 3 ∧ last.header.seq.toNat + 1 = (18 : Seq).toNat ∧ 1 = ([] : List Member).length + 1) ∧
    2 ≠ ([] : List Member).length + 1 := by decide

/-- R129: at a header position a line of another kind, a one-line frame, a longer one and one that does not fit; inside a frame
its last line and one before it. -/
theorem witness_ReplayAppliesWholeGroups_scan :
    let p := { replayed with pos := 254 }
    (p.cur = none ∧ (LineData.format 9 1).asHeader = none) ∧
    ((LineData.frame (.delete 1 5 none)).asHeader = some (.delete 1 5 none) ∧ 254 + (FrameHeader.delete 1 5 none).lines - 1 ≤ 255 ∧
      (FrameHeader.delete 1 5 none).lines = 1) ∧
    (254 + (FrameHeader.put 1 5 none 16).lines - 1 ≤ 255 ∧ 1 < (FrameHeader.put 1 5 none 16).lines) ∧
    255 < 254 + (FrameHeader.put 1 5 none 17).lines - 1 ∧
    ({ p with cur := some (.put 1 5 none 17, 0) }.cur.isSome = true ∧ 0 + 2 < (FrameHeader.put 1 5 none 17).lines ∧
      (FrameHeader.put 1 5 none 17).lines ≤ 1 + 2) := by decide

theorem witness_ReplayAppliesWholeGroups_stop :
    (noteOf replayed.notes replayed.sector = .unclosed 7 20 0 true) ∧
    (noteOf [(2, .closed 1 20 0 255 3 30 0)] 2 = .closed 1 20 0 255 3 30 0 ∧ 255 ≤ 255) := ⟨rfl, rfl, by decide⟩

/-! ### Witnesses: taking a request -/

theorem witness_NothingTakenEarly :
    let full := asked { ready with queues := { ready.queues with completions := List.replicate 8 (cpl 1 .ok) } } (req 4)
    Instr.next ∈ takings ∧ ready.move = none ∧ ready.queues.requests = [] ∧ (pinned ready true true false).busActive = false ∧
    { ready with queues := { ready.queues with executing := true } }.queues.executing = true ∧
    (inStore .mounting).engine.store = .mounting ∧ (inStore .formatting).engine.store = .formatting ∧
    (full.move = none ∧ 8 ≤ full.queues.completions.length) ∧
    ((reading [.mountOpen] 2 3).move = none ∧ (reading [.mountOpen] 2 3).ctl.stack ≠ []) := by decide

theorem witness_ChainCancels :
    let r := { req 15 with flags := 0x02 }
    let s := asked { ready with queues := { ready.queues with chainBroken := true } } r
    Takes s r ∧ r.chain = true ∧ s.queues.chainBroken = true := by decide

theorem witness_StateTestAnswers :
    (Unchained (asked (inStore .readOnly) (req 1)) (req 1) ∧ (req 1).kind ∉ [(2 : Byte), 4, 9, 10, 11, 14]) ∧
    (Unchained (asked (inStore .unformatted) (req 2)) (req 2) ∧ (req 2).kind ∉ [(9 : Byte), 10, 11, 14]) ∧
    (let s := { inStore .halted with engine := { (inStore .halted).engine with dir := Directory.reset } }
     Unchained (asked s (req 2)) (req 2) ∧ (asked s (req 2)).engine.dir.complete = false) ∧
    (Unchained (asked (inStore .halted) (req 1)) (req 1) ∧ (asked (inStore .halted) (req 1)).engine.dir.complete = true ∧
      (req 1).kind ∉ [(2 : Byte), 4, 9]) := by decide

/-- R100: READY is the state that serves RECLAIM; READ_ONLY turns it away with the FREE count. -/
theorem witness_StateTestAnswers_reclaim :
    let r := { req 8 with param := 2 }
    Unchained (asked (inStore .readOnly) r) r ∧ r.kind ∉ [(2 : Byte), 4, 9, 10, 11, 14] ∧
    (turnedAway (asked (inStore .readOnly) r) r .readOnly).aux = 60 := by decide

theorem witness_FormCheck_reclaim :
    let s := asked ready (req 8)
    Unchained s (req 8) ∧ stateTest s.engine.store s.engine.dir.complete (req 8) = none ∧ (req 8).formOk = false ∧
    (turnedAway s (req 8) .badRequest).aux = 60 := by decide

theorem witness_FormCheck :
    (let s := asked ready { req 4 with param := 0, length := 1 }
     let r := { req 4 with param := 0, length := 1 }
     Unchained s r ∧ stateTest s.engine.store s.engine.dir.complete r = none ∧ r.formOk = false) ∧
    Unchained (asked ready (req 0)) (req 0) ∧ (Unchained (asked ready (req 15)) (req 15) ∧ 14 < (req 15).kind) := by decide

theorem witness_WriteChecks_lockedOut :
    let s := guarded (asked (readyUnder .guarded) (req 3)) false 3 true
    Serves s (req 3) ∧ (s.zoneEntry (zoneOf (req 3).key)).policy ≠ .policyOpen ∧ s.zones[zoneOf (req 3).key].lockout = true := by
  decide

theorem witness_WriteChecks_denied :
    let s := asked (readyUnder .guarded) (putOf 0)
    Serves s (putOf 0) ∧ (s.zoneEntry (zoneOf (putOf 0).key)).policy ≠ .policyOpen ∧
    s.zones[zoneOf (putOf 0).key].lockout = false ∧ s.zones[zoneOf (putOf 0).key].unlocked = false := by decide

theorem witness_WriteChecks_unlocked :
    let s := guarded (asked (readyUnder .guarded) (putOf 0)) true 0 false
    Serves s (putOf 0) ∧ s.zones[zoneOf (putOf 0).key].unlocked = true ∧ s.zones[zoneOf (putOf 0).key].lockout = false := by
  decide

theorem witness_WriteChecks_notFound :
    let r := { req 3 with key := 0x4001 }
    Serves (asked ready r) r ∧ r.kind = 3 ∧ r.inTxn = false ∧ findLive (asked ready r).engine.dir.entries r.key = none := by
  decide

set_option maxRecDepth 4096 in
theorem witness_WriteChecks_exists :
    let r := { putOf 256 with flags := 0x04 }
    Serves (asked ready r) r ∧ r.ifAbsent = true ∧ (findLive (asked ready r).engine.dir.entries r.key).isSome = true := by decide

theorem witness_WriteChecks_mismatch :
    let r := { putOf 0 with flags := 0x08, version := 9 }
    Serves (asked ready r) r ∧ r.ifVersion = true ∧ (findLive (asked ready r).engine.dir.entries r.key).isSome = true := by decide

/-- R50: an expected version of 0, here also against an entry that no run gives version 0. -/
theorem witness_WriteChecks_mismatch_zero :
    let r := { putOf 0 with flags := 0x08, version := 0 }
    let z := { ready with engine := { ready.engine with dir := { directory with entries := [{ entry1 with version := 0 }] } } }
    (Serves (asked ready r) r ∧ r.ifVersion = true ∧ r.version = 0 ∧
      (findLive (asked ready r).engine.dir.entries r.key).isSome = true) ∧
    (Serves (asked z r) r ∧ (findLive z.engine.dir.entries r.key).map (fun p => p.1.version) = some 0) := by decide

theorem witness_WriteChecks_mismatch_absent :
    let r := { putOf 0 with flags := 0x08, key := 2 }
    Serves (asked ready r) r ∧ r.ifVersion = true ∧ findLive (asked ready r).engine.dir.entries r.key = none := by decide

/-- The READY store with an accounted figure that leaves no room for a further line. -/
def crowded : State := { ready with engine := { ready.engine with dir := { directory with accounted := 20000 } } }

theorem witness_WriteChecks_deleteFull :
    let e : Entry := { entry1 with live := some 0 }
    let s := asked { ready with engine := { ready.engine with dir := { directory with entries := [e], accounted := 20000 } } } (req 3)
    Serves s (req 3) ∧ s.writeAccess (zoneOf (req 3).key) = none ∧ findLive s.engine.dir.entries (req 3).key = some (e, 0) ∧
    conditionFails s.engine.dir.entries (req 3).key (req 3).condition = none ∧ s.limit < s.engine.dir.accounted := by decide

/-- The READY store with a directory at its capacity. -/
def packed : State := { ready with engine := { ready.engine with dir := { directory with
  entries := List.replicate 1024 { key := 7, live := none, version := 1, sector := 3, line := 3 } } } }

theorem witness_WriteChecks_full :
    let r := { putOf 0 with key := 2 }
    let s := asked crowded r
    Serves s r ∧ conditionFails s.engine.dir.entries r.key r.condition = none ∧
    ¬ ((s.engine.dir.accounted : Int) + ((putLines r.payload.length : Int) - chargeOf s.engine.dir.entries r.key) ≤ s.limit ∨
      (putLines r.payload.length : Int) - chargeOf s.engine.dir.entries r.key < 0) := by decide

theorem witness_WriteChecks_noRoom :
    let s := asked packed (putOf 0)
    Serves s (putOf 0) ∧ 1024 ≤ s.engine.dir.entries.length ∧
    (s.engine.dir.accounted : Int) + (putLines 0 : Int) ≤ s.limit :=
  ⟨by decide, Nat.le_of_eq (List.length_replicate).symm, by decide⟩

theorem witness_WriteChecks_noRoom_key : findEntry packed.engine.dir.entries (putOf 0).key = none := by
  have h : ∀ n, findEntry (List.replicate n { key := 7, live := none, version := 1, sector := 3, line := 3 }) 1 = none := by
    intro n; induction n with
    | zero => rfl
    | succ n ih => exact ih
  exact h 1024

/-! ### Witnesses: record requests -/

/-- The READY store with the head's last used data line at `lu`. -/
def headTo (lu : Nat) : State := { ready with log := some (tablesTo lu) }

theorem witness_PutAppends :
    let s := asked (headTo 253) (putOf 16)
    let r := putOf 16
    Serves s r ∧ Free s ∧ s.writeAccess (zoneOf r.key) = none ∧ conditionFails s.engine.dir.entries r.key r.condition = none ∧
    s.engine.dir.admission s.limit (writeCharge s.engine.dir.entries r.key (putLines r.payload.length))
      (newEntryOf s.engine.dir.entries r.key) = none ∧
    s.headPos = some (2, 254) ∧ 254 + putLines r.payload.length ≤ 256 := by decide

/-- An append in hand whose only line, line 255 of the head with no sector FREE, is its last attempt. -/
def lastLine (k : List Task) : State :=
  withTables (programming (.append deleteAppend (.programming 2 255 0) :: k) 2 255 (.frame deleteAppend.header))
    { tablesTo 254 with free := [] }

theorem witness_LastAttempt (k : List Task) : ∃ v, LastAttempt (lastLine k) k deleteAppend 2 255 0 v :=
  ⟨_, _, _, 2, 0, 0, 254, 3, 4, ⟨rfl, rfl, rfl, rfl, rfl, (by decide : ready.lineAt 2 255 = .blank)⟩, rfl, by decide, by decide, by decide,
    rfl, by decide, by decide, by decide, rfl, rfl⟩

/-- The header line of a two-line append in hand when PFW# was taken. -/
def haltedLine (k : List Task) : State :=
  let s := haltedSeq (programming (.append putAppend (.programming 2 11 0) :: k) 2 11 (.frame putAppend.header))
  { s with engine := { s.engine with store := .halted } }

theorem witness_NextRefused (k : List Task) : ∃ v, NextRefused (haltedLine k) k putAppend 2 11 0 v :=
  ⟨_, _, ⟨rfl, rfl, rfl, rfl, rfl, (by decide : ready.lineAt 2 11 = .blank)⟩, rfl, by decide, rfl⟩

/-- The store of these states, as the copies' clauses take it (R93). -/
theorem witness_CopyFails (k : List Task) :
    (lastLine k).engine.store = .ready ∧ (haltedLine k).engine.store = .halted := ⟨rfl, rfl⟩

theorem witness_PutAppends_last :
    let k := [Task.append putAppend (.programming 2 11 1), .put (putOf 16)]
    let s := programming k 2 12 (.payload (Vector.replicate 16 0x33))
    Programs (undue s) k 2 12 (.payload (Vector.replicate 16 0x33)) ∧ 1 + 1 = putAppend.header.lines ∧
    s.engine.seq ≠ 4294967295 ∧ limitReached s = false ∧
    Programs (undue (dueIn (atSeq 4294963199 s))) k 2 12 (.payload (Vector.replicate 16 0x33)) := by decide

/-- The append that brings S to its limit, the last before it and the last the statements take. -/
theorem witness_limitReached :
    limitReached (atSeq 4294963198 ready) = false ∧ limitReached (atSeq 4294963199 ready) = true ∧
    limitReached (atSeq 4294967294 ready) = true ∧ (4294967294 : Seq) ≠ 4294967295 ∧ ready.engine.store = .ready := by decide

theorem witness_DeleteAppends :
    let s := asked (headTo 254) (req 3)
    let r := req 3
    Serves s r ∧ Free s ∧ s.writeAccess (zoneOf r.key) = none ∧
    findLive s.engine.dir.entries r.key = some ({ key := 1, live := some 16, version := 1, sector := 2, line := 3 }, 16) ∧
    conditionFails s.engine.dir.entries r.key r.condition = none ∧
    s.engine.dir.admission s.limit (writeCharge s.engine.dir.entries r.key 1) 0 = none ∧
    s.headPos = some (2, 255) ∧ 255 + 1 ≤ 256 := by decide

theorem witness_DeleteAppends_last :
    let k := [Task.append deleteAppend (.programming 2 11 0), .delete (req 3)]
    let s := programming k 2 11 (.frame (.delete 1 5 none))
    Programs (undue s) k 2 11 (.frame (.delete 1 5 none)) ∧ 0 + 1 = deleteAppend.header.lines ∧
    s.engine.seq ≠ 4294967295 ∧ Programs (undue (dueIn (atSeq 4294963199 s))) k 2 11 (.frame (.delete 1 5 none)) := by decide

/-- The READY store with a full head, one FREE sector and the head alone in the ring list. -/
def stuck : State := { ready with log := some { tablesTo 255 with free := [4], ring := [2] } }

theorem witness_StalledPutFull :
    let s := asked stuck (putOf 0)
    let r := putOf 0
    Serves s r ∧ s.engine.store = .ready ∧ s.writeAccess (zoneOf r.key) = none ∧
    conditionFails s.engine.dir.entries r.key r.condition = none ∧
    s.engine.dir.admission s.limit (writeCharge s.engine.dir.entries r.key (putLines r.payload.length))
      (newEntryOf s.engine.dir.entries r.key) = none ∧
    s.needsNewHead (putLines r.payload.length) = true ∧ s.freeCount < 2 ∧ s.comp.stage = .idle ∧ s.comp.stopped = false ∧
    s.tailClosed = false := by decide

/-- The tables of a store at its last FREE sector: sector 2 is the head, full, sectors 3 to 62 are CLOSED and 63 is FREE. -/
def fullTables : LogTables :=
  { sectors := .head 61 0 0 255 3 4 :: (List.range 60).map (fun i => .closed (BitVec.ofNat 32 (i + 1)) 5 0 20 false) ++ [.free 0],
    free := [63], ring := (List.range 60).map (· + 3) ++ [2], head := some 2, nextRing := 62 }

/-- The READY store at its last FREE sector with the given directory entries. -/
def full (es : List Entry) : State :=
  { withTables ready fullTables with engine := { ready.engine with dir := { directory with entries := es } } }

/-- The entry of key 1 located in the tail. -/
def tailEntry : Entry := { entry1 with sector := 3 }

/-- A DEAD entry of key 0 located in the tail. -/
def tailDead : Entry := { key := 0, live := none, version := 1, sector := 3, line := 9 }

/-- A state whose write is stalled, or whose RECLAIM waits, with the no-gain limit recorded. -/
def inJob (s : State) (target : Option Nat) : State :=
  { s with comp := { s.comp with stallMode := target.isNone, reclaimTarget := target, noGainLimit := some 60 } }

theorem witness_StalledPutFull_closedTail :
    let s := asked (full [tailEntry]) (putOf 16)
    let r := putOf 16
    (Serves s r ∧ s.engine.store = .ready ∧ s.writeAccess (zoneOf r.key) = none ∧
      conditionFails s.engine.dir.entries r.key r.condition = none ∧
      s.engine.dir.admission s.limit (writeCharge s.engine.dir.entries r.key (putLines r.payload.length))
        (newEntryOf s.engine.dir.entries r.key) = none ∧
      s.needsNewHead (putLines r.payload.length) = true ∧ s.freeCount < 2 ∧ s.comp.stopped = false) ∧
    (s.comp.stage = .idle ∧ fullTables.ring.head? = some 3 ∧ fullTables.record 3 = .closed 1 5 0 20 false ∧ 0 < s.freeCount) ∧
    (stalling s).comp.noGainLimit = some 60 := by decide

theorem witness_StalledPutFull_admitted_put :
    Admitted (asked (full [tailEntry]) (putOf 16)) (putOf 16) (.put (putOf 16)) (taken (asked (full [tailEntry]) (putOf 16)) (putOf 16)) :=
  .inl ⟨by decide, by decide, by decide, by decide, by decide, rfl, rfl⟩

theorem witness_StalledPutFull_admitted_delete :
    let s := asked (full [tailEntry]) (req 3)
    Admitted s (req 3) (.delete (req 3)) (taken s (req 3)) ∧ Serves s (req 3) ∧ s.needsNewHead 1 = true ∧ s.freeCount < 2 :=
  ⟨.inr (.inl ⟨by decide, by decide, by decide, by decide, by decide, by decide, rfl, rfl⟩), by decide, by decide, by decide⟩

/-- A COMMIT of one staged DELETE, on the store at its last FREE sector. -/
def committing : CommitJob :=
  { request := req 6, number := 3, staged := [{ key := 1, value := none, cond := .always }], placed := [] }

/-- The store at its last FREE sector with that transaction open. -/
def fullOpened : State :=
  { full [tailEntry] with engine := { (full [tailEntry]).engine with
      txn := { openTxn := some { number := 3, staged := committing.staged }, timer := .running 50 0, expired := none } } }

theorem witness_StalledPutFull_admitted_commit :
    let s := asked fullOpened (req 6)
    Admitted s (req 6) (.commit committing)
      { taken s (req 6) with engine := { s.engine with txn := { s.engine.txn with openTxn := none, timer := .stopped } } } ∧
    Serves s (req 6) ∧ s.engine.store = .ready ∧ s.needsNewHead (StalledWrite.commit committing).lines = true ∧ s.freeCount < 2 :=
  ⟨.inr (.inr ⟨by decide, _, rfl, by decide, by decide, by decide, rfl, rfl⟩), by decide, by decide, by decide, by decide⟩

theorem witness_StalledPutFull_fresh : Fresh (.commit committing) ∧ Fresh (.put (putOf 16)) ∧ Fresh (.delete (req 3)) :=
  ⟨⟨rfl, by decide⟩, trivial, trivial⟩

/-- What the victim holds: a LIVE entry, a DEAD one before it, or none. -/
theorem witness_StalledPutFull_entries :
    let s := stalling (taken (asked (full []) (putOf 16)) (putOf 16))
    (locatedEntry [tailEntry] 3 = some tailEntry ∧ tailEntry.live ≠ none) ∧
    (locatedEntry [tailDead, tailEntry] 3 = some tailDead ∧ tailDead.live = none ∧
      locatedEntry (Directory.remove { directory with entries := [tailDead, tailEntry] } 0).entries 3 = some tailEntry) ∧
    (locatedEntry s.engine.dir.entries 3 = none ∧ s.seq.erase = none ∧ Free s ∧ 5 < 100000 ∧
      (fullTables.setRecord 3 (.victim 1 5 0 false)).record 3 = .victim 1 5 0 false) := by decide

theorem witness_StalledPutFull_refused :
    let s := asked (withTables (full [tailEntry]) { fullTables with free := [] }) (putOf 16)
    Serves s (putOf 16) ∧ s.tail = some 3 ∧ s.tailClosed = true ∧ 0 < liveLinesIn s.engine.dir.entries 3 ∧
    s.needsNewHead (liveLinesIn s.engine.dir.entries 3) = true ∧ s.freeCount = 0 := by decide

/-- A round under way when the write stalls: copying, its erase in flight, or finishing. -/
theorem witness_StalledPutFull_stages :
    let s := asked (full [tailEntry]) (putOf 16)
    let c := { s with comp := { s.comp with stage := .copying, victim := some 3, roundStart := some 1 } }
    let e := { s with
      comp := { s.comp with stage := .erasing, victim := some 3, roundStart := some 1 },
      seq := { s.seq with
        state := .erasing, erase := some { sector := 3, background := true, elapsed := 0, suspensions := 0 } } }
    let f := withTables { s with comp := { s.comp with
      stage := .finishing, victim := some 3, roundStart := some 1, eraseOutcome := some true } }
      (fullTables.setRecord 3 (.erasing 1 5 0))
    (Serves c (putOf 16) ∧ c.comp.stage = .copying) ∧ (Serves e (putOf 16) ∧ e.comp.stage = .erasing) ∧
    (Serves f (putOf 16) ∧ f.comp.eraseOutcome = some true ∧ (f.log.map (·.record 3)) = some (.erasing 1 5 0) ∧ Free f) := by
  decide

/-- The copy step's append, one line at line `l` of the head, in hand for the job `k`, sector 3 being the victim. -/
def copyInHand (k : Task) (target : Option Nat) (l : Nat) : State :=
  inJob
    { withTables (programming [.append { deleteAppend with host := false } (.programming 2 l 0), .copyAppend tailEntry, k]
        2 l (.frame deleteAppend.header)) { (tablesTo (l - 1)).setRecord 3 (.victim 1 5 0 false) with free := [63] } with
      comp := { ready.comp with stage := .copying, victim := some 3, roundStart := some 1 } } target

/-- That state once the copy has been placed. -/
def copyPlaced (k : Task) (target : Option Nat) (l : Nat) : State :=
  copyEnded (copyInHand k target l) { deleteAppend with host := false } tailEntry 2 l 0 (.frame deleteAppend.header)

/-- The job `k` waiting for the tail's erase. -/
def erasingInJob (k : Task) (target : Option Nat) : State :=
  inJob { withTables (erasing 0 0) (fullTables.setRecord 3 (.erasing 1 5 0)) with ctl := { stack := [k], reply := none } } target

/-- The tail's format line in hand for the job `k`. -/
def finishingInJob (k : Task) (target : Option Nat) (gains : Nat) : State :=
  let s := withTables (programming [.formatLine 3 6, .finishRound, k] 3 0 (.format 9 6)) (fullTables.setRecord 3 (.erasing 1 5 0))
  inJob { s with comp := { s.comp with stage := .finishing, victim := some 3, roundStart := some 2, noGain := gains } } target

/-- The job of a stalled PUT. -/
def stallTask : Task := .stall (.put (putOf 16))

/-- The job of a RECLAIM with a target of 3. -/
def reclaimTask : Task := .reclaim { req 8 with param := 3 }

/-- A job whose no-gain count is below its limit goes on when its own condition holds. -/
theorem goesOn_of {s : State} {k : Task} (h1 : s.engine.store = .ready) (h2 : s.comp.stopped = false)
    (h3 : s.comp.noGainLimit = some 60) (h4 : s.comp.noGain < 60)
    (h5 : match k with
      | .stall w => s.comp.stallMode = true ∧ s.needsNewHead w.lines = true ∧ s.freeCount < 2
      | .reclaim _ => ∃ n, s.comp.reclaimTarget = some n ∧ s.freeCount < n
      | _ => False) : GoesOn s k := by
  refine ⟨h1, h2, fun l hl => ?_, h5⟩
  have : (60 : Nat) = l := Option.some.inj (h3.symm.trans hl)
  omega

theorem witness_StalledPutFull_copied :
    Programs (copyInHand stallTask none 254) [.append { deleteAppend with host := false } (.programming 2 254 0),
      .copyAppend tailEntry, stallTask] 2 (254 + 0) (.frame deleteAppend.header) ∧ 0 + 1 = deleteAppend.header.lines ∧
    (copyPlaced stallTask none 254).comp.stage = .copying ∧ (copyPlaced stallTask none 254).comp.victim = some 3 := by decide

/-- A media loss's tombstone in hand for the job `k`. -/
def lossInHand (k : Task) (target : Option Nat) (l : Nat) : State :=
  let s := copyInHand k target l
  { s with ctl := { s.ctl with
    stack := [.append { deleteAppend with host := false } (.programming 2 l 0), .lossAppend tailEntry 5, k] } }

/-- That state once the tombstone has been placed. -/
def lossPlaced (k : Task) (target : Option Nat) (l : Nat) : State :=
  lossEnded (lossInHand k target l) { deleteAppend with host := false } tailEntry 5 2 l 0 (.frame deleteAppend.header)

/-- A copy and a tombstone of a job, also with a READ_ONLY cause met and with S about to reach its limit. -/
theorem witness_PlacedInJob :
    let j := { deleteAppend with host := false }
    let c := [Task.append j (.programming 2 254 0), .copyAppend tailEntry, stallTask]
    let l := [Task.append j (.programming 2 254 0), .lossAppend tailEntry 5, reclaimTask]
    let u := copyInHand stallTask none 254
    let v := lossInHand reclaimTask (some 3) 254
    Programs (undue u) c 2 (254 + 0) (.frame j.header) ∧ Programs (undue (dueIn u)) c 2 (254 + 0) (.frame j.header) ∧
    Programs (undue v) l 2 (254 + 0) (.frame j.header) ∧ Programs (undue (dueIn v)) l 2 (254 + 0) (.frame j.header) ∧
    Programs (undue (atSeq 4294963199 v)) l 2 (254 + 0) (.frame j.header) ∧ 0 + 1 = j.header.lines ∧
    u.engine.store = .ready ∧ v.engine.store = .ready ∧ v.engine.seq ≠ 4294967295 ∧
    limitReached v = false ∧ limitReached (atSeq 4294963199 v) = true := by decide

theorem witness_PlacedInJob_goesOn : GoesOn (lossPlaced reclaimTask (some 3) 254) reclaimTask :=
  goesOn_of (by decide) (by decide) (by decide) (by decide) ⟨3, by decide, by decide⟩

/-- The tombstone has left room for the stalled frame. -/
theorem witness_StalledPutFull_loss_fits :
    let j := { deleteAppend with host := false }
    let s := lossInHand stallTask none 11
    Programs s [.append j (.programming 2 11 0), .lossAppend tailEntry 5, stallTask] 2 (11 + 0) (.frame j.header) ∧
    0 + 1 = j.header.lines ∧ (lossPlaced stallTask none 11).needsNewHead 2 = false ∧ Free s ∧ limitReached s = false := by decide

theorem witness_StalledPutFull_copied_goesOn : GoesOn (copyPlaced stallTask none 254) stallTask :=
  goesOn_of (by decide) (by decide) (by decide) (by decide) ⟨by decide, by decide, by decide⟩

/-- The copy has opened a new head in which the stalled frame fits. -/
theorem witness_StalledPutFull_copied_fits :
    let u := copyPlaced stallTask none 11
    u.needsNewHead 2 = false ∧ u.headPos = some (2, 12) ∧ 12 + putLines 16 ≤ 256 ∧ Free (copyInHand stallTask none 11) := by decide

theorem witness_StalledPutFull_erased :
    let e : EraseRec := { sector := 3, background := true, elapsed := 0, suspensions := 0 }
    let s := erasingInJob stallTask none
    WaitsForErase s stallTask e ∧ s.seq.halted = false ∧ s.log = some (fullTables.setRecord 3 (.erasing 1 5 0)) ∧
    (fullTables.setRecord 3 (.erasing 1 5 0)).record 3 = .erasing 1 5 0 ∧ s.contents.generation ≠ 4294967295 ∧
    (s.engine.store ≠ .mounting ∧ s.pins.powered = true ∧ s.resetInProgress = false ∧ s.pins.pfwAsserted = false) := by decide

theorem witness_StalledPutFull_erased_goesOn : GoesOn (erasingInJob stallTask none) stallTask :=
  goesOn_of (by decide) (by decide) (by decide) (by decide) ⟨by decide, by decide, by decide⟩

/-- The round's end: two FREE sectors; or one and the no-gain count at its limit. -/
theorem witness_StalledPutFull_finished :
    let t := fullTables.setRecord 3 (.erasing 1 5 0)
    let s := finishingInJob stallTask none 59
    let n := withTables s { t with free := [] }
    (Programs s [.formatLine 3 6, .finishRound, stallTask] 3 0 (.format 9 6) ∧ s.log = some t ∧ s.engine.store = .ready ∧ Free s ∧
      2 ≤ (roundEnded s t 3 6 (.format 9 6)).freeCount) ∧
    (n.comp.noGainLimit = some 60 ∧ (roundEnded n { t with free := [] } 3 6 (.format 9 6)).freeCount < 2 ∧
      (roundEnded n { t with free := [] } 3 6 (.format 9 6)).needsNewHead 2 = true ∧
      60 ≤ (roundEnded n { t with free := [] } 3 6 (.format 9 6)).comp.noGain) := by decide

/-- The same end without a head: the write opens the next one. -/
theorem witness_StalledPutFull_finished_opens :
    let t := { fullTables.setRecord 3 (.erasing 1 5 0) with head := none }
    let s := withTables (finishingInJob stallTask none 59) t
    let u := roundEnded s t 3 6 (.format 9 6)
    Programs s [.formatLine 3 6, .finishRound, stallTask] 3 0 (.format 9 6) ∧
    u.log.map (fun (q : LogTables) => (q.head, q.free)) = some (none, [63, 3]) := by decide

/-- After that end the stalled frame closes the full head. -/
theorem witness_StalledPutFull_finished_closes :
    let t := fullTables.setRecord 3 (.erasing 1 5 0)
    let u := roundEnded (finishingInJob stallTask none 59) t 3 6 (.format 9 6)
    u.log.map (fun (q : LogTables) => (q.head, q.record 2, q.free)) = some (some 2, .head 61 0 0 255 3 4, [63, 3]) := by decide

theorem witness_StalledPutFull_finished_goesOn :
    GoesOn (roundEnded (withTables (finishingInJob stallTask none 0) { fullTables.setRecord 3 (.erasing 1 5 0) with free := [] })
      { fullTables.setRecord 3 (.erasing 1 5 0) with free := [] } 3 6 (.format 9 6)) stallTask :=
  goesOn_of (by decide) (by decide) (by decide) (by decide) ⟨by decide, by decide, by decide⟩

theorem witness_GetReadsFrame :
    (Serves (asked (readyUnder .readGuarded) (req 2)) (req 2) ∧
      (asked (readyUnder .readGuarded) (req 2)).readAccess (zoneOf (req 2).key) = some .denied) ∧
    (Serves (asked ready { req 2 with key := 2 }) { req 2 with key := 2 } ∧
      findLive (asked ready { req 2 with key := 2 }).engine.dir.entries 2 = none) ∧
    (Serves (asked ready (req 2)) (req 2) ∧ (asked ready (req 2)).readAccess (zoneOf (req 2).key) = none ∧
      findLive (asked ready (req 2)).engine.dir.entries 1 = some (entry1, 16) ∧ (asked ready (req 2)).seq.erase = none) := by
  decide

theorem witness_GetReadsFrame_header :
    let k := [Task.readFrame entry1 0 [], .get (req 2) entry1]
    let s := reading k 2 3
    let g := { s with seq := { s.seq with cells := [(lineAddr 2 3, .good (.frame (.put 1 1 none 16)))] } }
    let z := { entry1 with live := some 0 }
    let kz := [Task.readFrame z 0 [], .get (req 2) z]
    let gz := { reading kz 2 3 with seq := { (reading kz 2 3).seq with
      cells := [(lineAddr 2 3, .good (.frame (.put 1 1 none 0)))] } }
    (Reads s k 2 3 ∧ headerMatches entry1 16 (s.lineAt 2 3) = false) ∧
    (Reads g k 2 3 ∧ headerMatches entry1 16 (g.lineAt 2 3) = true ∧ g.seq.erase = none) ∧
    (Reads gz kz 2 3 ∧ headerMatches z 0 (gz.lineAt 2 3) = true) := by decide

/-- R58: the frame must end at or before line 255, and its fields be the entry's. -/
theorem test_headerMatches :
    let l := fun n => Line.good (.frame (.put 1 1 (some 3) n))
    headerMatches { entry1 with line := 254 } 16 (l 16) = true ∧ headerMatches { entry1 with line := 255 } 16 (l 16) = false ∧
    headerMatches entry1 16 (l 17) = false ∧ headerMatches { entry1 with version := 2 } 16 (l 16) = false ∧
    headerMatches { entry1 with key := 2 } 16 (l 16) = false ∧
    headerMatches entry1 16 (.good (.frame (.delete 1 1 none))) = false := by decide

theorem witness_GetReadsFrame_otherLine :
    (∀ h, LineData.format 9 1 ≠ .frame h) ∧ ∀ b, LineData.format 9 1 ≠ .payload b := ⟨nofun, nofun⟩

theorem witness_GetReadsFrame_payload :
    let k := [Task.readFrame entry1 1 [], .get (req 2) entry1]
    let s := { reading k 2 4 with seq := { (reading k 2 4).seq with
      cells := [(lineAddr 2 4, .good (.payload (Vector.replicate 16 0x33)))] } }
    let e := { entry1 with live := some 17 }
    let ke := [Task.readFrame e 1 [], .get (req 2) e]
    (Reads s k 2 4 ∧ s.lineAt 2 4 = .good (.payload (Vector.replicate 16 0x33)) ∧ putLines 16 ≤ 1 + 1) ∧
    (Reads (reading ke 2 4) ke 2 4 ∧ 1 + 1 < putLines 17) ∧ (reading k 2 4).lineAt 2 4 = .blank := by decide

theorem witness_NextAnswers :
    let s := asked ready { req 4 with key := 0 }
    Serves s { req 4 with key := 0 } ∧
    nextEntry s.engine.dir.entries 0 (fun z => (s.readAccess z).isNone) = some entry1 ∧
    Serves (asked ready (req 4)) (req 4) ∧
    nextEntry (asked ready (req 4)).engine.dir.entries 1 (fun z => ((asked ready (req 4)).readAccess z).isNone) = none := by
  decide

theorem witness_InfoAnswers : Serves (asked ready (req 9)) (req 9) := by decide

/-! ### Witnesses: transactions -/

theorem witness_BeginAndAbandon :
    (Serves (asked ready (req 5)) (req 5) ∧ (asked ready (req 5)).engine.txn.openTxn = none) ∧
    (Serves (asked (opened 0 []) (req 5)) (req 5) ∧ (opened 0 []).engine.txn.openTxn = some { number := 3, staged := [] }) ∧
    Serves (asked (opened 0 []) (req 7)) (req 7) := by decide

theorem witness_NoTransaction :
    let x := { ready with engine := { ready.engine with txn := { ready.engine.txn with expired := some 4 } } }
    (Serves (asked ready (req 7)) (req 7) ∧ (req 7).isTxnRequest = true ∧ (req 7).kind ≠ 5 ∧
      ready.engine.txn.openTxn = none ∧ ready.engine.txn.expired = none) ∧
    (Serves (asked x (req 7)) (req 7) ∧ x.engine.txn.openTxn = none ∧ x.engine.txn.expired = some 4) := by decide

/-- Staged DELETEs of the keys 10 to 10 + n - 1. -/
def stagedOf (n : Nat) : List Staged :=
  (List.range n).map (fun i => { key := BitVec.ofNat 16 (10 + i), value := none, cond := .always })

/-- A PUT of `n` bytes carrying IN_TXN. -/
def inTxnPutOf (n : Nat) : Request := { putOf n with flags := 0x01 }

theorem witness_Staging_put :
    let r := inTxnPutOf 16
    let e : Staged := { key := r.key, value := some r.payload, cond := r.condition }
    Serves (asked (opened 0 (stagedOf 7)) r) r ∧ r.inTxn = true ∧
    (opened 0 (stagedOf 7)).writeAccess (zoneOf r.key) = none ∧
    conditionFails (opened 0 (stagedOf 7)).engine.dir.entries r.key r.condition = none ∧
    ((stageEntry (stagedOf 7) e).length ≤ 8 ∧ stagedBytes (stageEntry (stagedOf 7) e) ≤ 1024) ∧
    8 < (stageEntry (stagedOf 8) e).length := by decide

theorem witness_Staging_checks :
    let r := inTxnPutOf 0
    let g := { opened 0 [] with anchor := (readyUnder .guarded).anchor }
    let a := { r with flags := 0x05 }
    (Serves (asked g r) r ∧ (asked g r).writeAccess (zoneOf r.key) = some .denied) ∧
    (Serves (asked (opened 0 []) a) a ∧ a.ifAbsent = true ∧
      findLive (opened 0 []).engine.dir.entries a.key = some (entry1, 16)) := by decide

theorem witness_Staging_versions :
    let v := { inTxnPutOf 0 with flags := 0x09, version := 9 }
    let d := { req 3 with flags := 0x09, version := 9, key := 2 }
    let p := { v with key := 2 }
    (Serves (asked (opened 0 []) v) v ∧ v.ifVersion = true ∧ entry1.version ≠ v.version) ∧
    (Serves (asked (opened 0 []) p) p ∧ findLive (opened 0 []).engine.dir.entries 2 = none) ∧
    (Serves (asked (opened 0 []) d) d ∧ d.ifVersion = true ∧ d.inTxn = true) := by decide

theorem witness_Staging_versionZero :
    let r := { inTxnPutOf 0 with flags := 0x09, version := 0 }
    Serves (asked (opened 0 []) r) r ∧ r.ifVersion = true ∧ r.version = 0 ∧
    findLive (opened 0 []).engine.dir.entries r.key = some (entry1, 16) := by decide

theorem witness_Staging_delete :
    let r := { req 3 with flags := 0x01 }
    let n := { r with key := 2 }
    (Serves (asked (opened 0 (stagedOf 0)) r) r ∧ (findLive (opened 0 []).engine.dir.entries r.key).isSome = true) ∧
    (Serves (asked (opened 0 []) n) n ∧ findLive (opened 0 []).engine.dir.entries n.key = none) ∧
    ((stagedOf 8).map Staged.key).Nodup := by decide

theorem witness_InTxnGetAnswers :
    let r := { req 2 with flags := 0x01 }
    let p : List Staged := [{ key := 1, value := some [5], cond := .always }]
    let d : List Staged := [{ key := 1, value := none, cond := .always }]
    (Serves (asked (opened 0 p) r) r ∧ r.inTxn = true ∧ (opened 0 p).readAccess (zoneOf r.key) = none) ∧
    (p.find? (fun x => x.key == r.key)).map Staged.value = some (some [5]) ∧
    (d.find? (fun x => x.key == r.key)).map Staged.value = some none ∧
    (Serves (asked (opened 0 []) r) r ∧ findLive (opened 0 []).engine.dir.entries r.key = some (entry1, 16) ∧
      (opened 0 []).seq.erase = none) := by decide

theorem witness_CommitWritesAndApplies :
    (Serves (asked (opened 0 []) (req 6)) (req 6) ∧ (opened 0 []).engine.txn.openTxn = some { number := 3, staged := [] }) ∧
    (Serves (asked (opened 0 (stagedOf 1)) (req 6)) (req 6) ∧
      ((stagedOf 1).find? (fun x => !(opened 0 (stagedOf 1)).recheckPasses x)).isSome = true) := by decide

/-- A COMMIT that passes its recheck and is not admitted: A above L, or no entry left for its new key. -/
theorem witness_CommitWritesAndApplies_full :
    let l : List Staged := [{ key := 2, value := some [], cond := .always }]
    let s := { opened 0 l with engine := { (opened 0 l).engine with dir := crowded.engine.dir } }
    Serves (asked s (req 6)) (req 6) ∧ s.engine.txn.openTxn = some { number := 3, staged := l } ∧
    l.all s.recheckPasses = true ∧ s.limit < 20000 ∧ s.engine.dir.accounted = 20000 ∧ s.engine.dir.overflow = false ∧
    chargeOf s.engine.dir.entries 2 = 0 ∧ putLines 0 = 1 := by decide

theorem witness_CommitWritesAndApplies_noRoom :
    let l : List Staged := [{ key := 1, value := some [], cond := .always }]
    let s := { opened 0 l with engine := { (opened 0 l).engine with dir := packed.engine.dir } }
    Serves (asked s (req 6)) (req 6) ∧ l.all s.recheckPasses = true ∧ (s.engine.dir.accounted : Int) + 1 ≤ s.limit ∧
    s.engine.dir.entries.length = 1024 ∧ findEntry s.engine.dir.entries 1 = none :=
  ⟨by decide, by decide, by decide, List.length_replicate, witness_WriteChecks_noRoom_key⟩

theorem witness_CommitWritesAndApplies_writes :
    let l : List Staged := [{ key := 1, value := none, cond := .always }]
    let s := asked (opened 0 l) (req 6)
    Serves s (req 6) ∧ l.all s.recheckPasses = true ∧ Free s ∧
    s.engine.dir.admission s.limit (commitCharge s.engine.dir.entries l) (commitNewEntries s.engine.dir.entries l) = none ∧
    s.headPos = some (2, 11) ∧ 11 + commitLines l ≤ 256 := by decide

theorem witness_CommitWritesAndApplies_last :
    let c : CommitJob := { request := req 6, number := 3, staged := [{ key := 1, value := none, cond := .always }], placed := [(5, 2, 11)] }
    let j : AppendJob := { header := .commit 6 3 1, value := [], host := true, programmed := true }
    let k := [Task.append j (.programming 2 12 0), .commit c]
    let s := programming k 2 12 (.frame (.commit 6 3 1))
    Programs (undue s) k 2 12 (.frame (.commit 6 3 1)) ∧ 0 + 1 = j.header.lines ∧ c.placed.length = c.staged.length ∧
    s.engine.seq ≠ 4294967295 ∧ Programs (undue (dueIn (atSeq 4294963199 s))) k 2 12 (.frame (.commit 6 3 1)) := by decide

theorem witness_CommitWritesAndApplies_next :
    let l : List Staged := [{ key := 1, value := none, cond := .always }]
    let c : CommitJob := { request := req 6, number := 3, staged := l, placed := [] }
    let j : AppendJob := { header := .delete 1 5 (some 3), value := [], host := true, programmed := false }
    let k := [Task.append j (.programming 2 255 0), .commit c]
    let s := fun x => withTables (programming k 2 x (.frame j.header)) { tablesTo (x - 1) with free := [] }
    let m := [Task.append j (.programming 2 254 0), .commit c]
    (Programs (undue (s 255)) k 2 (255 + 0) (.frame j.header) ∧
      Programs (undue (dueIn (atSeq 4294963199 (s 255)))) k 2 (255 + 0) (.frame j.header) ∧ (s 255).seq.erase = none ∧ 2 ≤ 2 ∧ 2 < 64 ∧
      (tablesTo 254).sectors.length = 62 ∧ (tablesTo 254).head = some 2 ∧ (tablesTo 254).record 2 = .head 2 0 0 254 3 4 ∧
      (s 255).engine.seq ≠ 4294967295 ∧ 0 + 1 = j.header.lines ∧ c.placed.length < c.staged.length ∧
      c.staged[c.placed.length + 1]? = none ∧ 256 < 255 + 0 + 1 + (FrameHeader.commit 6 3 1).lines ∧
      (0 + 1 < 3 ∧ 256 < 255 + 0 + 1 + j.header.lines)) ∧
    (Programs (undue { s 254 with ctl := { stack := m, reply := none } }) m 2 (254 + 0) (.frame j.header) ∧
      254 + 0 + 1 + (FrameHeader.commit 6 3 1).lines ≤ 256 ∧ (s 254).seq.halted = false ∧
      (haltedSeq (s 254)).seq.halted = true ∧ (haltedSeq (s 254)).seq.erase = none) := by decide

/-! ### Witnesses: RECLAIM, zones and FORMAT -/

theorem witness_ReclaimAnswers :
    let r := { req 8 with param := 60 }
    let u := { req 8 with param := 2 }
    (Serves (asked ready r) r ∧ r.param.toNat ≤ (asked ready r).freeCount) ∧
    (Serves (asked stuck u) u ∧ (asked stuck u).freeCount < u.param.toNat ∧ stuck.comp.stage = .idle ∧
      stuck.comp.stopped = false ∧ (asked stuck u).tailClosed = false) := by decide

theorem witness_ReclaimAnswers_closedTail :
    let r := { req 8 with param := 3 }
    let s := asked (full [tailEntry]) r
    let e := asked (withTables (full [tailEntry]) { fullTables with free := [] }) r
    (Serves s r ∧ s.freeCount < r.param.toNat ∧ s.comp.stopped = false ∧ s.comp.stage = .idle ∧
      fullTables.record 3 = .closed 1 5 0 20 false ∧ (reclaiming (taken s r) 3).comp.reclaimTarget = some 3) ∧
    (Serves e r ∧ e.tail = some 3 ∧ e.tailClosed = true ∧ 0 < liveLinesIn e.engine.dir.entries 3 ∧
      e.needsNewHead (liveLinesIn e.engine.dir.entries 3) = true ∧ e.freeCount = 0) := by decide

theorem witness_ReclaimAnswers_copied :
    Programs (copyInHand reclaimTask (some 3) 254) [.append { deleteAppend with host := false } (.programming 2 254 0),
      .copyAppend tailEntry, reclaimTask] 2 (254 + 0) (.frame deleteAppend.header) ∧
    (copyPlaced reclaimTask (some 3) 254).comp.stage = .copying := by decide

theorem witness_ReclaimAnswers_copied_goesOn : GoesOn (copyPlaced reclaimTask (some 3) 254) reclaimTask :=
  goesOn_of (by decide) (by decide) (by decide) (by decide) ⟨3, by decide, by decide⟩

theorem witness_ReclaimAnswers_erased :
    let e : EraseRec := { sector := 3, background := true, elapsed := 0, suspensions := 0 }
    WaitsForErase (erasingInJob reclaimTask (some 3)) reclaimTask e ∧ (erasingInJob reclaimTask (some 3)).seq.halted = false := by
  decide

theorem witness_ReclaimAnswers_erased_goesOn : GoesOn (erasingInJob reclaimTask (some 3)) reclaimTask :=
  goesOn_of (by decide) (by decide) (by decide) (by decide) ⟨3, by decide, by decide⟩

/-- The round meets a target of 2 and not one of 3. -/
theorem witness_ReclaimAnswers_finished :
    let t := fullTables.setRecord 3 (.erasing 1 5 0)
    let s := fun n => finishingInJob reclaimTask (some n) 59
    let u := fun n => roundEnded (s n) t 3 6 (.format 9 6)
    (Programs (s 3) [.formatLine 3 6, .finishRound, reclaimTask] 3 0 (.format 9 6) ∧ (s 3).log = some t ∧
      (s 3).engine.store = .ready ∧ (s 2).comp.reclaimTarget = some 2 ∧ 2 ≤ (u 2).freeCount) ∧
    ((s 3).comp.noGainLimit = some 60 ∧ (u 3).freeCount < 3 ∧ 60 ≤ (u 3).comp.noGain) := by decide

theorem witness_ReclaimAnswers_finished_goesOn :
    GoesOn (roundEnded (finishingInJob reclaimTask (some 3) 0) (fullTables.setRecord 3 (.erasing 1 5 0)) 3 6 (.format 9 6)) reclaimTask :=
  goesOn_of (by decide) (by decide) (by decide) (by decide) ⟨3, by decide, by decide⟩

theorem witness_UnlockTable :
    let g := readyUnder .guarded
    (Serves (asked ready (codeOf 10 1)) (codeOf 10 1) ∧ ready.contents.zones[(0 : Fin 4)].policy = .policyOpen) ∧
    (Serves (asked (guarded g false 3 true) (codeOf 10 0)) (codeOf 10 0) ∧
      g.contents.zones[(0 : Fin 4)].policy ≠ .policyOpen ∧ (guarded g false 3 true).zones[(0 : Fin 4)].lockout = true) ∧
    ((codeOf 10 0).payload = g.contents.zones[(0 : Fin 4)].code ∧ (codeOf 10 1).payload ≠ g.contents.zones[(0 : Fin 4)].code) ∧
    ((guarded g false 1 false).zones[(0 : Fin 4)].failed + 1 < 3 ∧ 3 ≤ (guarded g false 2 false).zones[(0 : Fin 4)].failed + 1) := by
  decide

theorem witness_LockZone :
    let g := guarded (readyUnder .readGuarded) true 0 false
    Serves (asked g (req 11)) (req 11) ∧ (0 : Fin 4).val = (req 11).param.toNat ∧
    g.contents.zones[(0 : Fin 4)].policy ≠ .policyOpen ∧ g.contents.zones[(0 : Fin 4)].policy = .readGuarded := by decide

theorem witness_LockZone_commit :
    let e : Staged := { key := 1, value := none, cond := .always }
    let s := asked { opened 0 [e] with anchor := (readyUnder .guarded).anchor } (req 6)
    Serves s (req 6) ∧ s.engine.txn.openTxn = some { number := 3, staged := [e] } ∧
    s.contents.zones[zoneOf e.key].policy ≠ .policyOpen ∧ s.zones[zoneOf e.key].unlocked = false := by decide

theorem witness_ZoneChanges_answers :
    let b := { req 13 with key := 3 }
    let g := asked (readyUnder .guarded) (codeOf 12 0)
    (Serves (asked ready b) b ∧ 2 < b.key.toNat) ∧ (Serves g (codeOf 12 0) ∧ g.writeAccess 0 = some .denied) := by decide

theorem witness_ZoneChanges_same :
    let p := { req 13 with key := 0 }
    (Serves (asked ready (codeOf 12 0)) (codeOf 12 0) ∧ (codeOf 12 0).payload = ready.contents.zones[(0 : Fin 4)].code) ∧
    (Serves (asked ready p) p ∧ policyOfKey p.key = some ready.contents.zones[(0 : Fin 4)].policy) := by decide

theorem witness_ZoneChanges_writes :
    let s := { asked ready (codeOf 12 1) with anchor := { ready.anchor with writePos := some (0, 41) } }
    let p := { req 13 with key := 2 }
    (Serves s (codeOf 12 1) ∧ s.writeAccess 0 = none ∧ Free s ∧ s.anchor.writePos = some (0, 41) ∧ 41 < 42 ∧
      s.contents.generation ≠ 4294967295 ∧ (codeOf 12 1).payload ≠ s.contents.zones[(0 : Fin 4)].code) ∧
    (Serves (asked ready p) p ∧ policyOfKey p.key = some .readGuarded ∧
      Policy.readGuarded ≠ ready.contents.zones[(0 : Fin 4)].policy) := by decide

theorem witness_ZoneChanges_place :
    let f := { asked ready (codeOf 12 1) with anchor := { ready.anchor with writePos := some (0, 42) } }
    let n := { f with anchor := { ready.anchor with writePos := none } }
    (Serves f (codeOf 12 1) ∧ Free f ∧ f.anchor.writePos = some (0, 42)) ∧
    (Serves n (codeOf 12 1) ∧ Free n ∧ n.anchor.writePos = none) := by decide

theorem witness_ZoneChanges_lines :
    let a := anchorOf .guarded
    let k := fun b => [Task.anchorWrite a b (.line 0 1 4), .setZone (codeOf 12 1)]
    let p := fun b => programming (k b) 0 10 (.anchor a 4)
    let n := holding (p false) [(lineAddr 0 10, .defective)]
    (Waits (p false) (k false) 0 (6 * 1 + 4) (.anchor a 4) ∧ Free (p false) ∧ (p false).lineAt 0 10 = .blank ∧ 4 < 5) ∧
    (Waits n (k false) 0 (6 * 1 + 4) (.anchor a 4) ∧ n.lineAt 0 (6 * 1 + 4) ≠ .blank) ∧
    (Programs (p true) (k true) 0 (6 * 1 + 4) (.anchor a 4) ∧ (p true).engine.store ≠ .mounting) ∧
    ((haltedSeq (p true)).seq.halted = true ∧ (haltedSeq (p true)).seq.erase = none) := by decide

theorem witness_ZoneChanges_erase :
    let e : EraseRec := { sector := 1, background := false, elapsed := 0, suspensions := 0 }
    let k := [Task.anchorWrite (anchorOf .guarded) false (.erasing 1), .setZone (codeOf 12 1)]
    let s := erasingFor k 1
    Erases s k e ∧ s.seq.halted = false ∧ s.engine.store ≠ .mounting ∧
    (s.pins.powered = true ∧ s.resetInProgress = false ∧ s.pins.pfwAsserted = false) := by decide

theorem witness_ZoneChanges_generation :
    let a := { anchorOf .policyOpen with generation := 4294967295 }
    let s := asked { ready with anchor := { ready.anchor with working := some a } } (codeOf 12 1)
    Serves s (codeOf 12 1) ∧ s.writeAccess 0 = none ∧ Free s ∧ s.contents.generation = 4294967295 := by decide

theorem witness_ZoneChanges_secondNotBlank :
    let a := anchorOf .guarded
    let k := [Task.anchorWrite a true (.line 0 1 4), .setZone (codeOf 12 1)]
    let s := holding (programming k 0 10 (.anchor a 4)) [(lineAddr 0 10, .defective)]
    Waits s k 0 (6 * 1 + 4) (.anchor a 4) ∧ s.engine.store ≠ .mounting ∧ s.lineAt 0 (6 * 1 + 4) ≠ .blank := by decide

theorem witness_ZoneChanges_last :
    let k := [Task.anchorWrite (anchorOf .guarded) false (.line 0 1 5), .setZone (codeOf 12 1)]
    Programs (programming k 0 11 (.anchor (anchorOf .guarded) 5)) k 0 (6 * 1 + 5) (.anchor (anchorOf .guarded) 5) := by decide

theorem witness_FormatTaken :
    let l := guarded (readyUnder .guarded) false 3 true
    (Serves (asked l (req 14)) (req 14) ∧ l.contents.zones[(0 : Fin 4)].policy ≠ .policyOpen ∧
      l.zones[(0 : Fin 4)].unlocked = false ∧ l.zones[(0 : Fin 4)].lockout = true) ∧
    (Serves (asked (readyUnder .guarded) (req 14)) (req 14) ∧
      ∀ z : Fin 4, (readyUnder .guarded).zones[z].unlocked = false ∧ (readyUnder .guarded).zones[z].lockout = false) ∧
    (Serves (asked ready (req 14)) (req 14) ∧ (∀ z : Fin 4, ready.contents.zones[z].policy = .policyOpen) ∧
      Free (asked ready (req 14)) ∧ ready.anchor.writePos = some (0, 1) ∧ 1 < 42 ∧
      ready.contents.generation ≠ 4294967295) := by decide

/-- The READY store during FORMAT, with one sector's record changed. -/
def formatting (s : State) (r : SectorRec) (x : Nat) : State :=
  { s with engine := { s.engine with store := .formatting }, log := some ((tablesTo 10).setRecord x r) }

theorem witness_FormatTaken_anchor :
    let a := anchorOf .policyOpen
    let k := fun b part => [Task.anchorWrite a b (.line 0 1 part), .formatAnchor (req 14)]
    let p := fun b part => programming (k b part) 0 (6 + part) (.anchor a part)
    let s := formatting (p false 5) (.blank none) 4
    let u := withTables s (freshTables a.retired (fun y => ((tablesTo 10).record y).eraseCount))
    (Programs s (k false 5) 0 (6 * 1 + 5) (.anchor a 5) ∧ s.seq.erase = none ∧ s.anchor.working = some a ∧
      poolSectors.filter (fun y => !a.retired.contains y && (s.record y).eraseCount.isNone) = [4]) ∧
    (poolSectors.filter (fun y => !a.retired.contains y && ((p false 5).record y).eraseCount.isNone) = [] ∧
      (p false 5).seq.halted = false ∧ u.firstBlank = some 2 ∧ (u.record 2).worn = false) ∧
    Programs (formatting (p true 4) (.blank none) 4) (k true 4) 0 (6 * 1 + 4) (.anchor a 4) ∧
    (haltedSeq (p false 4)).seq.halted = true := by decide

theorem witness_FormatTaken_read :
    let k := fun todo => [Task.formatRead (req 14) 4 todo]
    let s := fun todo => formatting (reading (k todo) 4 0) (.blank none) 4
    (Reads (s [5]) (k [5]) 4 0 ∧ (s [5]).seq.erase = none ∧ (s [5]).log = some (tablesWith (.blank none) 4)) ∧
    (Reads (s []) (k []) 4 0 ∧ (s []).seq.halted = false ∧ (s []).lineAt 4 0 = .blank ∧ (s []).firstBlank = some 4 ∧
      ((s []).record 4).worn = false) := by decide

theorem witness_FormatTaken_erase :
    let k := [Task.formatErase (req 14) 4]
    let e : EraseRec := { sector := 4, background := false, elapsed := 0, suspensions := 0 }
    let s := formatting (erasingFor k 4) (.blank none) 4
    Erases s k e ∧ s.seq.halted = false ∧ s.contents.generation ≠ 4294967295 ∧ s.engine.store = .formatting ∧
    s.pins.powered = true ∧ s.resetInProgress = false ∧ s.pins.pfwAsserted = false := by decide

theorem witness_FormatTaken_sector :
    let k := [Task.formatLine 5 1, .formatSector (req 14)]
    let s := fun r => formatting (programming k 5 0 (.format 9 1)) r 4
    let u := fun r => withTables (s r) ((tablesWith r 4).freed 5 1)
    (Programs (s (.blank none)) k 5 0 (.format 9 1) ∧ (s (.blank none)).seq.erase = none ∧
      (s (.blank none)).seq.halted = false ∧ (u (.blank none)).firstBlank = some 4 ∧ ((u (.blank none)).record 4).worn = false) ∧
    ((u (.blank (some 100000))).firstBlank = some 4 ∧ ((u (.blank (some 100000))).record 4).worn = true ∧
      (s (.free 0)).contents.generation ≠ 4294967295) ∧
    (haltedSeq (s (.blank none))).seq.halted = true ∧
    ((u (.free 0)).firstBlank = none ∧ ((tablesWith (.free 0) 4).freed 5 1).free ≠ []) := by decide

theorem witness_FormatTaken_end :
    let k := [Task.openHead 4 1, .formatOpen (req 14)]
    let s := formatting (programming k 4 1 (.opened 9 1 1)) (.free 1) 4
    Programs s k 4 1 (.opened 9 1 1) ∧ s.engine.store = .formatting ∧
    { s with engine := { s.engine with store := .halted } }.engine.store = .halted := by decide

/-! ### Witnesses: compaction -/

/-- The READY store in the COPYING stage on sector 3 with the FREE count below W. -/
def copying (es : List Entry) : State :=
  { ready with
    log := some { tablesTo 10 with
      sectors := .head 2 0 0 10 3 4 :: .victim 1 99999 0 false :: List.replicate 60 (.free 0), free := [4, 5, 6] },
    engine := { ready.engine with dir := { directory with entries := es } },
    comp := { ready.comp with stage := .copying, victim := some 3, roundStart := some 3 } }

theorem witness_CompactionSteps_select :
    let s := { ready with log := some { tablesTo 10 with free := [4, 5, 6] } }
    s.busActive = true ∧ s.ctl = { stack := [], reply := none } ∧ s.canTake = false ∧ s.asksForStep = true ∧
    s.engine.readOnlyDue = false ∧ s.seq.pending = none ∧ s.comp.stage = .idle ∧
    ({ tablesTo 10 with free := [4, 5, 6] } : LogTables).ring.head? = some 3 ∧
    (tablesTo 10).record 3 = .closed 1 5 0 20 false ∧ s.needsNewHead (liveLinesIn s.engine.dir.entries 3) = false := by decide

theorem witness_CompactionSteps_refused :
    let m := { ready with log := some { tablesTo 10 with ring := [2], free := [4, 5, 6] } }
    let e := { entry1 with sector := 3 }
    let s := { ready with
      log := some { tablesTo 255 with free := [] },
      engine := { ready.engine with dir := { directory with entries := [e] } } }
    (m.ctl = { stack := [], reply := none } ∧ m.seq.pending = none ∧ m.comp.stage = .idle ∧ m.tailClosed = false ∧
      m.engine.readOnlyDue = false) ∧
    (s.asksForStep = true ∧ s.canTake = false ∧ s.comp.stage = .idle ∧ s.tail = some 3 ∧ s.tailClosed = true ∧
      0 < liveLinesIn s.engine.dir.entries 3 ∧ s.needsNewHead (liveLinesIn s.engine.dir.entries 3) = true ∧
      s.freeCount = 0) := by decide

/-- No step is asked for, a request can be taken, or the part is held in reset; and each stage's commands in another. -/
theorem witness_CompactionSteps_none :
    (ready.ctl = { stack := [], reply := none } ∧ ready.seq.pending = none ∧ ready.busActive = true ∧ ready.asksForStep = false) ∧
    (asked ready (req 2)).canTake = true ∧ (pinned ready true true false).busActive = false ∧
    (ready.comp.stage ≠ .copying ∧ ready.comp.stage ≠ .finishing ∧ (copying []).comp.stage ≠ .idle) := by decide

/-- R89, log 40: no head, no FREE sector and no LIVE entry in the tail. -/
theorem witness_CompactionSteps_noHead :
    let t := { tablesTo 10 with head := none, free := [], ring := [3] }
    let s := withTables ready t
    s.asksForStep = true ∧ s.canTake = false ∧ s.comp.stage = .idle ∧ t.ring.head? = some 3 ∧
    t.record 3 = .closed 1 5 0 20 false ∧ s.needsNewHead (liveLinesIn s.engine.dir.entries 3) = true ∧ s.freeCount = 0 ∧
    liveLinesIn s.engine.dir.entries 3 = 0 := by decide

theorem witness_CompactionSteps_retire :
    let w := withTables (copying []) ((tablesTo 10).setRecord 3 (.victim 1 100000 0 false))
    let c := withTables (copying []) { (tablesTo 10).setRecord 3 (.victim 1 5 3 true) with free := [4] }
    let f := { ready with comp := { ready.comp with stage := .finishing, victim := some 3, roundStart := some 60, eraseOutcome := some false } }
    (Free w ∧ locatedEntry w.engine.dir.entries 3 = none ∧ w.record 3 = .victim 1 100000 0 false ∧ 100000 ≤ 100000 ∧
      w.contents.generation ≠ 4294967295) ∧
    (c.asksForStep = true ∧ c.canTake = false ∧ c.record 3 = .victim 1 5 3 true) ∧
    (f.asksForStep = true ∧ f.canTake = false ∧ f.comp.stage = .finishing ∧ f.comp.eraseOutcome = some false ∧ Free f) := by
  decide

theorem witness_CompactionSteps_frame :
    let e := { entry1 with sector := 3 }
    let z := { e with live := some 0 }
    let k := fun (e : Entry) i => [Task.readFrame e i [], .copyRead e]
    let g := holding (reading (k z 0) 3 3) [(lineAddr 3 3, .good (.frame (.put 1 1 none 0)))]
    let p := holding (reading (k e 1) 3 4) [(lineAddr 3 4, .good (.payload zeros))]
    (Reads g (k z 0) z.sector (z.line + 0) ∧ Free g ∧ z.live = some 0 ∧ headerMatches z 0 (g.lineAt 3 3) = true ∧
      g.headPos = some (2, 11) ∧ 11 + putLines 0 ≤ 256) ∧
    (Reads p (k e 1) e.sector (e.line + 1) ∧ putLines 16 ≤ 1 + 1 ∧ p.lineAt 3 4 = .good (.payload zeros)) ∧
    (Reads (reading (k e 0) 3 3) (k e 0) e.sector (e.line + 0) ∧ headerMatches e 16 ((reading (k e 0) 3 3).lineAt 3 3) = false) ∧
    (reading (k e 1) 3 4).lineAt 3 4 = .blank := by decide

theorem witness_CompactionSteps_appended :
    let j := { deleteAppend with host := false }
    let k := [Task.append j (.programming 2 11 0), .copyAppend { entry1 with sector := 3 }]
    let l := [Task.append j (.programming 2 11 0), .lossAppend { entry1 with sector := 3 } 5]
    let s := fun k => programming k 2 11 (.frame j.header)
    Programs (undue (s k)) k 2 (11 + 0) (.frame j.header) ∧ 0 + 1 = j.header.lines ∧
    Programs (undue (s l)) l 2 (11 + 0) (.frame j.header) ∧ (s l).engine.seq ≠ 4294967295 ∧
    Programs (undue (dueIn (s k))) k 2 (11 + 0) (.frame j.header) ∧
    Programs (undue (dueIn (atSeq 4294963199 (s l)))) l 2 (11 + 0) (.frame j.header) := by decide

theorem witness_CompactionSteps_copy :
    let e := { entry1 with sector := 3 }
    let d := { e with live := none }
    (copying [e]).asksForStep = true ∧ (copying [e]).canTake = false ∧ (copying [e]).comp.stage = .copying ∧
    (copying [e]).comp.victim = some 3 ∧ locatedEntry (copying [e]).engine.dir.entries 3 = some e ∧ e.live ≠ none ∧
    (copying [e]).seq.erase = none ∧
    ((copying [d]).asksForStep = true ∧ locatedEntry (copying [d]).engine.dir.entries 3 = some d ∧ d.live = none) := by decide

theorem witness_CompactionSteps_erase :
    (copying []).asksForStep = true ∧ (copying []).canTake = false ∧ locatedEntry (copying []).engine.dir.entries 3 = none ∧
    (copying []).log.map (fun t => t.record 3) = some (.victim 1 99999 0 false) ∧ 99999 < 100000 ∧ Free (copying []) := by
  decide

theorem witness_CompactionSteps_finish :
    let s := { ready with
      log := some { tablesTo 10 with sectors := .head 2 0 0 10 3 4 :: .erasing 1 5 0 :: List.replicate 60 (.free 0) },
      comp := { ready.comp with stage := .finishing, victim := some 3, roundStart := some 60, eraseOutcome := some true } }
    s.asksForStep = true ∧ s.canTake = false ∧ s.comp.stage = .finishing ∧ s.comp.eraseOutcome = some true ∧
    s.log.map (fun t => t.record 3) = some (.erasing 1 5 0) ∧ Free s := by decide

theorem witness_FinishingFrees :
    let k := [Task.formatLine 3 6, .finishRound]
    Programs (programming k 3 0 (.format 9 6)) k 3 0 (.format 9 6) ∧
    (programming k 3 0 (.format 9 6)).log = some (tablesTo 10) := by decide

theorem witness_FinishingFrees_retired :
    let a := anchorOf .policyOpen
    let k := fun b part => [Task.anchorWrite a b (.line 0 1 part), .retire 3, .finishRound]
    let p := fun b part => programming (k b part) 0 (6 + part) (.anchor a part)
    Programs (p false 5) (k false 5) 0 (6 * 1 + 5) (.anchor a 5) ∧ (p false 5).log = some (tablesTo 10) ∧
    (p false 5).engine.store ≠ .mounting ∧ Programs (p true 0) (k true 0) 0 (6 * 1 + 0) (.anchor a 0) := by decide

/-! ### Witnesses: the array sequencer -/

theorem witness_LineOperations_issue :
    let op := LineOp.program 2 11 (.payload zeros)
    ({ ready with seq := { ready.seq with halted := true } }.seq.halted = true ∧ op.isProgram = true) ∧
    ((erasing 0 0).seq.halted = false ∧ (LineOp.read 3 0).sector = 3 ∧ op.sector ≠ 3) ∧
    ((erasing 0 7).seq.state = .erasing ∧ 7 < 8) ∧ ((erasing 0 8).seq.erase.map EraseRec.suspensions = some 8 ∧ 8 ≤ 8) ∧
    ready.seq.erase = none := by decide

theorem witness_LineOperations_end :
    let p := programming [] 2 11 (.payload zeros)
    let s := { p with seq := { p.seq with delivers := false } }
    let n := { s with seq := { s.seq with cells := [(lineAddr 2 11, .defective)] } }
    let r := { reading [] 2 3 with seq := { (reading [] 2 3).seq with delivers := false } }
    (s.ctl = { stack := [], reply := none } ∧ s.seq.pending = none ∧ s.seq.delivers = false ∧
      s.seq.inHand = some (.program 2 11 (.payload zeros)) ∧ s.arrayWf = true ∧ s.lineAt 2 11 = .blank) ∧
    (n.arrayWf = true ∧ n.lineAt 2 11 ≠ .blank) ∧ (r.seq.delivers = false ∧ r.seq.inHand = some (.read 2 3)) := by decide

theorem witness_LineOperations_erases :
    let h := haltedSeq { ready with comp := { ready.comp with stage := .erasing, victim := some 3 } }
    let p := { ready with seq := { ready.seq with pending := some { sector := 4, background := false } } }
    (h.seq.halted = true ∧ h.comp.stage = .erasing ∧ h.ctl.stack = []) ∧
    (ready.seq.halted = false ∧ ready.seq.erase = none) ∧
    ((erasing 0 0).seq.halted = false ∧ (erasing 0 0).seq.erase ≠ none ∧ (erasing 0 0).seq.pending = none) ∧
    (p.seq.pending = some { sector := 4, background := false } ∧ p.seq.erase = none ∧ p.seq.inHand = none ∧ p.seq.waiting = none ∧
      (haltedSeq p).seq.halted = true) ∧
    { erasing 0 0 with seq := { (erasing 0 0).seq with pending := p.seq.pending } }.seq.erase ≠ none := by decide

theorem witness_LineOperations_served :
    let op := LineOp.program 2 11 (.payload zeros)
    let k := [Task.append putAppend (.programming 2 11 1), .put (putOf 16)]
    let s := { erasing 0 8 with
      ctl := { stack := k, reply := none }, seq := { (erasing 0 8).seq with waiting := some op } }
    let e : EraseRec := { sector := 3, background := true, elapsed := 0, suspensions := 8 }
    (s.seq.waiting = some op ∧ (haltedSeq s).seq.halted = true ∧ op.isProgram = true) ∧
    (s.seq.erase = some e ∧ e.background = true ∧ s.seq.state = .erasing ∧ s.seq.halted = false ∧ s.seq.inHand = none ∧
      s.comp.stage = .erasing ∧ k.head? = some (.append putAppend (.programming 2 11 1))) := by decide

/-- A round ended by FORMAT leaves its erase in flight, and FORMAT's own erase waits behind it. -/
theorem witness_LineOperations_pending :
    let k := [Task.formatErase (req 14) 3]
    let s := { erasing 0 0 with
      ctl := { stack := k, reply := none }, comp := { ready.comp with stage := .idle },
      seq := { (erasing 0 0).seq with pending := some { sector := 3, background := false } } }
    s.seq.erase = some { sector := 3, background := true, elapsed := 0, suspensions := 0 } ∧ s.seq.waiting = none ∧
    s.seq.pending = some { sector := 3, background := false } ∧ s.comp.stage ≠ .erasing ∧ s.seq.halted = false ∧
    s.seq.inHand = none ∧ k.head? = some (.formatErase (req 14) 3) := by decide

theorem witness_LineOperations_noJob (w : StalledWrite) (r : Request) :
    [Task.formatErase (req 14) 3].head? ≠ some (.stall w) ∧ [Task.formatErase (req 14) 3].head? ≠ some (.reclaim r) :=
  ⟨nofun, nofun⟩

theorem witness_AppendAfterEachLine :
    let k := [Task.append putAppend (.programming 2 253 0), .put (putOf 16)]
    let s := { programming k 2 253 (.frame putAppend.header) with log := some (tablesTo 252) }
    let c := { s with log := some { tablesTo 252 with
      sectors := .head 2 0 2 252 3 4 :: (tablesTo 252).sectors.tail } }
    (Programs s k 2 (253 + 0) (.frame putAppend.header) ∧ Free s ∧ s.log = some (tablesTo 252) ∧ 2 ≤ 2 ∧ 2 < 64 ∧
      (tablesTo 252).sectors.length = 62 ∧ (tablesTo 252).head = some 2 ∧ (tablesTo 252).record 2 = .head 2 0 0 252 3 4) ∧
    0 + 1 < putAppend.header.lines ∧ (0 + 1 < 3 ∧ 253 + 0 + 1 + putAppend.header.lines ≤ 256) ∧
    (Programs c k 2 (253 + 0) (.frame putAppend.header) ∧ c.log.map (fun t => t.record 2) = some (.head 2 0 2 252 3 4) ∧
      2 + 1 = 3) := by decide

theorem witness_AppendAfterEachLine_first :
    let s := asked (headTo 254) (putOf 16)
    let n := asked (withTables ready { tablesTo 10 with head := none }) (putOf 16)
    let r := putOf 16
    (Serves s r ∧ Free s ∧ s.writeAccess (zoneOf r.key) = none ∧ conditionFails s.engine.dir.entries r.key r.condition = none ∧
      s.engine.dir.admission s.limit (writeCharge s.engine.dir.entries r.key (putLines r.payload.length))
        (newEntryOf s.engine.dir.entries r.key) = none ∧
      2 ≤ (tablesTo 254).free.length ∧ (tablesTo 254).record 2 = .head 2 0 0 254 3 4 ∧
      256 < 254 + 1 + (FrameHeader.put r.key s.engine.seq none r.payload.length).lines) ∧
    (Serves n r ∧ Free n ∧ (n.log.map LogTables.head) = some none ∧ (tablesTo 10).free ≠ []) := by decide

theorem witness_AppendAfterEachLine_rewrite :
    let k := [Task.append putAppend (.programming 2 254 0), .put (putOf 16)]
    let s := withTables (programming k 2 254 (.frame putAppend.header)) (tablesTo 253)
    let b := holding s [(lineAddr 2 254, .defective)]
    (Waits s k 2 (254 + 0) (.frame putAppend.header) ∧ Free s ∧ s.lineAt 2 (254 + 0) = .blank ∧ 0 + 1 < 3 ∧
      256 < 254 + 0 + 1 + putAppend.header.lines ∧ (tablesTo 253).free ≠ []) ∧
    (Waits b k 2 (254 + 0) (.frame putAppend.header) ∧ b.lineAt 2 (254 + 0) ≠ .blank) := by decide

theorem witness_AppendAfterEachLine_newHead :
    let c := [Task.closeHead 2, .append putAppend .closingForRoom, .put (putOf 16)]
    let o := [Task.openHead 4 3, .append putAppend .opening, .put (putOf 16)]
    let a := anchorOf .policyOpen
    let r := [Task.anchorWrite a false (.line 0 1 5), .retire 4, .openRetry, .append putAppend .opening, .put (putOf 16)]
    (Programs (programming c 2 2 (.closed 10 3 4 0)) c 2 2 (.closed 10 3 4 0) ∧ Free ready ∧
      (tablesTo 10).head = some 2 ∧ (tablesTo 10).record 2 = .head 2 0 0 10 3 4 ∧ (tablesTo 10).free ≠ []) ∧
    (Programs (programming o 4 1 (.opened 9 3 5)) o 4 1 (.opened 9 3 5) ∧ (tablesTo 10).record 4 = .free 0 ∧
      3 + putAppend.header.lines ≤ 256 ∧ ready.contents.generation ≠ 4294967295) ∧
    (Programs (programming r 0 11 (.anchor a 5)) r 0 (6 * 1 + 5) (.anchor a 5) ∧
      (tablesTo 10).free.filter (· != 4) ≠ [] ∧ 8 ≤ ((tablesTo 10).setRecord 4 .retired).usable) := by decide

theorem witness_EraseEnds :
    (erasing 200 8).ctl = { stack := [], reply := none } ∧ (erasing 200 8).seq.pending = none ∧
    (erasing 200 8).seq.waiting = none ∧ (erasing 200 8).seq.state = .erasing ∧
    (erasing 200 8).seq.erase = some { sector := 3, background := true, elapsed := 200, suspensions := 8 } ∧
    (erasing 200 8).comp.stage = .erasing := by decide

theorem witness_IdleTimerExpires :
    (opened 49 []).engine.txn.timer = .running 50 49 ∧ (opened 49 []).engine.txn.openTxn = some { number := 3, staged := [] } := by
  decide

theorem witness_IdleTimerExpires_stopped : ∀ l e, ready.engine.txn.timer ≠ .running l e := by
  intro l e h; exact nomatch (h : IdleTimer.stopped = .running l e)

theorem witness_OwnLoss :
    let s := { ready with seq := { ready.seq with cells := [(lineAddr 63 255, .good (.payload zeros))] } }
    s.arrayWf = true ∧ s.lineAt 63 255 = .good (.payload zeros) ∧ 63 < 64 ∧ 255 < 256 ∧ s.lineAt 0 0 = .blank := by decide

/-! ### Witnesses: the directory and what every step keeps -/

theorem witness_DirectoryOperations :
    directory.wf = true ∧ (findEntry directory.entries 1).isSome = true ∧ directory.entries.length < 1024 ∧
    findEntry directory.entries 1 = some entry1 ∧ entry1.live.isSome = true ∧ entry1.version = 1 ∧
    (∀ e ∈ findEntry directory.entries 0x4001, e.live.isSome = false) ∧ (2 : Key) ≠ 1 := by decide

theorem witness_DirectorySearches : keysAscending directory.entries = true := by decide

theorem witness_invariants :
    ready.arrayWf = true ∧ ready.directoryWf = true ∧ ready.queuesWf = true ∧ ready.windowWf = true ∧
    ready.sequencerWf = true ∧ ready.zonesWf = true ∧ (erasing 200 8).sequencerWf = true ∧
    (guarded ready false 3 true).zonesWf = true := by decide

theorem witness_step : step ready = .next ready.tick := rfl

theorem witness_LockoutUntilHardReset :
    (guarded ready false 3 true).zones[(0 : Fin 4)].lockout = true ∧
    (∀ c ∈ (guarded ready false 3 true).pending.head?, c ≠ .rstAsserted ∧ c ≠ .powerOn ∧ c ≠ .powerLoss) := by decide

/-- The HALTED store with a halted sequencer. -/
def halted : State := { inStore .halted with seq := { ready.seq with halted := true, state := .halted } }

theorem witness_HaltedArrayStays :
    halted.seq.halted = true ∧ halted.seq.erase = none ∧ halted.pending.head? = none ∧ halted.engine.store = .halted ∧
    (∀ c ∈ halted.pending.head?, c.resets = false) := by decide

theorem witness_HaltedArrayStays_noProgram : ∀ x l d, halted.seq.inHand ≠ some (.program x l d) := by
  intro x l d h; exact nomatch (h : (none : Option LineOp) = some _)

theorem witness_RetiredNeverShrinks :
    let a := { anchorOf .policyOpen with retired := [5, 63] }
    let s := { ready with anchor := { ready.anchor with working := some a } }
    s.ctl.stack.all (fun k => !isAnchorScan k) = true ∧ s.pending.head? ≠ some .mount ∧ s.anchor.working = some a ∧
    s.tick.anchor.working = some a := by decide

/-! ### One step of each command -/

/-- R160: a fill count that differs from the declared length gives LENGTH, which SUBMIT_RESULT shows as 3 (R173). -/
theorem test_go_length :
    (after .go { ready with window := { ready.window with fill := [1], reqLength := 2 } }).window.submitResult = .length := by decide
/-- R160: an accepted request carries the fill buffer and leaves it empty. -/
theorem test_go_accepted :
    let t := after .go { ready with window := { ready.window with fill := [1, 2], reqLength := 2 } }
    t.queues.requests.map Request.payload = [[1, 2]] ∧ t.window.fill = [] := by decide
/-- R169: POP removes the head record and the next one has its pointer at 0. -/
theorem test_pop :
    (after .pop { ready with queues := { ready.queues with completions := [cpl 1 .ok, cpl 2 .ok], readPtr := 3 } }).queues =
      { ready.queues with completions := [cpl 2 .ok], readPtr := 0 } := by decide
/-- R159: CLEAR_FILL clears the overflow flag. -/
theorem test_clearFill :
    (after .clearFill { ready with window := { ready.window with fillOverflow := true } }).window.fillOverflow = false := by decide
/-- R168: REWIND sets the read pointer to 0. -/
theorem test_rewind :
    (after .rewind { ready with queues := { ready.queues with completions := [cpl 1 .ok], readPtr := 3 } }).queues.readPtr = 0 := by
  decide
/-- R177: a soft reset makes the store MOUNTING and keeps LOW_WATER. -/
theorem test_softReset :
    let t := after .softReset { ready with window := { ready.window with lowWater := 9 } }
    t.engine.store = .mounting ∧ t.window.lowWater = 9 := by decide
set_option maxRecDepth 4096 in
/-- R159: the 257th byte is dropped and sets the overflow flag. -/
theorem test_writeData_overflow :
    let t := after (.writeData 7) { ready with window := { ready.window with fill := List.replicate 256 1 } }
    t.window.fill = List.replicate 256 1 ∧ t.window.fillOverflow = true := by decide
/-- R168: a read past the payload's end returns 0 and leaves the pointer. -/
theorem test_readData_end :
    let t := after .readData { ready with queues := { ready.queues with completions := [{ cpl 2 .ok with payload := [9] }], readPtr := 1 } }
    t.window.busData = 0 ∧ t.queues.readPtr = 1 := by decide
/-- R172: the read of CPL_VERSION's lowest byte latches all four. -/
theorem test_captureLatch :
    let t := after (.captureLatch .cplVersion) { ready with queues := { ready.queues with
      completions := [{ cpl 2 .ok with version := 0x11223344 }] } }
    t.window.busData = 0x44 ∧ t.busRead 0x20 = 0x11 := by decide
/-- R178: writing 1 to a latched event clears it and no other. -/
theorem test_eventStatus :
    (after (.eventStatus 0x22) { ready with window := { ready.window with events := 0x3E } }).window.events = 0x1C := by decide
/-- R179: bits 6 and 7 are stored as 0. -/
theorem test_eventEnable : (after (.eventEnable 0xFF) ready).window.eventEnable = 0x3F := by decide
/-- R180: 2 stores 3 and 17 stores 16. -/
theorem test_lowWater :
    (after (.lowWater 2) ready).window.lowWater = 3 ∧ (after (.lowWater 17) ready).window.lowWater = 16 := by decide
/-- R172: the upper byte of the key register is at 0x0B. -/
theorem test_registerWrite :
    (after (.registerWrite 0x0B 0x12) { ready with window := { ready.window with reqKey := 0x3456 } }).window.reqKey = 0x1256 := by decide
/-- R53: the header of a 16-byte PUT goes to the head's next line with sequence S. -/
theorem test_put :
    (after .put (asked ready (putOf 16))).seq.inHand = some (.program 2 11 (.frame (.put 1 5 none 16))) := by decide
/-- R57: a GET of a LIVE key reads its header line. -/
theorem test_get : (after .get (asked ready (req 2))).seq.inHand = some (.read 2 3) := by decide
/-- R56: a DELETE of a LIVE key programs a tombstone. -/
theorem test_delete : (after .delete (asked ready (req 3))).seq.inHand = some (.program 2 11 (.frame (.delete 1 5 none))) := by decide
/-- R60: the next key above 0 is 1; DEAD entries are passed over. -/
theorem test_next :
    (after .next (asked ready { req 4 with key := 0 })).queues.completions.map (fun c => (c.status, c.key, c.length)) =
      [(.ok, 1, 16)] := by decide
/-- R61, R175: the INFO block's first byte is the store state, READY being 1, and its second U. -/
theorem test_info : (after .info (asked ready (req 9))).queues.completions.map (fun c => c.payload.take 3) = [[1, 62, 60]] := by decide
/-- R66: BEGIN takes the counter's number. -/
theorem test_begin :
    let t := after .beginTxn (asked ready (req 5))
    t.engine.txn.openTxn = some { number := 1, staged := [] } ∧ t.engine.txn.timer = .running 50 0 := by decide
/-- R69: a staged PUT completes OK with aux the entry count and nothing is written. -/
theorem test_inTxnPut :
    let t := after .inTxnPut (asked (opened 0 []) (inTxnPutOf 16))
    t.queues.completions.map (fun c => (c.status, c.aux)) = [(.ok, 1)] ∧ t.seq.inHand = none := by decide
/-- R70: a staged DELETE of a key that is not LIVE completes NOT_FOUND. -/
theorem test_inTxnDelete :
    (after .inTxnDelete (asked (opened 0 []) { req 3 with key := 2, flags := 0x01 })).queues.completions.map Completion.status =
      [.notFound] := by decide
/-- R71: a staged PUT is read back. -/
theorem test_inTxnGet :
    (after .inTxnGet (asked (opened 0 [{ key := 1, value := some [5], cond := .always }]) { req 2 with flags := 0x01 })).queues.completions.map
      (fun c => (c.status, c.payload)) = [(.ok, [5])] := by decide
/-- R75: an empty COMMIT completes OK and closes the transaction. -/
theorem test_commit :
    let t := after .commit (asked (opened 0 []) (req 6))
    t.queues.completions.map Completion.status = [.ok] ∧ t.engine.txn.openTxn = none := by decide
/-- R80: ABANDON returns the transaction's number. -/
theorem test_abandon :
    (after .abandon (asked (opened 0 []) (req 7))).queues.completions.map (fun c => (c.status, c.aux)) = [(.ok, 3)] := by decide
/-- R100: a target already met completes OK with the FREE count. -/
theorem test_reclaim :
    (after .reclaim (asked ready { req 8 with param := 60 })).queues.completions.map (fun c => (c.status, c.aux)) = [(.ok, 60)] := by
  decide
/-- R100, R88: with the tail not CLOSED the RECLAIM cannot gain and completes FULL. -/
theorem test_reclaim_full :
    let t := after .reclaim (asked stuck { req 8 with param := 2 })
    t.queues.completions.map (fun c => (c.status, c.aux)) = [(.full, 1)] ∧ t.comp.reclaimTarget = none ∧ t.ctl.stack = [] := by
  decide
/-- R100: a RECLAIM that READ_ONLY turns away carries the FREE count. -/
theorem test_reclaim_readOnly :
    (after .reclaim (asked (inStore .readOnly) { req 8 with param := 2 })).queues.completions.map (fun c => (c.status, c.aux)) =
      [(.readOnly, 60)] := by decide
/-- R174: FREE_COUNT and USABLE of a running part; a locked out zone 0 reads 2 in ZONE_STATUS. -/
theorem test_status_registers :
    ready.busRead 0x27 = 60 ∧ ready.busRead 0x28 = 62 ∧ (guarded ready false 3 true).busRead 0x2D = 2 := by decide
/-- R50: an expected version of 0 matches no key. -/
theorem test_put_versionZero :
    (after .put (asked ready { putOf 0 with flags := 0x08, version := 0 })).queues.completions.map (fun c => (c.status, c.version)) =
      [(.versionMismatch, 1)] := by decide
/-- R149: the third wrong code locks the zone out and raises ZONE_LOCKOUT. -/
theorem test_unlock_third :
    let t := after .unlock (asked (guarded (readyUnder .guarded) false 2 false) (codeOf 10 1))
    t.zones[(0 : Fin 4)] = { unlocked := false, failed := 3, lockout := true } ∧ t.window.events.getLsbD 4 = true := by decide
/-- R150: LOCK clears the unlocked flag. -/
theorem test_lock :
    (after .lock (asked (guarded (readyUnder .guarded) true 0 false) (req 11))).zones[(0 : Fin 4)].unlocked = false := by decide
/-- R151, R145: a new code is programmed at the write position, slot 1 beginning at line 6. -/
theorem test_setCode :
    (after .setCode (asked ready (codeOf 12 1))).seq.inHand.map (fun o => match o with
      | .program x l _ => (x, l)
      | .read x l => (x, l)) = some (0, 6) := by decide
/-- R152: a key that names no policy completes BAD_REQUEST. -/
theorem test_setPolicy :
    (after .setPolicy (asked ready { req 13 with key := 3 })).queues.completions.map Completion.status = [.badRequest] := by decide
/-- R153: FORMAT makes the store FORMATTING. -/
theorem test_format : (after .format (asked ready (req 14))).engine.store = .formatting := by decide
/-- R46: a kind code that names no kind completes BAD_REQUEST. -/
theorem test_kindNamingNoKind :
    (after .kindNamingNoKind (asked ready (req 15))).queues.completions.map Completion.status = [.badRequest] := by decide
/-- R88: the CLOSED tail becomes the victim. -/
theorem test_selectStep :
    (after .selectStep { ready with log := some { tablesTo 10 with free := [4, 5, 6] } }).comp.victim = some 3 := by decide
/-- R89: a tail with no LIVE entry is selected even at a FREE count of 0, here without a head. -/
theorem test_selectStep_noHead :
    (after .selectStep (withTables ready { tablesTo 10 with head := none, free := [], ring := [3] })).comp.victim = some 3 := by decide
/-- R90: a DEAD entry of the victim is removed and its line leaves A. -/
theorem test_copyStep :
    let t := after .copyStep (copying [{ key := 9, live := none, version := 1, sector := 3, line := 7 }])
    t.engine.dir.entries = [] ∧ t.engine.dir.accounted = 2 := by decide
/-- R95: a worn victim, at 100,000 erases, is retired instead of erased. -/
theorem test_eraseStep_worn :
    let w := { copying [] with log := (copying []).log.map (fun t => t.setRecord 3 (.victim 1 100000 0 false)) }
    (after .eraseStep (copying [])).seq.state = .erasing ∧ (after .eraseStep w).seq.state ≠ .erasing := by decide
/-- R98: after PASS the sector is formatted with one more erase. -/
theorem test_finishingStep :
    (after .finishingStep { ready with
      log := some { tablesTo 10 with sectors := .head 2 0 0 10 3 4 :: .erasing 1 5 0 :: List.replicate 60 (.free 0) },
      comp := { ready.comp with stage := .finishing, victim := some 3, roundStart := some 60, eraseOutcome := some true } }).seq.inHand =
      some (.program 3 0 (.format 9 6)) := by decide
/-- R59: a header that does not match is a media loss: MEDIA_FAULT, MEDIA_LOSS raised and the key in LOSS_KEY. -/
theorem test_lineReadDone :
    let t := after .lineReadDone { reading [.readFrame entry1 0 [], .get (req 2) entry1] 2 3 with
      queues := { ready.queues with requests := [req 2], executing := true } }
    t.queues.completions.map Completion.status = [.mediaFault] ∧ t.window.events = 0x08 ∧ t.window.lossKey = 1 := by decide
/-- R53: when the last line passes the key is LIVE at the frame and the completion's version is its sequence. -/
theorem test_lineProgramDone :
    let t := after (.lineProgramDone true)
      { programming [.append putAppend (.programming 2 11 1), .put (putOf 16)] 2 12 (.payload (Vector.replicate 16 0x33)) with
        queues := { ready.queues with requests := [putOf 16], executing := true } }
    t.queues.completions.map (fun c => (c.status, c.version)) = [(.ok, 5)] ∧ t.engine.seq = 6 ∧
    findEntry t.engine.dir.entries 1 = some { key := 1, live := some 16, version := 5, sector := 2, line := 11 } := by decide
/-- R6: after a retirement whose anchor write is refused the opening is attempted again, using up a ring sequence. -/
theorem test_lineProgramDone_retry :
    let a := anchorOf .policyOpen
    let k := [Task.anchorWrite a false (.line 0 1 4), .retire 4, .openRetry, .append putAppend .opening, .put (putOf 16)]
    let s := haltedSeq { programming k 0 10 (.anchor a 4) with queues := { ready.queues with requests := [putOf 16], executing := true } }
    let t := after (.lineProgramDone true) s
    t.log.map LogTables.nextRing = some 4 ∧ t.queues.completions.map Completion.status = [.halted] := by decide
/-- R107: a program that has run 400 µs leaves the line DEFECTIVE. -/
theorem test_programTimeout :
    (after .programTimeout { programming [] 2 11 (.payload zeros) with seq := { (programming [] 2 11 (.payload zeros)).seq with
      delivers := false } }).lineAt 2 11 = .defective := by decide
/-- R97: PASS moves the compactor to FINISHING with the outcome recorded. -/
theorem test_eraseDone :
    let t := after (.eraseDone true) (erasing 30 0)
    t.comp.stage = .finishing ∧ t.comp.eraseOutcome = some true ∧ t.seq.state = .idle := by decide
/-- R73: the expired mark and EXPIRED_TXN take the number and TXN_EXPIRED is raised. -/
theorem test_idleTimerExpiry :
    let t := after .idleTimerExpiry (opened 49 [])
    t.engine.txn.expired = some 3 ∧ t.window.expiredTxn = 3 ∧ t.window.events = 0x04 := by decide
/-- R44: the warning makes the store HALTED and drops the transaction. -/
theorem test_pfwAsserted :
    let t := after .pfwAsserted (opened 0 [])
    t.engine.store = .halted ∧ t.engine.txn.openTxn = none ∧ t.seq.state = .halted := by decide
/-- R118: the pin's release leaves the store HALTED. -/
theorem test_pfwDeasserted : (after .pfwDeasserted (pinned halted true false true)).engine.store = .halted := by decide
/-- R171: every register reads 0 while RST# is asserted. -/
theorem test_rstAsserted : (after .rstAsserted ready).busRead 0x00 = 0 := by decide
/-- R181: IDENT_PART reads 0x2C after the pin is released. -/
theorem test_rstDeasserted : (after .rstDeasserted (after .rstAsserted ready)).busRead 0x00 = 0x2C := by decide
/-- R180: power-on sets TXN_LIMIT to 50. -/
theorem test_powerOn : (after .powerOn { ready with window := { ready.window with txnLimit := 7 } }).window.txnLimit = 50 := by decide
/-- R4: the tables do not outlive the supply. -/
theorem test_powerLoss : (after .powerLoss ready).log = none := by decide
/-- R124, R144: mount begins with line 0 of anchor sector 0. -/
theorem test_mount : (after .mount State.reset).seq.inHand = some (.read 0 0) := by decide
/-- R105: a GOOD line turns DEFECTIVE, a BLANK line stays. -/
theorem test_arrayOwnLoss :
    (after (.arrayOwnLoss 63 255) { ready with seq := { ready.seq with cells := [(lineAddr 63 255, .good (.payload zeros))] } }).lineAt 63 255 =
      .defective ∧ after (.arrayOwnLoss 0 0) ready = ready := by decide

end Sys2Proof.Tests
end

