-- ==== Sys2Proof/Proofs/Resets.lean ====
section
/-! What a pin reset, a power loss and power-on leave in every block, and what a part that answers no bus access shows. -/

namespace Sys2Proof.Certificates

open Sys2Proof Sys2Proof.Machine

/-! ### Work in flight that is cut short (R111) -/

/-- A part without an operation in hand has no program to cut short. -/
theorem cutProgramShort_of_none {s : State} (h : s.seq.inHand = none) : s.cutProgramShort = s := by
  simp only [State.cutProgramShort, h]

/-- A part without an erase in flight has no erase to cut short. -/
theorem cutEraseShort_of_none {s : State} (h : s.seq.erase = none) : s.cutEraseShort = s := by
  simp only [State.cutEraseShort, h]

/-- A hard reset with nothing in flight leaves the array as it was. -/
theorem hardReset_cells_of_idle {s : State} (hh : s.seq.inHand = none) (he : s.seq.erase = none) :
    s.hardReset.seq.cells = s.seq.cells := by
  have : s.cutProgramShort.cutEraseShort = s := by
    rw [cutProgramShort_of_none hh, cutEraseShort_of_none he]
  change s.cutProgramShort.cutEraseShort.seq.cells = _
  rw [this]

/-! ### The blocks after a hard reset (R122, R148, R170, R181) -/

/-- A hard reset keeps the pins and the commands that wait. -/
theorem hardReset_pins_pending (s : State) : s.hardReset.pins = s.pins ∧ s.hardReset.pending = s.pending := by
  have hk : s.cutProgramShort.cutEraseShort.kept = s.kept := by simp
  exact ⟨congrArg Kept.pins hk, congrArg Kept.pending hk⟩

/-- A hard reset gives every block its power-on and pin reset value. -/
theorem hardReset_values (s : State) : ResetValues s.hardReset :=
  ⟨rfl, rfl, rfl, rfl, rfl, rfl, rfl, rfl, rfl⟩

/-- What the three hard resets answer: the blocks' reset values, the pins `p`, the queue of commands kept, and the array kept
when nothing is in flight. -/
def ResetTo (s : State) (p : Pins) (t : State) : Prop :=
  ResetValues t ∧ t.pins = p ∧ t.pending = s.pending ∧
    (s.seq.inHand = none → s.seq.erase = none → t.seq.cells = s.seq.cells)

/-- A hard reset whose command then sets the pins. -/
theorem resetTo_hardReset (s : State) (p : Pins) : ResetTo s p { s.hardReset with pins := p } :=
  ⟨hardReset_values s, rfl, (hardReset_pins_pending s).2, hardReset_cells_of_idle⟩

/-- A hard reset of the state whose pin has changed already. -/
theorem resetTo_hardReset_of_pins (s : State) (p : Pins) : ResetTo s p (State.hardReset { s with pins := p }) :=
  ⟨hardReset_values _, (hardReset_pins_pending _).1, (hardReset_pins_pending { s with pins := p }).2,
    hardReset_cells_of_idle (s := { s with pins := p })⟩

/-! ### A part that answers no bus access (R171) -/

/-- A write access to a part that answers none changes nothing. -/
theorem onBus_of_inactive {s : State} (h : s.busActive = false) (f : State → State) : s.onBus f = .next s := by
  simp only [State.onBus, h, Bool.false_eq_true, if_false]

/-- Settles O14: RST#, POWER_LOSS and POWER_ON are hard resets with their own pin, and without bus accesses nothing is read or
written. -/
theorem hardResetValues : Obligations.HardResetValues := by
  refine ⟨fun s => ⟨fun hb => ?_, fun hp => ?_, ?_, rfl, rfl⟩, fun s hb => ?_⟩
  · refine ⟨_, ?_, resetTo_hardReset_of_pins s _⟩
    simp only [exec, execRstAsserted, hb, if_true]
  · refine ⟨{ s.hardReset with pins := { s.pins with powered := false } }, ?_, resetTo_hardReset s _⟩
    simp only [exec, execPowerLoss, hp, if_true, (hardReset_pins_pending s).1]
  · refine ⟨{ s.hardReset with pins := { s.pins with powered := true } }, ?_, resetTo_hardReset s _⟩
    simp only [exec, execPowerOn, (hardReset_pins_pending s).1]
  · refine ⟨?_, fun a => ?_, fun c hc => ?_, fun a v => ?_⟩
    · simp only [State.intAsserted, hb, Bool.false_and]
    · simp only [State.busRead, hb, Bool.not_false, if_true]
    · simp only [List.mem_cons, List.not_mem_nil, or_false] at hc
      rcases hc with rfl | rfl | rfl | rfl | rfl <;> exact onBus_of_inactive hb _
    · have ignored := onBus_of_inactive hb
      exact ⟨ignored (·.busWrite a v), ignored (·.fillByte v), ignored (·.clearEvents v), ignored (·.setEnables v),
        ignored (·.setLowWater v)⟩

/-- Settles O57: the reset state evaluates to every invariant. -/
theorem resetMeetsInvariants : Obligations.ResetMeetsInvariants := by
  unfold Obligations.ResetMeetsInvariants
  decide

end Sys2Proof.Certificates
end

