-- ==== Sys2Proof/Proofs/Layout.lean ====
section
/-! The lines of a frame and the place of each value byte in them (R16). -/

namespace Sys2Proof.Certificates

open Sys2Proof Sys2Proof.Machine

/-- Position `k` of payload line `i` holds value byte `16 i + k`, 0 beyond the value's end. -/
theorem payloadLine_getElem? (value : List Byte) (i k : Nat) (hk : k < 16) :
    (payloadLine value i)[k]? = some (value.getD (16 * i + k) 0) := by
  simp [payloadLine, hk]

/-- Line `1 + i` of an attempt is payload line `i`. -/
theorem frameLine_one_add (j : AppendJob) (i : Nat) : frameLine j (1 + i) = .payload (payloadLine j.value i) := by
  rw [Nat.add_comm]; rfl

/-- Settles O50: byte `i` is byte `i % 16` of payload line `i / 16`. -/
theorem payloadLayout : Obligations.PayloadLayout := by
  refine ⟨fun _ _ _ _ => rfl, fun _ _ _ => rfl, fun _ _ _ => rfl, fun j i => ?_, fun _ => rfl⟩
  refine ⟨_, frameLine_one_add j (i / 16), ?_⟩
  rw [payloadLine_getElem? _ _ _ (Nat.mod_lt i (by decide)), Nat.div_add_mod]

end Sys2Proof.Certificates
end

