-- ==== Sys2Proof/Proofs/Survey.lean ====
section
/-! The survey's classes of a pool sector (R126, R127) and the order of the ring (R128). -/

namespace Sys2Proof.Certificates

open Sys2Proof Sys2Proof.Machine

/-! ### Good header lines (R126) -/

/-- A line that is no format line gives no format. -/
theorem goodFormat_eq_none {l : Line} (h : ∀ f c, l ≠ .good (.format f c)) : goodFormat l = none := by
  cases l with
  | blank | defective => rfl
  | good d => cases d <;> first | rfl | exact absurd rfl (h _ _)

/-- A line that is no open line of the format id opens nothing. -/
theorem goodOpen_eq_none {fid : Seq} {l : Line} (h : ∀ ring q, l ≠ .good (.opened fid ring q)) : goodOpen fid l = none := by
  cases l with
  | blank | defective => rfl
  | good d =>
    cases d with
    | opened f ring q => exact if_neg (fun hf : f = fid => h ring q (by rw [hf]))
    | _ => rfl

/-- A close line whose values are out of range, or another line, is no good close line (log 33). -/
theorem goodClose_eq_none {l : Line} (h : ∀ lu n hi f, l = .good (.closed lu n hi f) → ¬ (2 ≤ lu ∧ lu ≤ 255 ∧ f ≤ 3)) :
    goodClose l = none := by
  cases l with
  | blank | defective => rfl
  | good d =>
    cases d with
    | closed lu n hi f => exact if_neg (h lu n hi f rfl)
    | _ => rfl

/-- A close line whose values are in range is good (log 33). -/
theorem goodClose_eq_some {lu f : Nat} (n : Nat) (hi : Seq) (h : 2 ≤ lu ∧ lu ≤ 255 ∧ f ≤ 3) :
    goodClose (.good (.closed lu n hi f)) = some (lu, n, hi, f) := if_pos h

/-- An open line of the format id opens the sector. -/
theorem goodOpen_opened (fid ring q : Seq) : goodOpen fid (.good (.opened fid ring q)) = some (ring, q) := if_pos rfl

/-! ### The rows of R127 -/

/-- A formatted sector that no open line opens is FREE. -/
theorem classify_free {fid : Seq} {c : Nat} {l1 l2 : Line} (h1 : goodOpen fid l1 = none) :
    classify fid (.good (.format fid c)) l1 l2 = .free c (((goodClose l2).map (fun h => h.2.2.1)).getD 0) := by
  simp only [classify, goodFormat, ne_eq, not_true_eq_false, if_false, h1]

/-- An opened sector with a good close line is CLOSED. -/
theorem classify_closed {fid ring sq q : Seq} {c lu n f : Nat} {l1 l2 : Line} (h1 : goodOpen fid l1 = some (ring, sq))
    (h2 : goodClose l2 = some (lu, n, q, f)) :
    classify fid (.good (.format fid c)) l1 l2 = .closed ring sq c lu n q f := by
  simp only [classify, goodFormat, ne_eq, not_true_eq_false, if_false, h1, h2]

/-- An opened sector without a good close line is UNCLOSED, eligible when its line 2 reads BLANK. -/
theorem classify_unclosed {fid ring sq : Seq} {c : Nat} {l1 l2 : Line} (h1 : goodOpen fid l1 = some (ring, sq))
    (h2 : goodClose l2 = none) :
    classify fid (.good (.format fid c)) l1 l2 = .unclosed ring sq c (l2 == .blank) := by
  simp only [classify, goodFormat, ne_eq, not_true_eq_false, if_false, h1, h2]

/-! ### The ring's order (R128) -/

/-- The order of the ring: ascending ring sequence, equal ones by sector number. -/
def ringLe (a b : Seq × Nat) : Prop := a.1 < b.1 ∨ (a.1 = b.1 ∧ a.2 ≤ b.2)

/-- The ring's order is transitive. -/
theorem ringLe_trans {a b c : Seq × Nat} (h1 : ringLe a b) (h2 : ringLe b c) : ringLe a c := by
  unfold ringLe at *
  simp only [BitVec.lt_def, ← BitVec.toNat_inj] at *
  omega

/-- What does not come before in the insertion's order comes after. -/
theorem ringLe_of_not_before {x y : Seq × Nat} (h : ¬ (x.1 < y.1 ∨ (x.1 = y.1 ∧ x.2 < y.2))) : ringLe y x := by
  unfold ringLe
  simp only [BitVec.lt_def, ← BitVec.toNat_inj] at *
  omega

/-- What comes before in the insertion's order is in the ring's order. -/
theorem ringLe_of_before {x y : Seq × Nat} (h : x.1 < y.1 ∨ (x.1 = y.1 ∧ x.2 < y.2)) : ringLe x y :=
  h.imp id (fun h => ⟨h.1, Nat.le_of_lt h.2⟩)

/-- Inserting a sector only adds it. -/
theorem insertRing_perm (x : Seq × Nat) : ∀ l, (insertRing x l).Perm (x :: l)
  | [] => .refl _
  | y :: rest => by
    unfold insertRing
    split
    · exact .refl _
    · exact ((insertRing_perm x rest).cons y).trans (.swap x y rest)

/-- Inserting a sector keeps the ring's order. -/
theorem insertRing_pairwise (x : Seq × Nat) : ∀ {l}, l.Pairwise ringLe → (insertRing x l).Pairwise ringLe
  | [], _ => List.pairwise_singleton _ _
  | y :: rest, h => by
    obtain ⟨hy, hrest⟩ := List.pairwise_cons.1 h
    unfold insertRing
    split
    · rename_i hlt
      have hxy := ringLe_of_before hlt
      refine List.pairwise_cons.2 ⟨fun z hz => ?_, h⟩
      rcases List.mem_cons.1 hz with rfl | hz
      · exact hxy
      · exact ringLe_trans hxy (hy z hz)
    · rename_i hnlt
      refine List.pairwise_cons.2 ⟨fun z hz => ?_, insertRing_pairwise x hrest⟩
      rcases List.mem_cons.1 ((insertRing_perm x rest).mem_iff.1 hz) with rfl | hz
      · exact ringLe_of_not_before hnlt
      · exact hy z hz

/-- Inserting one sector after another gives the same sectors. -/
theorem foldr_insertRing_perm : ∀ l : List (Seq × Nat), (l.foldr insertRing []).Perm l
  | [] => .refl _
  | x :: rest => (insertRing_perm x _).trans ((foldr_insertRing_perm rest).cons x)

/-- Inserting one sector after another gives the ring's order. -/
theorem foldr_insertRing_pairwise : ∀ l : List (Seq × Nat), (l.foldr insertRing []).Pairwise ringLe
  | [] => .nil
  | x :: rest => insertRing_pairwise x (foldr_insertRing_pairwise rest)

/-- Settles O18: the rows by what the good header lines are, the ring by insertion in its order. -/
theorem surveyClasses : Obligations.SurveyClasses := by
  refine ⟨fun fid l1 l2 => ⟨fun l0 h0 => ?_, fun f c hf => ?_, fun c h1 => ⟨fun h2 => ?_, fun lu n hi f ha hb hc => ?_⟩,
    fun c ring q lu n hi f ha hb hc => ?_, fun c ring q => ?_, fun c ring q hb h2 => ?_⟩, fun notes => ?_, fun o ring q => ?_⟩
  · simp only [classify, goodFormat_eq_none h0]
  · simp only [classify, goodFormat, ne_eq, hf, not_false_eq_true, if_true]
  · rw [classify_free (goodOpen_eq_none h1), goodClose_eq_none h2]; rfl
  · rw [classify_free (goodOpen_eq_none h1), goodClose_eq_some n hi ⟨ha, hb, hc⟩]; rfl
  · exact classify_closed (goodOpen_opened fid ring q) (goodClose_eq_some n hi ⟨ha, hb, hc⟩)
  · exact classify_unclosed (goodOpen_opened fid ring q) rfl
  · rw [classify_unclosed (goodOpen_opened fid ring q) (goodClose_eq_none h2), beq_eq_false_iff_ne.2 hb]
  · exact ⟨_, rfl, foldr_insertRing_perm _, foldr_insertRing_pairwise _⟩
  · cases o <;> simp [SurveyNote.opened]

end Sys2Proof.Certificates
end


-- ==== Sys2Proof/Proofs/Replay.lean ====
section
/-! Replay: what a valid frame does to the directory and the pending-member run (R130 to R132), and what a line does to the scan
of a ring sector (R129). -/

namespace Sys2Proof.Certificates

open Sys2Proof Sys2Proof.Machine

/-! ### Frames applied to the directory (R130) -/

/-- A key without an entry, or with one of the sequence or lower, admits the sequence. -/
theorem admitsVersion_of_not_above {d : Directory} {k : Key} {q : Seq}
    (h : findEntry d.entries k = none ∨ ∃ e, findEntry d.entries k = some e ∧ e.version ≤ q) : d.admitsVersion k q = true := by
  rcases h with h | ⟨e, h, he⟩
  · simp only [Directory.admitsVersion, h]
  · simp only [Directory.admitsVersion, h, he, decide_true]

/-- A key with an entry of a higher version turns the sequence away. -/
theorem admitsVersion_of_above {d : Directory} {k : Key} {q : Seq} {e : Entry} (h : findEntry d.entries k = some e)
    (hq : q < e.version) : d.admitsVersion k q = false := by
  simp only [Directory.admitsVersion, h, decide_eq_false_iff_not, BitVec.not_le]
  exact hq

/-- A PUT frame is applied when its key admits its sequence, and passed over otherwise. -/
theorem replay_put {d : Directory} {m : Member} {k : Key} {q : Seq} {mark : Option TxnNo} {n : Nat}
    (h : m.header = .put k q mark n) :
    d.replay m = if d.admitsVersion k q then d.installLive k q m.sector m.line n else d := by
  simp only [Directory.replay, h]

/-- A DELETE frame is applied when its key admits its sequence, and passed over otherwise. -/
theorem replay_delete {d : Directory} {m : Member} {k : Key} {q : Seq} {mark : Option TxnNo} (h : m.header = .delete k q mark) :
    d.replay m = if d.admitsVersion k q then d.markDead k q m.sector m.line else d := by
  simp only [Directory.replay, h]

/-! ### The pending-member run (R131) -/

/-- A plain frame is applied at once and discards the run. -/
theorem replayFrame_plain {m : Member} (h : (∃ k q n, m.header = .put k q none n) ∨ ∃ k q, m.header = .delete k q none)
    (d : Directory) (run : List Member) : replayFrame d run m = (d.replay m, []) := by
  rcases h with ⟨k, q, n, h⟩ | ⟨k, q, h⟩ <;> simp only [replayFrame, h, FrameHeader.memberOf] <;> rfl

/-- A member frame joins the run by R131 and leaves the directory. -/
theorem replayFrame_member {m : Member} {t : TxnNo} (h : m.header.memberOf = some t) (d : Directory) (run : List Member) :
    replayFrame d run m = (d, joinRun run m) := by
  cases hm : m.header with
  | put k q mark n => rw [hm] at h; simp only [replayFrame, hm, h, Option.isSome_some, if_true]
  | delete k q mark => rw [hm] at h; simp only [replayFrame, hm, h, Option.isSome_some, if_true]
  | commit q n c => rw [hm] at h; simp [FrameHeader.memberOf] at h

/-- A sequence is next to another exactly when it is one more as a plain number. -/
theorem isNext_iff (a b : Seq) : isNext a b = true ↔ a.toNat + 1 = b.toNat := decide_eq_true_iff

/-- What a member frame makes of a run with a last member. -/
theorem joinRun_concat (run : List Member) (last m : Member) :
    joinRun (run ++ [last]) m =
      if last.header.memberOf = m.header.memberOf then
        if last.header.seq.toNat + 1 = m.header.seq.toNat ∧ run.length < 7 then run ++ [last, m]
        else if last.header.seq = m.header.seq then run ++ [m]
        else [m]
      else [m] := by
  have hlen : run.length + 1 < 8 ↔ run.length < 7 := by omega
  simp only [joinRun, List.getLast?_append, List.getLast?_singleton, Option.some_or, Bool.and_eq_true, isNext_iff,
    decide_eq_true_eq, List.length_append, List.length_singleton, hlen, List.append_assoc, List.singleton_append,
    List.dropLast_concat]

/-- A consecutive member of the same transaction joins a run of fewer than 8. -/
theorem joinRun_joins {run : List Member} {last m : Member} (ht : last.header.memberOf = m.header.memberOf)
    (hs : last.header.seq.toNat + 1 = m.header.seq.toNat) (hl : run.length < 7) :
    joinRun (run ++ [last]) m = run ++ [last, m] := by
  rw [joinRun_concat, if_pos ht, if_pos ⟨hs, hl⟩]

/-- A repeated sequence of the same transaction replaces the last member. -/
theorem joinRun_replaces (run : List Member) {last m : Member} (ht : last.header.memberOf = m.header.memberOf)
    (hs : last.header.seq = m.header.seq) : joinRun (run ++ [last]) m = run ++ [m] := by
  have : ¬ (last.header.seq.toNat + 1 = m.header.seq.toNat ∧ run.length < 7) := by rw [hs]; omega
  rw [joinRun_concat, if_pos ht, if_neg this, if_pos hs]

/-- Another transaction, a gap or a ninth member starts the run anew. -/
theorem joinRun_restarts {run : List Member} {last m : Member}
    (h : last.header.memberOf ≠ m.header.memberOf ∨
      (last.header.seq ≠ m.header.seq ∧ (last.header.seq.toNat + 1 ≠ m.header.seq.toNat ∨ 7 ≤ run.length))) :
    joinRun (run ++ [last]) m = [m] := by
  rw [joinRun_concat]
  split
  · rename_i ht
    obtain ⟨hs, hgap⟩ := h.resolve_left (not_not_intro ht)
    rw [if_neg (by omega), if_neg hs]
  · rfl

/-! ### COMMIT frames (R132) -/

/-- What a COMMIT frame must carry to match a run that ends in `last`. -/
theorem commitMatches_concat (run : List Member) (last : Member) (q : Seq) (n : TxnNo) (c : Nat) :
    commitMatches (run ++ [last]) q n c = true ↔
      last.header.memberOf = some n ∧ last.header.seq.toNat + 1 = q.toNat ∧ c = run.length + 1 := by
  simp only [commitMatches, List.getLast?_append, List.getLast?_singleton, Option.some_or, Bool.and_eq_true, isNext_iff,
    decide_eq_true_eq, List.length_append, List.length_singleton, and_assoc]

/-- A COMMIT frame that matches applies the run in order; another applies none; both end the run. -/
theorem replayFrame_commit (d : Directory) (run : List Member) (q : Seq) (n : TxnNo) (c x l : Nat) :
    replayFrame d run { header := .commit q n c, sector := x, line := l } =
      (if commitMatches run q n c then run.foldl Directory.replay d else d, []) := rfl

/-! ### Groups of members -/

/-- The end of a group is a group. -/
theorem isGroup_of_append {n : TxnNo} : ∀ {ms rest : List Member}, isGroup n (ms ++ rest) = true → isGroup n rest = true
  | [], _, h => h
  | [a], [], _ => rfl
  | [a], b :: rest, h => by
    simp only [List.singleton_append, isGroup, Bool.and_eq_true] at h
    exact h.2
  | a :: b :: ms, rest, h => by
    simp only [List.cons_append, isGroup, Bool.and_eq_true] at h
    exact isGroup_of_append (ms := b :: ms) h.2

/-- Every group's first member is of its transaction. -/
theorem isGroup_head {n : TxnNo} {m : Member} : ∀ {ms : List Member}, isGroup n (m :: ms) = true → m.header.memberOf = some n
  | [], h => of_decide_eq_true h
  | _ :: _, h => by
    simp only [isGroup, Bool.and_eq_true, decide_eq_true_eq] at h
    exact h.1.1

/-- Neighbours in a group have consecutive sequences. -/
theorem isGroup_next {n : TxnNo} {a b : Member} {ms : List Member} (h : isGroup n (a :: b :: ms) = true) :
    a.header.seq.toNat + 1 = b.header.seq.toNat := by
  simp only [isGroup, Bool.and_eq_true, decide_eq_true_eq] at h
  exact h.1.2

/-- The next member of a group of up to 8 joins the run that holds the members before it. -/
theorem joinRun_group {n : TxnNo} {run ms : List Member} {m : Member} (hg : isGroup n (run ++ m :: ms) = true)
    (hl : run.length < 8) : joinRun run m = run ++ [m] := by
  rcases List.eq_nil_or_concat' run with rfl | ⟨init, last, rfl⟩
  · rfl
  · rw [List.append_assoc] at hg ⊢
    have hg' : isGroup n (last :: m :: ms) = true := isGroup_of_append hg
    have hm : m.header.memberOf = some n := isGroup_head (isGroup_of_append (ms := [last]) hg')
    refine joinRun_joins ((isGroup_head hg').trans hm.symm) (isGroup_next hg') ?_
    simp only [List.length_append, List.length_singleton] at hl; omega

/-- Up to 8 members of a group only fill the run. -/
theorem replays_group {n : TxnNo} (d : Directory) : ∀ (ms run : List Member), isGroup n (run ++ ms) = true →
    (run ++ ms).length ≤ 8 → replays d run ms = (d, run ++ ms)
  | [], run, _, _ => by simp [replays]
  | m :: ms, run, hg, hl => by
    have hm : m.header.memberOf = some n := isGroup_head (isGroup_of_append hg)
    have hrun : run.length < 8 := by simp at hl; omega
    have hstep : replays d run (m :: ms) = replays d (run ++ [m]) ms := by
      simp only [replays, List.foldl_cons, replayFrame_member hm, joinRun_group hg hrun]
    rw [hstep, replays_group d ms (run ++ [m]) (by simpa using hg) (by simpa using hl)]
    simp

/-- A group is followed by one more frame. -/
theorem replays_group_concat {n : TxnNo} (d : Directory) {ms : List Member} (hg : isGroup n ms = true) (hl : ms.length ≤ 8)
    (m : Member) : replays d [] (ms ++ [m]) = replayFrame d ms m := by
  have h := replays_group d ms [] hg hl
  simp only [replays] at h ⊢
  rw [List.foldl_append, h]; rfl

/-- The last member of a group is of its transaction. -/
theorem isGroup_getLast {n : TxnNo} {ms : List Member} {last : Member} (hg : isGroup n ms = true)
    (hl : ms.getLast? = some last) : ∃ init, ms = init ++ [last] ∧ last.header.memberOf = some n := by
  obtain ⟨init, rfl⟩ := List.getLast?_eq_some_iff.1 hl
  exact ⟨init, rfl, isGroup_head (isGroup_of_append hg)⟩

/-! ### The scan of a ring sector (R18, R129) -/

/-- The highest values with a header taken into account. -/
theorem sawHeader_eq (p : Replay) (h : FrameHeader) :
    p.sawHeader h = { p with
      maxSeq := if p.maxSeq < h.seq then h.seq else p.maxSeq,
      maxTxn := if p.maxTxn < h.txn.getD 0 then h.txn.getD 0 else p.maxTxn } := rfl

/-- A header position where a legal header reads GOOD. -/
theorem scanLine_header {p : Replay} {c : LineData} {h : FrameHeader} (hc : p.cur = none) (hh : c.asHeader = some h)
    (d : Directory) :
    p.scanLine d (.good c) =
      if 256 < p.pos + h.lines then ({ p.sawHeader h with pos := p.pos + 1 }, d, false)
      else if h.lines = 1 then (((p.sawHeader h).yields d h).1, ((p.sawHeader h).yields d h).2, false)
      else ({ p.sawHeader h with cur := some (h, 0) }, d, false) := by
  simp only [Replay.scanLine, hc, hh, sawHeader_eq]

/-- A payload line that reads GOOD. -/
theorem scanLine_payload {p : Replay} {h : FrameHeader} {k : Nat} (hc : p.cur = some (h, k)) (d : Directory) (c : LineData) :
    p.scanLine d (.good c) =
      if k + 2 < h.lines then ({ p with cur := some (h, k + 1) }, d, false)
      else ((p.yields d h).1, (p.yields d h).2, false) := by
  simp only [Replay.scanLine, hc]

/-- What a line makes of the scan, case by case. -/
theorem scanRules : ScanRules := by
  intro p d l
  refine ⟨fun hc => ⟨?_, ?_, ?_, fun c hl hn => ?_, fun c h hl hh => ⟨fun hf => ?_, fun hf h1 => ?_, fun hf h1 => ?_⟩⟩,
    fun h k hc => ⟨?_, ?_, ?_, fun c hl => ⟨fun hk => ?_, fun hk => ?_⟩⟩, fun ring q c lu n hi f hn hlu => ?_,
    fun ring q c ok hn => ?_, fun ended => rfl⟩
  · simp only [Replay.nextLine, hc]
  · rintro rfl; simp only [Replay.scanLine, hc]
  · rintro rfl; simp only [Replay.scanLine, hc]
  · subst hl; simp only [Replay.scanLine, hc, hn]
  · subst hl; rw [scanLine_header hc hh, if_pos (by omega)]; rfl
  · subst hl; rw [scanLine_header hc hh, if_neg (by omega), if_pos h1]; rfl
  · subst hl; rw [scanLine_header hc hh, if_neg (by omega), if_neg (by omega)]; rfl
  · simp only [Replay.nextLine, hc]
  · rintro rfl
    have : p.pos + 1 + k + 1 = p.pos + k + 2 := by omega
    simp only [Replay.scanLine, Replay.nextLine, hc, this]
  · rintro rfl; simp only [Replay.scanLine, hc]
  · subst hl; rw [scanLine_payload hc, if_pos hk]
  · subst hl; rw [scanLine_payload hc, if_neg (by omega)]; rfl
  · simp only [Replay.stop, hn]; omega
  · simp only [Replay.stop, hn]

/-- Settles O19: groups fill the run, and each frame does to the directory and the run what its kind says. -/
theorem replayAppliesWholeGroups : Obligations.ReplayAppliesWholeGroups := by
  refine ⟨fun d n ms hg hl => ⟨replays_group d ms [] hg hl, fun last q x l hlast hq => ?_, fun last q k count x l hlast hne => ?_⟩,
    fun d run m k q => ⟨fun mark n hm => ⟨fun h => ?_, fun e he hq => ?_⟩, fun mark hm => ⟨fun h => ?_, fun e he hq => ?_⟩,
      fun h => ?_⟩,
    fun d run m t hm => ⟨replayFrame_member hm d [], fun last ht hs hl => ?_, fun last ht hs => ?_, fun last h => ?_⟩,
    fun d run last q n c x l => ⟨rfl, fun hits => ?_, fun hits => ?_⟩, scanRules⟩
  · obtain ⟨init, rfl, ht⟩ := isGroup_getLast hg hlast
    have hits := (commitMatches_concat init last q n (init ++ [last]).length).2 ⟨ht, hq, by simp⟩
    rw [replays_group_concat d hg hl, replayFrame_commit, if_pos hits]
  · obtain ⟨init, rfl, ht⟩ := isGroup_getLast hg hlast
    have misses : ¬ commitMatches (init ++ [last]) q k count = true := by
      rw [commitMatches_concat, ht, Option.some.injEq]
      rintro ⟨rfl, hs, rfl⟩
      simp [hs] at hne
    rw [replays_group_concat d hg hl, replayFrame_commit, if_neg misses]
  · rw [replay_put hm, if_pos (admitsVersion_of_not_above h)]
  · rw [replay_put hm, admitsVersion_of_above he hq]; rfl
  · rw [replay_delete hm, if_pos (admitsVersion_of_not_above h)]
  · rw [replay_delete hm, admitsVersion_of_above he hq]; rfl
  · exact replayFrame_plain (h.imp (fun ⟨n, h⟩ => ⟨k, q, n, h⟩) (fun h => ⟨k, q, h⟩)) d run
  · rw [replayFrame_member hm, joinRun_joins (ht.trans hm.symm) hs hl]
  · rw [replayFrame_member hm, joinRun_replaces run (ht.trans hm.symm) hs]
  · rw [replayFrame_member hm, joinRun_restarts (by rwa [hm])]
  · rw [replayFrame_commit, if_pos ((commitMatches_concat run last q n c).2 hits)]
  · rw [replayFrame_commit, if_neg (fun h => hits ((commitMatches_concat run last q n c).1 h))]

end Sys2Proof.Certificates
end


-- ==== Sys2Proof/Proofs/Moves.lean ====
section
/-! The internal moves as a rewriting: a state in which a reply is on its way to waiting tasks, a state in which tasks wait, and
what the end of an array operation, a posted completion and the end of a step make of them. -/

namespace Sys2Proof.Certificates

open Sys2Proof Sys2Proof.Machine

/-! ### Waiting and replying -/

/-- The tasks `k` wait, and no reply is on its way. -/
def waiting (s : State) (k : List Task) : State := { s with ctl := { stack := k, reply := none } }

/-- The reply `r` is on its way to the tasks `k`. -/
def replying (s : State) (k : List Task) (r : Reply) : State := { s with ctl := { stack := k, reply := some r } }

/-- A reply put into a state with waiting tasks is on its way to them. -/
theorem ret_waiting (s : State) (k : List Task) (r : Reply) : (waiting s k).ret r = replying s k r := rfl

/-- A task put on top waits with the others. -/
theorem push_waiting (s : State) (k : List Task) (t : Task) : (waiting s k).push t = waiting s (t :: k) := rfl

/-- A state whose control holds waiting tasks is one in which they wait. -/
theorem waiting_eq_self {s : State} {k : List Task} (h : s.ctl = { stack := k, reply := none }) : waiting s k = s := by
  rw [waiting, ← h]

/-- A reply reaches the task on top. -/
theorem moves_replying (n : Nat) (s : State) (t : Task) (k : List Task) (r : Reply) :
    State.moves (n + 1) (replying s (t :: k) r) = State.moves n (State.resume (waiting s k) t r) :=
  State.moves_succ_of_move (State.move_resume rfl rfl) n

/-- Settling begins with the reply that reaches the task on top. -/
theorem settle_replying (s : State) (t : Task) (k : List Task) (r : Reply) :
    (replying s (t :: k) r).settle = State.moves 8191 (State.resume (waiting s k) t r) :=
  moves_replying 8191 s t k r

/-- Nothing moves while no reply is on its way and no erase waits to begin. -/
theorem moves_at_rest {s : State} (hr : s.ctl.reply = none) (hp : s.seq.pending = none) (n : Nat) : State.moves n s = s :=
  State.moves_of_move_none (State.move_none hr hp) n

/-- A reply with no task left ends a step that runs on its own. -/
theorem moves_replying_nil {s : State} (hp : s.seq.pending = none) (n : Nat) (r : Reply) :
    State.moves (n + 1) (replying s [] r) = waiting s [] := by
  rw [State.moves_succ_of_move (State.move_drop rfl rfl) n]
  exact moves_at_rest (s := waiting s []) rfl hp n

/-- Nothing moves once a line program has been issued. -/
theorem moves_programs {s : State} (hp : s.seq.pending = none) (n : Nat) (k : List Task) (x l : Nat) (d : LineData) :
    State.moves n (programs s k x l d) = programs s k x l d := moves_at_rest (s := programs s k x l d) rfl hp n

/-- Nothing moves once a line read has been issued. -/
theorem moves_reads {s : State} (hp : s.seq.pending = none) (n : Nat) (k : List Task) (x l : Nat) :
    State.moves n (reads s k x l) = reads s k x l := moves_at_rest (s := reads s k x l) rfl hp n

/-- Nothing moves once an erase has begun. -/
theorem moves_erases {s : State} (hp : s.seq.pending = none) (n : Nat) (k : List Task) (x : Nat) :
    State.moves n (erases s k x) = erases s k x := moves_at_rest (s := erases s k x) rfl hp n

/-- Nothing moves once an anchor write has been asked for. -/
theorem moves_anchorAsked {s : State} (hp : s.seq.pending = none) (n : Nat) (k : List Task) (a : AnchorRecord) :
    State.moves n (anchorAsked s k a) = anchorAsked s k a :=
  State.moves_of_move_none (anchorPlaced_move { s with anchor := { s.anchor with working := some a } } k a false hp) n

/-! ### Operations issued by waiting tasks (R106, R107, R120) -/

/-- A program issued by waiting tasks to a free sequencer. -/
theorem issueProgram_waiting {s : State} (hf : Free s) (k : List Task) (x l : Nat) (d : LineData) :
    (waiting s k).issueProgram x l d = programs s k x l d := issueProgram_of_free (waiting s k) hf x l d

/-- A program issued to a halted sequencer is REFUSED at once. -/
theorem issueProgram_waiting_halted {s : State} (hh : s.seq.halted = true) (k : List Task) (x l : Nat) (d : LineData) :
    (waiting s k).issueProgram x l d = replying s k (.prog .refused) := by
  have : (waiting s k).seq.halted = true := hh
  simp only [State.issueProgram, State.issue, this, LineOp.isProgram, Bool.and_self, if_true]
  rfl

/-- A read issued by waiting tasks with no erase in flight. -/
theorem issueRead_waiting {s : State} (he : s.seq.erase = none) (k : List Task) (x l : Nat) :
    (waiting s k).issueRead x l = reads s k x l := by
  have : (waiting s k).seq.erase = none := he
  simp only [State.issueRead, State.issue, this, LineOp.isProgram, Bool.and_false, Bool.false_eq_true, if_false]
  rfl

/-- A foreground erase issued by waiting tasks to a free sequencer. -/
theorem issueErase_waiting {s : State} (hf : Free s) (k : List Task) (x : Nat) :
    (waiting s k).issueErase x false = erases s k x := issueErase_of_free (waiting s k) hf x rfl

/-- A retirement begun by waiting tasks on a free sequencer. -/
theorem retireBegin_waiting {s : State} (hf : Free s) (hg : s.contents.generation ≠ 4294967295) (k : List Task) (x : Nat) :
    (waiting s k).retireBegin x = anchorAsked s (.retire x :: k) (retiring s.contents x) :=
  retireBegin_of_free (waiting s k) x hf hg rfl

/-! ### The end of an operation in hand (R106, R107) -/

/-- A program in hand ends by its verify: the line and the outcome by what the line read before. -/
theorem exec_lineProgramDone {s : State} {k : List Task} {x l : Nat} {d : LineData} (h : Waits (undue s) k x l d) (v : Bool) :
    exec (.lineProgramDone v) s = .next (State.settle (replying
      { s with seq := programmed s.seq x l (programLine (s.lineAt x l) d (programOutcome (s.lineAt x l) v)) } k
      (.prog (programOutcome (s.lineAt x l) v)))) := by
  obtain ⟨hctl, hhand, hdel, -, -⟩ := h
  have hctl : s.ctl = { stack := k, reply := none } := hctl
  have hhand : s.seq.inHand = some (.program x l d) := hhand
  have hdel : ∀ c : Line, (s.setLine x l c).seq.delivers = true := fun _ => hdel
  simp only [exec, execLineProgramDone, State.lineProgramEnds, hhand, State.endOp, hdel, if_true]
  simp only [State.dropInHand, State.ret, State.setLine, State.withCells, hctl]
  rfl

/-- A program in hand on a BLANK line passes. -/
theorem exec_program_passes {s : State} {k : List Task} {x l : Nat} {d : LineData} (h : Programs (undue s) k x l d) :
    exec (.lineProgramDone true) s =
      .next (State.settle (replying { s with seq := programmed s.seq x l (.good d) } k (.prog .pass))) := by
  obtain ⟨hctl, hhand, hdel, hpend, hdue, hblank⟩ := h
  have hblank : s.lineAt x l = .blank := hblank
  have := exec_lineProgramDone ⟨hctl, hhand, hdel, hpend, hdue⟩ true
  rwa [hblank] at this

/-- A program in hand on a BLANK line fails its verify or runs out of time. -/
theorem exec_program_fails {s : State} {k : List Task} {x l : Nat} {d : LineData} (h : Programs (undue s) k x l d) :
    ∀ event ∈ [Instr.lineProgramDone false, .programTimeout],
      exec event s = .next (State.settle (replying { s with seq := programmed s.seq x l .defective } k (.prog .fail))) := by
  obtain ⟨hctl, hhand, hdel, hpend, hdue, hblank⟩ := h
  have hhand' : s.seq.inHand = some (.program x l d) := hhand
  have hblank : s.lineAt x l = .blank := hblank
  have done := exec_lineProgramDone ⟨hctl, hhand, hdel, hpend, hdue⟩ false
  rw [hblank] at done
  intro event hev
  simp only [List.mem_cons, List.not_mem_nil, or_false] at hev
  rcases hev with rfl | rfl
  · exact done
  · rw [← show exec .programTimeout s = exec (.lineProgramDone false) s by
      simp only [exec, execProgramTimeout, execLineProgramDone, State.programTimesOut, hhand', hblank, if_true]] at done
    exact done

/-- A program in hand on a line that is not BLANK ends NOT_BLANK. -/
theorem exec_program_notBlank {s : State} {k : List Task} {x l : Nat} {d : LineData} (h : Waits (undue s) k x l d)
    (hb : s.lineAt x l ≠ .blank) (v : Bool) :
    exec (.lineProgramDone v) s =
      .next (State.settle (replying { s with seq := programmed s.seq x l (s.lineAt x l) } k (.prog .notBlank))) := by
  have := exec_lineProgramDone h v
  rwa [programOutcome, if_neg hb] at this

/-- A read in hand ends: its line is on its way to the tasks that wait. -/
theorem exec_lineReadDone {s : State} {k : List Task} {x l : Nat} (h : Reads s k x l) :
    exec .lineReadDone s =
      .next (State.settle (replying { s with seq := readEnded s.seq } k (.line (s.lineAt x l)))) :=
  lineReadDone_delivers h

/-- A foreground erase in flight that passes: its outcome is on its way to the tasks that wait. -/
theorem exec_eraseDone_passes {s : State} {k : List Task} {e : EraseRec} (h : Erases s k e) :
    exec (.eraseDone true) s = .next (State.settle (replying (erased s e.sector) k (.erase .pass))) :=
  eraseDone_passes h

/-! ### READ_ONLY causes (R20, R43, R81) -/

/-- A reported READ_ONLY cause waits for the end of the job or step in a READY store. -/
theorem reportReadOnly_eq (s : State) :
    s.reportReadOnly = { s with engine := { s.engine with
      readOnlyDue := s.engine.readOnlyDue || decide (s.engine.store = .ready) } } := by
  unfold State.reportReadOnly
  by_cases h : s.engine.store = .ready <;> simp [h]

/-- A READ_ONLY cause changes a READY store only. -/
theorem turnsReadOnly_of_not_ready {t : State} (h : t.engine.store ≠ .ready) : turnsReadOnly t = t := if_neg h

/-- A cause that is due in a READY store only may be taken to be due in any. -/
theorem endsDue_or_ready (a b : Bool) (t : State) :
    endsDue (a || (decide (t.engine.store = .ready) && b)) t = endsDue (a || b) t := by
  by_cases h : t.engine.store = .ready
  · simp [h]
  · cases a <;> cases b <;> simp [h, endsDue, turnsReadOnly_of_not_ready h]

/-- A cause reported in a READY store takes effect whether or not one was due before. -/
theorem endsDue_or_decide_ready (a : Bool) (t : State) :
    endsDue (a || decide (t.engine.store = .ready)) t = turnsReadOnly t := by
  have := endsDue_or_ready a true t
  simpa [endsDue] using this

/-- What is due takes effect at the end of a step or job. -/
theorem applyReadOnly_eq (s : State) : s.applyReadOnly = endsDue s.engine.readOnlyDue (undue s) := by
  obtain ⟨w, q, ⟨est, esq, etc, ed, etx, rd, af⟩, ct, l, cm, sq, a, z, pi, fc, pe⟩ := s
  cases rd with
  | false => rfl
  | true =>
    by_cases hs : est = .ready <;>
      simp [State.applyReadOnly, endsDue, turnsReadOnly, undue, hs, State.setStore, State.raise, State.dropTxn, evStateChanged]

/-- A turn to READ_ONLY leaves the control and the sequencer. -/
theorem turnsReadOnly_ctl_seq (t : State) : (turnsReadOnly t).ctl = t.ctl ∧ (turnsReadOnly t).seq = t.seq := by
  unfold turnsReadOnly; split <;> exact ⟨rfl, rfl⟩

/-- What is due leaves the control and the sequencer. -/
theorem endsDue_ctl_seq (b : Bool) (t : State) : (endsDue b t).ctl = t.ctl ∧ (endsDue b t).seq = t.seq := by
  cases b
  · exact ⟨rfl, rfl⟩
  · exact turnsReadOnly_ctl_seq t

/-! ### Completions (R47, R164, R167) -/

/-- The state in which a completion has been posted and what is due has not taken effect yet. -/
def posted (s : State) (r : Request) (c : Completion) : State :=
  if r.isTxnRequest && decide (c.status ≠ .cancelled) then (s.clearControl.postRecord c).restartTimer
  else s.clearControl.postRecord c

/-- Posting ends with what is due. -/
theorem post_eq_posted (s : State) (r : Request) (c : Completion) : s.post r c = (posted s r c).applyReadOnly := rfl

/-- Posting a completion leaves what is due. -/
theorem posted_readOnlyDue (s : State) (r : Request) (c : Completion) :
    (posted s r c).engine.readOnlyDue = s.engine.readOnlyDue := by
  simp only [posted, State.restartTimer, State.postRecord]
  repeat' split
  all_goals rfl

/-- Posting a completion does not look at what is due. -/
theorem posted_undue (s : State) (r : Request) (c : Completion) : posted (undue s) r c = undue (posted s r c) := by
  simp only [posted, State.restartTimer, State.postRecord]
  repeat' split
  all_goals first | rfl | contradiction

/-- A completion is posted, and then what is due takes effect. -/
theorem post_eq (s : State) (r : Request) (c : Completion) :
    s.post r c = endsDue s.engine.readOnlyDue (completes (undue s) r c) := by
  have hc : undue (posted s r c) = completes (undue s) r c := by
    have h := post_eq_completes (undue s) r c rfl
    rw [post_eq_posted, applyReadOnly_eq, posted_undue] at h
    exact h
  rw [post_eq_posted, applyReadOnly_eq, posted_readOnlyDue, hc]

/-- A completed job is at rest. -/
theorem moves_post {s : State} (hp : s.seq.pending = none) (r : Request) (c : Completion) (n : Nat) :
    State.moves n (s.post r c) = endsDue s.engine.readOnlyDue (completes (undue s) r c) := by
  rw [post_eq]
  obtain ⟨hctl, hseq⟩ := endsDue_ctl_seq s.engine.readOnlyDue (completes (undue s) r c)
  refine moves_at_rest ?_ ?_ n
  · rw [hctl]; rfl
  · rw [hseq]; exact hp

end Sys2Proof.Certificates
end


-- ==== Sys2Proof/Proofs/Append.lean ====
section
/-! An append, step by step (R21 to R24): where an attempt is placed, and what each outcome of a line makes of it. -/

namespace Sys2Proof.Certificates

open Sys2Proof Sys2Proof.Machine

/-! ### The head's position (R14, R21) -/

/-- The head's next line is the one after its last used data line. -/
theorem headPos_of_head {s : State} {t : LogTables} {x : Nat} {ring hi : Seq} {c f lu n : Nat} (hl : s.log = some t)
    (hh : t.head = some x) (hr : t.record x = .head ring c f lu n hi) : s.headPos = some (x, lu + 1) := by
  simp only [State.headPos, hl, LogTables.headPos, hh, hr]

/-- Without a head there is no position. -/
theorem headPos_of_no_head {s : State} {t : LogTables} (hl : s.log = some t) (hh : t.head = none) : s.headPos = none := by
  simp only [State.headPos, hl, LogTables.headPos, hh]

/-- The FREE count is the length of the free list. -/
theorem freeCount_of_log {s : State} {t : LogTables} (hl : s.log = some t) : s.freeCount = t.free.length := by
  simp only [State.freeCount, hl]

/-- The FREE count does not look at the control. -/
theorem freeCount_waiting (s : State) (k : List Task) : (waiting s k).freeCount = s.freeCount := rfl

/-- The head's position does not look at the control. -/
theorem headPos_waiting (s : State) (k : List Task) : (waiting s k).headPos = s.headPos := rfl

/-! ### Closing and opening the head (R6, R7) -/

/-- The head's close line is issued with what its record holds. -/
theorem closeHead_waiting {s : State} {t : LogTables} {x : Nat} {ring hi : Seq} {c f lu n : Nat} (hf : Free s)
    (hl : s.log = some t) (hh : t.head = some x) (hr : t.record x = .head ring c f lu n hi) (k : List Task) :
    (waiting s k).closeHead = programs s (.closeHead x :: k) x 2 (.closed lu n hi f) := by
  have hl : (waiting s k).log = some t := hl
  simp only [State.closeHead, hl, hh, hr]
  exact issueProgram_waiting hf _ x 2 _

/-- The front of the free list is opened with the next ring sequence. -/
theorem openHead_waiting {s : State} {t : LogTables} {y : Nat} {rest : List Nat} (hf : Free s) (hl : s.log = some t)
    (ht : t.free = y :: rest) (k : List Task) :
    (waiting s k).openHead = programs { s with log := some { t with nextRing := t.nextRing + 1 } }
      (.openHead y t.nextRing :: k) y 1 (.opened s.formatId t.nextRing s.engine.seq) := by
  obtain ⟨sectors, free, ring, head, next⟩ := t
  obtain rfl : free = y :: rest := ht
  have hl' : (waiting s k).log = some _ := hl
  simp only [State.openHead, hl', State.withLog, Option.map_some]
  exact issueProgram_waiting (s := { s with log := some _ }) hf _ y 1 _

/-- With an empty free list no head is opened. -/
theorem openHead_waiting_empty {s : State} {t : LogTables} (hl : s.log = some t) (ht : t.free = []) (k : List Task) :
    (waiting s k).openHead = replying s k (.opened .noSector) := by
  have hl : (waiting s k).log = some t := hl
  simp only [State.openHead, hl, ht]
  rfl

/-! ### Where an attempt is placed (R21 to R24) -/

/-- A line of an attempt is issued to a free sequencer. -/
theorem programAttempt_waiting {s : State} (hf : Free s) (k : List Task) (j : AppendJob) (x st i : Nat) :
    (waiting s k).programAttempt j x st i = programs s (.append j (.programming x st i) :: k) x (st + i) (frameLine j i) :=
  issueProgram_waiting hf _ x (st + i) _

/-- A line of an attempt is REFUSED by a halted sequencer. -/
theorem programAttempt_waiting_halted {s : State} (hh : s.seq.halted = true) (k : List Task) (j : AppendJob) (x st i : Nat) :
    (waiting s k).programAttempt j x st i = replying s (.append j (.programming x st i) :: k) (.prog .refused) :=
  issueProgram_waiting_halted hh _ x (st + i) _

/-- An attempt that fits is programmed from the head's next line on. -/
theorem placeAttempt_of_fits {s : State} {x nl : Nat} {j : AppendJob} (h : s.headPos = some (x, nl))
    (hn : nl + j.header.lines ≤ 256) (k : List Task) (floor : Bool) :
    (waiting s k).placeAttempt j floor = (waiting s k).programAttempt j x nl 0 := by
  simp only [State.placeAttempt, headPos_waiting, h, fits, hn, decide_true, if_true]

/-- An attempt that does not fit needs a new head. -/
theorem placeAttempt_of_full {s : State} {x nl : Nat} {j : AppendJob} (h : s.headPos = some (x, nl))
    (hn : 256 < nl + j.header.lines) (k : List Task) (floor : Bool) :
    (waiting s k).placeAttempt j floor = (waiting s k).appendNewHead j floor := by
  simp only [State.placeAttempt, headPos_waiting, h, fits, Nat.not_le.2 hn, decide_false, Bool.false_eq_true, if_false]

/-- An attempt without a head needs a new one. -/
theorem placeAttempt_of_no_head {s : State} (h : s.headPos = none) (j : AppendJob) (k : List Task) (floor : Bool) :
    (waiting s k).placeAttempt j floor = (waiting s k).appendNewHead j floor := by
  simp only [State.placeAttempt, headPos_waiting, h]

/-- The FREE sectors that a new head leaves untouched: 2 for a first attempt of a HOST job, else 1 (R22). -/
def newHeadFloor (floor : Bool) : Nat := if floor then 2 else 1

/-- A head that is held is closed first when a new one is needed. -/
theorem appendNewHead_closes {s : State} {floor : Bool} {p : Nat × Nat} (hc : newHeadFloor floor ≤ s.freeCount)
    (h : s.headPos = some p) (j : AppendJob) (k : List Task) :
    (waiting s k).appendNewHead j floor = (waiting s (.append j .closingForRoom :: k)).closeHead := by
  have hc : ¬ (waiting s k).freeCount < (if floor then 2 else 1) := Nat.not_lt.2 hc
  simp only [State.appendNewHead, hc, if_false, headPos_waiting, h, Option.isSome_some, if_true]
  rfl

/-- Without a head the next one is opened. -/
theorem appendNewHead_opens {s : State} {floor : Bool} (hc : newHeadFloor floor ≤ s.freeCount) (h : s.headPos = none)
    (j : AppendJob) (k : List Task) :
    (waiting s k).appendNewHead j floor = (waiting s (.append j .opening :: k)).openHead := by
  have hc : ¬ (waiting s k).freeCount < (if floor then 2 else 1) := Nat.not_lt.2 hc
  simp only [State.appendNewHead, hc, if_false, headPos_waiting, h, Option.isSome_none, Bool.false_eq_true]
  rfl

/-- With no FREE sector left the append ends OUT_OF_SECTORS and the exhaustion is reported. -/
theorem appendNewHead_exhausted {s : State} (hc : s.freeCount = 0) (j : AppendJob) (k : List Task) :
    (waiting s k).appendNewHead j false = replying s.reportReadOnly k (.appended .outOfSectors) := by
  have hc : (waiting s k).freeCount < 1 := by rw [freeCount_waiting, hc]; exact Nat.one_pos
  simp only [State.appendNewHead, hc, Bool.false_eq_true, if_false, if_true, State.appendExhausted, State.appendEnds,
    reportReadOnly_eq]
  rfl

/-! ### After each line (R23, R24) -/

/-- The tables once a line of an attempt has been programmed. -/
theorem mapRecord_used (s : State) (x l : Nat) (k : List Task) :
    (waiting s k).mapRecord x (SectorRec.used l) =
      waiting { s with log := s.log.map (fun t => t.setRecord x ((t.record x).used l)) } k := rfl

/-- A line that passes is followed by the next line of the attempt. -/
theorem resume_append_next {s : State} {j : AppendJob} {i : Nat} (hi : i + 1 < j.header.lines) (k : List Task) (x st : Nat) :
    State.resume (waiting s k) (.append j (.programming x st i)) (.prog .pass) =
      (waiting { s with log := s.log.map (fun t => t.setRecord x ((t.record x).used (st + i))) } k).programAttempt
        j x st (i + 1) := by
  simp only [State.resume, State.appendReply, hi, if_true]
  rfl

/-- The last line that passes places the frame. -/
theorem resume_append_last {s : State} {j : AppendJob} {i : Nat} (hi : i + 1 = j.header.lines) (k : List Task) (x st : Nat) :
    State.resume (waiting s k) (.append j (.programming x st i)) (.prog .pass) =
      replying { s with
          log := s.log.map (fun t => t.setRecord x (((t.record x).used (st + i)).framed j.header.seq)) } k
        (.appended (.placed x st j.header.lines)) := by
  simp only [State.resume, State.appendReply, hi, Nat.lt_irrefl, if_false, State.mapRecord, State.withLog]
  rw [setRecord_twice]
  rfl

/-- A REFUSED line ends the append. -/
theorem resume_append_refused (s : State) (k : List Task) (j : AppendJob) (x st i : Nat) :
    State.resume (waiting s k) (.append j (.programming x st i)) (.prog .refused) = replying s k (.appended .refused) := rfl

/-- A line of the head that fails or is found not BLANK counts as used, and the fault count rises by one. -/
theorem resume_append_fails {s : State} {t : LogTables} {x : Nat} {ring hi : Seq} {c f lu n : Nat} (hl : s.log = some t)
    (hr : t.record x = .head ring c f lu n hi) {o : ProgOutcome} (ho : o = .fail ∨ o = .notBlank) (k : List Task)
    (j : AppendJob) (st i : Nat) :
    State.resume (waiting s k) (.append j (.programming x st i)) (.prog o) =
      (waiting { s with log := some (t.setRecord x (.head ring c (f + 1) (st + i) n hi)) } k).rewrite j x := by
  have key : ((waiting s k).mapRecord x (SectorRec.used (st + i))).mapRecord x SectorRec.faulted =
      waiting { s with log := some (t.setRecord x (.head ring c (f + 1) (st + i) n hi)) } k := by
    simp only [State.mapRecord, State.withLog]
    rw [setRecord_twice, show (waiting s k).log = some t from hl, Option.map_some, hr]
    rfl
  rcases ho with rfl | rfl <;> simp only [State.resume, State.appendReply, key]

/-- Below 3 faults the frame is written again. -/
theorem rewrite_again {s : State} {t : LogTables} {x : Nat} {ring hi : Seq} {c f lu n : Nat} (hl : s.log = some t)
    (hr : t.record x = .head ring c f lu n hi) (hf : f < 3) (k : List Task) (j : AppendJob) :
    (waiting s k).rewrite j x = (waiting s k).placeAttempt j false := by
  have hrec : (waiting s k).record x = .head ring c f lu n hi := by
    rw [← hr]; simp only [State.record, show (waiting s k).log = some t from hl]
  simp only [State.rewrite, hrec, SectorRec.faults, Nat.not_le.2 hf, if_false]

/-- At 3 faults the head is closed at once. -/
theorem rewrite_condemned {s : State} {t : LogTables} {x : Nat} {ring hi : Seq} {c f lu n : Nat} (hl : s.log = some t)
    (hr : t.record x = .head ring c f lu n hi) (hf : 3 ≤ f) (k : List Task) (j : AppendJob) :
    (waiting s k).rewrite j x = (waiting s (.append j .closingCondemned :: k)).closeHead := by
  have hrec : (waiting s k).record x = .head ring c f lu n hi := by
    rw [← hr]; simp only [State.record, show (waiting s k).log = some t from hl]
  simp only [State.rewrite, hrec, SectorRec.faults, hf, if_true]
  rfl

/-! ### Appends that end (R22 to R24, R54, R93) -/

/-- The state once an append's frame has been placed at line `st` of `x`, its last line being line `i` of the attempt. -/
def framePlaced (s : State) (j : AppendJob) (x st i : Nat) (d : LineData) : State :=
  { s with
    seq := programmed s.seq x (st + i) (.good d),
    log := s.log.map (fun t => t.setRecord x (((t.record x).used (st + i)).framed j.header.seq)) }

/-- The last line of an attempt passes: the frame is placed. -/
theorem exec_append_placed {s : State} {k : List Task} {j : AppendJob} {x st i : Nat} {d : LineData}
    (h : Programs (undue s) (.append j (.programming x st i) :: k) x (st + i) d) (hi : i + 1 = j.header.lines) :
    exec (.lineProgramDone true) s = .next (State.moves 8191
      (replying (framePlaced s j x st i d) k (.appended (.placed x st j.header.lines)))) := by
  rw [exec_program_passes h, settle_replying, resume_append_last hi]
  rfl

/-- The tables' head after a failed line, for the next attempt. -/
theorem head_after_fault {t : LogTables} {x : Nat} (hx : 2 ≤ x) (hx' : x < 64) (hlen : t.sectors.length = 62)
    (hh : t.head = some x) (r : SectorRec) : (t.setRecord x r).head = some x ∧ (t.setRecord x r).record x = r :=
  ⟨(setRecord_lists t x r).2.2.1.trans hh, record_setRecord t x r hx hx' hlen⟩

/-- A failed last attempt with no FREE sector left ends OUT_OF_SECTORS. -/
theorem exec_lastAttempt {s v : State} {k : List Task} {j : AppendJob} {x st i : Nat} (h : LastAttempt s k j x st i v) :
    ∀ event ∈ [Instr.lineProgramDone false, .programTimeout],
      exec event s = .next (State.moves 8191 (replying v.reportReadOnly k (.appended .outOfSectors))) := by
  obtain ⟨t, d, ring, w, f, lu, n, hi, hp, hl, hx, hx', hlen, hh, hr, hf, hfull, hfree, rfl⟩ := h
  intro event hev
  obtain ⟨hh', hr'⟩ := head_after_fault hx hx' hlen hh (.head ring w (f + 1) (st + i) n hi)
  have hfree' : (t.setRecord x (.head ring w (f + 1) (st + i) n hi)).free = [] := (setRecord_lists t x _).1.trans hfree
  rw [exec_program_fails hp event hev, settle_replying, resume_append_fails (by exact hl) hr (.inl rfl),
    rewrite_again rfl hr' hf, placeAttempt_of_full (headPos_of_head rfl hh' hr') (by omega),
    appendNewHead_exhausted (by rw [freeCount_of_log rfl, hfree']; rfl)]
  simp only [reportReadOnly_eq]
  rfl

/-- A line that passes, its next line being REFUSED, ends the append. -/
theorem exec_nextRefused {s v : State} {k : List Task} {j : AppendJob} {x st i : Nat} (h : NextRefused s k j x st i v) :
    exec (.lineProgramDone true) s = .next (State.moves 8190 (replying v k (.appended .refused))) := by
  obtain ⟨d, hp, hh, hi, rfl⟩ := h
  rw [exec_program_passes hp, settle_replying, resume_append_next hi, programAttempt_waiting_halted (by exact hh),
    moves_replying, resume_append_refused]
  rfl

end Sys2Proof.Certificates
end


-- ==== Sys2Proof/Proofs/FrameReads.lean ====
section
/-! Reading the frame of a LIVE entry (R17, R58, R91), and GET (R57 to R59). -/

namespace Sys2Proof.Certificates

open Sys2Proof Sys2Proof.Machine

/-! ### Header lines (R15, R17) -/

/-- A number field is not 0 exactly when it is at least 1. -/
theorem bitVec_ne_zero_iff {w : Nat} (v : BitVec w) : v ≠ 0 ↔ 1 ≤ v.toNat := by
  rw [Nat.one_le_iff_ne_zero, ne_eq, ne_eq, ← BitVec.toNat_inj]; simp

/-- A header is legal when its sequence and its transaction number are not 0, its value length is at most 256 and its member
count 1 to 8. -/
theorem legal_iff (h : FrameHeader) :
    h.legal = true ↔ 1 ≤ h.seq.toNat ∧ (∀ t, h.txn = some t → 1 ≤ t.toNat) ∧ (∀ k q m n, h = .put k q m n → n ≤ 256) ∧
      ∀ q t c, h = .commit q t c → 1 ≤ c ∧ c ≤ 8 := by
  have htxn : h.txn ≠ some 0 ↔ ∀ t, h.txn = some t → 1 ≤ t.toNat := by
    cases h.txn with
    | none => simp
    | some t => rw [ne_eq, Option.some.injEq]; simpa using bitVec_ne_zero_iff t
  simp only [FrameHeader.legal, Bool.and_eq_true, bne_iff_ne, bitVec_ne_zero_iff, htxn, and_assoc]
  cases h with
  | put k q m n =>
    simp only [decide_eq_true_eq, FrameHeader.put.injEq, reduceCtorEq, false_implies, implies_true, and_true]
    exact and_congr_right' (and_congr_right' ⟨fun h _ _ _ _ e => e.2.2.2 ▸ h, fun h => h k q m n ⟨rfl, rfl, rfl, rfl⟩⟩)
  | delete k q m => simp only [reduceCtorEq, false_implies, implies_true, and_true]
  | commit q t c =>
    simp only [Bool.and_eq_true, decide_eq_true_eq, FrameHeader.commit.injEq, reduceCtorEq, false_implies, implies_true,
      true_and]
    exact and_congr_right' (and_congr_right' ⟨fun h _ _ _ e => e.2.2 ▸ h, fun h => h q t c ⟨rfl, rfl, rfl⟩⟩)

/-- A frame's header line gives its fields exactly when they are legal. -/
theorem asHeader_frame (h g : FrameHeader) : (LineData.frame h).asHeader = some g ↔ g = h ∧ h.legal = true := by
  simp only [LineData.asHeader, Option.filter_some, Option.ite_none_right_eq_some, Option.some.injEq, eq_comm (a := g)]
  exact and_comm

/-- A header line matches a LIVE entry when it gives a legal PUT header with the entry's fields, whose lines fit. -/
theorem headerMatches_iff (e : Entry) (n : Nat) (l : Line) : headerMatches e n l = true ↔
    e.line + putLines n - 1 ≤ 255 ∧ ∃ d m, l = .good d ∧ d.asHeader = some (.put e.key e.version m n) := by
  have hfit : e.line + putLines n ≤ 256 ↔ e.line + putLines n - 1 ≤ 255 := by omega
  cases l with
  | blank => simp [headerMatches]
  | defective => simp [headerMatches]
  | good d =>
    cases hd : d.asHeader with
    | none => simp [headerMatches, hd]
    | some h =>
      cases h with
      | put k q m len =>
        simp only [headerMatches, hd, Bool.and_eq_true, decide_eq_true_eq, hfit]
        constructor
        · rintro ⟨⟨⟨rfl, rfl⟩, rfl⟩, hl⟩
          exact ⟨hl, d, m, rfl, hd⟩
        · rintro ⟨hl, d', m', hd', hh⟩
          obtain rfl : d = d' := Line.good.inj hd'
          rw [hd] at hh
          obtain ⟨rfl, rfl, -, rfl⟩ := FrameHeader.put.inj (Option.some.inj hh)
          exact ⟨⟨⟨rfl, rfl⟩, rfl⟩, hl⟩
      | delete k q m => simp [headerMatches, hd]
      | commit q t c => simp [headerMatches, hd]

/-- A line of another kind gives no header. -/
theorem asHeader_other {d : LineData} (h1 : ∀ h, d ≠ .frame h) (h2 : ∀ b, d ≠ .payload b) : d.asHeader = none := by
  cases d with
  | frame h => exact absurd rfl (h1 h)
  | payload b => exact absurd rfl (h2 b)
  | _ => rfl

/-- What a header line must hold. -/
theorem headerTests : HeaderTests :=
  ⟨headerMatches_iff, fun h g => by rw [asHeader_frame, legal_iff], fun _ => asHeader_other⟩

/-! ### The lines of the frame in order (R58, R91) -/

section
variable {s : State} {e : Entry} {n : Nat} (hn : e.live = some n) (k : List Task)
include hn

/-- A header line that does not match ends the read without a value. -/
theorem resume_readFrame_mismatch {l : Line} (hm : headerMatches e n l = false) (got : List Byte) :
    State.resume (waiting s k) (.readFrame e 0 got) (.line l) = replying s k (.frame none) := by
  simp only [State.resume, State.readFrameReply, hn, Option.getD_some, if_true, hm, Bool.false_eq_true, if_false]
  rfl

/-- A header line that matches is the whole frame of an empty value. -/
theorem resume_readFrame_empty {l : Line} (hm : headerMatches e n l = true) (h0 : n = 0) (got : List Byte) :
    State.resume (waiting s k) (.readFrame e 0 got) (.line l) = replying s k (.frame (some [])) := by
  subst h0
  simp only [State.resume, State.readFrameReply, hn, Option.getD_some, if_true, hm]
  rfl

/-- A header line that matches is followed by the first payload line. -/
theorem resume_readFrame_header {l : Line} (hm : headerMatches e n l = true) (h0 : 0 < n) (he : s.seq.erase = none)
    (got : List Byte) :
    State.resume (waiting s k) (.readFrame e 0 got) (.line l) = reads s (.readFrame e 1 [] :: k) e.sector (e.line + 1) := by
  have : 0 + 1 < putLines n := by unfold putLines; omega
  simp only [State.resume, State.readFrameReply, hn, Option.getD_some, if_true, hm, this]
  exact issueRead_waiting he _ _ _

/-- A payload line that does not read GOOD ends the read without a value. -/
theorem resume_readFrame_lost {l : Line} {i : Nat} (hi : 0 < i) (hl : ∀ d, l ≠ .good d) (got : List Byte) :
    State.resume (waiting s k) (.readFrame e i got) (.line l) = replying s k (.frame none) := by
  simp only [State.resume, State.readFrameReply, hn, Option.getD_some, Nat.ne_of_gt hi, if_false]
  cases l with
  | good d => exact absurd rfl (hl d)
  | blank | defective => rfl

/-- A payload line that reads GOOD is followed by the next one. -/
theorem resume_readFrame_next {d : LineData} {i : Nat} (hi : 0 < i) (hnext : i + 1 < putLines n) (he : s.seq.erase = none)
    (got : List Byte) :
    State.resume (waiting s k) (.readFrame e i got) (.line (.good d)) =
      reads s (.readFrame e (i + 1) (got ++ d.asPayload.toList) :: k) e.sector (e.line + (i + 1)) := by
  simp only [State.resume, State.readFrameReply, hn, Option.getD_some, Nat.ne_of_gt hi, if_false, hnext, if_true]
  exact issueRead_waiting he _ _ _

/-- The last payload line that reads GOOD gives the value. -/
theorem resume_readFrame_last {d : LineData} {i : Nat} (hi : 0 < i) (hlast : putLines n ≤ i + 1) (got : List Byte) :
    State.resume (waiting s k) (.readFrame e i got) (.line (.good d)) =
      replying s k (.frame (some ((got ++ d.asPayload.toList).take n))) := by
  simp only [State.resume, State.readFrameReply, hn, Option.getD_some, Nat.ne_of_gt hi, if_false, Nat.not_lt.2 hlast]
  rfl

end

/-- The frame of an entry is read from its header line on. -/
theorem readFrameBegin_waiting {s : State} (he : s.seq.erase = none) (k : List Task) (e : Entry) :
    (waiting s k).readFrameBegin e = reads s (.readFrame e 0 [] :: k) e.sector e.line := issueRead_waiting he _ _ _

/-! ### GET (R57 to R59) -/

/-- A request of a kind without IN_TXN is of its kind's plain row. -/
theorem isPlain_of {r : Request} {kind : Byte} (hk : r.kind = kind) (ht : r.inTxn = false) : isPlain kind r = true := by
  simp only [isPlain, hk, ht, beq_self_eq_true, Bool.not_false, Bool.and_self]

/-- The command that takes a GET runs its body. -/
theorem exec_get_of_serves {s : State} {r : Request} (h : Serves s r) (hk : r.kind = 2) (ht : r.inTxn = false) :
    exec .get s = .next (getBody r (taken s r)).settle := by
  simp only [exec, execGet]
  exact congrArg _ (taking_of_serves h _ _ (isPlain_of hk ht))

/-- What a taken request finds due and waiting to begin: nothing. -/
theorem taken_of_takes {s : State} {r : Request} (h : Takes s r) :
    (taken s r).engine.readOnlyDue = false ∧ (taken s r).seq.pending = none ∧
      waiting (taken s r) [] = taken s r := by
  obtain ⟨-, -, -, -, -, -, hctl, hdue, hpend⟩ := h
  exact ⟨(taken_readOnlyDue s r).trans hdue, hpend, waiting_eq_self hctl⟩

/-- A taken request that is answered at once completes. -/
theorem settle_answer {s : State} {r : Request} (h : Takes s r) (c : Completion) :
    ((taken s r).post r c).settle = completes (taken s r) r c := by
  obtain ⟨hdue, hpend, -⟩ := taken_of_takes h
  exact settle_post hdue hpend rfl

/-- Nothing moves once a job has completed. -/
theorem moves_completes {s : State} (hp : s.seq.pending = none) (n : Nat) (r : Request) (c : Completion) :
    State.moves n (completes s r c) = completes s r c := moves_at_rest (s := completes s r c) rfl hp n

/-- A frame that matches completes a GET OK with its value. -/
theorem moves_get_value {t : State} (hd : t.engine.readOnlyDue = false) (hp : t.seq.pending = none) (r : Request) {e : Entry}
    {m : Nat} (hn : e.live = some m) (v : List Byte) (n : Nat) :
    State.moves (n + 1) (replying t [.get r e] (.frame (some v))) =
      completes t r { plain r .ok with version := e.version, length := m, payload := v } := by
  rw [moves_replying]
  simp only [State.resume, State.getReply, hn, Option.getD_some]
  rw [post_eq_completes (waiting t []) _ _ hd]
  exact moves_completes (by exact hp) n _ _

/-- A frame that does not match is a media loss: a GET completes MEDIA_FAULT (R59). -/
theorem moves_get_lost {t : State} (hd : t.engine.readOnlyDue = false) (hp : t.seq.pending = none) (r : Request) (e : Entry)
    (n : Nat) :
    State.moves (n + 1) (replying t [.get r e] (.frame none)) =
      completes { t with window := { t.window with events := t.window.events ||| 0x08, lossKey := r.key } } r
        { plain r .mediaFault with version := e.version } := by
  rw [moves_replying]
  simp only [State.resume, State.getReply, State.answerRecord]
  rw [post_eq_completes ((waiting t []).raiseMediaLoss r.key) _ _ hd]
  exact moves_completes (by exact hp) n _ _

/-- Settles O28: the read test and the directory decide how a GET begins, and each line how its read goes on. -/
theorem getReadsFrame : Obligations.GetReadsFrame := by
  refine ⟨headerTests, fun s r h hk ht => ⟨fun st ha => ?_, fun ha hnone => ?_, fun e n ha hlive he => ?_⟩,
    fun s r e n i got h hn => ?_⟩
  · rw [exec_get_of_serves h hk ht, getBody, taken_readAccess, ha]
    exact congrArg _ (settle_answer h.1.1 _)
  · rw [exec_get_of_serves h hk ht, getBody, taken_readAccess, ha]
    simp only [committedGet, taken_dir, hnone]
    exact congrArg _ (settle_answer h.1.1 _)
  · obtain ⟨-, hp, hw⟩ := taken_of_takes h.1.1
    rw [exec_get_of_serves h hk ht, getBody, taken_readAccess, ha]
    simp only [committedGet, taken_dir, hlive]
    rw [← hw, push_waiting, readFrameBegin_waiting (by exact he), State.settle, moves_reads hp, hw]
  · intro l t lost
    have ⟨_, _, _, hp, hd⟩ := h
    rw [exec_lineReadDone h, settle_replying]
    refine ⟨fun hi hm => ?_, fun hi hm h0 => ?_, fun hi hm h0 he => ?_, fun hi hl => ?_, fun d hi hl hnext he => ?_,
      fun d hi hl hlast => ?_⟩
    · subst hi
      rw [resume_readFrame_mismatch hn _ hm, moves_get_lost (by exact hd) (by exact hp)]
    · subst hi
      rw [resume_readFrame_empty hn _ hm h0, moves_get_value (by exact hd) (by exact hp) r hn, h0]; rfl
    · subst hi
      rw [resume_readFrame_header hn _ hm h0 (by exact he), moves_reads (by exact hp)]
    · rw [resume_readFrame_lost hn _ hi hl, moves_get_lost (by exact hd) (by exact hp)]
    · rw [show s.lineAt e.sector (e.line + i) = .good d from hl, resume_readFrame_next hn _ hi hnext (by exact he),
        moves_reads (by exact hp)]
    · rw [show s.lineAt e.sector (e.line + i) = .good d from hl, resume_readFrame_last hn _ hi hlast,
        moves_get_value (by exact hd) (by exact hp) r hn]

end Sys2Proof.Certificates
end


-- ==== Sys2Proof/Proofs/HostWrites.lean ====
section
/-! PUT, DELETE and COMMIT: the first append of an admitted write, and what each outcome of an append makes of it (R53, R54, R56,
R75 to R79). -/

namespace Sys2Proof.Certificates

open Sys2Proof Sys2Proof.Machine

/-! ### The store sequence and its limit (R19, R20) -/

/-- The sequence after S, while S has not reached its greatest value. -/
theorem seq_add_one_toNat {q : Seq} (h : q ≠ 4294967295) : (q + 1).toNat = q.toNat + 1 := by
  have hlt := q.isLt
  have hne : q.toNat ≠ 4294967295 := fun he => h (BitVec.eq_of_toNat_eq he)
  rw [BitVec.toNat_add, show BitVec.toNat (1 : Seq) = 1 from rfl, Nat.mod_eq_of_lt (by omega)]

/-- A new frame raises S; reaching the limit is a READ_ONLY cause in a READY store. -/
theorem bumpSeq_eq {s : State} (h : s.engine.seq ≠ 4294967295) :
    s.bumpSeq = { s with engine := { s.engine with
      seq := s.engine.seq + 1,
      readOnlyDue := s.engine.readOnlyDue || (decide (s.engine.store = .ready) && limitReached s) } } := by
  simp only [State.bumpSeq, Config.sequenceLimit, seq_add_one_toNat h, limitReached]
  split <;> rename_i hl
  · simp only [reportReadOnly_eq, hl, decide_true, Bool.and_true]
  · simp only [hl, decide_false, Bool.and_false, Bool.or_false]

/-- The state once a frame of a host write has been placed: S has risen, the no-gain count is 0, and S at its limit is a
READ_ONLY cause in a READY store. -/
def hostAdvanced (s : State) : State :=
  { s with
    comp := { s.comp with noGain := 0 },
    engine := { s.engine with
      seq := s.engine.seq + 1,
      readOnlyDue := s.engine.readOnlyDue || (decide (s.engine.store = .ready) && limitReached s) } }

/-- A placed frame of a host write raises S and sets the no-gain count to 0. -/
theorem hostPlaced_eq {s : State} (h : s.engine.seq ≠ 4294967295) : s.hostPlaced = hostAdvanced s := by
  simp only [State.hostPlaced, bumpSeq_eq h, hostAdvanced]

/-! ### How a host write ends (R53, R54, R79) -/

/-- A completion leaves the store state. -/
@[simp] theorem completes_store (s : State) (r : Request) (c : Completion) :
    (completes s r c).engine.store = s.engine.store := by
  simp only [completes]; split <;> rfl

/-- A job that ends after a reported cause makes a READY store READ_ONLY. -/
theorem moves_post_reported {s : State} (hp : s.seq.pending = none) (r : Request) (c : Completion) (n : Nat) :
    State.moves n (s.reportReadOnly.post r c) = turnsReadOnly (completes (undue s) r c) := by
  have hu : undue s.reportReadOnly = undue s := by rw [reportReadOnly_eq]; rfl
  have hp : s.reportReadOnly.seq.pending = none := by rw [reportReadOnly_eq]; exact hp
  rw [moves_post hp, hu, reportReadOnly_eq]
  have := endsDue_or_decide_ready s.engine.readOnlyDue (completes (undue s) r c)
  rwa [completes_store] at this

/-- A host write whose append has run out of sectors completes MEDIA_FAULT. -/
theorem moves_write_outOfSectors {v : State} (hp : v.seq.pending = none) (w : StalledWrite) (n : Nat) :
    State.moves (n + 1) (replying v.reportReadOnly [writeTask w] (.appended .outOfSectors)) =
      turnsReadOnly (completes (undue v) w.request (plain w.request .mediaFault)) := by
  rw [moves_replying]
  have h : State.resume (waiting v.reportReadOnly []) (writeTask w) (.appended .outOfSectors) =
      (waiting v []).reportReadOnly.post w.request (plain w.request .mediaFault) := by
    simp only [reportReadOnly_eq]
    cases w <;> rfl
  rw [h, moves_post_reported (by exact hp)]
  rfl

/-- A host write whose append has been refused completes HALTED. -/
theorem moves_write_refused {v : State} (hp : v.seq.pending = none) (w : StalledWrite) (n : Nat) :
    State.moves (n + 1) (replying v [writeTask w] (.appended .refused)) =
      endsDue v.engine.readOnlyDue (completes (undue v) w.request (plain w.request .halted)) := by
  rw [moves_replying]
  have h : State.resume (waiting v []) (writeTask w) (.appended .refused) =
      (waiting v []).post w.request (plain w.request .halted) := by cases w <;> rfl
  rw [h, moves_post (by exact hp)]
  rfl

/-- The failed ends of an append, for a request whose write waits as `task r`. -/
theorem hostFails_of_write (write : Request → StalledWrite) (hr : ∀ r, (write r).request = r) :
    HostFails (fun r => writeTask (write r)) := by
  intro s r j x st i v
  refine ⟨fun h event hev => ?_, fun h => ?_⟩
  · rw [exec_lastAttempt h event hev]
    obtain ⟨t, d, ring, w, f, lu, n, hi, ⟨-, -, -, hp, -, -⟩, -, -, -, -, -, -, -, -, -, rfl⟩ := h
    rw [moves_write_outOfSectors (by exact hp), hr]
  · rw [exec_nextRefused h]
    obtain ⟨d, ⟨-, -, -, hp, -, -⟩, -, -, rfl⟩ := h
    rw [moves_write_refused (by exact hp), hr]

/-! ### How a host write begins (R21, R22, R53, R56, R77) -/

/-- The first append of a write, at sequence `q`. -/
def hostJob (q : Seq) (w : StalledWrite) : AppendJob :=
  { header := (firstFrame q w).1, value := (firstFrame q w).2, host := true, programmed := false }

/-- A write that has written nothing yet proceeds with its first frame. -/
theorem writeProceeds_waiting {w : StalledWrite} (hw : Fresh w) (u : State) :
    (waiting u []).writeProceeds w = (waiting u [writeTask w]).placeAttempt (hostJob u.engine.seq w) true := by
  cases w with
  | put r => rfl
  | delete r => rfl
  | commit c =>
    obtain ⟨hplaced, hstaged⟩ := hw
    obtain ⟨req, number, staged, placed⟩ := c
    obtain rfl : placed = [] := hplaced
    cases staged with
    | nil => exact absurd rfl hstaged
    | cons e rest => cases hv : e.value <;> simp [State.writeProceeds, State.commitAppend, commitHeader, hv, State.appendBegin,
        hostJob, firstFrame, memberFrame, writeTask, State.push, waiting]

/-- The first frame takes no more lines than the write. -/
theorem firstFrame_lines_le {w : StalledWrite} (hw : Fresh w) (q : Seq) : (firstFrame q w).1.lines ≤ w.lines := by
  cases w with
  | put r => exact Nat.le_refl _
  | delete r => exact Nat.le_refl _
  | commit c =>
    obtain ⟨-, hstaged⟩ := hw
    obtain ⟨req, number, staged, placed⟩ := c
    cases staged with
    | nil => exact absurd rfl hstaged
    | cons e rest =>
      have he : (memberFrame e q number).1.lines = e.lines := by
        cases hv : e.value <;> simp [memberFrame, hv, Staged.lines, FrameHeader.lines]
      simp only [firstFrame, List.head?_cons, he, StalledWrite.lines, commitLines, List.map_cons, List.sum_cons]
      omega

/-- An admitted write that fits in the head has its first header line issued at the head's next line. -/
theorem writeAdmitted_programs {u : State} {w : StalledWrite} (hf : Free u) (hw : Fresh w) {x nl : Nat}
    (h : u.headPos = some (x, nl)) (hn : nl + w.lines ≤ 256) :
    (waiting u []).writeAdmitted w = programs u
      [.append (hostJob u.engine.seq w) (.programming x nl 0), writeTask w] x nl (.frame (firstFrame u.engine.seq w).1) := by
  have hlines := firstFrame_lines_le hw u.engine.seq
  rw [writeAdmitted_of_fits (by exact h) hn, writeProceeds_waiting hw,
    placeAttempt_of_fits h (by simp only [hostJob]; omega), programAttempt_waiting hf]
  rfl

/-! ### PUT and DELETE -/

/-- The command that takes a PUT runs its body. -/
theorem exec_put_of_serves {s : State} {r : Request} (h : Serves s r) (hk : r.kind = 1) (ht : r.inTxn = false) :
    exec .put s = .next (putBody r (taken s r)).settle := by
  simp only [exec, execPut]
  exact congrArg _ (taking_of_serves h _ _ (isPlain_of hk ht))

/-- The command that takes a DELETE runs its body. -/
theorem exec_delete_of_serves {s : State} {r : Request} (h : Serves s r) (hk : r.kind = 3) (ht : r.inTxn = false) :
    exec .delete s = .next (deleteBody r (taken s r)).settle := by
  simp only [exec, execDelete]
  exact congrArg _ (taking_of_serves h _ _ (isPlain_of hk ht))

/-- A PUT that passes its checks is admitted. -/
theorem putBody_admits {s : State} {r : Request} (ha : s.writeAccess (zoneOf r.key) = none)
    (hc : conditionFails s.engine.dir.entries r.key r.condition = none)
    (hadm : s.engine.dir.admission s.limit (writeCharge s.engine.dir.entries r.key (putLines r.payload.length))
      (newEntryOf s.engine.dir.entries r.key) = none) :
    putBody r (taken s r) = (taken s r).writeAdmitted (.put r) := by
  simp only [putBody, taken_writeAccess, ha, taken_dir, hc, taken_limit, Request.valueLength, hadm]

/-- A DELETE that passes its checks is admitted. -/
theorem deleteBody_admits {s : State} {r : Request} {e : Entry} {n : Nat} (ha : s.writeAccess (zoneOf r.key) = none)
    (hlive : findLive s.engine.dir.entries r.key = some (e, n))
    (hc : conditionFails s.engine.dir.entries r.key r.condition = none)
    (hadm : s.engine.dir.admission s.limit (writeCharge s.engine.dir.entries r.key 1) 0 = none) :
    deleteBody r (taken s r) = (taken s r).writeAdmitted (.delete r) := by
  simp only [deleteBody, taken_writeAccess, ha, taken_dir, hlive, Option.isNone_some, Bool.false_eq_true, if_false, hc,
    taken_limit, hadm]

/-- The first header line of a write that has been admitted and fits in the head. -/
theorem settle_writeAdmitted {u : State} (hc : u.ctl = { stack := [], reply := none }) (hp : u.seq.pending = none) (hf : Free u)
    {w : StalledWrite} (hw : Fresh w) {x nl : Nat} (hh : u.headPos = some (x, nl)) (hn : nl + w.lines ≤ 256) :
    (u.writeAdmitted w).settle = programs u
      [.append (hostJob u.engine.seq w) (.programming x nl 0), writeTask w] x nl (.frame (firstFrame u.engine.seq w).1) := by
  have := writeAdmitted_programs hf hw hh hn
  rw [waiting_eq_self hc] at this
  rw [this, State.settle, moves_programs hp]

/-- The first header line of a taken write. -/
theorem settle_admitted {s : State} {r : Request} {w : StalledWrite} (h : Takes s r) (hf : Free s) (hw : Fresh w) {x nl : Nat}
    (hh : s.headPos = some (x, nl)) (hn : nl + w.lines ≤ 256) :
    ((taken s r).writeAdmitted w).settle = programs (taken s r)
      [.append (hostJob s.engine.seq w) (.programming x nl 0), writeTask w] x nl (.frame (firstFrame s.engine.seq w).1) := by
  obtain ⟨-, -, -, -, -, -, hctl, -, hpend⟩ := h
  rw [settle_writeAdmitted (u := taken s r) hctl hpend hf hw hh hn, taken_engineSeq]

/-- The end of a host write whose last frame has been placed: S and the no-gain count, the directory, the completion, and what is
due, S's limit among it. -/
theorem moves_placed_post {s : State} (hp : s.seq.pending = none) (hq : s.engine.seq ≠ 4294967295) (f : Directory → Directory)
    (r : Request) (c : Completion) (n : Nat) :
    State.moves n (((waiting s []).hostPlaced.withDir f).post r c) =
      endsDue (s.engine.readOnlyDue || limitReached s) (completes
        { s with
          comp := { s.comp with noGain := 0 },
          engine := { s.engine with seq := s.engine.seq + 1, dir := f s.engine.dir, readOnlyDue := false } } r c) := by
  rw [hostPlaced_eq (s := waiting s []) hq, moves_post (by exact hp)]
  have := endsDue_or_ready s.engine.readOnlyDue (limitReached s) (completes
    { s with
      comp := { s.comp with noGain := 0 },
      engine := { s.engine with seq := s.engine.seq + 1, dir := f s.engine.dir, readOnlyDue := false } } r c)
  rw [completes_store] at this
  exact this

/-- Settles O25: the admitted PUT's first append, its placed frame and its failed ends. -/
theorem putAppends : Obligations.PutAppends := by
  refine ⟨fun s r x nl h hf hk ht ha hc hadm hh hn => ?_, fun s r j x st i d h hi hq => ?_, hostFails_of_write .put (fun _ => rfl)⟩
  · rw [exec_put_of_serves h hk ht, putBody_admits ha hc hadm, settle_admitted (w := .put r) h.1.1 hf trivial hh hn]
    rfl
  · have ⟨_, _, _, hp, _, _⟩ := h
    rw [exec_append_placed h hi, moves_replying]
    exact congrArg _ (moves_placed_post (s := framePlaced s j x st i d) hp hq
      (fun dir => dir.installLive r.key s.engine.seq x st r.payload.length) r _ _)

/-- Settles O26: the admitted DELETE's tombstone, its placed frame and its failed ends. -/
theorem deleteAppends : Obligations.DeleteAppends := by
  refine ⟨fun s r e n x nl h hf hk ht ha hlive hc hadm hh hn => ?_, fun s r j x st i d h hi hq => ?_,
    hostFails_of_write .delete (fun _ => rfl)⟩
  · rw [exec_delete_of_serves h hk ht, deleteBody_admits ha hlive hc hadm, settle_admitted (w := .delete r) h.1.1 hf trivial hh hn]
    rfl
  · have ⟨_, _, _, hp, _, _⟩ := h
    rw [exec_append_placed h hi, moves_replying]
    exact congrArg _ (moves_placed_post (s := framePlaced s j x st i d) hp hq
      (fun dir => dir.markDead r.key s.engine.seq x st) r _ _)

/-! ### COMMIT -/

/-- The state in which a COMMIT's list is rechecked: taken, the transaction closed (R75, R78). -/
def commitTaken (s : State) (r : Request) : State :=
  { taken s r with engine := { s.engine with txn := { s.engine.txn with openTxn := none, timer := .stopped } } }

/-- Taking a COMMIT closes the transaction. -/
theorem dropTxn_taken (s : State) (r : Request) : (taken s r).dropTxn = commitTaken s r := by
  simp only [taken, commitTaken, State.dropTxn]
  split <;> rfl

/-- The command that takes a COMMIT runs its body. -/
theorem exec_commit_of_serves {s : State} {r : Request} (h : Serves s r) (hk : r.kind = 6) :
    exec .commit s = .next (commitBody r (taken s r)).settle := by
  simp only [exec, execCommit]
  exact congrArg _ (taking_of_serves h _ _ (beq_iff_eq.2 hk))

/-- A COMMIT answered at once completes. -/
theorem settle_commit_answer {s : State} {r : Request} (h : Takes s r) (c : Completion) :
    ((commitTaken s r).post r c).settle = completes (commitTaken s r) r c := by
  obtain ⟨-, -, -, -, -, -, -, hdue, hpend⟩ := h
  exact settle_post hdue hpend rfl

/-- A commit's charge is the sum of its entries' changes to A. -/
theorem commitCharge_eq_sum (es : List Entry) : ∀ l : List Staged,
    commitCharge es l = (l.map (fun e => (e.lines : Int) - (chargeOf es e.key : Int))).sum
  | [] => rfl
  | e :: rest => by rw [commitCharge, commitCharge_eq_sum es rest]; rfl

/-- A commit's new entries are its staged PUT entries whose key is absent. -/
theorem commitNewEntries_eq_length (es : List Entry) : ∀ l : List Staged,
    commitNewEntries es l = (l.filter (fun e => e.value.isSome && (findEntry es e.key).isNone)).length
  | [] => rfl
  | e :: rest => by
    rw [commitNewEntries, commitNewEntries_eq_length es rest, newEntryOf, List.filter_cons]
    cases e.value <;> cases findEntry es e.key <;> simp [Nat.add_comm]

/-- The space test passes when A stays within L or falls (R33). -/
theorem spacePasses_iff (a l : Nat) (delta : Int) : spacePasses a l delta = true ↔ (a : Int) + delta ≤ l ∨ delta < 0 := by
  simp only [spacePasses, Bool.or_eq_true, decide_eq_true_eq]
  omega

/-- A write that fails the space test is not admitted. -/
theorem admission_full {d : Directory} {l : Nat} {delta : Int} (h : ¬ ((d.accounted : Int) + delta ≤ l ∨ delta < 0)) (n : Nat) :
    d.admission l delta n = some .full := by
  rw [← spacePasses_iff, Bool.not_eq_true] at h
  simp only [Directory.admission, h, Bool.not_false, if_true]

/-- A write that passes the space test and fails the room test is not admitted. -/
theorem admission_noRoom {d : Directory} {l n : Nat} {delta : Int} (h : (d.accounted : Int) + delta ≤ l ∨ delta < 0)
    (hn : 1024 < d.entries.length + n) : d.admission l delta n = some .noRoom := by
  rw [← spacePasses_iff] at h
  simp only [Directory.admission, h, Bool.not_true, Bool.false_eq_true, if_false, Config.directoryCapacity, hn, if_true]

section
variable {s : State} {r : Request} {t : OpenTxn}

/-- An empty list completes at once. -/
theorem commitBody_empty (ht : s.engine.txn.openTxn = some t) (he : t.staged = []) :
    commitBody r (taken s r) = (commitTaken s r).post r (plain r .ok) := by
  simp only [commitBody, taken_openTxn, ht, he, dropTxn_taken, List.isEmpty_nil, if_true]
  rfl

/-- The first staged entry that fails the recheck gives the CONFLICT. -/
theorem commitBody_conflict (ht : s.engine.txn.openTxn = some t) {e : Staged} (he : t.staged.find? (fun x => !s.recheckPasses x) = some e) :
    commitBody r (taken s r) = (commitTaken s r).post r { plain r .conflict with
      key := e.key, version := (liveContents s.engine.dir.entries e.key).1,
      length := (liveContents s.engine.dir.entries e.key).2 } := by
  have hne : t.staged.isEmpty = false := by
    cases hs : t.staged with
    | nil => rw [hs] at he; cases he
    | cons => rfl
  have he : t.staged.find? (fun x => !(commitTaken s r).recheckPasses x) = some e := he
  simp only [commitBody, taken_openTxn, ht, dropTxn_taken, hne, Bool.false_eq_true, if_false, he]
  rfl

/-- A list that passes the recheck has no entry that fails it. -/
theorem recheck_finds_none (hall : t.staged.all s.recheckPasses = true) :
    t.staged.find? (fun x => !(commitTaken s r).recheckPasses x) = none := by
  rw [List.find?_eq_none]
  intro x hx
  have hx : (commitTaken s r).recheckPasses x = true := List.all_eq_true.1 hall x hx
  rw [hx]; exact Bool.false_ne_true

/-- A list that passes the recheck and is not admitted is answered with admission's status. -/
theorem commitBody_turned_away (ht : s.engine.txn.openTxn = some t) (hne : t.staged ≠ [])
    (hall : t.staged.all s.recheckPasses = true) {st : Status}
    (hadm : s.engine.dir.admission s.limit (commitCharge s.engine.dir.entries t.staged)
      (commitNewEntries s.engine.dir.entries t.staged) = some st) :
    commitBody r (taken s r) = (commitTaken s r).post r (plain r st) := by
  have hadm : (commitTaken s r).engine.dir.admission (commitTaken s r).limit
      (commitCharge (commitTaken s r).engine.dir.entries t.staged)
      (commitNewEntries (commitTaken s r).engine.dir.entries t.staged) = some st := hadm
  simp only [commitBody, taken_openTxn, ht, dropTxn_taken, List.isEmpty_eq_false_iff.2 hne, Bool.false_eq_true, if_false,
    recheck_finds_none hall, hadm]
  rfl

/-- A list that passes the recheck and is admitted goes on to its first append. -/
theorem commitBody_admits (ht : s.engine.txn.openTxn = some t) (hne : t.staged ≠ [])
    (hall : t.staged.all s.recheckPasses = true)
    (hadm : s.engine.dir.admission s.limit (commitCharge s.engine.dir.entries t.staged)
      (commitNewEntries s.engine.dir.entries t.staged) = none) :
    commitBody r (taken s r) = (commitTaken s r).writeAdmitted
      (.commit { request := r, number := t.number, staged := t.staged, placed := [] }) := by
  have hadm : (commitTaken s r).engine.dir.admission (commitTaken s r).limit
      (commitCharge (commitTaken s r).engine.dir.entries t.staged)
      (commitNewEntries (commitTaken s r).engine.dir.entries t.staged) = none := hadm
  simp only [commitBody, taken_openTxn, ht, dropTxn_taken, List.isEmpty_eq_false_iff.2 hne, Bool.false_eq_true, if_false,
    recheck_finds_none hall, hadm]

end

/-- A COMMIT's job after one more placed frame. -/
def withPlaced (c : CommitJob) (p : Seq × Nat × Nat) : CommitJob := { c with placed := c.placed ++ [p] }

/-- The append of the frame that follows those already placed. -/
def nextJob (c : CommitJob) (q : Seq) : AppendJob :=
  { header := (commitHeader c q).1, value := (commitHeader c q).2, host := true, programmed := true }

/-- A member frame that is placed is followed by the next frame, under the compaction-open floor. -/
theorem resume_commit_next {s : State} {c : CommitJob} (hq : s.engine.seq ≠ 4294967295)
    (hc : c.placed.length < c.staged.length) (x st lines : Nat) :
    State.resume (waiting s []) (.commit c) (.appended (.placed x st lines)) =
      (waiting (hostAdvanced s) [.commit (withPlaced c (s.engine.seq, x, st))]).placeAttempt
        (nextJob (withPlaced c (s.engine.seq, x, st)) (s.engine.seq + 1)) false := by
  have hne : (c.placed ++ [(s.engine.seq, x, st)]).isEmpty = false := by
    rw [List.isEmpty_eq_false_iff]; exact List.concat_ne_nil _ _
  simp only [State.resume, State.commitReply, hc, if_true, hostPlaced_eq (s := waiting s []) hq, State.commitAppend,
    State.appendBegin]
  rw [show (waiting s []).engine.seq = s.engine.seq from rfl, hne]
  rfl

/-- The frame that follows the one just placed. -/
theorem commitHeader_next (c : CommitJob) (p : Seq × Nat × Nat) (q : Seq) :
    commitHeader (withPlaced c p) q =
      match c.staged[c.placed.length + 1]? with
      | some e => memberFrame e q c.number
      | none => (.commit q c.number c.staged.length, []) := by
  simp only [commitHeader, withPlaced, List.length_append, List.length_singleton]
  cases c.staged[c.placed.length + 1]? with
  | none => rfl
  | some e => rfl

/-- The state once a frame has been placed in the head `x`. -/
theorem framePlaced_head {s : State} {t : LogTables} {x : Nat} {ring hi : Seq} {w f lu n : Nat} (hl : s.log = some t)
    (hr : t.record x = .head ring w f lu n hi) (j : AppendJob) (st i : Nat) (d : LineData) :
    framePlaced s j x st i d = { s with
      seq := programmed s.seq x (st + i) (.good d),
      log := some (t.setRecord x (.head ring w f (st + i) (n + 1) (Seq.later hi j.header.seq))) } := by
  simp only [framePlaced, hl, Option.map_some, hr, SectorRec.used, SectorRec.framed]

/-- Settles O35: what a COMMIT is answered when it is taken, what each of its frames makes of it, and its failed ends. -/
theorem commitWritesAndApplies : Obligations.CommitWritesAndApplies := by
  refine ⟨fun s r t h hk ht => ?_, fun s c j x st i d h hi hc hq => ?_, fun s c j t x st i d ring hi w f lu n h he hl hx hx' hlen hh
    hr hq => ?_⟩
  · intro u
    rw [exec_commit_of_serves h hk]
    refine ⟨fun hempty => ?_, fun e hfail => ?_, fun hne hall => ⟨fun hfull => ?_, fun hpass hroom => ?_⟩,
      fun e rest x nl hstaged hall hf hadm hh hn => ?_⟩
    · rw [commitBody_empty ht hempty, settle_commit_answer h.1.1]; rfl
    · rw [commitBody_conflict ht hfail, settle_commit_answer h.1.1]; rfl
    · have hfull : ¬ ((s.engine.dir.accounted : Int) + commitCharge s.engine.dir.entries t.staged ≤ s.limit ∨
          commitCharge s.engine.dir.entries t.staged < 0) := by rw [commitCharge_eq_sum]; exact hfull
      rw [commitBody_turned_away ht hne hall (admission_full hfull _), settle_commit_answer h.1.1]; rfl
    · have hpass : (s.engine.dir.accounted : Int) + commitCharge s.engine.dir.entries t.staged ≤ s.limit ∨
          commitCharge s.engine.dir.entries t.staged < 0 := by rw [commitCharge_eq_sum]; exact hpass
      rw [← commitNewEntries_eq_length] at hroom
      rw [commitBody_turned_away ht hne hall (admission_noRoom hpass hroom), settle_commit_answer h.1.1]; rfl
    · have hne : t.staged ≠ [] := by rw [hstaged]; exact List.cons_ne_nil _ _
      have ⟨_, _, _, _, _, _, hctl, _, hpend⟩ := h.1.1
      have hfirst : firstFrame s.engine.seq (.commit { request := r, number := t.number, staged := t.staged, placed := [] }) =
          memberFrame e s.engine.seq t.number := by simp only [firstFrame, hstaged, List.head?_cons]
      rw [commitBody_admits ht hne hall hadm, settle_writeAdmitted (u := commitTaken s r) hctl hpend hf
        (w := .commit { request := r, number := t.number, staged := t.staged, placed := [] }) ⟨rfl, hne⟩ hh hn,
        hostJob, show (commitTaken s r).engine.seq = s.engine.seq from rfl, hfirst]
      rfl
  · have ⟨_, _, _, hp, _, _⟩ := h
    rw [exec_append_placed h hi, moves_replying]
    simp only [State.resume, State.commitReply, hc, Nat.lt_irrefl, if_false]
    exact congrArg _ (moves_placed_post (s := framePlaced s j x st i d) hp hq
      (fun dir => dir.applyBatch c.staged c.placed) c.request _ _)
  · intro c' g due u v
    have ⟨_, _, _, hp, _, _⟩ := h
    obtain ⟨hh', hr'⟩ := head_after_fault hx hx' hlen hh (.head ring w f (st + i) (n + 1) (Seq.later hi j.header.seq))
    refine ⟨fun hlast hmore => ?_, fun hf hfull hfree event hev => ?_⟩
    · have hpos : u.headPos = some (x, st + i + 1) := headPos_of_head rfl hh' hr'
      have hg : commitHeader c' u.engine.seq = g := commitHeader_next c _ _
      have key : exec (.lineProgramDone true) s =
          .next (State.moves 8190 ((waiting u [.commit c']).placeAttempt (nextJob c' u.engine.seq) false)) := by
        rw [exec_append_placed h hlast, moves_replying, resume_commit_next (by exact hq) hmore, framePlaced_head hl hr]
        rfl
      rw [key]
      refine ⟨fun hhalt hfit => ?_, fun hhalt hfit => ?_, fun hfull hfree => ?_⟩
      · rw [placeAttempt_of_fits hpos (by rw [nextJob, hg]; exact hfit), programAttempt_waiting (s := u) ⟨he, hhalt⟩, moves_programs (by exact hp),
          nextJob, hg]
        rfl
      · rw [placeAttempt_of_fits hpos (by rw [nextJob, hg]; exact hfit), programAttempt_waiting_halted (by exact hhalt), moves_replying,
          resume_append_refused]
        exact congrArg _ (moves_write_refused (v := u) hp (.commit c') _)
      · have hfree' : u.freeCount = 0 := by
          rw [freeCount_of_log rfl, (setRecord_lists t x _).1, hfree]; rfl
        rw [placeAttempt_of_full hpos (by rw [nextJob, hg]; exact hfull), appendNewHead_exhausted hfree']
        exact congrArg _ (moves_write_outOfSectors (v := u) hp (.commit c') _)
    · rw [exec_lastAttempt ⟨t, d, ring, w, f, lu, n, hi, h, hl, hx, hx', hlen, hh, hr, hf, hfull, hfree, rfl⟩ event hev]
      exact congrArg _ (moves_write_outOfSectors (by exact hp) (.commit c) _)

end Sys2Proof.Certificates
end


-- ==== Sys2Proof/Proofs/Sectors.lean ====
section
/-! The procedures that change a sector, as replies to their tasks: a close line, an open line, an anchor write, a retirement and a
format line (R5 to R7, R10, R145); and with them an append that changes its head (R21 to R24). -/

namespace Sys2Proof.Certificates

open Sys2Proof Sys2Proof.Machine

/-! ### A program in hand that does not pass (R107) -/

/-- A program whose tasks wait with nothing due is one of the state without what is due. -/
theorem waits_undue {s : State} {k : List Task} {x l : Nat} {d : LineData} (h : Waits s k x l d) : Waits (undue s) k x l d := by
  obtain ⟨hctl, hhand, hdel, hpend, -⟩ := h
  exact ⟨hctl, hhand, hdel, hpend, rfl⟩

/-- A program in hand on a BLANK line whose tasks wait with nothing due. -/
theorem programs_undue {s : State} {k : List Task} {x l : Nat} {d : LineData} (h : Waits s k x l d)
    (hb : s.lineAt x l = .blank) : Programs (undue s) k x l d := by
  obtain ⟨hctl, hhand, hdel, hpend, -⟩ := h
  exact ⟨hctl, hhand, hdel, hpend, rfl, hb⟩

/-- A program of a BLANK line that passes, whose tasks wait with nothing due. -/
theorem waits_of_programs {s : State} {k : List Task} {x l : Nat} {d : LineData} (h : Programs s k x l d) :
    Waits s k x l d ∧ s.lineAt x l = .blank := by
  obtain ⟨hctl, hhand, hdel, hpend, hdue, hblank⟩ := h
  exact ⟨⟨hctl, hhand, hdel, hpend, hdue⟩, hblank⟩

/-- The events by which a program in hand ends otherwise than PASS: a failed verify or the time limit on a BLANK line, either
verify on a line that is not BLANK. -/
def EndsUnpassed (s : State) (x l : Nat) (event : Instr) : Prop :=
  (s.lineAt x l = .blank ∧ event ∈ [Instr.lineProgramDone false, .programTimeout]) ∨
    (¬ s.lineAt x l = .blank ∧ event ∈ [Instr.lineProgramDone false, .lineProgramDone true])

/-- A program in hand that does not pass ends FAIL or NOT_BLANK: a BLANK line turns DEFECTIVE, another is left as it was. -/
theorem exec_program_unpassed {s : State} {k : List Task} {x l : Nat} {d : LineData} (h : Waits s k x l d) {event : Instr}
    (hev : EndsUnpassed s x l event) :
    ∃ o, (o = .fail ∨ o = .notBlank) ∧ exec event s = .next (State.settle (replying
      { s with seq := programmed s.seq x l (if s.lineAt x l = .blank then .defective else s.lineAt x l) } k (.prog o))) := by
  rcases hev with ⟨hb, hev⟩ | ⟨hb, hev⟩
  · refine ⟨.fail, .inl rfl, ?_⟩
    rw [exec_program_fails (programs_undue h hb) event hev, if_pos hb]
  · refine ⟨.notBlank, .inr rfl, ?_⟩
    simp only [List.mem_cons, List.not_mem_nil, or_false] at hev
    rcases hev with rfl | rfl <;> rw [exec_program_notBlank (waits_undue h) hb, if_neg hb]

/-! ### Close lines (R7, R8) -/

/-- The head is CLOSED whether its close line passed or failed; a failed one condemns it. -/
theorem resume_closeHead {s : State} {t : LogTables} {x : Nat} {ring hi : Seq} {c f lu n : Nat} (hl : s.log = some t)
    (hr : t.record x = .head ring c f lu n hi) {o : ProgOutcome} (ho : o = .pass ∨ o = .fail) (k : List Task) :
    State.resume (waiting s k) (.closeHead x) (.prog o) = replying
      { s with log := some { t.setRecord x (.closed ring c f lu (decide (o = .fail) || decide (3 ≤ f))) with head := none } } k
      (.closed false) := by
  have hl : (waiting s k).log = some t := hl
  rcases ho with rfl | rfl <;>
    simp only [State.resume, State.closeHeadReply, State.withLog, hl, Option.map_some, LogTables.headClosed, hr] <;> rfl

/-- An append goes on after its head's close line with the opening of the next one. -/
theorem resume_append_closed {s : State} {t : LogTables} {y : Nat} {rest : List Nat} {p : AppendPhase}
    (hp : p = .closingForRoom ∨ p = .closingCondemned) (hl : s.log = some t) (hh : t.head = none) (ht : t.free = y :: rest)
    (k : List Task) (j : AppendJob) :
    State.resume (waiting s k) (.append j p) (.closed false) = (waiting s (.append j .opening :: k)).openHead := by
  rcases hp with rfl | rfl
  · rfl
  · exact appendNewHead_opens (by rw [freeCount_of_log hl, ht]; exact Nat.le_add_left 1 _) (headPos_of_no_head hl hh) j k

/-- An append goes on after the opening of its head with the next attempt. -/
theorem resume_append_opened (s : State) (k : List Task) (j : AppendJob) :
    State.resume (waiting s k) (.append j .opening) (.opened .opened) = (waiting s k).placeAttempt j false := rfl

/-! ### Open lines (R6) -/

/-- The tables once a FREE sector has become the head. -/
theorem becomeHead_of_free {t : LogTables} {y c : Nat} (hr : t.record y = .free c) (ring : Seq) :
    t.becomeHead y ring = { t.setRecord y (.head ring c 0 2 0 0) with
      free := t.free.filter (· != y), ring := t.ring.filter (· != y) ++ [y], head := some y } := by
  simp only [LogTables.becomeHead, hr, SectorRec.eraseCount, Option.getD_some, LogTables.unlist, LogTables.setRecord]
  split <;> rfl

/-- An open line that passes makes its sector the head. -/
theorem resume_openHead_passes {s : State} {t : LogTables} (hl : s.log = some t) (k : List Task) (y : Nat) (ring : Seq) :
    State.resume (waiting s k) (.openHead y ring) (.prog .pass) =
      replying { s with log := some (t.becomeHead y ring) } k (.opened .opened) := by
  have hl : (waiting s k).log = some t := hl
  simp only [State.resume, State.openHeadReply, State.withLog, hl, Option.map_some]
  rfl

/-- A sector whose open line fails is retired, and the opening is attempted again. -/
theorem resume_openHead_fails {s : State} (hf : Free s) (hg : s.contents.generation ≠ 4294967295) (k : List Task) (y : Nat)
    (ring : Seq) :
    State.resume (waiting s k) (.openHead y ring) (.prog .fail) =
      anchorAsked s (.retire y :: .openRetry :: k) (retiring s.contents y) :=
  retireBegin_waiting hf hg (.openRetry :: k) y

/-- After a retirement whose anchor write was written or failed the opening is attempted again. -/
theorem resume_openRetry {o : AnchorOutcome} (ho : o ≠ .refused) (s : State) (k : List Task) :
    State.resume (waiting s k) .openRetry (.retired o) = (waiting s k).openHead := by
  simp only [State.resume, State.openRetryReply, ho, false_and, if_false]

/-! ### Anchor writes and retirements (R10, R145, R146) -/

/-- The last line of a slot passes: the record is written. -/
theorem resume_anchorWrite_written (s : State) (k : List Task) (a : AnchorRecord) (second : Bool) (x slot : Nat) :
    State.resume (waiting s k) (.anchorWrite a second (.line x slot 5)) (.prog .pass) =
      replying { s with anchor := { s.anchor with location := some (x, slot), writePos := some (x, slot + 1) } } k
        (.anchor .written) := rfl

/-- A line of the second slot attempt fails: the write has failed. -/
theorem resume_anchorWrite_failed (s : State) (k : List Task) (a : AnchorRecord) (x slot part : Nat) :
    State.resume (waiting s k) (.anchorWrite a true (.line x slot part)) (.prog .fail) =
      replying (State.anchorFailure (waiting { s with anchor := { s.anchor with writePos := some (x, slot + 1) } } k)) k
        (.anchor .failed) := by
  have hctl : ∀ t : State, t.anchorFailure.ctl = t.ctl := by
    intro t
    simp only [State.anchorFailure, reportReadOnly_eq]
    split <;> rfl
  simp only [State.resume, State.anchorWriteReply, if_true, State.anchorEnds, State.ret, hctl]
  rfl

/-- The tables once a sector has been retired. -/
def retiredTables (t : LogTables) (x : Nat) : LogTables :=
  { t.setRecord x .retired with free := t.free.filter (· != x), ring := t.ring.filter (· != x) }

/-- A retirement takes the sector from its list and makes its record RETIRED; a pool that is too small is a READ_ONLY cause. -/
theorem retireSector_eq {s : State} {t : LogTables} (hl : s.log = some t) (x : Nat) :
    s.retireSector x =
      if (t.setRecord x .retired).usable < 8 then State.reportReadOnly { s with log := some (retiredTables t x) }
      else { s with log := some (retiredTables t x) } := by
  have ht : (t.unlist x).setRecord x .retired = retiredTables t x := by
    simp only [LogTables.unlist, LogTables.setRecord, retiredTables]
    split <;> rfl
  simp only [State.retireSector, State.withLog, hl, Option.map_some, ht, State.usable]
  rfl

/-- The anchor write of a retirement has ended: the sector is retired whatever its outcome. -/
theorem resume_retire (s : State) (k : List Task) (x : Nat) (o : AnchorOutcome) :
    State.resume (waiting s k) (.retire x) (.anchor o) = ((waiting s k).retireSector x).ret (.retired o) := rfl

/-- A retirement that leaves the pool large enough. -/
theorem resume_retire_roomy {s : State} {t : LogTables} (hl : s.log = some t) {x : Nat}
    (hu : 8 ≤ (t.setRecord x .retired).usable) (k : List Task) (o : AnchorOutcome) :
    State.resume (waiting s k) (.retire x) (.anchor o) =
      replying { s with log := some (retiredTables t x) } k (.retired o) := by
  rw [resume_retire, retireSector_eq (s := waiting s k) hl, if_neg (Nat.not_lt.2 hu)]
  rfl

/-! ### Appends that change their head -/

/-- With 2 FREE sectors an admitted write proceeds (R62). -/
theorem writeAdmitted_of_two_free {u : State} (h : 2 ≤ u.freeCount) (w : StalledWrite) : u.writeAdmitted w = u.writeProceeds w := by
  simp only [State.writeAdmitted, Nat.not_lt.2 h, decide_false, Bool.and_false, Bool.false_eq_true, if_false]

/-- A PUT that is admitted with 2 FREE sectors asks for its first append. -/
theorem settle_put_proceeds {s : State} {r : Request} {t : LogTables} (h : Takes s r) (hl : s.log = some t)
    (ht : 2 ≤ t.free.length) :
    ((taken s r).writeAdmitted (.put r)).settle =
      State.settle ((waiting (taken s r) [.put r]).placeAttempt (hostJob s.engine.seq (.put r)) true) := by
  have hfree : 2 ≤ (taken s r).freeCount := by rw [taken_freeCount, freeCount_of_log hl]; exact ht
  obtain ⟨-, -, hwait⟩ := taken_of_takes h
  have hproc := writeProceeds_waiting (w := .put r) trivial (taken s r)
  rw [hwait, taken_engineSeq] at hproc
  rw [writeAdmitted_of_two_free hfree, hproc]
  rfl

/-- Settles O44: where a first attempt goes, and what each line, each close line, each open line and each retirement of an append
is followed by. -/
theorem appendAfterEachLine : Obligations.AppendAfterEachLine := by
  refine ⟨fun s r t h hf hk ht ha hc hadm hl hfree => ?_,
    fun s j k t x st i d ring hi c f lu n h hf hl hx hx' hlen hh hr => ?_,
    fun s j p k t x y rest d ring hi c f lu n hp h hf hl hh hr ht event hev => ?_,
    fun s j k t y c ring d h hf hl hy hy' hlen hr => ?_,
    fun s j k t a b x slot y z rest d h hf hl ht hu => ?_⟩
  · intro j
    obtain ⟨-, hpend, -⟩ := taken_of_takes h.1.1
    have hfloor : newHeadFloor true ≤ (taken s r).freeCount := by rw [taken_freeCount, freeCount_of_log hl]; exact hfree
    rw [exec_put_of_serves h hk ht, putBody_admits ha hc hadm, settle_put_proceeds h.1.1 hl hfree]
    refine ⟨fun x ring c f lu n hi hh hr hfull => ?_, fun y rest hh hy => ?_⟩
    · have hpos : (taken s r).headPos = some (x, lu + 1) := headPos_of_head hl hh hr
      rw [placeAttempt_of_full hpos (by exact hfull), appendNewHead_closes hfloor hpos,
        closeHead_waiting (by exact hf) (by exact hl) hh hr, State.settle, moves_programs hpend]
      rfl
    · have hpos : (taken s r).headPos = none := headPos_of_no_head hl hh
      rw [placeAttempt_of_no_head hpos, appendNewHead_opens hfloor hpos, openHead_waiting (by exact hf) (by exact hl) hy, State.settle,
        moves_programs (by exact hpend), taken_engineSeq]
      rfl
  · intro blank failed u
    have ⟨_, _, _, hpend, _⟩ := h
    obtain ⟨hh', hr'⟩ := head_after_fault hx hx' hlen hh (.head ring c (f + 1) (st + i) n hi)
    have hpos : u.headPos = some (x, st + i + 1) := headPos_of_head rfl hh' hr'
    refine ⟨fun hb hi' => ?_, fun event hev => ?_⟩
    · rw [exec_program_passes (programs_undue h hb), settle_replying, resume_append_next hi',
        programAttempt_waiting (by exact hf), moves_programs (by exact hpend)]
      simp only [hl, Option.map_some, hr, SectorRec.used]
    · obtain ⟨o, ho, hexec⟩ := exec_program_unpassed h hev
      have key : exec event s = .next (State.moves 8191 ((waiting u k).rewrite j x)) := by
        rw [hexec, settle_replying, resume_append_fails (by exact hl) hr ho]
      rw [key]
      refine ⟨fun hf3 hfit => ?_, fun hf3 hfull hfree => ?_, fun hf3 => ?_⟩
      · rw [rewrite_again rfl hr' hf3, placeAttempt_of_fits hpos hfit, programAttempt_waiting (by exact hf),
          moves_programs (by exact hpend)]
        rfl
      · have hfloor : newHeadFloor false ≤ u.freeCount := by
          rw [freeCount_of_log rfl, (setRecord_lists t x _).1]; exact List.length_pos_iff.2 hfree
        rw [rewrite_again rfl hr' hf3, placeAttempt_of_full hpos hfull, appendNewHead_closes hfloor hpos,
          closeHead_waiting (by exact hf) rfl hh' hr', moves_programs (by exact hpend)]
      · rw [rewrite_condemned rfl hr' (Nat.le_of_eq hf3.symm), closeHead_waiting (by exact hf) rfl hh' hr',
          moves_programs (by exact hpend), hf3]
  · intro good
    obtain ⟨hwaits, hblank⟩ := waits_of_programs h
    have ⟨_, _, _, hpend, _⟩ := hwaits
    have hprog := programs_undue hwaits hblank
    have opens : ∀ (o : ProgOutcome) (left : Line), o = .pass ∨ o = .fail →
        (replying { s with seq := programmed s.seq x 2 left } (.closeHead x :: .append j p :: k) (.prog o)).settle =
          programs { s with
            seq := programmed s.seq x 2 left,
            log := some { t.setRecord x (.closed ring c f lu (decide (o = .fail) || decide (3 ≤ f))) with
              head := none, nextRing := t.nextRing + 1 } }
            (.openHead y t.nextRing :: .append j .opening :: k) y 1 (.opened s.formatId t.nextRing s.engine.seq) := by
      intro o left ho
      obtain ⟨hfree', -, -, hnext⟩ := setRecord_lists t x (.closed ring c f lu (decide (o = .fail) || decide (3 ≤ f)))
      rw [settle_replying, resume_closeHead (by exact hl) hr ho, moves_replying,
        resume_append_closed hp rfl (by rfl) (by exact hfree'.trans ht), openHead_waiting (by exact hf) rfl (by exact hfree'.trans ht),
        moves_programs (by exact hpend)]
      simp only [hnext]
      rfl
    simp only [List.mem_cons, List.not_mem_nil, or_false] at hev
    rcases hev with rfl | hev
    · rw [exec_program_passes hprog, opens _ _ (.inl rfl)]
      rfl
    · have hgood : ¬ good := by rcases hev with rfl | rfl <;> exact fun h => by cases h
      rw [exec_program_fails hprog event (by simpa using hev), opens _ _ (.inr rfl)]
      simp only [hgood, if_false, not_false_eq_true, decide_true, Bool.true_or]
  · obtain ⟨hwaits, hblank⟩ := waits_of_programs h
    have ⟨_, _, _, hpend, _⟩ := hwaits
    have hprog := programs_undue hwaits hblank
    refine ⟨fun hfit => ?_, fun hg event hev => ?_⟩
    · have hrec : (t.becomeHead y ring).record y = .head ring c 0 2 0 0 := by
        rw [becomeHead_of_free hr]; exact record_setRecord t y _ hy hy' hlen
      rw [exec_program_passes hprog, settle_replying, resume_openHead_passes (by exact hl), moves_replying,
        resume_append_opened, placeAttempt_of_fits (headPos_of_head rfl (by rw [becomeHead_of_free hr]) hrec) hfit,
        programAttempt_waiting (by exact hf), moves_programs (by exact hpend), becomeHead_of_free hr]
      rfl
    · rw [exec_program_fails hprog event hev, settle_replying, resume_openHead_fails (by exact hf) (by exact hg),
        moves_anchorAsked (by exact hpend)]
      rfl
  · obtain ⟨hwaits, hblank⟩ := waits_of_programs h
    have ⟨_, _, _, hpend, _⟩ := hwaits
    have hfree' : (retiredTables t y).free = z :: rest := ht
    rw [exec_program_passes (programs_undue hwaits hblank), settle_replying, resume_anchorWrite_written, moves_replying,
      resume_retire_roomy (by exact hl) hu, moves_replying, resume_openRetry (by decide), openHead_waiting (by exact hf) rfl hfree',
      moves_programs (by exact hpend)]
    have hnext : (retiredTables t y).nextRing = t.nextRing := (setRecord_lists t y _).2.2.2
    rw [hnext, ← hfree']
    rfl

end Sys2Proof.Certificates
end


-- ==== Sys2Proof/Proofs/Rounds.lean ====
section
/-! The end of a compaction step and of a round: the victim FREE or RETIRED, the no-gain count and the READ_ONLY causes (R5, R10,
R87, R95, R98). -/

namespace Sys2Proof.Certificates

open Sys2Proof Sys2Proof.Machine

/-! ### READ_ONLY causes that depend on a test -/

/-- The state with a READ_ONLY cause reported when the test `b` says so. -/
def reportsWhen (b : Bool) (s : State) : State :=
  { s with engine := { s.engine with readOnlyDue := s.engine.readOnlyDue || (decide (s.engine.store = .ready) && b) } }

/-- A cause reported under a test. -/
theorem ite_reportReadOnly (p : Prop) [Decidable p] (s : State) :
    (if p then s.reportReadOnly else s) = reportsWhen (decide p) s := by
  by_cases h : p
  · simp only [h, if_true, reportReadOnly_eq, reportsWhen, decide_true, Bool.and_true]
  · simp only [h, if_false, reportsWhen, decide_false, Bool.and_false, Bool.or_false]

/-- A cause reported without a test. -/
theorem reportReadOnly_eq_reportsWhen (s : State) : s.reportReadOnly = reportsWhen true s := by
  rw [reportReadOnly_eq, reportsWhen, Bool.and_true]

/-- A cause under a test that fails is none. -/
theorem reportsWhen_false (s : State) : reportsWhen false s = s := by
  simp only [reportsWhen, Bool.and_false, Bool.or_false]

/-- With nothing due there is nothing to leave out. -/
theorem undue_eq_self {s : State} (h : s.engine.readOnlyDue = false) : undue s = s := by
  rw [undue, ← h]

/-- What a test makes due. -/
theorem endsDue_decide (p : Prop) [Decidable p] (t : State) : endsDue (decide p) t = if p then turnsReadOnly t else t := by
  by_cases h : p <;> simp [endsDue, h]

/-- A cause reported without a test takes effect whatever else is due. -/
theorem endsDue_reported (a b : Bool) (t : State) :
    endsDue ((a || (decide (t.engine.store = .ready) && true)) || b) t = turnsReadOnly t := by
  rw [← endsDue_or_decide_ready (a || b) t, Bool.and_true, Bool.or_right_comm]

/-! ### The end of a compaction step (R86, R95) -/

/-- What is due does not look at the control. -/
theorem endsDue_waiting (b : Bool) (s : State) (k : List Task) : endsDue b (waiting s k) = waiting (endsDue b s) k := by
  cases b
  · rfl
  · by_cases h : s.engine.store = .ready
    · simp only [endsDue, if_true, turnsReadOnly, show (waiting s k).engine.store = .ready from h, h]; rfl
    · simp only [endsDue, if_true, turnsReadOnly, show ¬ (waiting s k).engine.store = .ready from h, h, if_false]

/-- A step's end: what is due takes effect, and the job it ran in gets its report. -/
theorem stepEnds_waiting (s : State) (k : List Task) (b : Bool) :
    (waiting s k).stepEnds b = replying (endsDue s.engine.readOnlyDue (undue s)) k (.stepEnd b) := by
  rw [State.stepEnds, applyReadOnly_eq, show undue (waiting s k) = waiting (undue s) k from rfl, endsDue_waiting]
  rfl

/-- The end of a step that runs on its own. -/
theorem moves_stepEnds_alone {s : State} (hp : s.seq.pending = none) (b : Bool) (n : Nat) :
    State.moves (n + 1) ((waiting s []).stepEnds b) = waiting (endsDue s.engine.readOnlyDue (undue s)) [] := by
  rw [stepEnds_waiting, moves_replying_nil]
  rw [(endsDue_ctl_seq _ _).2]; exact hp

/-- The end of a step that runs on its own with nothing due. -/
theorem moves_stepEnds_undue {s : State} (hp : s.seq.pending = none) (hd : s.engine.readOnlyDue = false) (b : Bool) (n : Nat) :
    State.moves (n + 1) ((waiting s []).stepEnds b) = waiting s [] := by
  rw [moves_stepEnds_alone hp, hd, undue_eq_self hd]; rfl

/-! ### The end of a round (R87, R98) -/

/-- The compactor once a round has ended with the FREE count `free`. -/
def roundOver (c : Compactor) (free : Nat) : Compactor :=
  { c with
    stage := .idle, victim := none, roundStart := none, eraseOutcome := none,
    noGain := if c.roundStart.getD 0 < free then 0 else min 62 (c.noGain + 1) }

/-- A round's end sets the no-gain count and the stage; a FREE count of 0 is a READ_ONLY cause. -/
theorem endRound_eq (s : State) :
    s.endRound = reportsWhen (decide (s.freeCount = 0)) { s with comp := roundOver s.comp s.freeCount } := by
  rw [← ite_reportReadOnly]
  simp only [State.endRound, roundOver, decide_eq_true_eq]
  rfl

/-- The tables once a victim has been formatted. -/
theorem freed_eq (t : LogTables) (x c : Nat) :
    t.freed x c = { t.setRecord x (.free c) with
      free := t.free.filter (· != x) ++ [x], ring := t.ring.filter (· != x) } := by
  simp only [LogTables.freed, LogTables.unlist, LogTables.setRecord]
  split <;> rfl

/-- A format line that passes frees its sector. -/
theorem resume_formatLine_passes {s : State} {t : LogTables} (hl : s.log = some t) (k : List Task) (x c : Nat) :
    State.resume (waiting s k) (.formatLine x c) (.prog .pass) =
      replying { s with log := some (t.freed x c) } k (.formatted true) := by
  have hl : (waiting s k).log = some t := hl
  simp only [State.resume, State.formatLineReply, State.withLog, hl, Option.map_some]
  rfl

/-- The victim's formatting ends the round. -/
theorem resume_finishRound_formatted (s : State) (k : List Task) :
    State.resume (waiting s k) .finishRound (.formatted true) = (waiting s.endRound k).stepEnds false := by
  have h : (waiting s k).endRound = waiting s.endRound k := by simp only [endRound_eq]; rfl
  rw [← h]; rfl

/-- The victim's retirement ends the round. -/
theorem resume_finishRound_retired (s : State) (k : List Task) (o : AnchorOutcome) :
    State.resume (waiting s k) .finishRound (.retired o) = (waiting s.endRound k).stepEnds false := by
  have h : (waiting s k).endRound = waiting s.endRound k := by simp only [endRound_eq]; rfl
  rw [← h]; rfl

/-- A retirement's end, with the cause that its pool may be. -/
theorem resume_retire_reports {s : State} {t : LogTables} (hl : s.log = some t) (x : Nat) (k : List Task) (o : AnchorOutcome) :
    State.resume (waiting s k) (.retire x) (.anchor o) =
      replying (reportsWhen (decide ((t.setRecord x .retired).usable < 8)) { s with log := some (retiredTables t x) }) k
        (.retired o) := by
  rw [resume_retire, retireSector_eq (s := waiting s k) hl, ite_reportReadOnly]
  rfl

/-- The state once a victim has been retired and its round has ended, but for what is due. -/
def victimRetired (s : State) (t : LogTables) (x : Nat) : State :=
  { s with
    log := some (retiredTables t x), comp := roundOver s.comp (retiredTables t x).free.length }

/-- A victim's retirement, from the end of its anchor write to the end of the round: a pool below 8 and a FREE count of 0 are
READ_ONLY causes, beside what is due already. -/
theorem moves_victim_retired {s : State} {t : LogTables} (hl : s.log = some t) (hp : s.seq.pending = none) (x : Nat)
    (o : AnchorOutcome) (n : Nat) :
    State.moves (n + 3) (replying s [.retire x, .finishRound] (.anchor o)) =
      endsDue (s.engine.readOnlyDue ||
          (decide ((retiredTables t x).usable < 8) || decide ((retiredTables t x).free.length = 0)))
        (waiting (undue (victimRetired s t x)) []) := by
  rw [moves_replying, resume_retire_reports hl, moves_replying, resume_finishRound_retired, endRound_eq,
    moves_stepEnds_alone (by exact hp), endsDue_waiting]
  have key := fun a b c : Bool => endsDue_or_ready a (b || c) (undue (victimRetired s t x))
  rw [← key]
  simp only [Bool.and_or_distrib_left, ← Bool.or_assoc]
  rfl

/-- A failed anchor write of a job that is neither mount nor FORMAT is a READ_ONLY cause. -/
theorem anchorFailure_of_job {s : State} (hm : s.engine.store ≠ .mounting) (hf : s.formatRuns = false) :
    s.anchorFailure = reportsWhen true s := by
  simp only [State.anchorFailure, hm, hf, Bool.false_eq_true, or_self, if_false, reportReadOnly_eq_reportsWhen]

/-- Settles O42: the victim's format line frees it, and either end of its retirement's anchor write retires it. -/
theorem finishingFrees : Obligations.FinishingFrees := by
  refine ⟨fun s t x c d h hl => ?_, fun s t a b x y slot part d h hl hm => ?_⟩
  · intro u
    obtain ⟨hwaits, hblank⟩ := waits_of_programs h
    have ⟨_, _, _, hpend, hdue⟩ := hwaits
    have hu : t.freed x c = u := freed_eq t x c
    have hfree : ¬ u.free.length = 0 := by simp [u]
    rw [exec_program_passes (programs_undue hwaits hblank), settle_replying, resume_formatLine_passes (by exact hl), hu,
      moves_replying, resume_finishRound_formatted, endRound_eq]
    rw [freeCount_of_log (t := u) rfl, decide_eq_false hfree, reportsWhen_false,
      moves_stepEnds_undue (by exact hpend) (by exact hdue)]
    rfl
  · intro u ended
    obtain ⟨hwaits, hblank⟩ := waits_of_programs h
    have ⟨_, _, _, hpend, hdue⟩ := hwaits
    have hprog := programs_undue hwaits hblank
    refine ⟨fun hpart => ?_, fun hb event hev => ?_⟩
    · subst hpart
      have hround := moves_victim_retired (s := { s with
        seq := programmed s.seq y (6 * slot + 5) (.good d),
        anchor := { s.anchor with location := some (y, slot), writePos := some (y, slot + 1) } }) hl hpend x .written 8188
      rw [undue_eq_self (by exact hdue), hdue, Bool.false_or, ← Bool.decide_or, endsDue_decide] at hround
      rw [exec_program_passes hprog, settle_replying, resume_anchorWrite_written, hround]
      rfl
    · subst hb
      have hround := moves_victim_retired (s := reportsWhen true (waiting { s with
        seq := programmed s.seq y (6 * slot + part) .defective,
        anchor := { s.anchor with writePos := some (y, slot + 1) } } [.retire x, .finishRound])) hl hpend x .failed 8188
      have hended : waiting (undue (victimRetired (reportsWhen true (waiting { s with
          seq := programmed s.seq y (6 * slot + part) .defective,
          anchor := { s.anchor with writePos := some (y, slot + 1) } } [.retire x, .finishRound])) t x)) [] = ended false := by
        have hs := undue_eq_self (s := ended false) hdue
        exact hs
      rw [hended] at hround
      rw [exec_program_fails hprog event hev, settle_replying, resume_anchorWrite_failed,
        anchorFailure_of_job (by exact hm) rfl, hround]
      exact congrArg _ (endsDue_reported s.engine.readOnlyDue _ (ended false))

end Sys2Proof.Certificates
end


-- ==== Sys2Proof/Proofs/CompactionSteps.lean ====
section
/-! The compaction steps: when one is granted on its own, what select, copy, erase and finishing steps do (R84 to R98), and how a
copy or a media loss's tombstone ends (R91 to R93). -/

namespace Sys2Proof.Certificates

open Sys2Proof Sys2Proof.Machine

/-! ### Steps granted on their own (R85) -/

/-- A step that is granted runs until it waits or ends. -/
theorem granting_of_canGrant {s : State} {stage : Stage} (hg : s.canGrant = true) (hs : s.comp.stage = stage)
    (step : State → State) : s.granting stage step = (step s).settle := by
  simp only [State.granting, hg, hs, decide_true, Bool.and_self, if_true]

/-- A step that is not granted changes nothing. -/
theorem granting_of_not {s : State} {stage : Stage} (h : s.canGrant = false ∨ s.comp.stage ≠ stage) (step : State → State) :
    s.granting stage step = s := by
  rcases h with h | h <;> simp only [State.granting, h, decide_false, Bool.and_false, Bool.false_and, Bool.false_eq_true, if_false]

/-- Without bus accesses, with a request to take or without a step asked for none is granted. -/
theorem canGrant_eq_false {s : State} (h : s.busActive = false ∨ s.canTake = true ∨ s.asksForStep = false) :
    s.canGrant = false := by
  rcases h with h | h | h <;> simp only [State.canGrant, h, Bool.false_and, Bool.and_false, Bool.not_true]

/-- The victim has no entry left by the count of R29 exactly when the search finds none. -/
theorem locatedCount_eq_zero (es : List Entry) (x : Nat) : locatedCount es x = 0 ↔ locatedEntry es x = none := by
  simp only [locatedCount, locatedEntry, List.length_eq_zero_iff, List.filter_eq_nil_iff, List.find?_eq_none]

/-- The erase step is granted as a copy step once the victim has no entry left (log 31). -/
theorem execEraseStep_of_empty {s : State} {x : Nat} (hv : s.comp.victim = some x)
    (h : locatedEntry s.engine.dir.entries x = none) : exec .eraseStep s = exec .copyStep s := by
  have : s.victimEmpty = true := by
    simp only [State.victimEmpty, hv, (locatedCount_eq_zero _ _).2 h, decide_true]
  simp only [exec, execEraseStep, execCopyStep, this, if_true]

/-- The erase step does nothing while the victim has an entry (log 31). -/
theorem execEraseStep_of_entry {s : State} {x : Nat} {e : Entry} (hv : s.comp.victim = some x)
    (h : locatedEntry s.engine.dir.entries x = some e) : exec .eraseStep s = .next s := by
  have hc : ¬ locatedCount s.engine.dir.entries x = 0 := by
    rw [locatedCount_eq_zero, h]; exact Option.some_ne_none e
  have : s.victimEmpty = false := by simp only [State.victimEmpty, hv, hc, decide_false]
  simp only [exec, execEraseStep, this, Bool.false_eq_true, if_false]

/-- No step command changes a state in which no step is granted. -/
theorem exec_step_of_not {s : State} {stage : Stage} (h : s.canGrant = false ∨ s.comp.stage ≠ stage) :
    (stage = .idle → exec .selectStep s = .next s) ∧
      (stage = .copying → exec .copyStep s = .next s ∧ exec .eraseStep s = .next s) ∧
      (stage = .finishing → exec .finishingStep s = .next s) := by
  have hstep := granting_of_not h
  refine ⟨?_, ?_, ?_⟩
  · rintro rfl; exact congrArg _ (hstep _)
  · rintro rfl
    refine ⟨congrArg _ (hstep _), ?_⟩
    simp only [exec, execEraseStep, hstep, ite_self]
  · rintro rfl; exact congrArg _ (hstep _)

/-- A step that ends at once, granted on its own. -/
theorem settle_stepEnds {s : State} (hc : s.ctl = { stack := [], reply := none }) (hp : s.seq.pending = none) (b : Bool) :
    (s.stepEnds b).settle = endsDue s.engine.readOnlyDue (undue s) := by
  have h := moves_stepEnds_alone hp b 8191
  rw [← endsDue_waiting, waiting_eq_self hc, show waiting (undue s) [] = undue (waiting s []) from rfl, waiting_eq_self hc] at h
  exact h

/-- A step that ends at once with nothing due, granted on its own. -/
theorem settle_stepEnds_undue {s : State} (hc : s.ctl = { stack := [], reply := none }) (hp : s.seq.pending = none)
    (hd : s.engine.readOnlyDue = false) (b : Bool) : (s.stepEnds b).settle = s := by
  rw [settle_stepEnds hc hp, hd, undue_eq_self hd]
  rfl

/-! ### Select steps (R88, R89) -/

/-- A CLOSED record of the tables. -/
theorem record_of_log {s : State} {t : LogTables} (hl : s.log = some t) (x : Nat) : s.record x = t.record x := by
  simp only [State.record, hl]

/-- The tail of the tables. -/
theorem tail_of_log {s : State} {t : LogTables} (hl : s.log = some t) : s.tail = t.ring.head? := by
  simp only [State.tail, hl]

/-- A select step whose tail is not CLOSED reports that it cannot gain. -/
theorem selectVictim_not_closed {s : State} (h : s.tailClosed = false) : s.selectVictim = s.stepEnds true := by
  unfold State.selectVictim
  cases ht : s.tail with
  | none => rfl
  | some x =>
    have : (s.record x).isClosed = false := by simpa only [State.tailClosed, ht] using h
    simp only [this, Bool.not_false, if_true]

/-- A select step without space for the tail's live lines is refused. -/
theorem selectVictim_refused {s : State} {x : Nat} (ht : s.tail = some x) (hc : s.tailClosed = true)
    (hlive : 0 < liveLinesIn s.engine.dir.entries x) (hnew : s.needsNewHead (liveLinesIn s.engine.dir.entries x) = true)
    (hfree : s.freeCount = 0) :
    s.selectVictim = State.stepEnds (State.reportReadOnly { s with comp := { s.comp with refused := some 0 } }) false := by
  have hclosed : (s.record x).isClosed = true := by simpa only [State.tailClosed, ht] using hc
  simp only [State.selectVictim, ht, hclosed, Bool.not_true, Bool.false_eq_true, if_false, State.selectLacksSpace, hlive, hnew,
    hfree, decide_true, Bool.and_self, if_true]

/-- The state once the CLOSED tail `x` has become the victim. -/
def victimSelected (s : State) (t : LogTables) (x : Nat) (ring : Seq) (c f : Nat) (cond : Bool) : State :=
  { s with
    log := some (t.setRecord x (.victim ring c f cond)),
    comp := { s.comp with stage := .copying, victim := some x, roundStart := some s.freeCount, refused := none } }

/-- A select step with space makes the CLOSED tail the victim. -/
theorem selectVictim_selects {s : State} {t : LogTables} {x : Nat} {ring : Seq} {c f lu : Nat} {cond : Bool}
    (hl : s.log = some t) (ht : t.ring.head? = some x) (hr : t.record x = .closed ring c f lu cond)
    (hspace : s.needsNewHead (liveLinesIn s.engine.dir.entries x) = false ∨ 0 < s.freeCount ∨
      liveLinesIn s.engine.dir.entries x = 0) :
    s.selectVictim = (victimSelected s t x ring c f cond).stepEnds false := by
  have htail : s.tail = some x := (tail_of_log hl).trans ht
  have hclosed : (s.record x).isClosed = true := by rw [record_of_log hl, hr]; rfl
  have hlacks : s.selectLacksSpace x = false := by
    simp only [State.selectLacksSpace]
    rcases hspace with h | h | h
    · simp only [h, Bool.and_false, Bool.false_and]
    · simp only [Nat.ne_of_gt h, decide_false, Bool.and_false]
    · simp only [h, Nat.lt_irrefl, decide_false, Bool.false_and]
  have hmap : s.mapRecord x SectorRec.selected = { s with log := some (t.setRecord x (.victim ring c f cond)) } := by
    simp only [State.mapRecord, State.withLog, hl, Option.map_some, hr, SectorRec.selected]
  have hfree : State.freeCount { s with log := some (t.setRecord x (.victim ring c f cond)) } = s.freeCount := by
    rw [freeCount_of_log hl, freeCount_of_log rfl, (setRecord_lists t x _).1]
  simp only [State.selectVictim, htail, hclosed, Bool.not_true, Bool.false_eq_true, if_false, hlacks, hmap, hfree]
  rfl

/-! ### Copy and erase steps (R90, R95, R96) -/

/-- A copy step removes a DEAD entry. -/
theorem copyOne_removes {s : State} {x : Nat} {e : Entry} (hv : s.comp.victim = some x)
    (he : locatedEntry s.engine.dir.entries x = some e) (hd : e.live = none) :
    s.copyOne = (s.withDir (fun d => d.remove e.key)).stepEnds false := by
  simp only [State.copyOne, hv, he, Entry.isLive, hd, Option.isSome_none, Bool.false_eq_true, if_false]

/-- A copy step reads the frame of a LIVE entry. -/
theorem copyOne_reads {s : State} {x : Nat} {e : Entry} {k : List Task} (hv : s.comp.victim = some x)
    (he : locatedEntry s.engine.dir.entries x = some e) (hd : e.live ≠ none) (hfree : s.seq.erase = none) :
    (waiting s k).copyOne = reads s (.readFrame e 0 [] :: .copyRead e :: k) e.sector e.line := by
  have hv : (waiting s k).comp.victim = some x := hv
  have he : locatedEntry (waiting s k).engine.dir.entries x = some e := he
  simp only [State.copyOne, hv, he, Entry.isLive, Option.isSome_iff_ne_none.2 hd, if_true]
  exact readFrameBegin_waiting hfree _ e

/-- A copy step that finds no entry is the erase step. -/
theorem copyOne_erases {s : State} {x : Nat} (hv : s.comp.victim = some x) (he : locatedEntry s.engine.dir.entries x = none) :
    s.copyOne = s.eraseVictim x := by
  simp only [State.copyOne, hv, he]

/-- The state once the background erase of the victim `x` has begun (R96, R109). -/
def victimErasing (s : State) (t : LogTables) (x : Nat) (ring : Seq) (c f : Nat) : State :=
  { s with
    log := some (t.setRecord x (.erasing ring c f)),
    comp := { s.comp with stage := .erasing },
    seq := { s.seq with
      cells := writeCell s.seq.cells (lineAddr x 0) .defective, state := .erasing,
      erase := some { sector := x, background := true, elapsed := 0, suspensions := 0 } } }

/-- A victim that is neither condemned nor worn is erased in the background. -/
theorem eraseVictim_erases {s : State} {t : LogTables} {x : Nat} {ring : Seq} {c f : Nat} (hf : Free s) (hl : s.log = some t)
    (hr : t.record x = .victim ring c f false) (hc : c < 100000) :
    s.eraseVictim x = (victimErasing s t x ring c f).stepEnds false := by
  have hstay : (s.record x).retiredInstead = false := by
    rw [record_of_log hl, hr]
    simp only [SectorRec.retiredInstead, Config.wornCount, Nat.not_le.2 hc, decide_false, Bool.or_self]
  have hmap : s.mapRecord x SectorRec.startErasing = { s with log := some (t.setRecord x (.erasing ring c f)) } := by
    simp only [State.mapRecord, State.withLog, hl, Option.map_some, hr, SectorRec.startErasing]
  simp only [State.eraseVictim, hstay, Bool.false_eq_true, if_false, hmap, State.issueErase, hf.2, hf.1, Option.isNone_none, if_true]
  rfl

/-- A condemned or worn victim is retired instead. -/
theorem eraseVictim_retires {s : State} {t : LogTables} {x : Nat} {ring : Seq} {c f : Nat} {cond : Bool} (hl : s.log = some t)
    (hr : t.record x = .victim ring c f cond) (hc : cond = true ∨ 100000 ≤ c) :
    s.eraseVictim x = (s.push .finishRound).retireBegin x := by
  have hretired : (s.record x).retiredInstead = true := by
    rw [record_of_log hl, hr]
    simp only [SectorRec.retiredInstead, Bool.or_eq_true]
    exact hc.imp id (fun h => decide_eq_true h)
  simp only [State.eraseVictim, hretired, if_true]

/-! ### Finishing steps (R98) -/

/-- After PASS the victim is formatted with one more erase. -/
theorem finishVictim_formats {s : State} {t : LogTables} {x : Nat} {ring : Seq} {c f : Nat} {k : List Task} (hf : Free s)
    (hv : s.comp.victim = some x) (ho : s.comp.eraseOutcome = some true) (hl : s.log = some t)
    (hr : t.record x = .erasing ring c f) :
    (waiting s k).finishVictim =
      programs s (.formatLine x (c + 1) :: .finishRound :: k) x 0 (.format s.formatId (c + 1)) := by
  have hv : (waiting s k).comp.victim = some x := hv
  have ho : (waiting s k).comp.eraseOutcome = some true := ho
  have hrec : (waiting s k).record x = .erasing ring c f := (record_of_log hl x).trans hr
  simp only [State.finishVictim, hv, ho, if_true, hrec, SectorRec.eraseCount, Option.getD_some]
  exact issueProgram_waiting hf _ x 0 _

/-- After FAIL the victim is retired. -/
theorem finishVictim_retires {s : State} {x : Nat} (hv : s.comp.victim = some x) (ho : s.comp.eraseOutcome = some false) :
    s.finishVictim = (s.push .finishRound).retireBegin x := by
  simp only [State.finishVictim, hv, ho, Option.some.injEq, Bool.false_eq_true, if_false]

/-- The retirement of a victim in a step granted on its own. -/
theorem settle_retireBegin {s : State} (hc : s.ctl = { stack := [], reply := none }) (hf : Free s)
    (hg : s.contents.generation ≠ 4294967295) (hp : s.seq.pending = none) (x : Nat) :
    ((s.push .finishRound).retireBegin x).settle = anchorAsked s [.retire x, .finishRound] (retiring s.contents x) := by
  have h := retireBegin_waiting hf hg [.finishRound] x
  rw [← push_waiting, waiting_eq_self hc] at h
  rw [h, State.settle, moves_anchorAsked hp]

/-! ### Copies and tombstones (R91 to R93) -/

/-- The append of a copy. -/
def copyJob (e : Entry) (n : Nat) (v : List Byte) : AppendJob :=
  { header := .put e.key e.version none n, value := v, host := false, programmed := false }

/-- The append of a media loss's tombstone. -/
def lossJob (e : Entry) (q : Seq) : AppendJob :=
  { header := .delete e.key q none, value := [], host := false, programmed := false }

/-- A frame that matches is appended again. -/
theorem resume_copyRead_value {s : State} {e : Entry} {n : Nat} (hn : e.live = some n) (k : List Task) (v : List Byte) :
    State.resume (waiting s k) (.copyRead e) (.frame (some v)) =
      (waiting s (.copyAppend e :: k)).placeAttempt (copyJob e n v) false := by
  simp only [State.resume, State.copyReadReply, hn, Option.getD_some]
  rfl

/-- A frame that does not match is a media loss: its tombstone is appended. -/
theorem resume_copyRead_lost (s : State) (k : List Task) (e : Entry) :
    State.resume (waiting s k) (.copyRead e) (.frame none) =
      (waiting s (.lossAppend e s.engine.seq :: k)).placeAttempt (lossJob e s.engine.seq) false := rfl

/-- A copy that is placed relocates its entry. -/
theorem resume_copyAppend_placed (s : State) (k : List Task) (e : Entry) (x l n : Nat) :
    State.resume (waiting s k) (.copyAppend e) (.appended (.placed x l n)) =
      (waiting { s with engine := { s.engine with dir := s.engine.dir.relocate e.key e.version x l } } k).stepEnds false := rfl

/-- The state once a media loss's tombstone has been placed, but for what is due. -/
def lossPlaced (s : State) (e : Entry) (q : Seq) (x l : Nat) : State :=
  { s with
    engine := { s.engine with
      seq := s.engine.seq + 1, dir := s.engine.dir.convertOnLoss e.key e.version q x l,
      readOnlyDue := s.engine.readOnlyDue || (decide (s.engine.store = .ready) && limitReached s) },
    window := { s.window with events := s.window.events ||| 0x08, lossKey := e.key } }

/-- A tombstone that is placed raises S, makes the entry DEAD and raises MEDIA_LOSS. -/
theorem resume_lossAppend_placed {s : State} (hq : s.engine.seq ≠ 4294967295) (k : List Task) (e : Entry) (q : Seq)
    (x l n : Nat) :
    State.resume (waiting s k) (.lossAppend e q) (.appended (.placed x l n)) =
      (waiting (lossPlaced s e q x l) k).stepEnds false := by
  simp only [State.resume, State.lossAppendReply, bumpSeq_eq (s := waiting s k) hq]
  rfl

/-- The tasks that wait for a copy's or a tombstone's append. -/
def IsCopyAppend (task : Task) : Prop := (∃ e, task = .copyAppend e) ∨ ∃ e q, task = .lossAppend e q

/-- A copy or tombstone that runs out of sectors sets the stopped marker. -/
theorem resume_copy_outOfSectors {task : Task} (ht : IsCopyAppend task) (s : State) (k : List Task) :
    State.resume (waiting s k) task (.appended .outOfSectors) =
      (waiting { s with comp := { s.comp with stopped := true } } k).stepEnds false := by
  rcases ht with ⟨e, rfl⟩ | ⟨e, q, rfl⟩ <;> rfl

/-- A copy or tombstone that is refused changes nothing more. -/
theorem resume_copy_refused {task : Task} (ht : IsCopyAppend task) (s : State) (k : List Task) :
    State.resume (waiting s k) task (.appended .refused) = (waiting s k).stepEnds false := by
  rcases ht with ⟨e, rfl⟩ | ⟨e, q, rfl⟩ <;> rfl

/-- A copy or tombstone that runs out of sectors makes a READY store READ_ONLY and stops the compactor. -/
theorem exec_copy_outOfSectors {s v : State} {task : Task} {k : List Task} {j : AppendJob} {x st i : Nat}
    (ht : IsCopyAppend task) (h : LastAttempt s (task :: k) j x st i v) :
    ∀ event ∈ [Instr.lineProgramDone false, .programTimeout],
      exec event s = .next (State.moves 8190 (replying
        (turnsReadOnly (undue { v with comp := { v.comp with stopped := true } })) k (.stepEnd false))) := by
  intro event hev
  rw [exec_lastAttempt h event hev, reportReadOnly_eq, moves_replying, resume_copy_outOfSectors ht, stepEnds_waiting]
  have := endsDue_or_decide_ready v.engine.readOnlyDue (undue { v with comp := { v.comp with stopped := true } })
  rw [← this]
  rfl

/-- A copy or tombstone that is refused ends its step. -/
theorem exec_copy_refused {s v : State} {task : Task} {k : List Task} {j : AppendJob} {x st i : Nat}
    (ht : IsCopyAppend task) (h : NextRefused s (task :: k) j x st i v) :
    exec (.lineProgramDone true) s = .next (State.moves 8189 (replying
      (endsDue v.engine.readOnlyDue (undue v)) k (.stepEnd false))) := by
  rw [exec_nextRefused h, moves_replying, resume_copy_refused ht, stepEnds_waiting]

/-- Nothing that is due changes a store that is not READY. -/
theorem endsDue_of_not_ready {t : State} (h : t.engine.store ≠ .ready) (b : Bool) : endsDue b t = t := by
  cases b
  · rfl
  · exact turnsReadOnly_of_not_ready h

/-- The failed ends of a copy's or a tombstone's append in a step granted on its own. -/
theorem copyFails_alone : CopyFails [] id id := by
  intro s task j x st i v ht
  refine ⟨fun h hready event hev => ?_, fun h hhalted => ?_⟩
  · rw [exec_copy_outOfSectors ht h event hev]
    obtain ⟨t, d, ring, w, f, lu, n, hi, ⟨-, -, -, hp, -, -⟩, -, -, -, -, -, -, -, -, -, rfl⟩ := h
    rw [moves_replying_nil (by rw [(turnsReadOnly_ctl_seq _).2]; exact hp)]
    exact congrArg _ (waiting_eq_self (turnsReadOnly_ctl_seq _).1)
  · rw [exec_copy_refused ht h]
    obtain ⟨d, ⟨-, -, -, hp, -, -⟩, -, -, rfl⟩ := h
    have hstays : ¬ s.engine.store = .ready := by rw [hhalted]; exact StoreState.noConfusion
    rw [moves_replying_nil (by rw [(endsDue_ctl_seq _ _).2]; exact hp), waiting_eq_self (endsDue_ctl_seq _ _).1,
      endsDue_of_not_ready (by exact hstays)]
    rfl

/-- Settles O41: when a step is granted, what each step does, and how its frame read and its append end. -/
theorem compactionSteps : Obligations.CompactionSteps := by
  refine ⟨headerTests, fun s hc hp => ⟨fun hs htail hd => ?_, fun h c hcmd => ?_, fun h => ?_, fun h => ?_, fun h => ?_⟩,
    fun s hb hc htake hask hd hp => ?_, fun s e n i got h hf hn => ?_, fun s j e q x st i d hi => ?_, copyFails_alone⟩
  · by_cases hg : s.canGrant = true
    · have := granting_of_canGrant hg hs State.selectVictim
      rw [selectVictim_not_closed htail, settle_stepEnds_undue hc hp hd] at this
      exact congrArg _ this
    · exact (exec_step_of_not (stage := .idle) (.inl (Bool.not_eq_true _ ▸ hg))).1 rfl
  · have hno := fun stage => exec_step_of_not (s := s) (stage := stage) (.inl (canGrant_eq_false h))
    simp only [List.mem_cons, List.not_mem_nil, or_false] at hcmd
    rcases hcmd with rfl | rfl | rfl | rfl
    · exact (hno .idle).1 rfl
    · exact ((hno .copying).2.1 rfl).1
    · exact ((hno .copying).2.1 rfl).2
    · exact (hno .finishing).2.2 rfl
  · exact (exec_step_of_not (.inr h)).1 rfl
  · exact (exec_step_of_not (.inr h)).2.1 rfl
  · exact (exec_step_of_not (.inr h)).2.2 rfl
  · have hgrant : s.canGrant = true := by
      simp only [State.canGrant, hb, hc, htake, hask, List.isEmpty_nil, Bool.not_false, Bool.and_self]
    have hself : waiting s [] = s := waiting_eq_self hc
    have select := fun hs => congrArg (Host.Outcome.next (φ := Fault) (ρ := Refusal))
      (granting_of_canGrant (stage := .idle) hgrant hs State.selectVictim)
    have copy := fun hs => congrArg (Host.Outcome.next (φ := Fault) (ρ := Refusal))
      (granting_of_canGrant (stage := .copying) hgrant hs State.copyOne)
    have finish := fun hs => congrArg (Host.Outcome.next (φ := Fault) (ρ := Refusal))
      (granting_of_canGrant (stage := .finishing) hgrant hs State.finishVictim)
    refine ⟨fun x hs htail hclosed hlive hnew hfree => ?_, fun t x ring c f lu cond hs hl hring hr hspace => ?_,
      fun x e hs hv he => ⟨fun hdead => ?_, fun hlive hfree => ?_, execEraseStep_of_entry hv he⟩,
      fun t x ring c f hs hv he hl hr hc' hf => ?_, fun t x ring c f cond hs hv he hl hr hc' hf hgen => ?_,
      fun x hs hv ho hf hgen => ?_, fun t x ring c f hs hv ho hl hr hf => ?_⟩
    · refine (select hs).trans (congrArg _ ?_)
      rw [selectVictim_refused htail hclosed hlive hnew hfree, reportReadOnly_eq, settle_stepEnds (by exact hc) (by exact hp)]
      have hdue := endsDue_or_decide_ready s.engine.readOnlyDue { s with comp := { s.comp with refused := some 0 } }
      rw [← hdue]
      exact congrArg _ (undue_eq_self (s := { s with comp := { s.comp with refused := some 0 } }) hd)
    · refine (select hs).trans (congrArg _ ?_)
      rw [selectVictim_selects hl hring hr hspace, settle_stepEnds_undue (by exact hc) (by exact hp) (by exact hd)]
      rfl
    · refine (copy hs).trans (congrArg _ ?_)
      rw [copyOne_removes hv he hdead, settle_stepEnds_undue (by exact hc) (by exact hp) (by exact hd)]
      rfl
    · refine (copy hs).trans (congrArg _ ?_)
      rw [← hself, copyOne_reads hv he hlive hfree, State.settle, moves_reads hp, hself]
    · intro u
      rw [execEraseStep_of_empty hv he]
      refine and_self_iff.2 ((copy hs).trans (congrArg _ ?_))
      rw [copyOne_erases hv he, eraseVictim_erases hf hl hr hc', settle_stepEnds_undue (by exact hc) (by exact hp) (by exact hd)]
      rfl
    · intro u
      rw [execEraseStep_of_empty hv he]
      refine and_self_iff.2 ((copy hs).trans (congrArg _ ?_))
      rw [copyOne_erases hv he, eraseVictim_retires hl hr hc']
      exact settle_retireBegin hc hf hgen hp x
    · refine (finish hs).trans (congrArg _ ?_)
      rw [finishVictim_retires hv ho]
      exact settle_retireBegin hc hf hgen hp x
    · refine (finish hs).trans (congrArg _ ?_)
      rw [← hself, finishVictim_formats hf hv ho hl hr, State.settle, moves_programs hp, hself]
  · intro l u
    have ⟨_, _, _, hp, _⟩ := h
    rw [exec_lineReadDone h, settle_replying]
    refine ⟨fun x nl v hpos hfit hread => ?_, fun x nl hpos hfit hread => ?_⟩
    · have hvalue : State.resume (waiting u [.copyRead e]) (.readFrame e i got) (.line l) =
          replying u [.copyRead e] (.frame (some v)) := by
        rcases hread with ⟨rfl, h0, hm, rfl⟩ | ⟨hi, hlast, d, hl, rfl⟩
        · exact resume_readFrame_empty hn _ hm h0 got
        · rw [hl]; exact resume_readFrame_last hn _ hi hlast got
      rw [hvalue, moves_replying, resume_copyRead_value hn, placeAttempt_of_fits (by exact hpos) (by exact hfit),
        programAttempt_waiting (by exact hf), moves_programs (by exact hp)]
      rfl
    · have hlost : State.resume (waiting u [.copyRead e]) (.readFrame e i got) (.line l) =
          replying u [.copyRead e] (.frame none) := by
        rcases hread with ⟨rfl, hm⟩ | ⟨hi, hl⟩
        · exact resume_readFrame_mismatch hn _ hm got
        · exact resume_readFrame_lost hn _ hi hl got
      rw [hlost, moves_replying, resume_copyRead_lost, placeAttempt_of_fits (by exact hpos) (by exact hfit),
        programAttempt_waiting (by exact hf), moves_programs (by exact hp)]
      rfl
  · intro u
    refine ⟨fun h => ?_, fun h hq => ?_⟩
    · have ⟨_, _, _, hp, _, _⟩ := h
      rw [exec_append_placed h hi, moves_replying, resume_copyAppend_placed, moves_stepEnds_alone (by exact hp),
        ← endsDue_waiting]
      rfl
    · have ⟨_, _, _, hp, _, _⟩ := h
      rw [exec_append_placed h hi, moves_replying, resume_lossAppend_placed (by exact hq), moves_stepEnds_alone (by exact hp),
        ← endsDue_waiting]
      exact congrArg _ (endsDue_or_ready s.engine.readOnlyDue (limitReached s) { u with
        engine := { s.engine with
          seq := s.engine.seq + 1, dir := s.engine.dir.convertOnLoss e.key e.version q x st, readOnlyDue := false },
        window := { s.window with events := s.window.events ||| 0x08, lossKey := e.key } })

end Sys2Proof.Certificates
end


-- ==== Sys2Proof/Proofs/AnchorScan.lean ====
section
/-! Mount's anchor phase (R141, R144): which record the scan of both anchor sectors chooses, and the slots it finds used. -/

namespace Sys2Proof.Certificates

open Sys2Proof Sys2Proof.Machine

/-! ### A slot's record (R141) -/

/-- The six lines of a slot as they are read. -/
def slotLines (line : Nat → Line) : List Line := (List.range 6).map line

/-- The lines from a part on carry their part numbers and the generation. -/
theorem anchorPartsOk_iff (g : Seq) : ∀ (ls : List Line) (part : Nat), anchorPartsOk g part ls = true ↔
    ∀ i < ls.length, ∃ q, ls[i]? = some (.good (.anchor q (part + i))) ∧ q.generation = g
  | [], part => by simp [anchorPartsOk]
  | l :: rest, part => by
    have hl : anchorPartOk g part l = true ↔ ∃ q, l = .good (.anchor q part) ∧ q.generation = g := by
      cases l with
      | blank | defective => simp [anchorPartOk]
      | good d => cases d <;> simp [anchorPartOk]
    rw [anchorPartsOk, Bool.and_eq_true, hl, anchorPartsOk_iff g rest (part + 1), List.length_cons]
    constructor
    · rintro ⟨⟨q, rfl, hq⟩, hrest⟩ i hi
      cases i with
      | zero => exact ⟨q, rfl, hq⟩
      | succ i =>
        obtain ⟨q, h, hq⟩ := hrest i (by omega)
        exact ⟨q, by rw [List.getElem?_cons_succ, h]; congr 3; omega, hq⟩
    · intro h
      refine ⟨?_, fun i hi => ?_⟩
      · obtain ⟨q, h, hq⟩ := h 0 (by omega)
        exact ⟨q, Option.some.inj h, hq⟩
      · obtain ⟨q, h, hq⟩ := h (i + 1) (by omega)
        rw [List.getElem?_cons_succ] at h
        exact ⟨q, by rw [h]; congr 3; omega, hq⟩

/-- A slot gives the record of its first line, when its six lines carry their part numbers and that record's generation. -/
theorem slotRecord_eq_some_iff (ls : List Line) (r : AnchorRecord) : slotRecord ls = some r ↔
    (∃ p, ls[0]? = some (.good (.anchor r p))) ∧ ls.length = 6 ∧ anchorPartsOk r.generation 0 ls = true := by
  cases ls with
  | nil => simp [slotRecord]
  | cons l rest =>
    cases l with
    | blank | defective => simp [slotRecord]
    | good d =>
      cases d with
      | anchor q p =>
        simp only [slotRecord, Option.ite_none_right_eq_some, Option.some.injEq, List.getElem?_cons_zero, Line.good.injEq,
          LineData.anchor.injEq]
        constructor
        · rintro ⟨h, rfl⟩; exact ⟨⟨p, rfl, rfl⟩, h⟩
        · rintro ⟨⟨_, rfl, _⟩, h⟩; exact ⟨h, rfl⟩
      | _ => simp [slotRecord]

/-- A slot gives a record exactly when its six lines hold it. -/
theorem slotRecord_eq_some (line : Nat → Line) (r : AnchorRecord) : slotRecord (slotLines line) = some r ↔ ValidRecord line r := by
  have hparts : anchorPartsOk r.generation 0 (slotLines line) = true ↔
      ∀ i < 6, ∃ q, line i = .good (.anchor q i) ∧ q.generation = r.generation := by
    rw [anchorPartsOk_iff, slotLines, List.length_map, List.length_range]
    refine forall_congr' fun i => forall_congr' fun hi => exists_congr fun q => ?_
    rw [List.getElem?_map, List.getElem?_range hi, Option.map_some, Option.some.injEq, Nat.zero_add]
  have hlen : (slotLines line).length = 6 := by rw [slotLines, List.length_map, List.length_range]
  have hfirst : (slotLines line)[0]? = some (line 0) := rfl
  rw [slotRecord_eq_some_iff, hparts, hfirst, ValidRecord]
  constructor
  · rintro ⟨⟨p, h0⟩, -, h⟩
    have h0 : line 0 = .good (.anchor r p) := Option.some.inj h0
    obtain ⟨q, hq, -⟩ := h 0 (by omega)
    rw [h0, Line.good.injEq, LineData.anchor.injEq] at hq
    rw [h0, hq.2]
    exact ⟨rfl, h⟩
  · rintro ⟨h0, h⟩
    exact ⟨⟨0, by rw [h0]⟩, hlen, h⟩

/-- A slot holds at most one valid record. -/
theorem validRecord_unique {line : Nat → Line} {r q : AnchorRecord} (hr : ValidRecord line r) (hq : ValidRecord line q) : r = q := by
  rw [← slotRecord_eq_some] at hr hq
  exact Option.some.inj (hr.symm.trans hq)

/-! ### One line read (R144) -/

/-- The lines go on to line 251 and then to the next sector. -/
theorem read_position (a : AnchorScan) (l : Line) :
    (a.read l).sector = (if a.line < 251 then a.sector else a.sector + 1) ∧
      (a.read l).line = (if a.line < 251 then a.line + 1 else 0) := by
  simp only [AnchorScan.read]
  repeat' split
  all_goals exact ⟨rfl, rfl⟩

/-- A line joins the slot's lines; after the sixth the slot is done. -/
theorem read_slotLines (a : AnchorScan) (l : Line) :
    (a.read l).slotLines = if a.line % 6 = 5 then [] else a.slotLines ++ [l] := by
  simp only [AnchorScan.read]
  repeat' split
  all_goals rfl

/-- The sixth line of a slot decides whether its record is the better one. -/
theorem read_best (a : AnchorScan) (l : Line) :
    (a.read l).best =
      if a.line % 6 = 5 then betterRecord a.best (slotRecord (a.slotLines ++ [l])) a.sector (a.line / 6) else a.best := by
  simp only [AnchorScan.read]
  repeat' split
  all_goals rfl

/-- A line of anchor sector 0 that is not BLANK marks its slot used. -/
theorem read_used0 (a : AnchorScan) (l : Line) :
    (a.read l).used0 = if l ≠ .blank ∧ a.sector = 0 then some (a.line / 6) else a.used0 := by
  by_cases hl : l = .blank
  · rw [if_neg fun h => h.1 hl, AnchorScan.read, if_pos hl]
    repeat' split
    all_goals rfl
  · by_cases hs : a.sector = 0
    · rw [if_pos ⟨hl, hs⟩, AnchorScan.read, if_neg hl, if_pos hs]
      repeat' split
      all_goals rfl
    · rw [if_neg fun h => hs h.2, AnchorScan.read, if_neg hl, if_neg hs]
      repeat' split
      all_goals rfl

/-- A line of anchor sector 1 that is not BLANK marks its slot used. -/
theorem read_used1 (a : AnchorScan) (l : Line) :
    (a.read l).used1 = if l ≠ .blank ∧ a.sector ≠ 0 then some (a.line / 6) else a.used1 := by
  by_cases hl : l = .blank
  · rw [if_neg fun h => h.1 hl, AnchorScan.read, if_pos hl]
    repeat' split
    all_goals rfl
  · by_cases hs : a.sector = 0
    · rw [if_neg fun h => h.2 hs, AnchorScan.read, if_neg hl, if_pos hs]
      repeat' split
      all_goals rfl
    · rw [if_pos ⟨hl, hs⟩, AnchorScan.read, if_neg hl, if_neg hs]
      repeat' split
      all_goals rfl

/-! ### The scan after some lines (R144) -/

/-- The scan after the first `i` lines of both sectors. -/
def scanAfter (lines : Nat → Nat → Line) (i : Nat) : AnchorScan :=
  (List.range i).foldl (fun a i => a.read (lines (i / 252) (i % 252)))
    { sector := 0, line := 0, slotLines := [], best := none, used0 := none, used1 := none }

/-- The lines of the slot at a place of the reading order. -/
def slotAt (lines : Nat → Nat → Line) (k : Nat) : Nat → Line := fun i => lines (k / 42) (6 * (k % 42) + i)

theorem scanAfter_succ (lines : Nat → Nat → Line) (i : Nat) :
    scanAfter lines (i + 1) = (scanAfter lines i).read (lines (i / 252) (i % 252)) := by
  rw [scanAfter, List.range_succ, List.foldl_append]
  rfl

/-- Line `i` of the reading order is a line of slot `i / 6`. -/
theorem slotAt_div_mod (lines : Nat → Nat → Line) (i : Nat) : slotAt lines (i / 6) (i % 6) = lines (i / 252) (i % 252) := by
  rw [slotAt, show i / 6 / 42 = i / 252 by omega, show 6 * (i / 6 % 42) + i % 6 = i % 252 by omega]

theorem scanAfter_position (lines : Nat → Nat → Line) (i : Nat) :
    (scanAfter lines i).sector = i / 252 ∧ (scanAfter lines i).line = i % 252 := by
  induction i with
  | zero => exact ⟨rfl, rfl⟩
  | succ i ih =>
    obtain ⟨hs, hl⟩ := ih
    obtain ⟨hs', hl'⟩ := read_position (scanAfter lines i) (lines (i / 252) (i % 252))
    rw [scanAfter_succ, hs', hl', hs, hl]
    split <;> omega

theorem scanAfter_slotLines (lines : Nat → Nat → Line) (i : Nat) :
    (scanAfter lines i).slotLines = (List.range (i % 6)).map (slotAt lines (i / 6)) := by
  induction i with
  | zero => rfl
  | succ i ih =>
    rw [scanAfter_succ, read_slotLines, (scanAfter_position lines i).2, ih]
    split
    · rw [show (i + 1) % 6 = 0 by omega]
      rfl
    · rw [show (i + 1) % 6 = i % 6 + 1 by omega, show (i + 1) / 6 = i / 6 by omega, List.range_succ, List.map_append,
        List.map_singleton, slotAt_div_mod]

/-! ### The best record so far -/

/-- Of the first `c` slots of the reading order, the best valid record and its slot. -/
def BestOf (lines : Nat → Nat → Line) (c : Nat) (best : Option (AnchorRecord × Nat × Nat)) : Prop :=
  (best = none → ∀ k < c, ∀ r, ¬ ValidRecord (slotAt lines k) r) ∧
  (∀ r x n, best = some (r, x, n) → ∃ k < c, x = k / 42 ∧ n = k % 42 ∧ ValidRecord (slotAt lines k) r ∧
    ∀ j < c, ∀ q, ValidRecord (slotAt lines j) q → q.generation < r.generation ∨ (q.generation = r.generation ∧ k ≤ j))

/-- One more slot is taken into account. -/
theorem bestOf_betterRecord (lines : Nat → Nat → Line) (c : Nat) (best : Option (AnchorRecord × Nat × Nat))
    (h : BestOf lines c best) :
    BestOf lines (c + 1) (betterRecord best (slotRecord (slotLines (slotAt lines c))) (c / 42) (c % 42)) := by
  cases hr : slotRecord (slotLines (slotAt lines c)) with
  | none =>
    have hno : ∀ r, ¬ ValidRecord (slotAt lines c) r := fun r hv => by
      rw [(slotRecord_eq_some _ r).mpr hv] at hr
      cases hr
    obtain ⟨hnone, hsome⟩ := h
    refine ⟨fun hb k hk r => ?_, fun r x n hb => ?_⟩
    · rcases Nat.lt_succ_iff_lt_or_eq.mp hk with hk | rfl
      · exact hnone hb k hk r
      · exact hno r
    · obtain ⟨k, hk, hx, hn, hv, hbest⟩ := hsome r x n hb
      refine ⟨k, by omega, hx, hn, hv, fun j hj q hq => ?_⟩
      rcases Nat.lt_succ_iff_lt_or_eq.mp hj with hj | rfl
      · exact hbest j hj q hq
      · exact absurd hq (hno q)
  | some r =>
    have hr : ValidRecord (slotAt lines c) r := (slotRecord_eq_some _ r).mp hr
    have hnew : (∀ j < c, ∀ q, ValidRecord (slotAt lines j) q → q.generation < r.generation) →
        BestOf lines (c + 1) (some (r, c / 42, c % 42)) := by
      intro hlow
      refine ⟨fun hb => absurd hb (Option.some_ne_none _), fun r' x n hb => ?_⟩
      cases hb
      refine ⟨c, by omega, rfl, rfl, hr, fun j hj q hq => ?_⟩
      rcases Nat.lt_succ_iff_lt_or_eq.mp hj with hj | rfl
      · exact .inl (hlow j hj q hq)
      · exact .inr ⟨by rw [validRecord_unique hq hr], Nat.le_refl j⟩
    cases best with
    | none => exact hnew fun j hj q hq => absurd hq (h.1 rfl j hj q)
    | some b =>
      obtain ⟨k, hk, hx, hn, hv, hbest⟩ := h.2 b.1 b.2.1 b.2.2 rfl
      rw [betterRecord]
      split
      case isTrue hlt =>
        refine hnew fun j hj q hq => ?_
        rcases hbest j hj q hq with hq | ⟨hq, -⟩
        · exact BitVec.lt_trans hq hlt
        · rwa [hq]
      case isFalse hge =>
        refine ⟨fun hb => absurd hb (Option.some_ne_none _), fun r' x n hb => ?_⟩
        cases hb
        refine ⟨k, by omega, hx, hn, hv, fun j hj q hq => ?_⟩
        rcases Nat.lt_succ_iff_lt_or_eq.mp hj with hj | rfl
        · exact hbest j hj q hq
        · rw [validRecord_unique hq hr]
          rcases Nat.lt_or_eq_of_le (BitVec.not_lt.mp hge) with hlt | heq
          · exact .inl hlt
          · exact .inr ⟨BitVec.eq_of_toNat_eq heq, by omega⟩

theorem scanAfter_best (lines : Nat → Nat → Line) (i : Nat) : BestOf lines (i / 6) (scanAfter lines i).best := by
  induction i with
  | zero => exact ⟨fun _ k hk => absurd hk (Nat.not_lt_zero k), fun r x n hb => absurd hb.symm (Option.some_ne_none _)⟩
  | succ i ih =>
    rw [scanAfter_succ, read_best, (scanAfter_position lines i).1, (scanAfter_position lines i).2, scanAfter_slotLines]
    split
    case isTrue h =>
      have hlines : (List.range (i % 6)).map (slotAt lines (i / 6)) ++ [lines (i / 252) (i % 252)] =
          slotLines (slotAt lines (i / 6)) := by
        rw [← slotAt_div_mod lines i, show i % 6 = 5 by omega]
        rfl
      rw [hlines, show (i + 1) / 6 = i / 6 + 1 by omega, show i / 252 = i / 6 / 42 by omega,
        show i % 252 / 6 = i / 6 % 42 by omega]
      exact bestOf_betterRecord lines (i / 6) _ ih
    case isFalse h =>
      rwa [show (i + 1) / 6 = i / 6 by omega]

/-! ### The highest used slot -/

/-- Of the first `c` lines of a sector, the highest slot with one that is not BLANK. -/
def HighestUsed (line : Nat → Line) (c : Nat) (used : Option Nat) : Prop :=
  ∀ n, used = some n ↔ (∃ j < c, j / 6 = n ∧ line j ≠ .blank) ∧ ∀ j < c, line j ≠ .blank → j / 6 ≤ n

theorem highestUsed_zero (line : Nat → Line) : HighestUsed line 0 none := by
  intro n
  constructor
  · intro h
    cases h
  · rintro ⟨⟨j, hj, -⟩, -⟩
    exact absurd hj (Nat.not_lt_zero j)

/-- One more line is taken into account. -/
theorem highestUsed_succ {line : Nat → Line} {c : Nat} {used : Option Nat} (h : HighestUsed line c used) :
    HighestUsed line (c + 1) (if line c ≠ .blank then some (c / 6) else used) := by
  intro n
  by_cases hc : line c = .blank
  · have hlt : ∀ j, j < c + 1 → line j ≠ .blank → j < c := fun j hj hb =>
      Nat.lt_of_le_of_ne (Nat.le_of_lt_succ hj) (fun he => hb (he ▸ hc))
    rw [if_neg (not_not.mpr hc), h n]
    constructor
    · rintro ⟨⟨j, hj, hn, hb⟩, hall⟩
      exact ⟨⟨j, by omega, hn, hb⟩, fun j hj hb => hall j (hlt j hj hb) hb⟩
    · rintro ⟨⟨j, hj, hn, hb⟩, hall⟩
      exact ⟨⟨j, hlt j hj hb, hn, hb⟩, fun j hj hb => hall j (by omega) hb⟩
  · rw [if_pos hc, Option.some.injEq]
    constructor
    · rintro rfl
      exact ⟨⟨c, by omega, rfl, hc⟩, fun j hj _ => Nat.div_le_div_right (by omega)⟩
    · rintro ⟨⟨j, hj, rfl, -⟩, hall⟩
      have hle := hall c (by omega) hc
      omega

theorem scanAfter_used0 (lines : Nat → Nat → Line) (i : Nat) : HighestUsed (lines 0) (min i 252) (scanAfter lines i).used0 := by
  induction i with
  | zero => exact highestUsed_zero _
  | succ i ih =>
    rw [scanAfter_succ, read_used0, (scanAfter_position lines i).1, (scanAfter_position lines i).2]
    by_cases hi : i < 252
    · have hstep := highestUsed_succ ih
      rw [show min i 252 = i by omega] at hstep
      simpa only [show i / 252 = 0 by omega, show i % 252 = i by omega, show min (i + 1) 252 = i + 1 by omega, and_true]
        using hstep
    · rwa [if_neg (by omega), show min (i + 1) 252 = min i 252 by omega]

theorem scanAfter_used1 (lines : Nat → Nat → Line) (i : Nat) (hi : i ≤ 504) :
    HighestUsed (lines 1) (i - 252) (scanAfter lines i).used1 := by
  induction i with
  | zero => exact highestUsed_zero _
  | succ i ih =>
    rw [scanAfter_succ, read_used1, (scanAfter_position lines i).1, (scanAfter_position lines i).2]
    by_cases hlow : i < 252
    · rw [if_neg (by omega), show i + 1 - 252 = i - 252 by omega]
      exact ih (by omega)
    · have hstep := highestUsed_succ (ih (by omega))
      simpa only [show i / 252 = 1 by omega, show i % 252 = i - 252 by omega, show i + 1 - 252 = i - 252 + 1 by omega,
        ne_eq, Nat.one_ne_zero, not_false_eq_true, and_true] using hstep

/-- A sector's used slots, slot by slot. -/
theorem highestUsed_all {line : Nat → Line} {used : Option Nat} (h : HighestUsed line 252 used) (n : Nat) : used = some n ↔
    n < 42 ∧ (∃ i, i < 6 ∧ line (6 * n + i) ≠ .blank) ∧ ∀ m, n < m → m < 42 → ∀ i, i < 6 → line (6 * m + i) = .blank := by
  rw [h n]
  constructor
  · rintro ⟨⟨j, hj, rfl, hb⟩, hall⟩
    refine ⟨by omega, ⟨j % 6, by omega, by rwa [show 6 * (j / 6) + j % 6 = j by omega]⟩, fun m hm hm42 i hi => ?_⟩
    by_contra hne
    have := hall (6 * m + i) (by omega) hne
    omega
  · rintro ⟨hn, ⟨i, hi, hb⟩, hall⟩
    refine ⟨⟨6 * n + i, by omega, by omega, hb⟩, fun j hj hne => ?_⟩
    by_contra hlt
    refine hne ?_
    rw [← hall (j / 6) (by omega) (by omega) (j % 6) (by omega)]
    congr 1
    omega

/-! ### The authoritative record (R144) -/

theorem slotAt_sector_slot (lines : Nat → Nat → Line) {x n : Nat} (hn : n < 42) :
    slotAt lines (42 * x + n) = fun i => lines x (6 * n + i) := by
  unfold slotAt
  rw [show (42 * x + n) / 42 = x by omega, show (42 * x + n) % 42 = n by omega]

theorem anchorChosen : AnchorChosen := by
  intro lines valid highest a
  obtain ⟨hnone, hbest⟩ : BestOf lines 84 a.best := scanAfter_best lines 504
  have hvalid : ∀ {x n r}, valid x n r → 42 * x + n < 84 ∧ ValidRecord (slotAt lines (42 * x + n)) r := fun {x n r} h => by
    obtain ⟨hx, hn, hv⟩ := h
    rw [slotAt_sector_slot lines hn]
    exact ⟨by omega, hv⟩
  have hof : ∀ {k r}, k < 84 → ValidRecord (slotAt lines k) r → valid (k / 42) (k % 42) r := fun {k r} hk h =>
    ⟨by omega, Nat.mod_lt k (by omega), h⟩
  have hsome : ∀ r x n, a.best = some (r, x, n) → valid x n r ∧ ∀ y m q, valid y m q →
      q.generation < r.generation ∨ (q.generation = r.generation ∧ (x < y ∨ (x = y ∧ n ≤ m))) := fun r x n h => by
    obtain ⟨k, hk, rfl, rfl, hv, hall⟩ := hbest r x n h
    refine ⟨hof hk hv, fun y m q hq => ?_⟩
    obtain ⟨hj, hq'⟩ := hvalid hq
    obtain ⟨-, hm, -⟩ := hq
    rcases hall _ hj q hq' with hlt | ⟨heq, hle⟩
    · exact .inl hlt
    · exact .inr ⟨heq, by omega⟩
  have hused0 : HighestUsed (lines 0) 252 a.used0 := scanAfter_used0 lines 504
  have hused1 : HighestUsed (lines 1) 252 a.used1 := scanAfter_used1 lines 504 (Nat.le_refl _)
  refine ⟨⟨fun h => ?_, fun h => ?_⟩, fun r x n => ⟨hsome r x n, ?_⟩, highestUsed_all hused0, highestUsed_all hused1⟩
  · exact fun x n r hv => hnone h _ (hvalid hv).1 r (hvalid hv).2
  · cases hb : a.best with
    | none => rfl
    | some b => exact absurd (hsome b.1 b.2.1 b.2.2 hb).1 (h _ _ _)
  · rintro ⟨hv, hall⟩
    cases hb : a.best with
    | none => exact absurd (hvalid hv).2 (hnone hb _ (hvalid hv).1 r)
    | some b =>
      obtain ⟨r', x', n'⟩ := b
      obtain ⟨hv', hall'⟩ := hsome r' x' n' hb
      have hplace : x' = x ∧ n' = n := by
        rcases hall x' n' r' hv' with hlt | ⟨-, h⟩
        · rcases hall' x n r hv with hlt' | ⟨heq, -⟩
          · exact absurd (BitVec.lt_trans hlt hlt') (BitVec.lt_irrefl _)
          · exact absurd (heq ▸ hlt) (BitVec.lt_irrefl _)
        · rcases hall' x n r hv with hlt' | ⟨-, h'⟩
          · rcases hall x' n' r' hv' with hlt | ⟨heq, -⟩
            · exact absurd (BitVec.lt_trans hlt hlt') (BitVec.lt_irrefl _)
            · exact absurd (heq ▸ hlt') (BitVec.lt_irrefl _)
          · omega
      obtain ⟨rfl, rfl⟩ := hplace
      rw [validRecord_unique hv'.2.2 hv.2.2]

end Sys2Proof.Certificates
end


-- ==== Sys2Proof/Proofs/MountResults.lean ====
section
/-! What mount hands over at the end of replay (R133, R134): S, the next ring sequence and the head. -/

namespace Sys2Proof.Certificates

open Sys2Proof Sys2Proof.Machine

/-! ### The counters (R133) -/

/-- The latest of a list of sequences is one of them, and none of them is later. -/
theorem foldl_later {α : Type} (g : α → Seq) (xs : List α) (m : Seq) :
    xs.foldl (fun m n => Seq.later m (g n)) m ∈ m :: xs.map g ∧
      ∀ q ∈ m :: xs.map g, q.toNat ≤ (xs.foldl (fun m n => Seq.later m (g n)) m).toNat := by
  induction xs generalizing m with
  | nil => simp
  | cons x xs ih =>
    obtain ⟨hmem, hle⟩ := ih (Seq.later m (g x))
    have htop := hle _ List.mem_cons_self
    rw [later_toNat] at htop
    simp only [List.foldl_cons, List.map_cons, List.mem_cons, forall_eq_or_imp] at *
    refine ⟨?_, by omega, by omega, hle.2⟩
    rcases hmem with h | h
    · rw [h, Seq.later]
      split <;> simp
    · exact .inr (.inr h)

/-- One more than a sequence below the greatest. -/
theorem toNat_succ {q : Seq} (h : q ≠ 4294967295) : (q + 1).toNat = q.toNat + 1 := by
  bv_omega

/-- S is one more than the highest sequence found (R133). -/
theorem storeSeq_is_next (p : Replay) (h : ∀ q ∈ p.maxSeq :: p.notes.map (fun n => n.2.topSeq), q ≠ 4294967295) :
    (∀ q ∈ p.maxSeq :: p.notes.map (fun n => n.2.topSeq), q.toNat < p.storeSeq.toNat) ∧
      ∃ q ∈ p.maxSeq :: p.notes.map (fun n => n.2.topSeq), p.storeSeq.toNat = q.toNat + 1 := by
  obtain ⟨hmem, hle⟩ := foldl_later (fun n : Nat × SurveyNote => n.2.topSeq) p.notes p.maxSeq
  have hnext := toNat_succ (h _ hmem)
  exact ⟨fun q hq => hnext ▸ Nat.lt_succ_of_le (hle q hq), _, hmem, hnext⟩

/-- The next ring sequence is one more than the highest ring sequence found, 1 if none (R133). -/
theorem nextRing_is_next (p : Replay)
    (h : ∀ q ∈ p.notes.map (fun n => (n.2.opened.map Prod.fst).getD 0), q ≠ 4294967295) :
    (∀ q ∈ p.notes.map (fun n => (n.2.opened.map Prod.fst).getD 0), q.toNat < p.nextRing.toNat) ∧
      ∃ q ∈ 0 :: p.notes.map (fun n => (n.2.opened.map Prod.fst).getD 0), p.nextRing.toNat = q.toNat + 1 := by
  obtain ⟨hmem, hle⟩ := foldl_later (fun n : Nat × SurveyNote => (n.2.opened.map Prod.fst).getD 0) p.notes 0
  have htop : ∀ q ∈ 0 :: p.notes.map (fun n => (n.2.opened.map Prod.fst).getD 0), q ≠ (4294967295 : Seq) := by
    rintro q (_ | ⟨_, hq⟩)
    · decide
    · exact h q hq
  have hnext := toNat_succ (htop _ hmem)
  exact ⟨fun q hq => hnext ▸ Nat.lt_succ_of_le (hle q (List.mem_cons_of_mem _ hq)), _, hmem, hnext⟩

/-! ### The head (R134) -/

/-- A sector's HEAD record: UNCLOSED, eligible, below 3 faults and not full. -/
theorem headRecord_eq_some (p : Replay) (x : Nat) (r : SectorRec) : headRecord p x = some r ↔
    ∃ ring q c, noteOf p.notes x = .unclosed ring q c true ∧ (scanOf p.scans x).defects < 3 ∧
      (scanOf p.scans x).endLine < 256 ∧
      r = .head ring c (scanOf p.scans x).defects ((scanOf p.scans x).endLine - 1) (scanOf p.scans x).frames
        (scanOf p.scans x).highest := by
  have hmin : (scanOf p.scans x).faults < 3 ↔ (scanOf p.scans x).defects < 3 := by
    unfold ScanNote.faults; omega
  cases hn : noteOf p.notes x with
  | unclosed ring q c ok =>
    cases ok with
    | false => simp [headRecord, hn]
    | true =>
      simp only [headRecord, hn, hmin, Option.ite_none_right_eq_some, Option.some.injEq]
      constructor
      · rintro ⟨⟨hd, he⟩, rfl⟩
        refine ⟨ring, q, c, rfl, hd, he, ?_⟩
        rw [ScanNote.faults, Nat.min_eq_right (by omega)]
      · rintro ⟨ring', q', c', heq, hd, he, rfl⟩
        cases heq
        refine ⟨⟨hd, he⟩, ?_⟩
        rw [ScanNote.faults, Nat.min_eq_right (by omega)]
  | _ => simp [headRecord, hn]

/-- The tables mount hands over before a head is chosen. -/
def handed (p : Replay) : LogTables :=
  { sectors := poolSectors.map (fun x => handOver p.scans x (noteOf p.notes x)),
    free := poolSectors.filter (fun x => (noteOf p.notes x).isFree), ring := ringOf p.notes, head := none,
    nextRing := p.nextRing }

/-- The newest ring sector becomes the head when it has a HEAD record. -/
theorem tables_of_headRecord {p : Replay} {x : Nat} {r : SectorRec} (hlast : (ringOf p.notes).getLast? = some x)
    (hr : headRecord p x = some r) : p.tables = { (handed p).setRecord x r with head := some x } := by
  unfold Replay.tables
  simp only [hlast, hr]
  rfl

/-- Without a newest ring sector that has a HEAD record there is no head. -/
theorem tables_of_no_headRecord {p : Replay} (h : ∀ x, (ringOf p.notes).getLast? = some x → headRecord p x = none) :
    p.tables = handed p := by
  unfold Replay.tables
  cases hlast : (ringOf p.notes).getLast? with
  | none => simp only [hlast]; rfl
  | some x => simp only [hlast, h x hlast]; rfl

/-- The head is the newest ring sector that has a HEAD record. -/
theorem tables_head (p : Replay) (x : Nat) : p.tables.head = some x ↔
    (ringOf p.notes).getLast? = some x ∧ ∃ r, headRecord p x = some r := by
  constructor
  · intro h
    by_cases hno : ∀ x, (ringOf p.notes).getLast? = some x → headRecord p x = none
    · rw [tables_of_no_headRecord hno] at h
      exact absurd h.symm (Option.some_ne_none x)
    · push Not at hno
      obtain ⟨y, hlast, hr⟩ := hno
      obtain ⟨r, hr⟩ := Option.ne_none_iff_exists'.mp hr
      rw [tables_of_headRecord hlast hr, Option.some.injEq] at h
      subst h
      exact ⟨hlast, r, hr⟩
  · rintro ⟨hlast, r, hr⟩
    rw [tables_of_headRecord hlast hr]

/-- The record that the head takes over. -/
theorem tables_record_head {p : Replay} {x : Nat} {r : SectorRec} (hh : p.tables.head = some x) (hr : headRecord p x = some r)
    (hx : 2 ≤ x) (hx' : x < 64) : p.tables.record x = r := by
  obtain ⟨hlast, -⟩ := (tables_head p x).mp hh
  rw [tables_of_headRecord hlast hr]
  exact record_setRecord (handed p) x r hx hx' (by simp only [handed, poolSectors, List.length_map, List.length_range])

end Sys2Proof.Certificates
end


-- ==== Sys2Proof/Proofs/Mount.lean ====
section
/-! Mount's course (R124 to R138): its beginning, the anchor phase, the survey, the ring, the close lines, the tidy phase and its
ends. -/

namespace Sys2Proof.Certificates

open Sys2Proof Sys2Proof.Machine

/-! ### The beginning (R124) -/

/-- Nothing moves while a read is in hand, whatever erase waits to begin. -/
theorem moves_reads_any (s : State) (n : Nat) (k : List Task) (x l : Nat) : State.moves n (reads s k x l) = reads s k x l := by
  refine State.moves_of_move_none ?_ n
  have hhand : (reads s k x l).seq.inHand = some (.read x l) := rfl
  simp only [State.move, show (reads s k x l).ctl.reply = none from rfl, State.startPending]
  cases (reads s k x l).seq.pending <;> simp [hhand]

/-- A consistent sequencer that is IDLE has no erase in flight. -/
theorem no_erase_of_idle {s : State} (hw : s.sequencerWf = true) (hi : s.seq.state = .idle) : s.seq.erase = none := by
  simp only [State.sequencerWf, Sequencer.wf, hi, Bool.and_eq_true, Option.isNone_iff_eq_none] at hw
  exact hw.1.1

/-- When mount can begin (R124). -/
theorem mountCanBegin_iff (s : State) : s.mountCanBegin = true ↔
    s.busActive = true ∧ s.pins.pfwAsserted = false ∧ s.engine.store = .mounting ∧ s.ctl.stack = [] ∧ s.seq.state = .idle ∧
      s.seq.inHand = none := by
  simp only [State.mountCanBegin, Bool.and_eq_true, Bool.not_eq_true', decide_eq_true_eq, List.isEmpty_iff,
    Option.isNone_iff_eq_none, and_assoc]

/-- Mount begins with the read of line 0 of anchor sector 0. -/
theorem exec_mount_begins {s : State} (hc : s.mountCanBegin = true) (hctl : s.ctl = { stack := [], reply := none })
    (he : s.seq.erase = none) :
    exec .mount s = .next (reads { s with engine := { s.engine with anchorFailed := false } }
      [.mountAnchor { sector := 0, line := 0, slotLines := [], best := none, used0 := none, used1 := none }] 0 0) := by
  have hread := issueRead_waiting (s := { s with engine := { s.engine with anchorFailed := false } }) he
    [.mountAnchor { sector := 0, line := 0, slotLines := [], best := none, used0 := none, used1 := none }] 0 0
  have hbegin : s.mountBegin = reads { s with engine := { s.engine with anchorFailed := false } }
      [.mountAnchor { sector := 0, line := 0, slotLines := [], best := none, used0 := none, used1 := none }] 0 0 := by
    rw [← hread]
    simp only [State.mountBegin, State.push, hctl]
    rfl
  simp only [exec, execMount, hc, if_true, hbegin, State.settle, moves_reads_any]

/-- MOUNT does nothing when mount cannot begin (log 8). -/
theorem exec_mount_of_not {s : State} (h : ¬ s.mountCanBegin = true) : exec .mount s = .next s := by
  simp only [exec, execMount, h, if_false, Bool.false_eq_true]

/-! ### The ends (R137, R138) -/

/-- Mount ends, and nothing moves. -/
theorem moves_mountEnds {u : State} (hm : u.engine.store = .mounting) (hp : u.seq.pending = none) (k : List Task) (n : Nat) :
    State.moves n (waiting u k).mountEnds = mountEnded u := by
  rw [mountEnds_of_mounting (waiting u k) hm]
  exact moves_at_rest (s := mountEnded u) rfl hp n

/-- Mount ends once its opening has ended, with a head or without one. -/
theorem moves_opened {u : State} (hm : u.engine.store = .mounting) (hp : u.seq.pending = none) {o : OpenOutcome}
    (ho : o ≠ .refused) (n : Nat) : State.moves (n + 1) (replying u [.mountOpen] (.opened o)) = mountEnded u := by
  rw [moves_replying, ← moves_mountEnds hm hp [] n]
  cases o with
  | refused => contradiction
  | _ => rfl

/-! ### The tidy phase (R136, R137) -/

/-- A BLANK sector that is not worn is erased. -/
theorem moves_tidyNext_erases {u : State} {y : Nat} (hf : Free u) (hp : u.seq.pending = none) (hb : u.firstBlank = some y)
    (hw : (u.record y).worn = false) (n : Nat) :
    State.moves n (waiting u []).tidyNext = erases u [.mountErase y] y := by
  have hb : (waiting u []).firstBlank = some y := hb
  have hw : ((waiting u []).record y).worn = false := hw
  simp only [State.tidyNext, hb, hw, Bool.false_eq_true, if_false, push_waiting, issueErase_waiting hf, moves_erases hp]

/-- A worn BLANK sector is retired. -/
theorem moves_tidyNext_retires {u : State} {y : Nat} (hf : Free u) (hp : u.seq.pending = none) (hb : u.firstBlank = some y)
    (hw : (u.record y).worn = true) (hg : u.contents.generation ≠ 4294967295) (n : Nat) :
    State.moves n (waiting u []).tidyNext = anchorAsked u [.retire y, .mountSector] (retiring u.contents y) := by
  have hb : (waiting u []).firstBlank = some y := hb
  have hw : ((waiting u []).record y).worn = true := hw
  simp only [State.tidyNext, hb, hw, if_true, push_waiting, retireBegin_waiting hf hg, moves_anchorAsked hp]

/-- With no BLANK sector left the opening phase follows, with the free list in order. -/
theorem tidyNext_opens {u : State} {t : LogTables} (hl : u.log = some t) (hb : u.firstBlank = none) :
    (waiting u []).tidyNext = (waiting { u with log := some t.sortFree } []).mountOpening := by
  have hb : (waiting u []).firstBlank = none := hb
  have hl : (waiting u []).log = some t := hl
  simp only [State.tidyNext, hb, State.withLog, hl, Option.map_some]
  rfl

/-- With a head, or without a FREE sector to open, mount ends. -/
theorem moves_tidyNext_ends {u : State} {t : LogTables} (hm : u.engine.store = .mounting) (hp : u.seq.pending = none)
    (hl : u.log = some t) (hb : u.firstBlank = none) (h : t.head.isSome = true ∨ t.sortFree.free = []) (n : Nat) :
    State.moves (n + 1) (waiting u []).tidyNext = mountEnded { u with log := some t.sortFree } := by
  have hlog : (waiting { u with log := some t.sortFree } []).log = some t.sortFree := rfl
  rw [tidyNext_opens hl hb]
  simp only [State.mountOpening, hlog]
  cases hh : t.head with
  | some x =>
    rw [if_neg (by rw [show t.sortFree.head = some x from hh]; exact Bool.false_ne_true)]
    exact moves_mountEnds (by exact hm) (by exact hp) [] (n + 1)
  | none =>
    have hfree : t.sortFree.free = [] := by simpa [hh] using h
    rw [if_pos (by rw [show t.sortFree.head = none from hh]; rfl), push_waiting,
      openHead_waiting_empty (s := { u with log := some t.sortFree }) rfl hfree]
    exact moves_opened (by exact hm) (by exact hp) (by decide) n

/-- Without a head the front of the free list is opened. -/
theorem moves_tidyNext_opens {u : State} {t : LogTables} {y : Nat} {rest : List Nat} (hf : Free u) (hp : u.seq.pending = none)
    (hl : u.log = some t) (hb : u.firstBlank = none) (hh : t.head = none) (hy : t.sortFree.free = y :: rest) (n : Nat) :
    State.moves n (waiting u []).tidyNext =
      programs { u with log := some { t.sortFree with nextRing := t.nextRing + 1 } } [.openHead y t.nextRing, .mountOpen] y 1
        (.opened u.formatId t.nextRing u.engine.seq) := by
  have hlog : (waiting { u with log := some t.sortFree } []).log = some t.sortFree := rfl
  rw [tidyNext_opens hl hb]
  simp only [State.mountOpening, hlog]
  rw [if_pos (by rw [show t.sortFree.head = none from hh]; rfl), push_waiting,
    openHead_waiting (s := { u with log := some t.sortFree }) hf rfl hy, moves_programs (by exact hp)]
  rfl

/-! ### The close lines and the end of replay (R133 to R135) -/

/-- The next UNCLOSED sector's close line is issued. -/
theorem moves_mountCloseNext {u : State} (hf : Free u) (hp : u.seq.pending = none) (v : Unclosed) (todo : List Unclosed) (n : Nat) :
    State.moves n ((waiting u []).mountCloseNext (v :: todo)) =
      programs u [.mountClose v todo] v.sector 2 (.closed v.lastUsed v.frames v.highest v.faults) := by
  rw [State.mountCloseNext, push_waiting, issueProgram_waiting hf, moves_programs hp]

/-- What the end of replay leads to (R133 to R137). -/
theorem replayEnded_of_moves {s : State} {q : Replay} {out : State → Prop} {n : Nat} (hm : s.engine.store = .mounting) (hf : Free s)
    (hp : s.seq.pending = none) (h : out (State.moves (n + 1) ((waiting s []).replayEnds q))) : ReplayEnded s q out := by
  unfold ReplayEnded
  intro u g
  have hends : (waiting s []).replayEnds q = (waiting u []).mountCloseNext (q.unclosed q.tables.head) := rfl
  rw [hends] at h
  refine ⟨fun v todo hu => ?_, fun hu => ?_⟩
  · rw [hu, moves_mountCloseNext (by exact hf) (by exact hp)] at h
    exact h
  · rw [hu, State.mountCloseNext] at h
    refine ⟨fun y hb hw => ?_, fun y hb hw hg => ?_, fun hb hopen => ?_, fun y rest hb hh hy => ?_⟩
    · rwa [moves_tidyNext_erases (by exact hf) (by exact hp) hb hw] at h
    · rwa [moves_tidyNext_retires (by exact hf) (by exact hp) hb hw hg] at h
    · rwa [moves_tidyNext_ends (by exact hm) (by exact hp) rfl hb hopen] at h
    · rwa [moves_tidyNext_opens (by exact hf) (by exact hp) rfl hb hh hy] at h

/-! ### The ring (R128, R129) -/

/-- The scan goes on at line 3 of the sector entered, or replay ends. -/
def ringNext (s : State) (r : Replay × Bool) : State :=
  if r.2 then (s.push (.mountReplay r.1)).issueRead r.1.sector 3 else s.replayEnds r.1

/-- The scan of a line that does not go on in its sector leads to the next one. -/
theorem scanNext_ends {s : State} {p : Replay} {ended : Bool} (h : ended = true ∨ p.stop ≤ p.nextLine) :
    s.scanNext p ended = ringNext s ((p.recordScan ended).nextSector p.todo) := by
  have hno : (!ended && decide (p.nextLine < p.stop)) = false := by
    rcases h with rfl | h
    · rfl
    · rw [decide_eq_false (Nat.not_lt.2 h), Bool.and_false]
  simp only [State.scanNext, hno, Bool.false_eq_true, if_false]
  rfl

/-- Replay begins with the first ring sector. -/
theorem replayBegin_eq (s : State) (notes : List (Nat × SurveyNote)) :
    s.replayBegin notes = ringNext s (Replay.nextSector
      { notes := notes, scans := [], todo := [], sector := 0, pos := 3, cur := none, frames := 0, highest := 0, defects := 0,
        run := [], maxSeq := 0, maxTxn := 0 } (ringOf notes)) := rfl

/-- The ring sectors still to be scanned, one after another. -/
theorem ringGoesOn_of_moves {s : State} {out : State → Prop} {n : Nat} (he : s.seq.erase = none) (hp : s.seq.pending = none) :
    ∀ (todo : List Nat) (q : Replay), out (State.moves (n + 1) (ringNext (waiting s []) (q.nextSector todo))) →
      RingGoesOn s out todo q
  | [], q, h => fun hm hf => replayEnded_of_moves hm hf hp h
  | x :: rest, q, h => by
    unfold RingGoesOn
    intro p
    rw [Replay.nextSector] at h
    refine ⟨fun hlt => ?_, fun hle => ?_⟩
    · have hlt : 3 < (q.enter x rest).stop := hlt
      simp only [hlt, if_true, ringNext, push_waiting, issueRead_waiting he, moves_reads hp] at h
      exact h
    · have hge : ¬ 3 < (q.enter x rest).stop := Nat.not_lt.2 hle
      simp only [hge, if_false] at h
      exact ringGoesOn_of_moves he hp rest _ h

/-! ### The anchor phase (R125, R144) -/

/-- The anchor phase goes on with the next line. -/
theorem resume_mountAnchor_reads {s : State} {a : AnchorScan} {l : Line} (he : s.seq.erase = none) (h : (a.read l).sector < 2)
    (k : List Task) :
    State.resume (waiting s k) (.mountAnchor a) (.line l) =
      reads s (.mountAnchor (a.read l) :: k) (a.read l).sector (a.read l).line := by
  simp only [State.resume, State.mountAnchorReply, h, if_true, push_waiting, issueRead_waiting he]

/-- The anchor phase ends after the last line of sector 1. -/
theorem resume_mountAnchor_ends {s : State} {a : AnchorScan} {l : Line} (h : 2 ≤ (a.read l).sector) (k : List Task) :
    State.resume (waiting s k) (.mountAnchor a) (.line l) = (waiting s k).anchorPhaseEnds (a.read l) := by
  simp only [State.resume, State.mountAnchorReply, Nat.not_lt.2 h, if_false]

/-- Line 251 of a sector is its last. -/
theorem read_position_last (a : AnchorScan) (l : Line) (h : a.line = 251) :
    (a.read l).sector = a.sector + 1 ∧ (a.read l).line = 0 := by
  have hpos := read_position a l
  rwa [if_neg (by omega), if_neg (by omega)] at hpos

/-- Another line of a sector is followed by the next one. -/
theorem read_position_next (a : AnchorScan) (l : Line) (h : a.line < 251) :
    (a.read l).sector = a.sector ∧ (a.read l).line = a.line + 1 := by
  have hpos := read_position a l
  rwa [if_pos h, if_pos h] at hpos

/-- The state of a part that holds no valid anchor record: UNFORMATTED, with the default contents. -/
def unformatted (s : State) : State :=
  { s with
    ctl := { stack := [], reply := none },
    anchor := { working := some .default, location := none, writePos := none },
    engine := { s.engine with store := .unformatted, dir := { s.engine.dir with complete := true } },
    window := { s.window with events := s.window.events ||| 0x20 } }

/-- Without a valid record mount ends UNFORMATTED. -/
theorem anchorPhaseEnds_none {s : State} {a : AnchorScan} (h : a.best = none) (hm : s.engine.store = .mounting) (k : List Task) :
    (waiting s k).anchorPhaseEnds a = unformatted s := by
  have hm : (waiting s k).engine.store = .mounting := hm
  simp only [State.anchorPhaseEnds, h, State.clearControl, State.withDir, State.leaveStore, State.setStore, hm, if_true,
    reduceCtorEq, if_false]
  rfl

/-- The survey of the next sector begins. -/
theorem surveyNext_reads {s : State} (he : s.seq.erase = none) (y : Nat) (rest : List Nat) (notes : List (Nat × SurveyNote))
    (k : List Task) :
    (waiting s k).surveyNext (y :: rest) notes = reads s (.mountSurvey y [] rest notes :: k) y 0 := by
  rw [State.surveyNext, push_waiting, issueRead_waiting he]

/-- The record chosen becomes the working contents, and the survey begins with the first sector that is not retired. -/
theorem anchorPhaseEnds_some {s : State} {a : AnchorScan} {r : AnchorRecord} {x slot y : Nat} {rest : List Nat}
    (he : s.seq.erase = none) (h : a.best = some (r, x, slot))
    (hy : poolSectors.filter (fun z => !r.retired.contains z) = y :: rest) (k : List Task) :
    (waiting s k).anchorPhaseEnds a = reads
      { s with anchor :=
        { working := some r, location := some (x, slot),
          writePos := some (x, (if x = 0 then a.used0 else a.used1).getD slot + 1) } }
      (.mountSurvey y [] rest (r.retired.map (fun z => (z, .retired))) :: k) y 0 := by
  simp only [State.anchorPhaseEnds, h, hy]
  exact surveyNext_reads (s := { s with anchor :=
    { working := some r, location := some (x, slot),
      writePos := some (x, (if x = 0 then a.used0 else a.used1).getD slot + 1) } }) he y rest _ k

/-- The last line of the anchor sectors, when neither the scan so far nor the last slot holds a valid record. -/
theorem exec_anchor_none {s : State} {a : AnchorScan} (h : Reads s [.mountAnchor a] 1 251) (hs : a.sector = 1) (hl : a.line = 251)
    (hb : a.best = none) (hslot : slotRecord (a.slotLines ++ [s.lineAt 1 251]) = none) (hm : s.engine.store = .mounting) :
    exec .lineReadDone s = .next (unformatted { s with seq := readEnded s.seq }) := by
  obtain ⟨-, -, -, hp, -⟩ := id h
  have hsector := (read_position_last a (s.lineAt 1 251) hl).1
  have hbest : (a.read (s.lineAt 1 251)).best = none := by
    rw [read_best, if_pos (by omega), hslot, hb, betterRecord]
  rw [exec_lineReadDone h, settle_replying, resume_mountAnchor_ends (by omega), anchorPhaseEnds_none hbest (by exact hm)]
  exact congrArg _ (moves_at_rest (s := unformatted { s with seq := readEnded s.seq }) rfl hp _)

/-! ### The survey (R126) -/

/-- A header line of a sector is followed by the next one. -/
theorem resume_mountSurvey_reads {s : State} (he : s.seq.erase = none) {read : List Line} (h : read.length < 2) (x : Nat)
    (todo : List Nat) (notes : List (Nat × SurveyNote)) (l : Line) (k : List Task) :
    State.resume (waiting s k) (.mountSurvey x read todo notes) (.line l) =
      reads s (.mountSurvey x (read ++ [l]) todo notes :: k) x (read.length + 1) := by
  rw [← issueRead_waiting he, ← push_waiting]
  match read, h with
  | [], _ => rfl
  | [_], _ => rfl

/-- The third header line gives the sector's class. -/
theorem resume_mountSurvey_notes (s : State) (x : Nat) (todo : List Nat) (notes : List (Nat × SurveyNote)) (l0 l1 l : Line)
    (k : List Task) :
    State.resume (waiting s k) (.mountSurvey x [l0, l1] todo notes) (.line l) =
      (waiting s k).surveyNext todo (notes ++ [(x, classify s.formatId l0 l1 l)]) := rfl

/-! ### Mount's operations that end (R135, R136) -/

/-- A program in hand ends by one of its events: PASS on a BLANK line only, else FAIL or NOT_BLANK. -/
theorem exec_program_ends {s : State} {k : List Task} {x l : Nat} {d : LineData} (h : Waits s k x l d) {event : Instr}
    (hev : (s.lineAt x l = .blank ∧ event ∈ [Instr.lineProgramDone true, .lineProgramDone false, .programTimeout]) ∨
      (¬ s.lineAt x l = .blank ∧ event ∈ [Instr.lineProgramDone true, .lineProgramDone false])) :
    ∃ o, o ≠ .refused ∧
      ((o = .fail ∨ o = .notBlank) ↔ ¬ (s.lineAt x l = .blank ∧ event = .lineProgramDone true)) ∧
      exec event s = .next (State.settle (replying
        { s with
          seq := programmed s.seq x l
            (if s.lineAt x l = .blank ∧ event = .lineProgramDone true then .good d
              else if s.lineAt x l = .blank then .defective else s.lineAt x l) }
        k (.prog o))) := by
  by_cases hgood : s.lineAt x l = .blank ∧ event = .lineProgramDone true
  · obtain ⟨hb, rfl⟩ := hgood
    refine ⟨.pass, by decide, by simp [hb], ?_⟩
    rw [exec_program_passes (programs_undue h hb), if_pos ⟨hb, rfl⟩]
  · have hev : EndsUnpassed s x l event := by
      rcases hev with ⟨hb, hev⟩ | ⟨hb, hev⟩
      · exact .inl ⟨hb, List.mem_of_ne_of_mem (fun h => hgood ⟨hb, h⟩) hev⟩
      · exact .inr ⟨hb, List.mem_pair.mpr (List.mem_pair.mp hev).symm⟩
    obtain ⟨o, ho, hexec⟩ := exec_program_unpassed h hev
    refine ⟨o, by rcases ho with rfl | rfl <;> decide, iff_of_true ho hgood, ?_⟩
    rw [hexec, if_neg hgood]

/-- A close line of mount that fails or is found not BLANK condemns its sector. -/
theorem resume_mountClose {s : State} {t : LogTables} {v : Unclosed} {ring : Seq} {c f lu : Nat} {cond : Bool} (hl : s.log = some t)
    (hr : t.record v.sector = .closed ring c f lu cond) {o : ProgOutcome} (ho : o ≠ .refused) (todo : List Unclosed)
    (k : List Task) :
    State.resume (waiting s k) (.mountClose v todo) (.prog o) =
      (waiting { s with log := some (t.setRecord v.sector
        (.closed ring c f lu (cond || decide (o = .fail ∨ o = .notBlank)))) } k).mountCloseNext todo := by
  have hl : (waiting s k).log = some t := hl
  cases o with
  | refused => contradiction
  | _ =>
    simp only [State.resume, State.mountCloseReply, State.mapRecord, State.withLog, hl, Option.map_some, hr, SectorRec.condemn]
    rfl

/-- The erase count with which a BLANK sector is formatted (R136). -/
theorem formatCount_eq (s : State) (x : Nat) :
    s.formatCount x = ((s.record x).eraseCount.orElse (fun _ => s.log.bind LogTables.highestErase)).getD 0 + 1 := by
  unfold State.formatCount
  cases (s.record x).eraseCount with
  | some c => rfl
  | none =>
    cases s.log with
    | none => rfl
    | some t => cases h : t.highestErase <;> simp [h]

/-- An erase of mount that passes is followed by the format line. -/
theorem resume_mountErase_passes {s : State} (hf : Free s) (x : Nat) (k : List Task) :
    State.resume (waiting s k) (.mountErase x) (.erase .pass) =
      programs s (.formatLine x (s.formatCount x) :: .mountSector :: k) x 0 (.format s.formatId (s.formatCount x)) :=
  issueProgram_waiting hf (.formatLine x (s.formatCount x) :: .mountSector :: k) x 0 _

/-- Settles O17: mount's beginning, the record it chooses, and what each line read, each program and each erase of mount is
followed by, up to its ends. -/
theorem mountBeginsAndEnds : Obligations.MountBeginsAndEnds := by
  refine ⟨anchorChosen,
    fun s hb hpfw hm hctl hidle hhand hw => ?begins,
    fun s h => ?waits,
    fun s a h hs hl hbest hslot hm => exec_anchor_none h hs hl hbest hslot hm,
    fun s a h he => ?anchor,
    fun s x read todo notes h he => ?survey,
    fun s t x ring d h hm hl => ?opened,
    fun p => ?results,
    fun s p h he => ?replay,
    fun s v todo t ring c f lu cond d h hf hl hr => ?close,
    fun s e h hh => ?erase,
    fun s t x c d h hf hl hm => ?format⟩
  case begins =>
    have hcan : s.mountCanBegin = true := (mountCanBegin_iff s).mpr ⟨hb, hpfw, hm, by rw [hctl], hidle, hhand⟩
    exact exec_mount_begins hcan hctl (no_erase_of_idle hw hidle)
  case waits =>
    refine exec_mount_of_not fun hcan => ?_
    obtain ⟨hb, hpfw, hm, hstack, hidle, hhand⟩ := (mountCanBegin_iff s).mp hcan
    rcases h with h | h | h | h | h | h
    · exact absurd (hb.symm.trans h) (by decide)
    · exact absurd (hpfw.symm.trans h) (by decide)
    · exact h hm
    · exact h hstack
    · exact h hidle
    · exact h hhand
  case anchor =>
    intro b u
    obtain ⟨-, -, -, hp, -⟩ := id h
    rw [exec_lineReadDone h, settle_replying]
    refine ⟨fun hs hl => ?_, fun hs hl => ?_, fun r x slot y rest hs hl hbest hy => ?_⟩
    · obtain ⟨hs', hl'⟩ := read_position_next a (s.lineAt a.sector a.line) hl
      rw [resume_mountAnchor_reads (by exact he) (by omega), moves_reads (by exact hp), hs', hl']
    · obtain ⟨hs', hl'⟩ := read_position_last a (s.lineAt a.sector a.line) hl
      rw [resume_mountAnchor_reads (by exact he) (by omega), moves_reads (by exact hp), hs', hl',
        show a.sector + 1 = 1 by omega]
    · obtain ⟨hs', -⟩ := read_position_last a (s.lineAt a.sector a.line) hl
      rw [resume_mountAnchor_ends (by omega), anchorPhaseEnds_some (by exact he) hbest hy, moves_reads (by exact hp)]
  case survey =>
    intro u l
    obtain ⟨-, -, -, hp, -⟩ := id h
    rw [exec_lineReadDone h, settle_replying]
    refine ⟨fun hlen => ?_, ?_, ?_⟩
    · rw [resume_mountSurvey_reads (by exact he) hlen, moves_reads (by exact hp)]
    · rintro l0 l1 y rest rfl rfl
      rw [resume_mountSurvey_notes, surveyNext_reads (by exact he), moves_reads (by exact hp)]
      rfl
    · rintro l0 l1 rfl rfl ns p
      refine ringGoesOn_of_moves (s := u) (n := 8190) he hp _ p ?_
      rw [resume_mountSurvey_notes, State.surveyNext, replayBegin_eq]
      rfl
  case opened =>
    obtain ⟨hwaits, hblank⟩ := waits_of_programs h
    obtain ⟨-, -, -, hp, -⟩ := id hwaits
    rw [exec_program_passes (programs_undue hwaits hblank), settle_replying, resume_openHead_passes (by exact hl),
      moves_opened (by exact hm) (by exact hp) (by decide)]
  case results =>
    refine ⟨storeSeq_is_next p, nextRing_is_next p, fun x => ?_, fun x ring q c hh hx hx' hn => ?_⟩
    · simp only [tables_head, headRecord_eq_some]
      constructor
      · rintro ⟨hlast, _, ring, q, c, hn, hd, he, -⟩
        exact ⟨hlast, ring, q, c, hn, hd, he⟩
      · rintro ⟨hlast, ring, q, c, hn, hd, he⟩
        exact ⟨hlast, _, ring, q, c, hn, hd, he, rfl⟩
    · obtain ⟨-, r, hr⟩ := (tables_head p x).mp hh
      obtain ⟨ring', q', c', hn', -, -, rfl⟩ := (headRecord_eq_some p x r).mp hr
      rw [hn] at hn'
      cases hn'
      exact tables_record_head hh hr hx hx'
  case replay =>
    intro r u
    obtain ⟨-, -, -, hp, -⟩ := id h
    have hresume : exec .lineReadDone s = .next (State.moves 8191 ((waiting u []).scanNext r.1 r.2.2)) := by
      rw [exec_lineReadDone h, settle_replying]
      rfl
    rw [hresume]
    refine ⟨fun hgo hlt => ?_, fun hend => ?_⟩
    · simp only [State.scanNext, hgo, hlt, decide_true, Bool.not_false, Bool.and_self, if_true, push_waiting]
      rw [issueRead_waiting (by exact he), moves_reads (by exact hp)]
    · refine ringGoesOn_of_moves (s := u) (n := 8190) he hp p.todo _ ?_
      rw [scanNext_ends hend, show r.1.todo = p.todo from scanLine_todo p _ _]
  case close =>
    intro blank event hev good u
    obtain ⟨-, -, -, hp, -⟩ := id h
    obtain ⟨o, ho, hfail, hexec⟩ := exec_program_ends h hev
    have hresume : exec event s = .next (State.moves 8191 ((waiting u []).mountCloseNext todo)) := by
      rw [hexec, settle_replying, resume_mountClose (by exact hl) hr ho, decide_eq_decide.mpr hfail]
    rw [hresume]
    refine ⟨?_, fun y htodo hb hw => ?_, fun y htodo hb hw hg => ?_⟩
    · rintro w rest rfl
      rw [moves_mountCloseNext (by exact hf) (by exact hp)]
    · rw [htodo, State.mountCloseNext, moves_tidyNext_erases (by exact hf) (by exact hp) hb hw]
    · rw [htodo, State.mountCloseNext, moves_tidyNext_retires (by exact hf) (by exact hp) hb hw (by exact hg)]
      rfl
  case erase =>
    intro count
    obtain ⟨-, -, -, -, hp, -⟩ := id h
    have hcount : (erased s e.sector).formatCount e.sector = count := formatCount_eq s e.sector
    rw [exec_eraseDone_passes h, settle_replying, resume_mountErase_passes (s := erased s e.sector) ⟨rfl, hh⟩, hcount,
      moves_programs (by exact hp)]
    rfl
  case format =>
    intro g u
    obtain ⟨hwaits, hblank⟩ := waits_of_programs h
    obtain ⟨-, -, -, hp, -⟩ := id hwaits
    have hhead : (t.freed x c).head = t.head := by
      rw [freed_eq]
      exact (setRecord_lists t x _).2.2.1
    have hring : (t.freed x c).nextRing = t.nextRing := by
      rw [freed_eq]
      exact (setRecord_lists t x _).2.2.2
    have hresume : exec (.lineProgramDone true) s = .next (State.moves 8190 (waiting u []).tidyNext) := by
      rw [exec_program_passes (programs_undue hwaits hblank), settle_replying, resume_formatLine_passes (by exact hl),
        moves_replying]
      rfl
    rw [hresume]
    refine ⟨fun y hb hw => ?_, fun hb hh => ?_, fun y rest hb hh hy => ?_⟩
    · rw [moves_tidyNext_erases (by exact hf) (by exact hp) hb hw]
    · rw [moves_tidyNext_ends (by exact hm) (by exact hp) rfl hb (.inl (by rw [hhead]; exact hh))]
    · rw [moves_tidyNext_opens (by exact hf) (by exact hp) rfl hb (hhead.trans hh) hy, hring]
      rfl

end Sys2Proof.Certificates
end


-- ==== Sys2Proof/Proofs/Directory.lean ====
section
/-! The key directory: its searches find the least key that passes (R27 to R29), and each of its five operations says what becomes
of the key's entry, of the others and of A, and keeps the directory well formed (R26, R30, R34 to R39). -/

namespace Sys2Proof.Certificates

open Sys2Proof Sys2Proof.Machine

/-! ### Key order (R26) -/

/-- The canonical form is pairwise ascending order of key. -/
theorem keysAscending_iff_pairwise : ∀ es : List Entry, keysAscending es = true ↔ es.Pairwise (fun a b => a.key < b.key)
  | [] => by simp [keysAscending]
  | e :: es => by rw [keysAscending_cons, List.pairwise_cons, keysAscending_iff_pairwise es]

/-- In key order an entry that passes a test is the first that does exactly when it has the smallest key of those that pass. -/
theorem find?_eq_some_iff_least {es : List Entry} (h : keysAscending es = true) (p : Entry → Bool) (e : Entry) :
    es.find? p = some e ↔ (e ∈ es ∧ p e = true) ∧ ∀ e' ∈ es, p e' = true → e.key ≤ e'.key := by
  induction es with
  | nil => simp
  | cons x es ih =>
    obtain ⟨hx, hes⟩ := keysAscending_cons.1 h
    cases hp : p x with
    | true =>
      simp only [List.find?_cons, hp, Option.some.injEq]
      refine ⟨?_, fun ⟨⟨hmem, _⟩, hleast⟩ => ?_⟩
      · rintro rfl
        refine ⟨⟨List.mem_cons_self, hp⟩, fun e' he' _ => ?_⟩
        rcases List.mem_cons.1 he' with rfl | he'
        · exact BitVec.le_refl _
        · exact BitVec.le_of_lt (hx e' he')
      · rcases List.mem_cons.1 hmem with rfl | hmem
        · rfl
        · exact absurd (hx e hmem) (BitVec.not_lt.2 (hleast x List.mem_cons_self hp))
    | false =>
      have hne : ∀ y, p y = true → y ≠ x := by rintro y hy rfl; simp [hp] at hy
      simp only [List.find?_cons, hp, ih hes, List.mem_cons, forall_eq_or_imp, Bool.false_eq_true, false_imp_iff, true_and]
      refine and_congr_left fun _ => and_congr_left fun hpe => ?_
      simp [hne e hpe]

/-- The exact search is a search by a test. -/
theorem findEntry_eq_find? (k : Key) : ∀ es : List Entry, findEntry es k = es.find? (fun e => decide (e.key = k))
  | [] => rfl
  | e :: es => by
    by_cases h : e.key = k
    · simp [findEntry, h]
    · simp [findEntry, h, findEntry_eq_find? k es]

/-- Settles O49: each search is a search for the first entry that passes its test, in key order the one with the least key. -/
theorem directorySearches : Obligations.DirectorySearches := by
  intro es k readable x e h
  refine ⟨?_, ?_, ?_, ?_, ?_, ⟨rfl, ?_⟩, locatedCount_eq_zero es x⟩
  · rw [findEntry_eq_find?, find?_eq_some_iff_least h, decide_eq_true_eq]
    refine ⟨And.left, fun hk => ⟨hk, fun e' _ hk' => ?_⟩⟩
    rw [hk.2, of_decide_eq_true hk']
    exact BitVec.le_refl _
  · simp only [nextEntry, find?_eq_some_iff_least h, Bool.and_eq_true, decide_eq_true_eq, Entry.isLive, and_assoc, and_imp]
  · simp only [nextEntry, List.find?_eq_none, Bool.and_eq_true, decide_eq_true_eq, Entry.isLive, and_assoc]
  · simp only [locatedEntry, find?_eq_some_iff_least h, beq_iff_eq]
  · simp only [locatedEntry, List.find?_eq_none, beq_iff_eq, ne_eq]
  · by_cases hx : e.sector = x
    · simp [locatedCount, hx, Nat.add_comm]
    · simp [locatedCount, hx]

/-! ### An entry put in the place of another, or in a new place (R34 to R36) -/

/-- What is in the list after an entry is put was there before, or is the entry. -/
theorem mem_putEntry {es : List Entry} {e x : Entry} (h : x ∈ putEntry es e) : x = e ∨ x ∈ es := by
  induction es with
  | nil => exact .inl (List.mem_singleton.1 h)
  | cons y es ih =>
    simp only [putEntry] at h
    split at h
    · exact List.mem_cons.1 h
    · split at h
      · exact (List.mem_cons.1 h).imp_right (List.mem_cons_of_mem y)
      · rcases List.mem_cons.1 h with rfl | h
        · exact .inr List.mem_cons_self
        · exact (ih h).imp_right (List.mem_cons_of_mem y)

/-- Putting an entry keeps key order. -/
theorem keysAscending_putEntry {es : List Entry} (e : Entry) (h : keysAscending es = true) :
    keysAscending (putEntry es e) = true := by
  induction es with
  | nil => rfl
  | cons x es ih =>
    obtain ⟨hx, hes⟩ := keysAscending_cons.1 h
    simp only [putEntry]
    split
    · rename_i hlt
      refine keysAscending_cons.2 ⟨fun y hy => ?_, h⟩
      rcases List.mem_cons.1 hy with rfl | hy
      · exact hlt
      · exact BitVec.lt_trans hlt (hx y hy)
    · rename_i hle
      split
      · rename_i heq
        exact keysAscending_cons.2 ⟨fun y hy => heq ▸ hx y hy, hes⟩
      · rename_i hne
        refine keysAscending_cons.2 ⟨fun y hy => ?_, ih hes⟩
        rcases mem_putEntry hy with rfl | hy
        · exact BitVec.lt_of_le_ne (BitVec.not_lt.1 hle) hne
        · exact hx y hy

/-- Putting an entry adds one to the count when its key was absent, and nothing otherwise. -/
theorem length_putEntry {es : List Entry} (e : Entry) (h : keysAscending es = true) :
    (putEntry es e).length = es.length + (if (findEntry es e.key).isSome then 0 else 1) := by
  induction es with
  | nil => rfl
  | cons x es ih =>
    obtain ⟨hx, hes⟩ := keysAscending_cons.1 h
    simp only [putEntry]
    split
    · rename_i hlt
      have habsent : findEntry (x :: es) e.key = none := findEntry_none_of_above (fun y hy => by
        rcases List.mem_cons.1 hy with rfl | hy
        · exact hlt
        · exact BitVec.lt_trans hlt (hx y hy))
      simp [habsent]
    · split <;> rename_i heq
      · simp [findEntry, heq]
      · simp only [List.length_cons, ih hes, findEntry, heq, if_false]
        omega

/-! ### A key's entry dropped (R37) -/

/-- Dropping a key's entry leaves a part of the list. -/
theorem dropEntry_sublist (k : Key) : ∀ es : List Entry, (dropEntry es k).Sublist es
  | [] => .refl _
  | x :: es => by
    simp only [dropEntry]
    split
    · exact List.sublist_cons_self x es
    · exact (dropEntry_sublist k es).cons_cons x

/-- Dropping a key's entry keeps key order. -/
theorem keysAscending_dropEntry {es : List Entry} (k : Key) (h : keysAscending es = true) :
    keysAscending (dropEntry es k) = true := by
  rw [keysAscending_iff_pairwise] at h ⊢
  exact h.sublist (dropEntry_sublist k es)

/-! ### The operations keep the directory well formed (R26, R30) -/

/-- A well-formed directory is in key order, holds at most 1024 entries, and its A is the sum of their charges. -/
theorem wf_iff (d : Directory) : d.wf = true ↔
    keysAscending d.entries = true ∧ d.entries.length ≤ 1024 ∧ d.accounted = totalCharge d.entries := by
  simp only [Directory.wf, Bool.and_eq_true, decide_eq_true_eq, and_assoc]
  rfl

/-- The charge of a key that has an entry. -/
theorem chargeOf_of_find {es : List Entry} {k : Key} {e : Entry} (h : findEntry es k = some e) : chargeOf es k = e.charge := by
  simp only [chargeOf, h]

/-- Placing an entry. -/
theorem place_wf {d : Directory} (e : Entry) (h : d.wf = true) : (d.place e).wf = true := by
  obtain ⟨hkeys, hlen, hsum⟩ := (wf_iff d).1 h
  by_cases hroom : (findEntry d.entries e.key).isSome = true ∨ d.entries.length < 1024
  · obtain ⟨hentries, hacc⟩ := Directory.place_fits d e h hroom
    have hcount := length_putEntry e hkeys
    have htotal := totalCharge_putEntry e hkeys
    rw [wf_iff, hentries]
    refine ⟨keysAscending_putEntry e hkeys, ?_, by omega⟩
    split at hcount
    · omega
    · rename_i habsent
      have := hroom.resolve_left habsent
      omega
  · obtain ⟨habsent, hfull⟩ := not_or.1 hroom
    rw [Directory.place_overflows d e (Option.not_isSome_iff_eq_none.1 habsent) (Nat.le_of_not_lt hfull)]
    exact h

/-- Install LIVE. -/
theorem installLive_wf {d : Directory} (k : Key) (v : Seq) (x l n : Nat) (h : d.wf = true) :
    (d.installLive k v x l n).wf = true := place_wf _ h

/-- Mark DEAD. -/
theorem markDead_wf {d : Directory} (k : Key) (v : Seq) (x l : Nat) (h : d.wf = true) : (d.markDead k v x l).wf = true :=
  place_wf _ h

/-- A relocation that applies. -/
theorem relocate_applies {d : Directory} {k : Key} {e : Entry} (he : findEntry d.entries k = some e) (hl : e.live.isSome = true)
    (x l : Nat) :
    d.relocate k e.version x l = { d with entries := putEntry d.entries { e with sector := x, line := l } } := by
  rw [Directory.relocate, he]
  exact if_pos ⟨hl, rfl⟩

/-- A relocation that is stale. -/
theorem relocate_stale {d : Directory} {k : Key} {v : Seq}
    (h : ∀ e, findEntry d.entries k = some e → e.live.isSome = false ∨ e.version ≠ v) (x l : Nat) : d.relocate k v x l = d := by
  simp only [Directory.relocate]
  cases he : findEntry d.entries k with
  | none => rfl
  | some e => exact if_neg (by rcases h e he with hl | hv <;> simp [Entry.isLive, *])

/-- A conversion that applies marks the key DEAD. -/
theorem convertOnLoss_applies {d : Directory} {k : Key} {e : Entry} (he : findEntry d.entries k = some e)
    (hl : e.live.isSome = true) (q : Seq) (x l : Nat) : d.convertOnLoss k e.version q x l = d.markDead k q x l := by
  rw [Directory.convertOnLoss, he]
  exact if_pos ⟨hl, rfl⟩

/-- A conversion that is stale. -/
theorem convertOnLoss_stale {d : Directory} {k : Key} {v : Seq}
    (h : ∀ e, findEntry d.entries k = some e → e.live.isSome = false ∨ e.version ≠ v) (q : Seq) (x l : Nat) :
    d.convertOnLoss k v q x l = d := by
  simp only [Directory.convertOnLoss]
  cases he : findEntry d.entries k with
  | none => rfl
  | some e => exact if_neg (by rcases h e he with hl | hv <;> simp [Entry.isLive, *])

/-- Relocations and conversions apply to a LIVE entry of the version, and are stale otherwise. -/
theorem applies_or_stale (d : Directory) (k : Key) (v : Seq) :
    (∃ e, findEntry d.entries k = some e ∧ e.live.isSome = true ∧ e.version = v) ∨
      ∀ e, findEntry d.entries k = some e → e.live.isSome = false ∨ e.version ≠ v := by
  by_cases h : ∃ e, findEntry d.entries k = some e ∧ e.live.isSome = true ∧ e.version = v
  · exact .inl h
  · refine .inr fun e he => ?_
    by_contra hc
    rw [not_or, not_not, Bool.not_eq_false] at hc
    exact h ⟨e, he, hc⟩

/-- A removal of a key that has an entry. -/
theorem remove_of_find {d : Directory} {k : Key} {e : Entry} (he : findEntry d.entries k = some e) :
    d.remove k = { d with entries := dropEntry d.entries k, accounted := d.accounted - e.charge } := by
  simp only [Directory.remove, he]

/-- A removal of an absent key changes nothing. -/
theorem remove_of_absent {d : Directory} {k : Key} (he : findEntry d.entries k = none) : d.remove k = d := by
  simp only [Directory.remove, he]

/-- Relocate: the entry moves within its place and its charge stays. -/
theorem relocate_wf {d : Directory} (k : Key) (v : Seq) (x l : Nat) (h : d.wf = true) : (d.relocate k v x l).wf = true := by
  rcases applies_or_stale d k v with ⟨e, he, hlive, rfl⟩ | hstale
  · obtain ⟨hkeys, hlen, hsum⟩ := (wf_iff d).1 h
    obtain ⟨rfl, -⟩ := findEntry_mem he
    have hcount := length_putEntry { e with sector := x, line := l } hkeys
    have htotal := totalCharge_putEntry { e with sector := x, line := l } hkeys
    have hcharge : ({ e with sector := x, line := l } : Entry).charge = e.charge := rfl
    simp only [he, Option.isSome_some, if_true] at hcount
    simp only [chargeOf_of_find he, hcharge] at htotal
    rw [relocate_applies he hlive, wf_iff]
    exact ⟨keysAscending_putEntry _ hkeys, by simp only; omega, by simp only; omega⟩
  · rw [relocate_stale hstale]; exact h

/-- Convert on loss. -/
theorem convertOnLoss_wf {d : Directory} (k : Key) (v q : Seq) (x l : Nat) (h : d.wf = true) :
    (d.convertOnLoss k v q x l).wf = true := by
  rcases applies_or_stale d k v with ⟨e, he, hlive, rfl⟩ | hstale
  · rw [convertOnLoss_applies he hlive]; exact markDead_wf k q x l h
  · rw [convertOnLoss_stale hstale]; exact h

/-- Remove. -/
theorem remove_wf {d : Directory} (k : Key) (h : d.wf = true) : (d.remove k).wf = true := by
  cases he : findEntry d.entries k with
  | none => rw [remove_of_absent he]; exact h
  | some e =>
    obtain ⟨hkeys, hlen, hsum⟩ := (wf_iff d).1 h
    have htotal := totalCharge_dropEntry k hkeys
    have hshorter := (dropEntry_sublist k d.entries).length_le
    rw [chargeOf_of_find he] at htotal
    rw [remove_of_find he, wf_iff]
    exact ⟨keysAscending_dropEntry k hkeys, by simp only; omega, by simp only; omega⟩

/-! ### What the operations make of the key's entry, of the others and of A (R34 to R38) -/

/-- Placing an entry where it has room: the key's entry and A. -/
theorem place_key {d : Directory} (e : Entry) (h : d.wf = true)
    (hroom : (findEntry d.entries e.key).isSome = true ∨ d.entries.length < 1024) :
    findEntry (d.place e).entries e.key = some e ∧ (d.place e).accounted + chargeOf d.entries e.key = d.accounted + e.charge := by
  obtain ⟨hkeys, -, -⟩ := (wf_iff d).1 h
  obtain ⟨hentries, hacc⟩ := Directory.place_fits d e h hroom
  rw [hentries, findEntry_putEntry e hkeys, if_pos rfl]
  exact ⟨rfl, hacc⟩

/-- Removing a key: no entry is left of it, and A falls by its charge. -/
theorem remove_key {d : Directory} (k : Key) (h : d.wf = true) :
    findEntry (d.remove k).entries k = none ∧ (d.remove k).accounted + chargeOf d.entries k = d.accounted := by
  obtain ⟨hkeys, -, hsum⟩ := (wf_iff d).1 h
  cases he : findEntry d.entries k with
  | none => rw [remove_of_absent he]; exact ⟨he, by simp [chargeOf, he]⟩
  | some e =>
    have hle := chargeOf_le_totalCharge (es := d.entries) k
    rw [chargeOf_of_find he] at hle ⊢
    rw [remove_of_find he]
    exact ⟨by rw [findEntry_dropEntry k k hkeys, if_pos rfl], by simp only; omega⟩

/-- Removing a key leaves every other key's entry. -/
theorem remove_other {d : Directory} {k k' : Key} (h : d.wf = true) (hk : k' ≠ k) :
    findEntry (d.remove k).entries k' = findEntry d.entries k' := by
  cases he : findEntry d.entries k with
  | none => rw [remove_of_absent he]
  | some e => rw [remove_of_find he, findEntry_dropEntry k k' ((wf_iff d).1 h).1, if_neg (Ne.symm hk)]

/-- A relocation moves the key's entry. -/
theorem relocate_key {d : Directory} {k : Key} {e : Entry} (h : d.wf = true) (he : findEntry d.entries k = some e)
    (hl : e.live.isSome = true) (x l : Nat) :
    findEntry (d.relocate k e.version x l).entries k = some { e with sector := x, line := l } := by
  rw [relocate_applies he hl, findEntry_putEntry _ ((wf_iff d).1 h).1, if_pos (findEntry_mem he).1]

/-- A relocation leaves every other key's entry. -/
theorem relocate_other {d : Directory} {k k' : Key} (h : d.wf = true) (hk : k' ≠ k) (v : Seq) (x l : Nat) :
    findEntry (d.relocate k v x l).entries k' = findEntry d.entries k' := by
  rcases applies_or_stale d k v with ⟨e, he, hlive, rfl⟩ | hstale
  · obtain ⟨rfl, -⟩ := findEntry_mem he
    rw [relocate_applies he hlive, findEntry_putEntry _ ((wf_iff d).1 h).1, if_neg (Ne.symm hk)]
  · rw [relocate_stale hstale]

/-- A conversion leaves every other key's entry. -/
theorem convertOnLoss_other {d : Directory} {k k' : Key} (h : d.wf = true) (hk : k' ≠ k) (v q : Seq) (x l : Nat) :
    findEntry (d.convertOnLoss k v q x l).entries k' = findEntry d.entries k' := by
  rcases applies_or_stale d k v with ⟨e, he, hlive, rfl⟩ | hstale
  · rw [convertOnLoss_applies he hlive]; exact Directory.place_other d _ h k' hk
  · rw [convertOnLoss_stale hstale]

/-- Settles O48: installs, marks and conversions place an entry, a relocation puts the entry back at its new place. -/
theorem directoryOperations : Obligations.DirectoryOperations := by
  intro d k v x l n h
  refine ⟨fun hroom => ?_, fun habsent hfull => ?_, remove_key k h, fun e he hlive hv => ?_, fun hstale => ?_, fun k' hk => ?_⟩
  · obtain ⟨hlive, hliveA⟩ := place_key { key := k, live := some n, version := v, sector := x, line := l } h hroom
    obtain ⟨hdead, hdeadA⟩ := place_key { key := k, live := none, version := v, sector := x, line := l } h hroom
    exact ⟨hlive, hliveA, hdead, hdeadA⟩
  · exact ⟨Directory.place_overflows d _ habsent hfull, Directory.place_overflows d _ habsent hfull⟩
  · subst hv
    refine ⟨relocate_key h he hlive x l, by rw [relocate_applies he hlive], fun q => ?_⟩
    rw [convertOnLoss_applies he hlive, ← chargeOf_of_find he]
    exact place_key { key := k, live := none, version := q, sector := x, line := l } h (.inl (by simp only [he, Option.isSome_some]))
  · exact ⟨relocate_stale hstale x l, fun q => convertOnLoss_stale hstale q x l⟩
  · exact ⟨Directory.place_other d _ h k' hk, Directory.place_other d _ h k' hk, remove_other h hk, relocate_other h hk v x l,
      fun q => convertOnLoss_other h hk v q x l⟩

end Sys2Proof.Certificates
end


-- ==== Sys2Proof/Proofs/WriteChecks.lean ====
section
/-! The checks of PUT and DELETE before anything is written: zone, the key's state, the condition and admission (R33, R48, R50 to
R52, R55). -/

namespace Sys2Proof.Certificates

open Sys2Proof Sys2Proof.Machine

/-! ### The zone test (R48) -/

section
variable {s : State} {z : Fin 4}

/-- A zone that is locked out turns a write away, unless its policy is OPEN. -/
theorem writeAccess_lockedOut (hp : (s.zoneEntry z).policy ≠ .policyOpen) (hl : s.zones[z].lockout = true) :
    s.writeAccess z = some .lockedOut := by
  rw [State.writeAccess, if_neg hp]
  exact if_pos hl

/-- A zone that is not unlocked turns a write away, unless its policy is OPEN. -/
theorem writeAccess_denied (hp : (s.zoneEntry z).policy ≠ .policyOpen) (hl : s.zones[z].lockout = false)
    (hu : s.zones[z].unlocked = false) : s.writeAccess z = some .denied := by
  simp only [State.writeAccess, if_neg hp, unlockTest, State.zoneFlags, hl, hu, Bool.false_eq_true, if_false]

/-- A write passes in an OPEN zone and in an unlocked one. -/
theorem writeAccess_passes
    (h : (s.zoneEntry z).policy = .policyOpen ∨ (s.zones[z].unlocked = true ∧ s.zones[z].lockout = false)) :
    s.writeAccess z = none := by
  rcases h with hp | ⟨hu, hl⟩
  · exact if_pos hp
  · simp only [State.writeAccess, unlockTest, State.zoneFlags, hl, hu, Bool.false_eq_true, if_false, if_true, ite_self]

end

/-! ### The condition (R50, R51) -/

/-- IF_ABSENT is the condition of a request that carries it. -/
theorem condition_of_ifAbsent {r : Request} (h : r.ifAbsent = true) : r.condition = .ifAbsent := if_pos h

/-- IF_VERSION is the condition of a request that carries it and passes the form check, which lets no request carry both. -/
theorem condition_of_ifVersion {r : Request} (hf : r.formOk = true) (h : r.ifVersion = true) :
    r.condition = .ifVersion r.version := by
  have ha : r.ifAbsent = false := by
    simp only [Request.formOk, h, Bool.and_true, Bool.and_eq_true, Bool.not_eq_true'] at hf
    exact hf.1.1.2
  simp only [Request.condition, ha, h, Bool.false_eq_true, if_false, if_true]

/-- IF_ABSENT is not met by a LIVE entry. -/
theorem conditionFails_exists {es : List Entry} {k : Key} {p : Entry × Nat} (h : findLive es k = some p) :
    conditionFails es k .ifAbsent = some .exists_ := by
  simp only [conditionFails, h, Option.isSome_some, if_true]

/-- IF_VERSION is not met by a LIVE entry of another version, nor by an expected version of 0. -/
theorem conditionFails_mismatch {es : List Entry} {k : Key} {e : Entry} {n : Nat} {v : Seq} (h : findLive es k = some (e, n))
    (hv : e.version ≠ v ∨ v = 0) : conditionFails es k (.ifVersion v) = some .versionMismatch := by
  simp only [conditionFails, h]
  exact if_neg (fun ⟨h0, hev⟩ => hv.elim (· hev) h0)

/-- IF_VERSION is not met by a key without a LIVE entry. -/
theorem conditionFails_dead {es : List Entry} {k : Key} (h : findLive es k = none) (v : Seq) :
    conditionFails es k (.ifVersion v) = some .versionMismatch := by
  simp only [conditionFails, h]

/-- What a failed condition's completion carries of a LIVE entry. -/
theorem liveContents_of_live {es : List Entry} {k : Key} {e : Entry} {n : Nat} (h : findLive es k = some (e, n)) :
    liveContents es k = (e.version, n) := by
  simp only [liveContents, h]

/-- What a failed condition's completion carries of a key without a LIVE entry: nothing. -/
theorem liveContents_of_dead {es : List Entry} {k : Key} (h : findLive es k = none) : liveContents es k = (0, 0) := by
  simp only [liveContents, h]

/-! ### The charge of a DELETE (R32) -/

/-- A LIVE entry is charged its frame's lines. -/
theorem chargeOf_of_live {es : List Entry} {k : Key} {e : Entry} {n : Nat} (h : findLive es k = some (e, n)) :
    chargeOf es k = putLines n := by
  unfold findLive at h
  cases hf : findEntry es k with
  | none => simp [hf] at h
  | some x =>
    simp only [hf, Option.map_eq_some_iff, Prod.mk.injEq] at h
    obtain ⟨m, hm, rfl, rfl⟩ := h
    simp only [chargeOf, hf, Entry.charge, hm]

/-- The DELETE of a LIVE key with an empty value changes A by nothing. -/
theorem writeCharge_delete_empty {es : List Entry} {k : Key} {e : Entry} (h : findLive es k = some (e, 0)) :
    writeCharge es k 1 = 0 := by
  simp only [writeCharge, chargeOf_of_live h, putLines]; rfl

/-! ### The body of a write, check by check (R52, R55) -/

/-- The body of a PUT or of a DELETE. -/
def writeBody (r : Request) (s : State) : State := if r.kind = 1 then putBody r s else deleteBody r s

section
variable {s : State} {r : Request}

/-- A PUT's body. -/
theorem writeBody_put (hk : r.kind = 1) (s : State) : writeBody r s = putBody r s := if_pos hk

/-- A DELETE's body. -/
theorem writeBody_delete (hk : r.kind = 3) (s : State) : writeBody r s = deleteBody r s :=
  if_neg (by rw [hk]; decide)

/-- A write whose body answers at once completes with the answer. -/
theorem exec_write_answers (h : Serves s r) (hk : r.kind = 1 ∨ r.kind = 3) (ht : r.inTxn = false) {c : Completion}
    (hb : writeBody r (taken s r) = (taken s r).post r c) :
    exec (rowOf r) s = .next (completes (taken s r) r c) := by
  have hsettled : (writeBody r (taken s r)).settle = completes (taken s r) r c := by rw [hb]; exact settle_answer h.1.1 c
  rw [← hsettled]
  rcases hk with hk | hk
  · rw [show rowOf r = .put by simp [rowOf, hk, ht], exec_put_of_serves h hk ht, writeBody_put hk]
  · rw [show rowOf r = .delete by simp [rowOf, hk, ht], exec_delete_of_serves h hk ht, writeBody_delete hk]

/-- A write that the zone turns away. -/
theorem writeBody_zone {st : Status} (ha : s.writeAccess (zoneOf r.key) = some st) :
    writeBody r (taken s r) = (taken s r).post r (plain r st) := by
  unfold writeBody
  split
  · simp only [putBody, taken_writeAccess, ha]; rfl
  · simp only [deleteBody, taken_writeAccess, ha]; rfl

/-- A DELETE of a key without a LIVE entry. -/
theorem writeBody_notFound (ha : s.writeAccess (zoneOf r.key) = none) (hk : r.kind = 3)
    (hd : findLive s.engine.dir.entries r.key = none) :
    writeBody r (taken s r) = (taken s r).post r (plain r .notFound) := by
  simp only [writeBody_delete hk, deleteBody, taken_writeAccess, ha, taken_dir, hd, Option.isNone_none, if_true]
  rfl

/-- A write whose condition fails: a PUT, or a DELETE of a LIVE key. -/
theorem writeBody_condition {st : Status} (ha : s.writeAccess (zoneOf r.key) = none)
    (hk : r.kind = 1 ∨ (findLive s.engine.dir.entries r.key).isNone = false)
    (hc : conditionFails s.engine.dir.entries r.key r.condition = some st) :
    writeBody r (taken s r) = (taken s r).post r { plain r st with
      version := (liveContents s.engine.dir.entries r.key).1, length := (liveContents s.engine.dir.entries r.key).2 } := by
  unfold writeBody
  split
  · simp only [putBody, taken_writeAccess, ha, taken_dir, hc, State.conditionFailed]
    rfl
  · rename_i hput
    simp only [deleteBody, taken_writeAccess, ha, taken_dir, hk.resolve_left hput, Bool.false_eq_true, if_false, hc,
      State.conditionFailed]
    rfl

/-- A PUT that is not admitted. -/
theorem writeBody_put_not_admitted {st : Status} (ha : s.writeAccess (zoneOf r.key) = none) (hk : r.kind = 1)
    (hc : conditionFails s.engine.dir.entries r.key r.condition = none)
    (hadm : s.engine.dir.admission s.limit (writeCharge s.engine.dir.entries r.key (putLines r.payload.length))
      (newEntryOf s.engine.dir.entries r.key) = some st) :
    writeBody r (taken s r) = (taken s r).post r (plain r st) := by
  simp only [writeBody_put hk, putBody, taken_writeAccess, ha, taken_dir, hc, taken_limit, Request.valueLength, hadm]
  rfl

/-- A DELETE that is not admitted. -/
theorem writeBody_delete_not_admitted {st : Status} {p : Entry × Nat} (ha : s.writeAccess (zoneOf r.key) = none)
    (hk : r.kind = 3) (hlive : findLive s.engine.dir.entries r.key = some p)
    (hc : conditionFails s.engine.dir.entries r.key r.condition = none)
    (hadm : s.engine.dir.admission s.limit (writeCharge s.engine.dir.entries r.key 1) 0 = some st) :
    writeBody r (taken s r) = (taken s r).post r (plain r st) := by
  simp only [writeBody_delete hk, deleteBody, taken_writeAccess, ha, taken_dir, hlive, Option.isNone_some, Bool.false_eq_true,
    if_false, hc, taken_limit, hadm]
  rfl

end

/-- Settles O24: each check in its order answers at once, with what the checks before it have let pass. -/
theorem writeChecks : Obligations.WriteChecks := by
  intro s r h hk ht es z
  have answers {c : Completion} := exec_write_answers h hk ht (c := c)
  refine ⟨fun hp hl => answers (writeBody_zone (writeAccess_lockedOut hp hl)),
    fun hp hl hu => answers (writeBody_zone (writeAccess_denied hp hl hu)), fun hpass => ?_⟩
  have ha : s.writeAccess z = none := writeAccess_passes hpass
  refine ⟨fun hdel hnone => answers (writeBody_notFound ha hdel hnone), fun e n hlive hif => ?_, fun e n hlive hif hv => ?_,
    fun hput hnone hif => ?_, fun hput hc => ⟨fun hfull => ?_, fun hspace hnew hroom => ?_⟩,
    fun e n hdel hlive hc hempty hover => ?_⟩
  · have hc : conditionFails es r.key r.condition = some .exists_ := by
      rw [condition_of_ifAbsent hif, conditionFails_exists hlive]
    rw [answers (writeBody_condition ha (.inr (by rw [hlive]; rfl)) hc), liveContents_of_live hlive]
  · have hc : conditionFails es r.key r.condition = some .versionMismatch := by
      rw [condition_of_ifVersion h.2.2 hif, conditionFails_mismatch hlive hv]
    rw [answers (writeBody_condition ha (.inr (by rw [hlive]; rfl)) hc), liveContents_of_live hlive]
  · have hc : conditionFails es r.key r.condition = some .versionMismatch := by
      rw [condition_of_ifVersion h.2.2 hif, conditionFails_dead hnone]
    rw [answers (writeBody_condition ha (.inl hput) hc), liveContents_of_dead hnone]
    rfl
  · exact answers (writeBody_put_not_admitted ha hput hc (admission_full hfull _))
  · have hone : newEntryOf es r.key = 1 := by simp only [newEntryOf, hnew, Option.isSome_none, Bool.false_eq_true, if_false]
    refine answers (writeBody_put_not_admitted ha hput hc ?_)
    exact admission_noRoom hspace (by rw [hone]; exact Nat.lt_succ_of_le hroom)
  · subst hempty
    refine answers (writeBody_delete_not_admitted ha hdel hlive hc (admission_full ?_ 0))
    rw [writeCharge_delete_empty hlive]
    omega

end Sys2Proof.Certificates
end


-- ==== Sys2Proof/Proofs/DirectoryFrame.lean ====
section
/-! Which operations leave the directory as it is: the array sequencer's, which leave the whole record engine; the log manager's
and the anchor unit's; and those of jobs, compaction steps, FORMAT and mount that make none of the directory's five operations. -/

namespace Sys2Proof.Certificates

open Sys2Proof Sys2Proof.Machine

variable (s : State)

/-! ### The array sequencer leaves the record engine (06) -/

@[simp] theorem issue_engine (op : LineOp) : (s.issue op).engine = s.engine := by
  unfold State.issue; (repeat' split) <;> rfl

@[simp] theorem issueRead_engine (x l : Nat) : (s.issueRead x l).engine = s.engine := issue_engine s _

@[simp] theorem issueProgram_engine (x l : Nat) (d : LineData) : (s.issueProgram x l d).engine = s.engine := issue_engine s _

@[simp] theorem endOp_engine (r : Reply) : (s.endOp r).engine = s.engine := by
  unfold State.endOp; split <;> rfl

@[simp] theorem lineReadEnds_engine : s.lineReadEnds.engine = s.engine := by
  unfold State.lineReadEnds; split <;> simp

@[simp] theorem lineProgramEnds_engine (verified : Bool) : (s.lineProgramEnds verified).engine = s.engine := by
  unfold State.lineProgramEnds; split <;> simp

@[simp] theorem programTimesOut_engine : s.programTimesOut.engine = s.engine := by
  unfold State.programTimesOut; (repeat' split) <;> simp

@[simp] theorem compactorErased_engine (o : EraseOutcome) : (s.compactorErased o).engine = s.engine := by
  unfold State.compactorErased; (repeat' split) <;> rfl

@[simp] theorem wakeWaiting_engine : s.wakeWaiting.engine = s.engine := by
  unfold State.wakeWaiting; split <;> rfl

@[simp] theorem deliverErase_engine (background : Bool) (o : EraseOutcome) : (s.deliverErase background o).engine = s.engine := by
  unfold State.deliverErase; split <;> simp

@[simp] theorem beginErase_engine (x : Nat) (background : Bool) : (s.beginErase x background).engine = s.engine := rfl

@[simp] theorem issueErase_engine (x : Nat) (background : Bool) : (s.issueErase x background).engine = s.engine := by
  unfold State.issueErase; (repeat' split) <;> simp

@[simp] theorem serveWaiting_engine : s.serveWaiting.engine = s.engine := by
  simp only [State.serveWaiting]; (repeat' split) <;> rfl

@[simp] theorem eraseEnds_engine (passed : Bool) : (s.eraseEnds passed).engine = s.engine := by
  unfold State.eraseEnds; (repeat' split) <;> simp

@[simp] theorem abandonErase_engine : s.abandonErase.engine = s.engine := by
  unfold State.abandonErase; split <;> rfl

@[simp] theorem sequencerWarning_engine : s.sequencerWarning.engine = s.engine := by
  unfold State.sequencerWarning
  simp only [serveWaiting_engine]
  (repeat' split) <;> simp

@[simp] theorem ownLoss_engine (x l : Nat) : (s.ownLoss x l).engine = s.engine := by
  unfold State.ownLoss; split <;> rfl

/-- A pending erase that begins leaves the record engine. -/
theorem startPending_engine {t : State} (h : s.startPending = some t) : t.engine = s.engine := by
  unfold State.startPending at h
  split at h
  · cases h
  · split at h
    · cases h; simp
    · cases h

/-! ### The store state, its causes and the idle timer (R42, R43, R72, R73) -/

@[simp] theorem setStore_dir (st : StoreState) : (s.setStore st).engine.dir = s.engine.dir := by
  unfold State.setStore; split <;> rfl

@[simp] theorem leaveStore_dir (old new : StoreState) : (s.leaveStore old new).engine.dir = s.engine.dir := by
  unfold State.leaveStore; split <;> simp

@[simp] theorem reportReadOnly_dir : s.reportReadOnly.engine.dir = s.engine.dir := by
  unfold State.reportReadOnly; split <;> rfl

@[simp] theorem applyReadOnly_dir : s.applyReadOnly.engine.dir = s.engine.dir := by
  simp only [State.applyReadOnly]; (repeat' split) <;> simp

@[simp] theorem restartTimer_dir : s.restartTimer.engine.dir = s.engine.dir := by
  unfold State.restartTimer; split <;> rfl

@[simp] theorem timerExpires_dir : s.timerExpires.engine.dir = s.engine.dir := by
  unfold State.timerExpires; split <;> rfl

@[simp] theorem tickTimer_dir : s.tickTimer.engine.dir = s.engine.dir := by
  unfold State.tickTimer; (repeat' split) <;> simp

/-! ### Completions (R47, R167) -/

@[simp] theorem postRecord_dir (c : Completion) : (s.postRecord c).engine.dir = s.engine.dir := by
  simp only [State.postRecord]; split <;> rfl

@[simp] theorem post_dir (r : Request) (c : Completion) : (s.post r c).engine.dir = s.engine.dir := by
  unfold State.post; split <;> simp

@[simp] theorem answer_dir (r : Request) (st : Status) : (s.answer r st).engine.dir = s.engine.dir := post_dir s r _

@[simp] theorem answerAux_dir (r : Request) (st : Status) (aux : BitVec 16) :
    (s.answerAux r st aux).engine.dir = s.engine.dir := post_dir s r _

@[simp] theorem answerRecord_dir (r : Request) (st : Status) (v : Seq) (n : Nat) :
    (s.answerRecord r st v n).engine.dir = s.engine.dir := post_dir s r _

@[simp] theorem turnAway_dir (r : Request) (st : Status) : (s.turnAway r st).engine.dir = s.engine.dir := by
  unfold State.turnAway; split <;> simp

/-! ### Bus accesses but for the soft reset (R159, R160, R168 to R172) -/

@[simp] theorem submit_dir : s.submit.engine.dir = s.engine.dir := by
  unfold State.submit; (repeat' split) <;> rfl

@[simp] theorem popHead_dir : s.popHead.engine.dir = s.engine.dir := by
  unfold State.popHead; split <;> rfl

@[simp] theorem rewindHead_dir : s.rewindHead.engine.dir = s.engine.dir := by
  unfold State.rewindHead; split <;> rfl

@[simp] theorem fillByte_dir (b : Byte) : (s.fillByte b).engine.dir = s.engine.dir := by
  unfold State.fillByte; split <;> rfl

@[simp] theorem capture_dir (r : CaptureReg) : (s.capture r).engine.dir = s.engine.dir := by
  cases r <;> rfl

/-! ### Anchor writes and retirement (R10, R145, R146) -/

@[simp] theorem anchorEnds_dir (o : AnchorOutcome) : (s.anchorEnds o).engine.dir = s.engine.dir := by
  unfold State.anchorEnds State.anchorFailure; (repeat' split) <;> simp

@[simp] theorem programPart_dir (a : AnchorRecord) (second : Bool) (x slot part : Nat) :
    (s.programPart a second x slot part).engine.dir = s.engine.dir := by simp [State.programPart]

@[simp] theorem placeRecord_dir (a : AnchorRecord) (second : Bool) : (s.placeRecord a second).engine.dir = s.engine.dir := by
  unfold State.placeRecord; (repeat' split) <;> simp

@[simp] theorem anchorWrite_dir (change : AnchorRecord → AnchorRecord) : (s.anchorWrite change).engine.dir = s.engine.dir := by
  simp [State.anchorWrite]

@[simp] theorem anchorWriteReply_dir (a : AnchorRecord) (second : Bool) (p : AnchorPhase) (r : Reply) :
    (s.anchorWriteReply a second p r).engine.dir = s.engine.dir := by
  unfold State.anchorWriteReply; (repeat' split) <;> simp

@[simp] theorem retireBegin_dir (x : Nat) : (s.retireBegin x).engine.dir = s.engine.dir := by simp [State.retireBegin]

@[simp] theorem retireSector_dir (x : Nat) : (s.retireSector x).engine.dir = s.engine.dir := by
  simp only [State.retireSector]; split <;> simp

/-! ### Formatting, opening and closing a sector (R5 to R7) -/

@[simp] theorem formatSector_dir (x c : Nat) : (s.formatSector x c).engine.dir = s.engine.dir := by simp [State.formatSector]

@[simp] theorem formatLineReply_dir (x c : Nat) (r : Reply) : (s.formatLineReply x c r).engine.dir = s.engine.dir := by
  unfold State.formatLineReply; split <;> simp

@[simp] theorem openHead_dir : s.openHead.engine.dir = s.engine.dir := by
  unfold State.openHead; (repeat' split) <;> simp

@[simp] theorem openRetryReply_dir (r : Reply) : (s.openRetryReply r).engine.dir = s.engine.dir := by
  unfold State.openRetryReply; (repeat' split) <;> simp

@[simp] theorem openHeadReply_dir (x : Nat) (ring : Seq) (r : Reply) : (s.openHeadReply x ring r).engine.dir = s.engine.dir := by
  unfold State.openHeadReply; split <;> simp

@[simp] theorem closeHead_dir : s.closeHead.engine.dir = s.engine.dir := by
  unfold State.closeHead; (repeat' split) <;> simp

@[simp] theorem closeHeadReply_dir (x : Nat) (r : Reply) : (s.closeHeadReply x r).engine.dir = s.engine.dir := by
  unfold State.closeHeadReply; split <;> simp

/-! ### Appends and frame reads (R21 to R24, R58, R91) -/

@[simp] theorem programAttempt_dir (j : AppendJob) (x st i : Nat) : (s.programAttempt j x st i).engine.dir = s.engine.dir := by
  simp [State.programAttempt]

@[simp] theorem appendEnds_dir (o : AppendOutcome) : (s.appendEnds o).engine.dir = s.engine.dir := rfl

@[simp] theorem appendExhausted_dir : s.appendExhausted.engine.dir = s.engine.dir := by simp [State.appendExhausted]

@[simp] theorem appendNewHead_dir (j : AppendJob) (floor : Bool) : (s.appendNewHead j floor).engine.dir = s.engine.dir := by
  unfold State.appendNewHead; (repeat' split) <;> simp

@[simp] theorem placeAttempt_dir (j : AppendJob) (floor : Bool) : (s.placeAttempt j floor).engine.dir = s.engine.dir := by
  unfold State.placeAttempt; (repeat' split) <;> simp

@[simp] theorem appendBegin_dir (j : AppendJob) : (s.appendBegin j).engine.dir = s.engine.dir := placeAttempt_dir s j _

@[simp] theorem rewrite_dir (j : AppendJob) (x : Nat) : (s.rewrite j x).engine.dir = s.engine.dir := by
  unfold State.rewrite; split <;> simp

@[simp] theorem appendReply_dir (j : AppendJob) (p : AppendPhase) (r : Reply) :
    (s.appendReply j p r).engine.dir = s.engine.dir := by
  unfold State.appendReply; (repeat' split) <;> simp

@[simp] theorem readFrameBegin_dir (e : Entry) : (s.readFrameBegin e).engine.dir = s.engine.dir := by
  simp [State.readFrameBegin]

@[simp] theorem readFrameReply_dir (e : Entry) (i : Nat) (got : List Byte) (r : Reply) :
    (s.readFrameReply e i got r).engine.dir = s.engine.dir := by
  simp only [State.readFrameReply]; (repeat' split) <;> simp

/-! ### Compaction steps that make no directory operation (R86 to R98) -/

@[simp] theorem stepEnds_dir (b : Bool) : (s.stepEnds b).engine.dir = s.engine.dir := by simp [State.stepEnds]

@[simp] theorem endRound_dir : s.endRound.engine.dir = s.engine.dir := by
  rw [endRound_eq]; rfl

@[simp] theorem selectVictim_dir : s.selectVictim.engine.dir = s.engine.dir := by
  unfold State.selectVictim; (repeat' split) <;> simp

@[simp] theorem eraseVictim_dir (x : Nat) : (s.eraseVictim x).engine.dir = s.engine.dir := by
  unfold State.eraseVictim; split <;> simp

@[simp] theorem finishVictim_dir : s.finishVictim.engine.dir = s.engine.dir := by
  unfold State.finishVictim; (repeat' split) <;> simp

@[simp] theorem finishRoundReply_dir (r : Reply) : (s.finishRoundReply r).engine.dir = s.engine.dir := by
  unfold State.finishRoundReply; split <;> simp

@[simp] theorem bumpSeq_dir : s.bumpSeq.engine.dir = s.engine.dir := by
  simp only [State.bumpSeq]; split <;> simp

@[simp] theorem copyReadReply_dir (e : Entry) (r : Reply) : (s.copyReadReply e r).engine.dir = s.engine.dir := by
  unfold State.copyReadReply; split <;> simp

@[simp] theorem copyFailed_dir (o : AppendOutcome) : (s.copyFailed o).engine.dir = s.engine.dir := by
  unfold State.copyFailed; split <;> simp

/-! ### Host writes and GET (R53, R56, R58, R77) -/

@[simp] theorem commitAppend_dir (c : CommitJob) : (s.commitAppend c).engine.dir = s.engine.dir := by simp [State.commitAppend]

@[simp] theorem writeProceeds_dir (w : StalledWrite) : (s.writeProceeds w).engine.dir = s.engine.dir := by
  cases w <;> simp [State.writeProceeds, State.putAppend, State.deleteAppend]

@[simp] theorem hostPlaced_dir : s.hostPlaced.engine.dir = s.engine.dir := bumpSeq_dir s

@[simp] theorem getReply_dir (r : Request) (e : Entry) (p : Reply) : (s.getReply r e p).engine.dir = s.engine.dir := by
  unfold State.getReply; split <;> simp

@[simp] theorem conditionFailed_dir (r : Request) (st : Status) : (s.conditionFailed r st).engine.dir = s.engine.dir := by
  simp [State.conditionFailed]

@[simp] theorem committedGet_dir (r : Request) : (committedGet r s).engine.dir = s.engine.dir := by
  unfold committedGet; split <;> simp

@[simp] theorem reclaimEnds_dir (r : Request) (st : Status) : (s.reclaimEnds r st).engine.dir = s.engine.dir := by
  simp [State.reclaimEnds]

/-! ### Kinds that make no directory operation (03, 04, 08) -/

@[simp] theorem getBody_dir (r : Request) : (getBody r s).engine.dir = s.engine.dir := by
  unfold getBody; split <;> simp

@[simp] theorem nextBody_dir (r : Request) : (nextBody r s).engine.dir = s.engine.dir := by
  unfold nextBody; split <;> simp

@[simp] theorem infoBody_dir (r : Request) : (infoBody r s).engine.dir = s.engine.dir := post_dir s r _

@[simp] theorem beginBody_dir (r : Request) : (beginBody r s).engine.dir = s.engine.dir := by
  unfold beginBody; split <;> simp

@[simp] theorem noTransaction_dir (r : Request) : (s.noTransaction r).engine.dir = s.engine.dir := by
  unfold State.noTransaction; split <;> simp

@[simp] theorem stage_dir (r : Request) (t : OpenTxn) (e : Staged) : (s.stage r t e).engine.dir = s.engine.dir := by
  simp only [State.stage]; split <;> simp

@[simp] theorem inTxnPutBody_dir (r : Request) : (inTxnPutBody r s).engine.dir = s.engine.dir := by
  unfold inTxnPutBody; (repeat' split) <;> simp

@[simp] theorem inTxnDeleteBody_dir (r : Request) : (inTxnDeleteBody r s).engine.dir = s.engine.dir := by
  unfold inTxnDeleteBody; (repeat' split) <;> simp

@[simp] theorem inTxnGetBody_dir (r : Request) : (inTxnGetBody r s).engine.dir = s.engine.dir := by
  unfold inTxnGetBody; (repeat' split) <;> simp

@[simp] theorem abandonBody_dir (r : Request) : (abandonBody r s).engine.dir = s.engine.dir := by
  unfold abandonBody; split <;> simp

@[simp] theorem unlockBody_dir (r : Request) : (unlockBody r s).engine.dir = s.engine.dir := by
  simp only [unlockBody]; (repeat' split) <;> simp

@[simp] theorem lockBody_dir (r : Request) : (lockBody r s).engine.dir = s.engine.dir := by simp [lockBody]

@[simp] theorem setCodeBody_dir (r : Request) : (setCodeBody r s).engine.dir = s.engine.dir := by
  simp only [setCodeBody]; (repeat' split) <;> simp

@[simp] theorem setPolicyBody_dir (r : Request) : (setPolicyBody r s).engine.dir = s.engine.dir := by
  simp only [setPolicyBody]; (repeat' split) <;> simp

@[simp] theorem setZoneReply_dir (r : Request) (p : Reply) : (s.setZoneReply r p).engine.dir = s.engine.dir := by
  unfold State.setZoneReply; split <;> simp

@[simp] theorem formatBegin_dir (r : Request) : (s.formatBegin r).engine.dir = s.engine.dir := by simp [State.formatBegin]

@[simp] theorem formatBody_dir (r : Request) : (formatBody r s).engine.dir = s.engine.dir := by
  simp only [formatBody]; (repeat' split) <;> simp

/-! ### FORMAT but for its tables (R155 to R157) -/

@[simp] theorem formatStops_dir (r : Request) : (s.formatStops r).engine.dir = s.engine.dir := answerAux_dir s r _ _

@[simp] theorem formatEnds_dir (r : Request) : (s.formatEnds r).engine.dir = s.engine.dir := by simp [State.formatEnds]

@[simp] theorem formatNext_dir (r : Request) : (s.formatNext r).engine.dir = s.engine.dir := by
  unfold State.formatNext; (repeat' split) <;> simp [State.formatOpening]

@[simp] theorem formatReadNext_dir (r : Request) (todo : List Nat) : (s.formatReadNext r todo).engine.dir = s.engine.dir := by
  unfold State.formatReadNext; split <;> simp

@[simp] theorem formatReadReply_dir (r : Request) (x : Nat) (todo : List Nat) (p : Reply) :
    (s.formatReadReply r x todo p).engine.dir = s.engine.dir := by
  unfold State.formatReadReply; split <;> simp

@[simp] theorem formatEraseReply_dir (r : Request) (x : Nat) (p : Reply) :
    (s.formatEraseReply r x p).engine.dir = s.engine.dir := by
  unfold State.formatEraseReply; split <;> simp

@[simp] theorem formatSectorReply_dir (r : Request) (p : Reply) : (s.formatSectorReply r p).engine.dir = s.engine.dir := by
  unfold State.formatSectorReply; split <;> simp

@[simp] theorem formatOpenReply_dir (r : Request) (p : Reply) : (s.formatOpenReply r p).engine.dir = s.engine.dir := by
  unfold State.formatOpenReply; split <;> simp

/-! ### Mount but for the frames it replays and its ends (07) -/

@[simp] theorem mountStops_dir : s.mountStops.engine.dir = s.engine.dir := rfl

@[simp] theorem mountWarned_dir : s.mountWarned.engine.dir = s.engine.dir := by
  unfold State.mountWarned; split <;> simp

@[simp] theorem mountBegin_dir : s.mountBegin.engine.dir = s.engine.dir := by simp [State.mountBegin]

end Sys2Proof.Certificates
end


-- ==== Sys2Proof/Proofs/DirectoryInvariant.lean ====
section
/-! Every step keeps the directory well formed (R26, R30): whatever changes it does so by one of the five operations, by emptying it,
or by replaying a frame. -/

namespace Sys2Proof.Certificates

open Sys2Proof Sys2Proof.Machine

/-! ### Batches and replayed frames (R39, R130 to R132) -/

/-- One change of a commit's batch. -/
theorem applyStaged_wf {d : Directory} (e : Staged) (p : Seq × Nat × Nat) (h : d.wf = true) : (d.applyStaged e p).wf = true := by
  unfold Directory.applyStaged
  split
  · exact installLive_wf _ _ _ _ _ h
  · exact markDead_wf _ _ _ _ h

/-- A commit's batch. -/
theorem applyBatch_wf : ∀ (es : List Staged) (ps : List (Seq × Nat × Nat)) {d : Directory}, d.wf = true →
    (d.applyBatch es ps).wf = true
  | [], _, _, h => h
  | _ :: _, [], _, h => h
  | e :: es, p :: ps, _, h => applyBatch_wf es ps (applyStaged_wf e p h)

/-- A frame applied by its version. -/
theorem replay_wf {d : Directory} (m : Member) (h : d.wf = true) : (d.replay m).wf = true := by
  unfold Directory.replay
  split
  · split
    · exact installLive_wf _ _ _ _ _ h
    · exact h
  · split
    · exact markDead_wf _ _ _ _ h
    · exact h
  · exact h

/-- A run of members applied in order. -/
theorem foldl_replay_wf : ∀ (run : List Member) {d : Directory}, d.wf = true → (run.foldl Directory.replay d).wf = true
  | [], _, h => h
  | m :: run, _, h => foldl_replay_wf run (replay_wf m h)

/-- A valid frame that is replayed. -/
theorem replayFrame_wf {d : Directory} (run : List Member) (m : Member) (h : d.wf = true) :
    (replayFrame d run m).1.wf = true := by
  unfold replayFrame
  split
  · split
    · exact foldl_replay_wf run h
    · exact h
  · split
    · exact h
    · exact replay_wf m h

/-- A scanned line changes the directory by the frame it yields, if it yields one. -/
theorem scanLine_wf {d : Directory} (p : Replay) (l : Line) (h : d.wf = true) : (p.scanLine d l).2.1.wf = true := by
  have hyields (q : Replay) (f : FrameHeader) : (q.yields d f).2.wf = true := replayFrame_wf _ _ h
  simp only [Replay.scanLine]
  (repeat' split) <;> simp only [h, hyields]

/-! ### Compaction steps, stalls and RECLAIM (R62, R63, R86, R90 to R92, R99) -/

variable {s : State}

/-- A directory operation that keeps the directory well formed. -/
theorem withDir_wf {f : Directory → Directory} (h : (f s.engine.dir).wf = true) : (s.withDir f).engine.dir.wf = true := h

/-- A copy step removes the DEAD entry it finds. -/
theorem copyOne_wf (h : s.engine.dir.wf = true) : s.copyOne.engine.dir.wf = true := by
  unfold State.copyOne
  split
  · simp [h]
  · split
    · simp [h]
    · split
      · simp [h]
      · rw [stepEnds_dir]
        exact withDir_wf (remove_wf _ h)

/-- A granted step. -/
theorem grantStep_wf (h : s.engine.dir.wf = true) : s.grantStep.engine.dir.wf = true := by
  unfold State.grantStep
  split
  · simp [h]
  · exact copyOne_wf h
  · exact h
  · simp [h]

/-- A job that goes on with the next step or waits. -/
theorem nextStepInJob_wf (t : Task) (h : s.engine.dir.wf = true) : (s.nextStepInJob t).engine.dir.wf = true := by
  unfold State.nextStepInJob
  split
  · exact grantStep_wf h
  · exact h

/-- A write that enters the stall. -/
theorem enterStall_wf (w : StalledWrite) (h : s.engine.dir.wf = true) : (s.enterStall w).engine.dir.wf = true :=
  nextStepInJob_wf _ h

/-- The stall's tests. -/
theorem stallTests_wf (w : StalledWrite) (reported : Bool) (h : s.engine.dir.wf = true) :
    (s.stallTests w reported).engine.dir.wf = true := by
  unfold State.stallTests
  (repeat' split) <;> simp [h, nextStepInJob_wf]

/-- The tests of a RECLAIM. -/
theorem reclaimTests_wf (r : Request) (reported : Bool) (h : s.engine.dir.wf = true) :
    (s.reclaimTests r reported).engine.dir.wf = true := by
  unfold State.reclaimTests
  (repeat' split) <;> simp [h, nextStepInJob_wf]

/-- A reply that reaches a stall. -/
theorem stallReply_wf (w : StalledWrite) (p : Reply) (h : s.engine.dir.wf = true) :
    (s.stallReply w p).engine.dir.wf = true := by
  unfold State.stallReply
  split <;> simp [h, stallTests_wf]

/-- A reply that reaches a RECLAIM. -/
theorem reclaimReply_wf (r : Request) (p : Reply) (h : s.engine.dir.wf = true) :
    (s.reclaimReply r p).engine.dir.wf = true := by
  unfold State.reclaimReply
  split <;> simp [h, reclaimTests_wf]

/-- The end of a copy's append relocates the entry. -/
theorem copyAppendReply_wf (e : Entry) (p : Reply) (h : s.engine.dir.wf = true) :
    (s.copyAppendReply e p).engine.dir.wf = true := by
  unfold State.copyAppendReply
  split <;> simp [h, relocate_wf]

/-- The end of a media loss's tombstone converts the entry. -/
theorem lossAppendReply_wf (e : Entry) (q : Seq) (p : Reply) (h : s.engine.dir.wf = true) :
    (s.lossAppendReply e q p).engine.dir.wf = true := by
  unfold State.lossAppendReply
  split <;> simp [h, convertOnLoss_wf]

/-! ### Host writes (R52 to R56, R75 to R79) -/

/-- An admitted write. -/
theorem writeAdmitted_wf (w : StalledWrite) (h : s.engine.dir.wf = true) : (s.writeAdmitted w).engine.dir.wf = true := by
  unfold State.writeAdmitted
  split <;> simp [h, enterStall_wf]

/-- A write whose append has failed. -/
theorem writeFailed_wf (w : StalledWrite) (o : AppendOutcome) (h : s.engine.dir.wf = true) :
    (s.writeFailed w o).engine.dir.wf = true := by
  unfold State.writeFailed
  split <;> simp [h, enterStall_wf]

/-- The end of a PUT's append installs the key. -/
theorem putReply_wf (r : Request) (p : Reply) (h : s.engine.dir.wf = true) : (s.putReply r p).engine.dir.wf = true := by
  unfold State.putReply
  split <;> simp [h, installLive_wf, writeFailed_wf]

/-- The end of a DELETE's append marks the key DEAD. -/
theorem deleteReply_wf (r : Request) (p : Reply) (h : s.engine.dir.wf = true) : (s.deleteReply r p).engine.dir.wf = true := by
  unfold State.deleteReply
  split <;> simp [h, markDead_wf, writeFailed_wf]

/-- The end of a COMMIT frame's append applies the batch. -/
theorem commitReply_wf (c : CommitJob) (p : Reply) (h : s.engine.dir.wf = true) : (s.commitReply c p).engine.dir.wf = true := by
  simp only [State.commitReply]
  (repeat' split) <;> simp [h, applyBatch_wf, writeFailed_wf]

/-! ### FORMAT's tables and mount (R40, R41, R129 to R138, R154) -/

/-- An emptied directory. -/
theorem emptied_wf (d : Directory) : d.emptied.wf = true := rfl

/-- FORMAT's anchor write has ended: its tables stand, with an empty directory, unless it stops. -/
theorem formatAnchorReply_wf (r : Request) (p : Reply) (h : s.engine.dir.wf = true) :
    (s.formatAnchorReply r p).engine.dir.wf = true := by
  unfold State.formatAnchorReply
  split <;> simp [h, State.formatTables, emptied_wf]

/-- The directory-complete flag has no part in the directory's form. -/
@[simp] theorem withComplete_wf (d : Directory) (b : Bool) : ({ d with complete := b } : Directory).wf = d.wf := rfl

section
variable (s)

/-! Mount's course, but for the frames it replays, only sets the directory-complete flag. -/

@[simp] theorem mountEnds_wf : s.mountEnds.engine.dir.wf = s.engine.dir.wf := by simp [State.mountEnds]

@[simp] theorem mountOpening_wf : s.mountOpening.engine.dir.wf = s.engine.dir.wf := by
  unfold State.mountOpening; (repeat' split) <;> simp

@[simp] theorem tidyNext_wf : s.tidyNext.engine.dir.wf = s.engine.dir.wf := by
  unfold State.tidyNext; (repeat' split) <;> simp

@[simp] theorem mountCloseNext_wf (todo : List Unclosed) : (s.mountCloseNext todo).engine.dir.wf = s.engine.dir.wf := by
  unfold State.mountCloseNext; split <;> simp

@[simp] theorem replayEnds_wf (p : Replay) : (s.replayEnds p).engine.dir.wf = s.engine.dir.wf := by simp [State.replayEnds]

@[simp] theorem scanNext_wf (p : Replay) (ended : Bool) : (s.scanNext p ended).engine.dir.wf = s.engine.dir.wf := by
  simp only [State.scanNext]; (repeat' split) <;> simp

@[simp] theorem replayBegin_wf (notes : List (Nat × SurveyNote)) : (s.replayBegin notes).engine.dir.wf = s.engine.dir.wf := by
  simp only [State.replayBegin]; split <;> simp

@[simp] theorem surveyNext_wf (todo : List Nat) (notes : List (Nat × SurveyNote)) :
    (s.surveyNext todo notes).engine.dir.wf = s.engine.dir.wf := by
  unfold State.surveyNext; split <;> simp

@[simp] theorem anchorPhaseEnds_wf (a : AnchorScan) : (s.anchorPhaseEnds a).engine.dir.wf = s.engine.dir.wf := by
  unfold State.anchorPhaseEnds; split <;> simp

@[simp] theorem mountAnchorReply_wf (a : AnchorScan) (p : Reply) : (s.mountAnchorReply a p).engine.dir.wf = s.engine.dir.wf := by
  simp only [State.mountAnchorReply]; (repeat' split) <;> simp

@[simp] theorem mountSurveyReply_wf (x : Nat) (read : List Line) (todo : List Nat) (notes : List (Nat × SurveyNote)) (p : Reply) :
    (s.mountSurveyReply x read todo notes p).engine.dir.wf = s.engine.dir.wf := by
  unfold State.mountSurveyReply; (repeat' split) <;> simp

@[simp] theorem mountCloseReply_wf (u : Unclosed) (todo : List Unclosed) (p : Reply) :
    (s.mountCloseReply u todo p).engine.dir.wf = s.engine.dir.wf := by
  unfold State.mountCloseReply; split <;> simp

@[simp] theorem mountEraseReply_wf (x : Nat) (p : Reply) : (s.mountEraseReply x p).engine.dir.wf = s.engine.dir.wf := by
  unfold State.mountEraseReply; split <;> simp

@[simp] theorem mountSectorReply_wf (p : Reply) : (s.mountSectorReply p).engine.dir.wf = s.engine.dir.wf := by
  unfold State.mountSectorReply; split <;> simp

@[simp] theorem mountOpenReply_wf (p : Reply) : (s.mountOpenReply p).engine.dir.wf = s.engine.dir.wf := by
  unfold State.mountOpenReply; split <;> simp

end

/-- A line of a ring sector that mount has read replays the frame it completes. -/
theorem mountReplayReply_wf (q : Replay) (p : Reply) (h : s.engine.dir.wf = true) :
    (s.mountReplayReply q p).engine.dir.wf = true := by
  unfold State.mountReplayReply
  split <;> simp [h, scanLine_wf]

/-! ### Internal moves -/

/-- The task on top goes on with its reply. -/
theorem resume_wf (t : Task) (p : Reply) (h : s.engine.dir.wf = true) : (s.resume t p).engine.dir.wf = true := by
  cases t with
  | put r => exact putReply_wf r p h
  | delete r => exact deleteReply_wf r p h
  | commit c => exact commitReply_wf c p h
  | stall w => exact stallReply_wf w p h
  | reclaim r => exact reclaimReply_wf r p h
  | copyAppend e => exact copyAppendReply_wf e p h
  | lossAppend e q => exact lossAppendReply_wf e q p h
  | formatAnchor r => exact formatAnchorReply_wf r p h
  | mountReplay q => exact mountReplayReply_wf q p h
  | retire x => simp only [State.resume]; split <;> simp [h]
  | _ => simp [State.resume, h]

/-- One internal move. -/
theorem move_wf {s t : State} (h : s.engine.dir.wf = true) (hm : s.move = some t) : t.engine.dir.wf = true := by
  unfold State.move at hm
  split at hm
  · cases hm; exact resume_wf _ _ h
  · cases hm; exact h
  · rw [startPending_engine s hm]; exact h

/-- All internal moves of a command. -/
theorem settle_wf (h : s.engine.dir.wf = true) : s.settle.engine.dir.wf = true :=
  State.settle_keeps (P := fun s => s.engine.dir.wf = true) (fun _ _ h hm => move_wf h hm) h

/-! ### Requests that are taken and steps that are granted (R85, R163 to R165) -/

/-- What an operation does to the state keeps the directory well formed. -/
def KeepsDirectory (f : State → State) : Prop := ∀ s : State, s.engine.dir.wf = true → (f s).engine.dir.wf = true

/-- What leaves the directory keeps it well formed. -/
theorem KeepsDirectory.of_dir {f : State → State} (h : ∀ s, (f s).engine.dir = s.engine.dir) : KeepsDirectory f :=
  fun s hs => by rw [h s]; exact hs

/-- PUT's checks and its admitted write. -/
theorem putBody_keeps (r : Request) : KeepsDirectory (putBody r) := fun s h => by
  simp only [putBody]
  (repeat' split) <;> simp [h, writeAdmitted_wf]

/-- DELETE's checks and its admitted write. -/
theorem deleteBody_keeps (r : Request) : KeepsDirectory (deleteBody r) := fun s h => by
  simp only [deleteBody]
  (repeat' split) <;> simp [h, writeAdmitted_wf]

/-- COMMIT's checks and its admitted write. -/
theorem commitBody_keeps (r : Request) : KeepsDirectory (commitBody r) := fun s h => by
  simp only [commitBody]
  (repeat' split) <;> simp [h, writeAdmitted_wf]

/-- RECLAIM's tests. -/
theorem reclaimBody_keeps (r : Request) : KeepsDirectory (reclaimBody r) := fun _ h => reclaimTests_wf r false h

/-- A request that is taken: the tests before its kind's own, and its kind's body. -/
theorem takeFront_keeps (isRow : Request → Bool) {body : Request → State → State} (hb : ∀ r, KeepsDirectory (body r)) :
    KeepsDirectory (·.takeFront isRow body) := by
  have hchecked (r : Request) : KeepsDirectory (·.checked r body) := fun s h => by
    have hstopped : (if r.isTxnRequest then s.stopTimer else s).engine.dir.wf = true := by split <;> exact h
    simp only [State.checked]
    split
    · rw [turnAway_dir]; exact hstopped
    · split
      · exact hb r _ hstopped
      · rw [turnAway_dir]; exact hstopped
  intro s h
  simp only [State.takeFront, State.takeRequest]
  split
  · exact h
  · split
    · split
      · split
        · rw [answer_dir]; exact h
        · exact hchecked _ _ h
      · exact hchecked _ _ h
    · exact h

/-- A request that is taken and runs until its job waits or ends. -/
theorem taking_keeps (isRow : Request → Bool) {body : Request → State → State} (hb : ∀ r, KeepsDirectory (body r)) :
    KeepsDirectory (·.taking isRow body) := fun s h => settle_wf (takeFront_keeps isRow hb s h)

/-- A step that is granted and runs until it waits or ends. -/
theorem granting_keeps (stage : Stage) {f : State → State} (hf : KeepsDirectory f) : KeepsDirectory (·.granting stage f) :=
  fun s h => by
    simp only [State.granting]
    split
    · exact settle_wf (hf s h)
    · exact h

/-! ### Bus accesses (R171 to R177) -/

/-- A soft reset leaves an empty directory. -/
theorem softReset_keeps : KeepsDirectory State.softReset := fun _ _ => rfl

/-- CONTROL: of its commands only the soft reset changes the directory. -/
theorem control_keeps (v : Byte) : KeepsDirectory (·.control v) := fun s h => by
  simp only [State.control]
  (repeat' split) <;> simp [h, softReset_keeps s h]

/-- A register write. -/
theorem busWrite_keeps (a : BitVec 6) (v : Byte) : KeepsDirectory (·.busWrite a v) := fun s h => by
  have hcontrol : (s.control v).engine.dir.wf = true := control_keeps v s h
  simp only [State.busWrite]
  split <;> simp [h, hcontrol, State.clearEvents, State.setEnables, State.setLowWater]

/-! ### Ticks, the warning and resets (R72, R109, R118, R122) -/

/-- The end of the erase in flight and what follows from it. -/
theorem eraseEnds_settle_keeps (passed : Bool) : KeepsDirectory (fun s => (s.eraseEnds passed).settle) :=
  fun s h => settle_wf (by rw [eraseEnds_engine]; exact h)

/-- One tick: the idle timer and the erase in flight. -/
theorem tick_keeps : KeepsDirectory State.tick := fun s h => by
  have htimer : s.tickTimer.engine.dir.wf = true := by rw [tickTimer_dir]; exact h
  simp only [State.tick, State.tickErase]
  (repeat' split) <;> simp [h, eraseEnds_settle_keeps false _ htimer]

/-- The power-fail warning and what follows from it. -/
theorem takeWarning_keeps : KeepsDirectory State.takeWarning := fun s h => by
  refine settle_wf ?_
  split <;> simp [h]

/-- A pin reset or a power loss leaves an empty directory. -/
theorem hardReset_keeps : KeepsDirectory State.hardReset := fun _ _ => rfl

/-! ### Commands -/

/-- A command that answers one next state. -/
theorem wf_of_next {u t : State} (h : (.next u : Result) = .next t) (hu : u.engine.dir.wf = true) :
    t.engine.dir.wf = true := by cases h; exact hu

/-- A write access. -/
theorem onBus_wf {f : State → State} {s t : State} (hx : s.onBus f = .next t) (h : s.engine.dir.wf = true)
    (hf : KeepsDirectory f) : t.engine.dir.wf = true := by
  refine wf_of_next hx ?_
  split
  · exact hf s h
  · exact h

/-- Every command keeps the directory well formed. -/
theorem exec_wf (c : Instr) {s t : State} (h : s.engine.dir.wf = true) (hx : exec c s = .next t) : t.engine.dir.wf = true := by
  cases c with
  | go => exact onBus_wf hx h (.of_dir submit_dir)
  | pop => exact onBus_wf hx h (.of_dir popHead_dir)
  | clearFill => exact onBus_wf hx h (.of_dir fun _ => rfl)
  | rewind => exact onBus_wf hx h (.of_dir rewindHead_dir)
  | softReset => exact onBus_wf hx h softReset_keeps
  | writeData b => exact onBus_wf (f := (·.fillByte b)) hx h (.of_dir fun s => fillByte_dir s b)
  | readData =>
    simp only [exec, execReadData] at hx
    (repeat' split at hx) <;> exact wf_of_next hx h
  | captureLatch r =>
    simp only [exec, execCaptureLatch] at hx
    split at hx <;> exact wf_of_next hx (by simp [h])
  | eventStatus v => exact onBus_wf (f := (·.clearEvents v)) hx h (.of_dir fun _ => rfl)
  | eventEnable v => exact onBus_wf (f := (·.setEnables v)) hx h (.of_dir fun _ => rfl)
  | lowWater v => exact onBus_wf (f := (·.setLowWater v)) hx h (.of_dir fun _ => rfl)
  | registerWrite a v => exact onBus_wf (f := (·.busWrite a v)) hx h (busWrite_keeps a v)
  | put => exact wf_of_next hx (taking_keeps _ putBody_keeps s h)
  | get => exact wf_of_next hx (taking_keeps _ (fun r => .of_dir (getBody_dir · r)) s h)
  | delete => exact wf_of_next hx (taking_keeps _ deleteBody_keeps s h)
  | next => exact wf_of_next hx (taking_keeps _ (fun r => .of_dir (nextBody_dir · r)) s h)
  | info => exact wf_of_next hx (taking_keeps _ (fun r => .of_dir (infoBody_dir · r)) s h)
  | beginTxn => exact wf_of_next hx (taking_keeps _ (fun r => .of_dir (beginBody_dir · r)) s h)
  | inTxnPut => exact wf_of_next hx (taking_keeps _ (fun r => .of_dir (inTxnPutBody_dir · r)) s h)
  | inTxnDelete => exact wf_of_next hx (taking_keeps _ (fun r => .of_dir (inTxnDeleteBody_dir · r)) s h)
  | inTxnGet => exact wf_of_next hx (taking_keeps _ (fun r => .of_dir (inTxnGetBody_dir · r)) s h)
  | commit => exact wf_of_next hx (taking_keeps _ commitBody_keeps s h)
  | abandon => exact wf_of_next hx (taking_keeps _ (fun r => .of_dir (abandonBody_dir · r)) s h)
  | reclaim => exact wf_of_next hx (taking_keeps _ reclaimBody_keeps s h)
  | unlock => exact wf_of_next hx (taking_keeps _ (fun r => .of_dir (unlockBody_dir · r)) s h)
  | lock => exact wf_of_next hx (taking_keeps _ (fun r => .of_dir (lockBody_dir · r)) s h)
  | setCode => exact wf_of_next hx (taking_keeps _ (fun r => .of_dir (setCodeBody_dir · r)) s h)
  | setPolicy => exact wf_of_next hx (taking_keeps _ (fun r => .of_dir (setPolicyBody_dir · r)) s h)
  | format => exact wf_of_next hx (taking_keeps _ (fun r => .of_dir (formatBody_dir · r)) s h)
  | kindNamingNoKind => exact wf_of_next hx (taking_keeps _ (fun r => .of_dir (answer_dir · r _)) s h)
  | selectStep => exact wf_of_next hx (granting_keeps _ (.of_dir selectVictim_dir) s h)
  | copyStep => exact wf_of_next hx (granting_keeps _ (fun _ => copyOne_wf) s h)
  | eraseStep =>
    refine wf_of_next hx ?_
    split
    · exact granting_keeps _ (fun _ => copyOne_wf) s h
    · exact h
  | finishingStep => exact wf_of_next hx (granting_keeps _ (.of_dir finishVictim_dir) s h)
  | lineReadDone => exact wf_of_next hx (settle_wf (by rw [lineReadEnds_engine]; exact h))
  | lineProgramDone v => exact wf_of_next hx (settle_wf (by rw [lineProgramEnds_engine]; exact h))
  | programTimeout => exact wf_of_next hx (settle_wf (by rw [programTimesOut_engine]; exact h))
  | eraseDone passed => exact wf_of_next hx (eraseEnds_settle_keeps passed s h)
  | eraseTimeLimit => exact wf_of_next hx (eraseEnds_settle_keeps false s h)
  | idleTimerExpiry => exact wf_of_next hx (by rw [timerExpires_dir]; exact h)
  | pfwAsserted =>
    simp only [exec, execPfwAsserted] at hx
    split at hx
    · exact wf_of_next hx (takeWarning_keeps _ h)
    · exact wf_of_next hx h
  | rstAsserted =>
    simp only [exec, execRstAsserted] at hx
    split at hx
    · exact wf_of_next hx (hardReset_keeps _ h)
    · exact wf_of_next hx h
  | powerLoss =>
    simp only [exec, execPowerLoss] at hx
    split at hx
    · exact wf_of_next hx (hardReset_keeps s h)
    · exact wf_of_next hx h
  | powerOn => exact wf_of_next hx (hardReset_keeps s h)
  | pfwDeasserted | rstDeasserted => exact wf_of_next hx h
  | mount =>
    refine wf_of_next hx ?_
    split
    · exact settle_wf (by rw [mountBegin_dir]; exact h)
    · exact h
  | arrayOwnLoss x l =>
    simp only [exec, execArrayOwnLoss] at hx
    split at hx
    · exact wf_of_next hx (by rw [ownLoss_engine]; exact h)
    · cases hx

/-- Settles O52: a tick and every command keep the directory well formed. -/
theorem directoryStaysAccounted : Obligations.DirectoryStaysAccounted := by
  intro s t h hstep
  unfold step at hstep
  split at hstep
  · exact wf_of_next hstep (tick_keeps s h)
  · rename_i c rest _
    exact exec_wf c (s := { s with pending := rest }) h hstep

end Sys2Proof.Certificates
end


-- ==== Sys2Proof/Proofs/HaltFrame.lean ====
section
/-! What no internal move changes of a halted part (R42, R44, R120): a HALTED store and its transaction context, and a halted
sequencer without an erase in flight. One lemma per operation. -/

namespace Sys2Proof.Certificates

open Sys2Proof Sys2Proof.Machine

/-- The part of the state that the power-fail warning settles until a reset: the open transaction and the expired mark of a HALTED
store, none of any other, and whether the sequencer is halted without an erase in flight. -/
structure Halt where
  txn : Option (Option OpenTxn × Option TxnNo)
  quiet : Bool

/-- The halt of a part, by the fields it reads. -/
def haltOf (st : StoreState) (o : Option OpenTxn) (x : Option TxnNo) (h : Bool) (e : Option EraseRec) : Halt :=
  { txn := if st = .halted then some (o, x) else none, quiet := h && e.isNone }

/-- The halt of a state. -/
def halt (s : State) : Halt :=
  haltOf s.engine.store s.engine.txn.openTxn s.engine.txn.expired s.seq.halted s.seq.erase

/-- The store of a state is HALTED when its halt holds a transaction context. -/
theorem halt_store (s : State) : (halt s).txn.isSome = true ↔ s.engine.store = .halted := by
  simp only [halt, haltOf]
  split <;> simp [*]

/-- The transaction context in the halt of a HALTED store. -/
theorem halt_txn {s : State} {o : Option OpenTxn} {x : Option TxnNo} :
    (halt s).txn = some (o, x) ↔ s.engine.store = .halted ∧ s.engine.txn.openTxn = o ∧ s.engine.txn.expired = x := by
  simp only [halt, haltOf]
  split <;> simp [*]

/-- The sequencer in the halt of a state. -/
theorem halt_quiet (s : State) : (halt s).quiet = true ↔ s.seq.halted = true ∧ s.seq.erase = none := by
  simp [halt, haltOf]

/-- Two stores that are not HALTED have the same halt whatever their transaction contexts. -/
theorem haltOf_of_not_halted {st st' : StoreState} (h : st ≠ .halted) (h' : st' ≠ .halted) (o o' : Option OpenTxn)
    (x x' : Option TxnNo) (b : Bool) (e : Option EraseRec) : haltOf st o x b e = haltOf st' o' x' b e := by
  simp only [haltOf, if_neg h, if_neg h']

@[simp] theorem halt_mk (w q e c l cm sq a z p f pe) :
    halt ⟨w, q, e, c, l, cm, sq, a, z, p, f, pe⟩ = haltOf e.store e.txn.openTxn e.txn.expired sq.halted sq.erase := rfl

@[simp] theorem haltOf_eq_halt (s : State) :
    haltOf s.engine.store s.engine.txn.openTxn s.engine.txn.expired s.seq.halted s.seq.erase = halt s := rfl

variable (s : State)

/-! ### Single updates -/

@[simp] theorem setLine_halt (x l : Nat) (v : Line) : halt (s.setLine x l v) = halt s := rfl
@[simp] theorem push_halt (t : Task) : halt (s.push t) = halt s := rfl
@[simp] theorem ret_halt (r : Reply) : halt (s.ret r) = halt s := rfl
@[simp] theorem clearControl_halt : halt s.clearControl = halt s := rfl
@[simp] theorem raise_halt (e : Byte) : halt (s.raise e) = halt s := rfl
@[simp] theorem raiseMediaLoss_halt (k : Key) : halt (s.raiseMediaLoss k) = halt s := rfl
@[simp] theorem withDir_halt (f : Directory → Directory) : halt (s.withDir f) = halt s := rfl
@[simp] theorem withLog_halt (f : LogTables → LogTables) : halt (s.withLog f) = halt s := rfl
@[simp] theorem mapRecord_halt (x : Nat) (f : SectorRec → SectorRec) : halt (s.mapRecord x f) = halt s := rfl
@[simp] theorem stopTimer_halt : halt s.stopTimer = halt s := rfl
@[simp] theorem leaveStall_halt : halt s.leaveStall = halt s := rfl
@[simp] theorem abortRound_halt : halt s.abortRound = halt s := rfl

/-! ### The store state and READ_ONLY causes (R42, R43) -/

/-- A store that leaves a state other than HALTED for another is not HALTED before nor after. -/
theorem leaveStore_halt {old new : StoreState} (ho : old ≠ .halted) (hn : new ≠ .halted) :
    halt (s.leaveStore old new) = halt s := by
  unfold State.leaveStore
  split
  · rename_i h
    subst h
    unfold State.setStore
    split
    · rfl
    · exact haltOf_of_not_halted hn ho _ _ _ _ _ _
  · rfl

@[simp] theorem reportReadOnly_halt : halt s.reportReadOnly = halt s := by
  unfold State.reportReadOnly; split <;> rfl

@[simp] theorem applyReadOnly_halt : halt s.applyReadOnly = halt s := by
  rw [applyReadOnly_eq]
  cases s.engine.readOnlyDue with
  | false => rfl
  | true =>
    simp only [endsDue, if_true, turnsReadOnly]
    split
    · rename_i h
      have hready : s.engine.store ≠ .halted := by rw [show s.engine.store = .ready from h]; decide
      exact haltOf_of_not_halted StoreState.noConfusion hready _ _ _ _ _ _
    · rfl

/-! ### The array sequencer (R106 to R110, R120) -/

@[simp] theorem serve_halt (op : LineOp) : halt (s.serve op) = halt s := rfl

@[simp] theorem issue_halt (op : LineOp) : halt (s.issue op) = halt s := by
  unfold State.issue
  split
  · rfl
  · split
    · rfl
    · rename_i e he
      split
      · rfl
      · split
        · simp only [haltOf, Option.isNone_some, halt, he]
        · rfl

@[simp] theorem issueRead_halt (x l : Nat) : halt (s.issueRead x l) = halt s := issue_halt s _

@[simp] theorem issueProgram_halt (x l : Nat) (d : LineData) : halt (s.issueProgram x l d) = halt s := issue_halt s _

@[simp] theorem endOp_halt (r : Reply) : halt (s.endOp r) = halt s := by
  unfold State.endOp; split <;> rfl

@[simp] theorem lineReadEnds_halt : halt s.lineReadEnds = halt s := by
  unfold State.lineReadEnds; split <;> simp

@[simp] theorem lineProgramEnds_halt (verified : Bool) : halt (s.lineProgramEnds verified) = halt s := by
  unfold State.lineProgramEnds; split <;> simp

@[simp] theorem programTimesOut_halt : halt s.programTimesOut = halt s := by
  unfold State.programTimesOut; (repeat' split) <;> simp

@[simp] theorem compactorErased_halt (o : EraseOutcome) : halt (s.compactorErased o) = halt s := by
  unfold State.compactorErased; (repeat' split) <;> rfl

@[simp] theorem wakeWaiting_halt : halt s.wakeWaiting = halt s := by
  unfold State.wakeWaiting; split <;> rfl

@[simp] theorem deliverErase_halt (background : Bool) (o : EraseOutcome) : halt (s.deliverErase background o) = halt s := by
  unfold State.deliverErase; split <;> simp

/-- A halted sequencer begins no erase, and another is not quiet before nor after one begins. -/
@[simp] theorem issueErase_halt (x : Nat) (background : Bool) : halt (s.issueErase x background) = halt s := by
  unfold State.issueErase
  split
  · simp
  · rename_i h
    (repeat' split) <;> simp [halt, haltOf, h, State.beginErase]

@[simp] theorem serveWaiting_halt : halt s.serveWaiting = halt s := by
  simp only [State.serveWaiting]; (repeat' split) <;> rfl

/-! ### Anchor writes and retirement (R10, R145, R146) -/

@[simp] theorem anchorEnds_halt (o : AnchorOutcome) : halt (s.anchorEnds o) = halt s := by
  unfold State.anchorEnds State.anchorFailure; (repeat' split) <;> simp

@[simp] theorem programPart_halt (a : AnchorRecord) (second : Bool) (x slot part : Nat) :
    halt (s.programPart a second x slot part) = halt s := by simp [State.programPart]

@[simp] theorem placeRecord_halt (a : AnchorRecord) (second : Bool) : halt (s.placeRecord a second) = halt s := by
  unfold State.placeRecord; (repeat' split) <;> simp

@[simp] theorem anchorWrite_halt (change : AnchorRecord → AnchorRecord) : halt (s.anchorWrite change) = halt s := by
  simp [State.anchorWrite]

@[simp] theorem anchorWriteReply_halt (a : AnchorRecord) (second : Bool) (p : AnchorPhase) (r : Reply) :
    halt (s.anchorWriteReply a second p r) = halt s := by
  unfold State.anchorWriteReply; (repeat' split) <;> simp

@[simp] theorem retireBegin_halt (x : Nat) : halt (s.retireBegin x) = halt s := by simp [State.retireBegin]

@[simp] theorem retireSector_halt (x : Nat) : halt (s.retireSector x) = halt s := by
  simp only [State.retireSector]; split <;> simp

/-! ### Formatting, opening and closing a sector (R5 to R7) -/

@[simp] theorem formatSector_halt (x c : Nat) : halt (s.formatSector x c) = halt s := by simp [State.formatSector]

@[simp] theorem formatLineReply_halt (x c : Nat) (r : Reply) : halt (s.formatLineReply x c r) = halt s := by
  unfold State.formatLineReply; split <;> simp

@[simp] theorem openHead_halt : halt s.openHead = halt s := by
  unfold State.openHead; (repeat' split) <;> simp

@[simp] theorem openRetryReply_halt (r : Reply) : halt (s.openRetryReply r) = halt s := by
  unfold State.openRetryReply; (repeat' split) <;> simp

@[simp] theorem openHeadReply_halt (x : Nat) (ring : Seq) (r : Reply) : halt (s.openHeadReply x ring r) = halt s := by
  unfold State.openHeadReply; split <;> simp

@[simp] theorem closeHead_halt : halt s.closeHead = halt s := by
  unfold State.closeHead; (repeat' split) <;> simp

@[simp] theorem closeHeadReply_halt (x : Nat) (r : Reply) : halt (s.closeHeadReply x r) = halt s := by
  unfold State.closeHeadReply; split <;> simp

/-! ### Appends and frame reads (R21 to R24, R58, R91) -/

@[simp] theorem programAttempt_halt (j : AppendJob) (x st i : Nat) : halt (s.programAttempt j x st i) = halt s := by
  simp [State.programAttempt]

@[simp] theorem appendEnds_halt (o : AppendOutcome) : halt (s.appendEnds o) = halt s := rfl

@[simp] theorem appendNewHead_halt (j : AppendJob) (floor : Bool) : halt (s.appendNewHead j floor) = halt s := by
  unfold State.appendNewHead State.appendExhausted; (repeat' split) <;> simp

@[simp] theorem placeAttempt_halt (j : AppendJob) (floor : Bool) : halt (s.placeAttempt j floor) = halt s := by
  unfold State.placeAttempt; (repeat' split) <;> simp

@[simp] theorem appendBegin_halt (j : AppendJob) : halt (s.appendBegin j) = halt s := placeAttempt_halt s j _

@[simp] theorem rewrite_halt (j : AppendJob) (x : Nat) : halt (s.rewrite j x) = halt s := by
  unfold State.rewrite; split <;> simp

@[simp] theorem appendReply_halt (j : AppendJob) (p : AppendPhase) (r : Reply) : halt (s.appendReply j p r) = halt s := by
  unfold State.appendReply State.appendExhausted; (repeat' split) <;> simp

@[simp] theorem readFrameBegin_halt (e : Entry) : halt (s.readFrameBegin e) = halt s := by simp [State.readFrameBegin]

@[simp] theorem readFrameReply_halt (e : Entry) (i : Nat) (got : List Byte) (r : Reply) :
    halt (s.readFrameReply e i got r) = halt s := by
  simp only [State.readFrameReply]; (repeat' split) <;> simp

/-! ### Compaction steps (R86 to R98) -/

@[simp] theorem stepEnds_halt (b : Bool) : halt (s.stepEnds b) = halt s := by simp [State.stepEnds]

@[simp] theorem endRound_halt : halt s.endRound = halt s := by rw [endRound_eq]; rfl

@[simp] theorem selectVictim_halt : halt s.selectVictim = halt s := by
  unfold State.selectVictim; (repeat' split) <;> simp

@[simp] theorem eraseVictim_halt (x : Nat) : halt (s.eraseVictim x) = halt s := by
  unfold State.eraseVictim; split <;> simp

@[simp] theorem copyOne_halt : halt s.copyOne = halt s := by
  unfold State.copyOne; (repeat' split) <;> simp

@[simp] theorem finishVictim_halt : halt s.finishVictim = halt s := by
  unfold State.finishVictim; (repeat' split) <;> simp

@[simp] theorem grantStep_halt : halt s.grantStep = halt s := by
  unfold State.grantStep; split <;> simp

@[simp] theorem finishRoundReply_halt (r : Reply) : halt (s.finishRoundReply r) = halt s := by
  unfold State.finishRoundReply; split <;> simp

@[simp] theorem bumpSeq_halt : halt s.bumpSeq = halt s := by
  simp only [State.bumpSeq]; split <;> simp

@[simp] theorem copyReadReply_halt (e : Entry) (r : Reply) : halt (s.copyReadReply e r) = halt s := by
  unfold State.copyReadReply; split <;> simp

@[simp] theorem copyFailed_halt (o : AppendOutcome) : halt (s.copyFailed o) = halt s := by
  unfold State.copyFailed; split <;> simp

@[simp] theorem copyAppendReply_halt (e : Entry) (r : Reply) : halt (s.copyAppendReply e r) = halt s := by
  unfold State.copyAppendReply; split <;> simp

@[simp] theorem lossAppendReply_halt (e : Entry) (q : Seq) (r : Reply) : halt (s.lossAppendReply e q r) = halt s := by
  unfold State.lossAppendReply; split <;> simp

/-! ### Completions, and the jobs that end with one (R47, R53 to R59, R62, R63, R77 to R79, R99, R100) -/

@[simp] theorem restartTimer_halt : halt s.restartTimer = halt s := by
  unfold State.restartTimer; split <;> rfl

@[simp] theorem postRecord_halt (c : Completion) : halt (s.postRecord c) = halt s := by
  simp only [State.postRecord]; split <;> rfl

@[simp] theorem post_halt (r : Request) (c : Completion) : halt (s.post r c) = halt s := by
  unfold State.post; split <;> simp

@[simp] theorem answer_halt (r : Request) (st : Status) : halt (s.answer r st) = halt s := post_halt s r _

@[simp] theorem answerAux_halt (r : Request) (st : Status) (aux : BitVec 16) : halt (s.answerAux r st aux) = halt s :=
  post_halt s r _

@[simp] theorem answerRecord_halt (r : Request) (st : Status) (v : Seq) (n : Nat) :
    halt (s.answerRecord r st v n) = halt s := post_halt s r _

@[simp] theorem turnAway_halt (r : Request) (st : Status) : halt (s.turnAway r st) = halt s := by
  unfold State.turnAway; split <;> simp

@[simp] theorem commitAppend_halt (c : CommitJob) : halt (s.commitAppend c) = halt s := by simp [State.commitAppend]

@[simp] theorem writeProceeds_halt (w : StalledWrite) : halt (s.writeProceeds w) = halt s := by
  cases w <;> simp [State.writeProceeds, State.putAppend, State.deleteAppend]

@[simp] theorem nextStepInJob_halt (t : Task) : halt (s.nextStepInJob t) = halt s := by
  unfold State.nextStepInJob; split <;> simp

@[simp] theorem enterStall_halt (w : StalledWrite) : halt (s.enterStall w) = halt s := by simp [State.enterStall]

@[simp] theorem stallTests_halt (w : StalledWrite) (reported : Bool) : halt (s.stallTests w reported) = halt s := by
  unfold State.stallTests; (repeat' split) <;> simp

@[simp] theorem stallReply_halt (w : StalledWrite) (r : Reply) : halt (s.stallReply w r) = halt s := by
  unfold State.stallReply; split <;> simp

@[simp] theorem hostPlaced_halt : halt s.hostPlaced = halt s := bumpSeq_halt s

@[simp] theorem writeFailed_halt (w : StalledWrite) (o : AppendOutcome) : halt (s.writeFailed w o) = halt s := by
  unfold State.writeFailed; split <;> simp

@[simp] theorem putReply_halt (r : Request) (p : Reply) : halt (s.putReply r p) = halt s := by
  unfold State.putReply; split <;> simp

@[simp] theorem deleteReply_halt (r : Request) (p : Reply) : halt (s.deleteReply r p) = halt s := by
  unfold State.deleteReply; split <;> simp

@[simp] theorem commitReply_halt (c : CommitJob) (p : Reply) : halt (s.commitReply c p) = halt s := by
  simp only [State.commitReply]; (repeat' split) <;> simp

@[simp] theorem getReply_halt (r : Request) (e : Entry) (p : Reply) : halt (s.getReply r e p) = halt s := by
  unfold State.getReply; split <;> simp

@[simp] theorem reclaimEnds_halt (r : Request) (st : Status) : halt (s.reclaimEnds r st) = halt s := by
  simp [State.reclaimEnds]

@[simp] theorem reclaimReply_halt (r : Request) (p : Reply) : halt (s.reclaimReply r p) = halt s := by
  unfold State.reclaimReply State.reclaimTests; (repeat' split) <;> simp

@[simp] theorem setZoneReply_halt (r : Request) (p : Reply) : halt (s.setZoneReply r p) = halt s := by
  unfold State.setZoneReply; split <;> simp

/-! ### FORMAT after its anchor write (R154 to R157) -/

@[simp] theorem formatStops_halt (r : Request) : halt (s.formatStops r) = halt s := answerAux_halt s r _ _

@[simp] theorem formatEnds_halt (r : Request) : halt (s.formatEnds r) = halt s := by
  simp only [State.formatEnds, answerAux_halt]
  exact leaveStore_halt s (by decide) (by split <;> decide)

@[simp] theorem formatNext_halt (r : Request) : halt (s.formatNext r) = halt s := by
  unfold State.formatNext State.formatOpening; (repeat' split) <;> simp

@[simp] theorem formatReadNext_halt (r : Request) (todo : List Nat) : halt (s.formatReadNext r todo) = halt s := by
  unfold State.formatReadNext; split <;> simp

@[simp] theorem formatAnchorReply_halt (r : Request) (p : Reply) : halt (s.formatAnchorReply r p) = halt s := by
  unfold State.formatAnchorReply State.formatTables; split <;> simp

@[simp] theorem formatReadReply_halt (r : Request) (x : Nat) (todo : List Nat) (p : Reply) :
    halt (s.formatReadReply r x todo p) = halt s := by
  unfold State.formatReadReply; split <;> simp

@[simp] theorem formatEraseReply_halt (r : Request) (x : Nat) (p : Reply) : halt (s.formatEraseReply r x p) = halt s := by
  unfold State.formatEraseReply; split <;> simp

@[simp] theorem formatSectorReply_halt (r : Request) (p : Reply) : halt (s.formatSectorReply r p) = halt s := by
  unfold State.formatSectorReply; split <;> simp

@[simp] theorem formatOpenReply_halt (r : Request) (p : Reply) : halt (s.formatOpenReply r p) = halt s := by
  unfold State.formatOpenReply; split <;> simp

/-! ### Mount (R125 to R138) -/

@[simp] theorem mountStops_halt : halt s.mountStops = halt s := rfl

@[simp] theorem mountEnds_halt : halt s.mountEnds = halt s := by
  simp only [State.mountEnds]
  exact leaveStore_halt _ (by decide) (by split <;> decide)

@[simp] theorem mountOpening_halt : halt s.mountOpening = halt s := by
  unfold State.mountOpening; (repeat' split) <;> simp

@[simp] theorem tidyNext_halt : halt s.tidyNext = halt s := by
  unfold State.tidyNext; (repeat' split) <;> simp

@[simp] theorem mountCloseNext_halt (todo : List Unclosed) : halt (s.mountCloseNext todo) = halt s := by
  unfold State.mountCloseNext; split <;> simp

@[simp] theorem replayEnds_halt (p : Replay) : halt (s.replayEnds p) = halt s := by simp [State.replayEnds]

@[simp] theorem scanNext_halt (p : Replay) (ended : Bool) : halt (s.scanNext p ended) = halt s := by
  simp only [State.scanNext]; (repeat' split) <;> simp

@[simp] theorem surveyNext_halt (todo : List Nat) (notes : List (Nat × SurveyNote)) : halt (s.surveyNext todo notes) = halt s := by
  simp only [State.surveyNext, State.replayBegin]; (repeat' split) <;> simp

@[simp] theorem anchorPhaseEnds_halt (a : AnchorScan) : halt (s.anchorPhaseEnds a) = halt s := by
  unfold State.anchorPhaseEnds
  split
  · exact leaveStore_halt _ (by decide) (by decide)
  · simp

@[simp] theorem mountAnchorReply_halt (a : AnchorScan) (p : Reply) : halt (s.mountAnchorReply a p) = halt s := by
  simp only [State.mountAnchorReply]; (repeat' split) <;> simp

@[simp] theorem mountSurveyReply_halt (x : Nat) (read : List Line) (todo : List Nat) (notes : List (Nat × SurveyNote)) (p : Reply) :
    halt (s.mountSurveyReply x read todo notes p) = halt s := by
  unfold State.mountSurveyReply; (repeat' split) <;> simp

@[simp] theorem mountReplayReply_halt (q : Replay) (p : Reply) : halt (s.mountReplayReply q p) = halt s := by
  unfold State.mountReplayReply; split <;> simp

@[simp] theorem mountCloseReply_halt (u : Unclosed) (todo : List Unclosed) (p : Reply) :
    halt (s.mountCloseReply u todo p) = halt s := by
  unfold State.mountCloseReply; split <;> simp

@[simp] theorem mountEraseReply_halt (x : Nat) (p : Reply) : halt (s.mountEraseReply x p) = halt s := by
  unfold State.mountEraseReply; split <;> simp

@[simp] theorem mountSectorReply_halt (p : Reply) : halt (s.mountSectorReply p) = halt s := by
  unfold State.mountSectorReply; split <;> simp

@[simp] theorem mountOpenReply_halt (p : Reply) : halt (s.mountOpenReply p) = halt s := by
  unfold State.mountOpenReply; split <;> simp

@[simp] theorem mountWarned_halt : halt s.mountWarned = halt s := by
  unfold State.mountWarned; split <;> simp

/-! ### Internal moves -/

/-- The task on top goes on with its reply. -/
@[simp] theorem resume_halt (t : Task) (r : Reply) : halt (s.resume t r) = halt s := by
  cases t with
  | retire x => simp only [State.resume]; split <;> simp
  | _ => simp [State.resume]

variable {s}

/-- One internal move. -/
theorem move_halt {t : State} (h : s.move = some t) : halt t = halt s := by
  unfold State.move at h
  split at h
  · cases h; simp
  · cases h; rfl
  · unfold State.startPending at h
    split at h
    · cases h
    · split at h
      · cases h; simp
      · cases h

/-- All internal moves of a command. -/
@[simp] theorem settle_halt : halt s.settle = halt s :=
  State.settle_keeps (P := fun t => halt t = halt s) (fun _ _ h hm => (move_halt hm).trans h) rfl

end Sys2Proof.Certificates
end


-- ==== Sys2Proof/Proofs/HaltedUntilReset.lean ====
section
/-! A HALTED store stays HALTED over every step that is not a reset (R42, R44): no internal move leaves HALTED, of the requests only
GET, NEXT and INFO are served, no compaction step is granted, and mount does not begin. -/

namespace Sys2Proof.Certificates

open Sys2Proof Sys2Proof.Machine

/-- An operation on the state leaves a HALTED store HALTED. -/
def KeepsHalted (f : State → State) : Prop := ∀ s : State, s.engine.store = .halted → (f s).engine.store = .halted

/-- What leaves the halt of a part leaves a HALTED store HALTED. -/
theorem KeepsHalted.of_halt {f : State → State} (h : ∀ s, halt (f s) = halt s) : KeepsHalted f :=
  fun s hs => by rw [← halt_store, h s, halt_store]; exact hs

/-- What leaves the record engine leaves a HALTED store HALTED. -/
theorem KeepsHalted.of_engine {f : State → State} (h : ∀ s, (f s).engine = s.engine) : KeepsHalted f :=
  fun s hs => by rw [h s]; exact hs

/-- The internal moves of a command. -/
theorem settle_keepsHalted : KeepsHalted State.settle := .of_halt fun _ => settle_halt

/-! ### Requests that are taken (R45) -/

/-- In HALTED only GET, NEXT and INFO without IN_TXN pass the state test. -/
theorem stateTest_halted {complete : Bool} {r : Request} (h : stateTest .halted complete r = none) :
    (r.kind = kGet ∨ r.kind = kNext ∨ r.kind = kInfo) ∧ r.inTxn = false := by
  have hc : (complete && (r.kind == kGet || r.kind == kNext || r.kind == kInfo) && !r.inTxn) = true := by
    by_contra hc
    simp only [stateTest, if_neg hc, reduceCtorEq] at h
  simp only [Bool.and_eq_true, Bool.or_eq_true, beq_iff_eq, Bool.not_eq_true', or_assoc] at hc
  exact ⟨hc.1.2, hc.2⟩

/-- The kinds of a row that are served in HALTED have bodies that leave the halt. -/
def ServedKeepsHalt (isRow : Request → Bool) (body : Request → State → State) : Prop :=
  ∀ r s, isRow r = true → r.kind = kGet ∨ r.kind = kNext ∨ r.kind = kInfo → r.inTxn = false → halt (body r s) = halt s

/-- A row none of whose requests is served in HALTED. -/
theorem servedKeepsHalt_of_kind {kind : Byte} (h : kind ∉ [kGet, kNext, kInfo])
    {isRow : Request → Bool} (hrow : ∀ r, isRow r = true → r.kind = kind) (body : Request → State → State) :
    ServedKeepsHalt isRow body := by
  intro r s hr hk
  rw [hrow r hr] at hk
  exact absurd (by simpa using hk) h

/-- A row of a kind that is not served in HALTED. -/
theorem servedKeepsHalt_isKind {kind : Byte} (h : kind ∉ [kGet, kNext, kInfo]) (body : Request → State → State) :
    ServedKeepsHalt (isKind kind) body :=
  servedKeepsHalt_of_kind h (fun _ => beq_iff_eq.1) body

/-- A plain row of a kind that is not served in HALTED. -/
theorem servedKeepsHalt_isPlain {kind : Byte} (h : kind ∉ [kGet, kNext, kInfo]) (body : Request → State → State) :
    ServedKeepsHalt (isPlain kind) body :=
  servedKeepsHalt_of_kind h (fun _ hr => beq_iff_eq.1 (Bool.and_eq_true_iff.1 hr).1) body

/-- A row of requests that carry IN_TXN. -/
theorem servedKeepsHalt_isInTxn (kind : Byte) (body : Request → State → State) : ServedKeepsHalt (isInTxn kind) body := by
  intro r s hr _ ht
  simp [isInTxn, ht] at hr

/-- A row whose bodies leave the halt. -/
theorem servedKeepsHalt_of_body (isRow : Request → Bool) {body : Request → State → State}
    (h : ∀ r s, halt (body r s) = halt s) : ServedKeepsHalt isRow body := fun r s _ _ _ => h r s

/-- A GET, a NEXT and an INFO leave the halt. -/
theorem getBody_halt (r : Request) (s : State) : halt (getBody r s) = halt s := by
  unfold getBody committedGet; (repeat' split) <;> simp

theorem nextBody_halt (r : Request) (s : State) : halt (nextBody r s) = halt s := by
  unfold nextBody; split <;> simp

theorem infoBody_halt (r : Request) (s : State) : halt (infoBody r s) = halt s := post_halt s r _

/-- A taken request's checks and, when it is served, its kind's body leave the halt of a HALTED store. -/
theorem checked_halt {isRow : Request → Bool} {body : Request → State → State} (hb : ServedKeepsHalt isRow body) {r : Request}
    (hr : isRow r = true) {s : State} (hs : s.engine.store = .halted) : halt (s.checked r body) = halt s := by
  have hstop : halt (if r.isTxnRequest then s.stopTimer else s) = halt s := by split <;> simp
  have hstore : (if r.isTxnRequest then s.stopTimer else s).engine.store = .halted := by split <;> exact hs
  simp only [State.checked]
  cases htest : stateTest (if r.isTxnRequest then s.stopTimer else s).engine.store
    (if r.isTxnRequest then s.stopTimer else s).engine.dir.complete r with
  | some st => simp only [turnAway_halt, hstop]
  | none =>
    rw [hstore] at htest
    obtain ⟨hk, ht⟩ := stateTest_halted htest
    simp only
    split
    · rw [hb r _ hr hk ht, hstop]
    · rw [turnAway_halt, hstop]

/-- A request that is taken in a HALTED store, until its job waits or ends. -/
theorem taking_keepsHalted {isRow : Request → Bool} {body : Request → State → State} (hb : ServedKeepsHalt isRow body) :
    KeepsHalted (·.taking isRow body) := by
  intro s hs
  refine settle_keepsHalted _ ?_
  have hkept : halt (s.takeFront isRow body) = halt s := by
    unfold State.takeFront State.takeRequest
    split
    · rfl
    · rename_i r rest _
      split
      · rename_i hrow
        have hr : isRow r = true := (Bool.and_eq_true_iff.1 hrow).2
        simp only
        split
        · split
          · rw [answer_halt]; rfl
          · rw [checked_halt hb hr (by exact hs)]; rfl
        · rw [checked_halt hb hr (by exact hs)]; rfl
      · rfl
  rw [← halt_store, hkept, halt_store]
  exact hs

/-! ### Compaction steps and mount (R84, R124) -/

/-- The compactor asks for no step in a HALTED store. -/
theorem canGrant_halted {s : State} (hs : s.engine.store = .halted) : s.canGrant = false :=
  canGrant_eq_false (.inr (.inr (by simp [State.asksForStep, hs])))

/-- No step is granted in a HALTED store. -/
theorem granting_keepsHalted (stage : Stage) (f : State → State) : KeepsHalted (·.granting stage f) := fun s hs => by
  simp only [granting_of_not (.inl (canGrant_halted hs))]; exact hs

/-- Mount does not begin in a HALTED store. -/
theorem mountCanBegin_halted {s : State} (hs : s.engine.store = .halted) : s.mountCanBegin = false := by
  simp [State.mountCanBegin, hs]

/-! ### Bus accesses but for the soft reset (R171 to R176) -/

theorem submit_keepsHalted : KeepsHalted State.submit :=
  .of_engine fun s => by unfold State.submit; (repeat' split) <;> rfl

theorem popHead_keepsHalted : KeepsHalted State.popHead :=
  .of_engine fun s => by unfold State.popHead; split <;> rfl

theorem rewindHead_keepsHalted : KeepsHalted State.rewindHead :=
  .of_engine fun s => by unfold State.rewindHead; split <;> rfl

theorem fillByte_keepsHalted (b : Byte) : KeepsHalted (·.fillByte b) :=
  .of_engine fun s => by unfold State.fillByte; split <;> rfl

/-- CONTROL with a value other than the soft reset's. -/
theorem control_keepsHalted {v : Byte} (hv : v ≠ 0xA5) : KeepsHalted (·.control v) := fun s hs => by
  simp only [State.control, if_neg hv]
  (repeat' split)
  · exact submit_keepsHalted s hs
  · exact popHead_keepsHalted s hs
  · exact hs
  · exact rewindHead_keepsHalted s hs
  · exact hs

/-- A register write that is not the soft reset's. -/
theorem busWrite_keepsHalted {a : BitVec 6} {v : Byte} (h : (Instr.registerWrite a v).resets = false) :
    KeepsHalted (·.busWrite a v) := fun s hs => by
  simp only [State.busWrite]
  split
  case h_3 ha =>
    have ha : a = 0x07 := BitVec.eq_of_toNat_eq ha
    have hv : v ≠ 0xA5 := by rintro rfl; simp [Instr.resets, ha] at h
    exact control_keepsHalted hv s hs
  case h_16 => exact fillByte_keepsHalted v s hs
  all_goals exact hs

/-! ### The timers and the warning (R73, R109, R118) -/

theorem timerExpires_keepsHalted : KeepsHalted State.timerExpires := fun s hs => by
  unfold State.timerExpires; split <;> exact hs

/-- The end of the erase in flight and what follows from it. -/
theorem eraseEnds_keepsHalted (passed : Bool) : KeepsHalted (fun s => (s.eraseEnds passed).settle) := fun s hs =>
  settle_keepsHalted _ (by rw [eraseEnds_engine]; exact hs)

/-- One tick. -/
theorem tick_keepsHalted : KeepsHalted State.tick := fun s hs => by
  have htimer : s.tickTimer.engine.store = .halted := by
    unfold State.tickTimer
    (repeat' split)
    · exact timerExpires_keepsHalted s hs
    · exact hs
    · exact hs
  simp only [State.tick, State.tickErase]
  (repeat' split)
  · exact eraseEnds_keepsHalted false _ htimer
  · exact htimer
  · exact htimer
  · exact htimer
  · exact hs

/-- The warning makes any store HALTED. -/
theorem takeWarning_halted (s : State) : s.takeWarning.engine.store = .halted := by
  have hwarned : ((s.setStore .halted).dropTxn).sequencerWarning.engine.store = .halted := by
    simp only [sequencerWarning_engine, State.dropTxn_engine]
    unfold State.setStore
    split
    · assumption
    · rfl
  refine settle_keepsHalted _ ?_
  split
  · exact KeepsHalted.of_halt mountWarned_halt _ hwarned
  · exact KeepsHalted.of_halt wakeWaiting_halt _ hwarned

/-! ### Commands -/

/-- A command that answers one next state. -/
theorem halted_of_next {u t : State} (h : (.next u : Result) = .next t) (hu : u.engine.store = .halted) :
    t.engine.store = .halted := by cases h; exact hu

/-- A write access. -/
theorem onBus_halted {f : State → State} {s t : State} (hx : s.onBus f = .next t) (hs : s.engine.store = .halted)
    (hf : KeepsHalted f) : t.engine.store = .halted := by
  refine halted_of_next hx ?_
  split
  · exact hf s hs
  · exact hs

/-- Every command that is not a reset leaves a HALTED store HALTED. -/
theorem exec_keeps_halted {c : Instr} (hc : c.resets = false) {s t : State} (hs : s.engine.store = .halted)
    (hx : exec c s = .next t) : t.engine.store = .halted := by
  have taken {isRow : Request → Bool} {body : Request → State → State} (hb : ServedKeepsHalt isRow body) :=
    taking_keepsHalted hb s hs
  have unserved {kind : Byte} (h : kind ∉ [kGet, kNext, kInfo]) (body : Request → State → State) :=
    taken (servedKeepsHalt_isKind h body)
  have plainUnserved {kind : Byte} (h : kind ∉ [kGet, kNext, kInfo]) (body : Request → State → State) :=
    taken (servedKeepsHalt_isPlain h body)
  cases c with
  | softReset | rstAsserted | powerOn | powerLoss => cases hc
  | go => exact onBus_halted hx hs submit_keepsHalted
  | pop => exact onBus_halted hx hs popHead_keepsHalted
  | rewind => exact onBus_halted hx hs rewindHead_keepsHalted
  | writeData b => exact onBus_halted (f := (·.fillByte b)) hx hs (fillByte_keepsHalted b)
  | clearFill => exact onBus_halted (f := (·.clearFill)) hx hs (.of_engine fun _ => rfl)
  | eventStatus v => exact onBus_halted (f := (·.clearEvents v)) hx hs (.of_engine fun _ => rfl)
  | eventEnable v => exact onBus_halted (f := (·.setEnables v)) hx hs (.of_engine fun _ => rfl)
  | lowWater v => exact onBus_halted (f := (·.setLowWater v)) hx hs (.of_engine fun _ => rfl)
  | registerWrite a v => exact onBus_halted (f := (·.busWrite a v)) hx hs (busWrite_keepsHalted hc)
  | readData =>
    simp only [exec, execReadData] at hx
    (repeat' split at hx) <;> exact halted_of_next hx hs
  | captureLatch r =>
    simp only [exec, execCaptureLatch] at hx
    split at hx
    · exact halted_of_next hx (by cases r <;> exact hs)
    · exact halted_of_next hx hs
  | put => exact halted_of_next hx (plainUnserved (by decide) putBody)
  | delete => exact halted_of_next hx (plainUnserved (by decide) deleteBody)
  | get => exact halted_of_next hx (taken (servedKeepsHalt_of_body _ getBody_halt))
  | next => exact halted_of_next hx (taken (servedKeepsHalt_of_body _ nextBody_halt))
  | info => exact halted_of_next hx (taken (servedKeepsHalt_of_body _ infoBody_halt))
  | inTxnPut => exact halted_of_next hx (taken (servedKeepsHalt_isInTxn kPut inTxnPutBody))
  | inTxnDelete => exact halted_of_next hx (taken (servedKeepsHalt_isInTxn kDelete inTxnDeleteBody))
  | inTxnGet => exact halted_of_next hx (taken (servedKeepsHalt_isInTxn kGet inTxnGetBody))
  | beginTxn => exact halted_of_next hx (unserved (by decide) beginBody)
  | commit => exact halted_of_next hx (unserved (by decide) commitBody)
  | abandon => exact halted_of_next hx (unserved (by decide) abandonBody)
  | reclaim => exact halted_of_next hx (unserved (by decide) reclaimBody)
  | unlock => exact halted_of_next hx (unserved (by decide) unlockBody)
  | lock => exact halted_of_next hx (unserved (by decide) lockBody)
  | setCode => exact halted_of_next hx (unserved (by decide) setCodeBody)
  | setPolicy => exact halted_of_next hx (unserved (by decide) setPolicyBody)
  | format => exact halted_of_next hx (unserved (by decide) formatBody)
  | kindNamingNoKind => exact halted_of_next hx (taken (servedKeepsHalt_of_body _ fun r s => answer_halt s r _))
  | selectStep => exact halted_of_next hx (granting_keepsHalted _ _ s hs)
  | copyStep => exact halted_of_next hx (granting_keepsHalted _ _ s hs)
  | finishingStep => exact halted_of_next hx (granting_keepsHalted _ _ s hs)
  | eraseStep =>
    refine halted_of_next hx ?_
    split
    · exact granting_keepsHalted _ _ s hs
    · exact hs
  | lineReadDone => exact halted_of_next hx (settle_keepsHalted _ (by rw [lineReadEnds_engine]; exact hs))
  | lineProgramDone v => exact halted_of_next hx (settle_keepsHalted _ (by rw [lineProgramEnds_engine]; exact hs))
  | programTimeout => exact halted_of_next hx (settle_keepsHalted _ (by rw [programTimesOut_engine]; exact hs))
  | eraseDone passed => exact halted_of_next hx (eraseEnds_keepsHalted passed s hs)
  | eraseTimeLimit => exact halted_of_next hx (eraseEnds_keepsHalted false s hs)
  | idleTimerExpiry => exact halted_of_next hx (timerExpires_keepsHalted s hs)
  | pfwAsserted =>
    simp only [exec, execPfwAsserted] at hx
    split at hx
    · exact halted_of_next hx (takeWarning_halted _)
    · exact halted_of_next hx hs
  | pfwDeasserted | rstDeasserted => exact halted_of_next hx hs
  | mount =>
    refine halted_of_next hx ?_
    rw [mountCanBegin_halted hs]
    exact hs
  | arrayOwnLoss x l =>
    simp only [exec, execArrayOwnLoss] at hx
    split at hx
    · exact halted_of_next hx (by rw [ownLoss_engine]; exact hs)
    · cases hx

/-- Settles O59: a tick and every command that is not a reset leave a HALTED store HALTED. -/
theorem haltedUntilReset : Obligations.HaltedUntilReset := by
  intro s t hs hc hstep
  unfold step at hstep
  split at hstep
  · exact halted_of_next hstep (tick_keepsHalted s hs)
  · rename_i c rest hp
    exact exec_keeps_halted (hc c (by rw [hp]; rfl)) (s := { s with pending := rest }) hs hstep

end Sys2Proof.Certificates
end


-- ==== Sys2Proof/Proofs/PowerFail.lean ====
section
/-! The power-fail warning (R44, R81, R118, R119, R139): what it makes of the store, the sequencer and a mount in progress, and
when it is not taken. -/

namespace Sys2Proof.Certificates

open Sys2Proof Sys2Proof.Machine

/-! ### When the warning is taken (R118) -/

/-- The state once PFW# has changed to asserted. -/
def pfwChanged (s : State) : State := { s with pins := { s.pins with pfwAsserted := true } }

/-- The warning is taken at the change of PFW# outside a reset, while the halted flag is clear. -/
theorem exec_pfwAsserted_taken {s : State} (hp : s.pins.powered = true) (hr : s.resetInProgress = false)
    (hpfw : s.pins.pfwAsserted = false) (hh : s.seq.halted = false) :
    exec .pfwAsserted s = .next (pfwChanged s).takeWarning := by
  simp only [exec, execPfwAsserted]
  rw [if_pos (by simp only [hp, hr, hpfw, hh, Bool.not_false, Bool.and_self])]
  rfl

/-- In a reset, or with the halted flag set, only the pin changes. -/
theorem exec_pfwAsserted_ignored {s : State} (h : s.resetInProgress = true ∨ s.seq.halted = true) :
    exec .pfwAsserted s = .next (pfwChanged s) := by
  rcases h with h | h <;>
    simp only [exec, execPfwAsserted, h, Bool.not_true, Bool.and_false, Bool.false_and, Bool.false_eq_true, if_false] <;> rfl

/-! ### What it does to the store (R44, R81) -/

/-- The store is HALTED and an open transaction is dropped; the expired mark stays. -/
def storeHalted (s : State) : State :=
  { s with
    engine := { s.engine with store := .halted, txn := { s.engine.txn with openTxn := none, timer := .stopped } },
    window := if s.engine.store = .halted then s.window else { s.window with events := s.window.events ||| 0x20 } }

/-- The store takes the warning. -/
theorem setStore_halted_dropTxn (s : State) : (s.setStore .halted).dropTxn = storeHalted s := by
  unfold State.setStore storeHalted
  split
  · rename_i h
    simp only [State.dropTxn, h]
  · rfl

/-- A store that was not HALTED raises STATE_CHANGED. -/
theorem storeHalted_of_not {s : State} (h : s.engine.store ≠ .halted) :
    storeHalted s = { s with
      engine := { s.engine with store := .halted, txn := { s.engine.txn with openTxn := none, timer := .stopped } },
      window := { s.window with events := s.window.events ||| 0x20 } } := by
  rw [storeHalted, if_neg h]

/-- The warning stops a mount in progress. -/
theorem takeWarning_of_mountRunning {s : State} (h : s.mountRunning = true) :
    s.takeWarning = (storeHalted s).sequencerWarning.mountWarned.settle := by
  simp only [State.takeWarning, setStore_halted_dropTxn, h, if_true]

/-- Without a mount in progress the warning wakes a stall or RECLAIM that waits. -/
theorem takeWarning_of_no_mount {s : State} (h : s.mountRunning = false) :
    s.takeWarning = (storeHalted s).sequencerWarning.wakeWaiting.settle := by
  simp only [State.takeWarning, setStore_halted_dropTxn, h, Bool.false_eq_true, if_false]

/-- Mount runs while the store is MOUNTING with a task that waits. -/
theorem mountRunning_eq_true {s : State} (hm : s.engine.store = .mounting) (hs : s.ctl.stack ≠ []) : s.mountRunning = true := by
  simp only [State.mountRunning, hm, decide_true, List.isEmpty_eq_false_iff.2 hs, Bool.not_false, Bool.and_self]

/-- In another store, or without a task, no mount runs. -/
theorem mountRunning_eq_false {s : State} (h : s.engine.store ≠ .mounting ∨ s.ctl.stack = []) : s.mountRunning = false := by
  rcases h with h | h <;> simp [State.mountRunning, h]

/-! ### What it does to the sequencer (R118, R119) -/

/-- The sequencer with the halted flag set and no erase pending, its operation in hand as it was. -/
def sequencerHalted (q : Sequencer) : Sequencer := { q with halted := true, pending := none, state := q.afterWarning }

/-- An erase that is abandoned leaves no erase in flight. -/
theorem abandonErase_erase (s : State) : s.abandonErase.seq.erase = none := by
  unfold State.abandonErase
  split
  · assumption
  · rfl

/-- The warning leaves the sequencer halted without an erase, and the record engine as it was. -/
theorem sequencerWarning_halt (s : State) : halt s.sequencerWarning =
    haltOf s.engine.store s.engine.txn.openTxn s.engine.txn.expired true none := by
  unfold State.sequencerWarning
  simp only [serveWaiting_halt]
  have hbase : halt { s.abandonErase with
      seq := { s.abandonErase.seq with halted := true, pending := none, state := s.abandonErase.seq.afterWarning } } =
      haltOf s.engine.store s.engine.txn.openTxn s.engine.txn.expired true none := by
    rw [halt_mk, abandonErase_engine, abandonErase_erase]
  (repeat' split) <;> simp only [deliverErase_halt, hbase]

/-- The warning leaves the pins. -/
theorem sequencerWarning_pins (s : State) : s.sequencerWarning.pins = s.pins := by
  unfold State.sequencerWarning
  have hbase : s.abandonErase.pins = s.pins := congrArg Kept.pins (State.abandonErase_kept s)
  have hdeliver (t : State) (b : Bool) (o : EraseOutcome) : (t.deliverErase b o).pins = t.pins :=
    congrArg Kept.pins (State.deliverErase_kept t b o)
  refine (congrArg Kept.pins (State.serveWaiting_kept _)).trans (Eq.trans ?_ hbase)
  (repeat' split) <;> simp only [State.kept, hdeliver]

/-- With no erase in flight and no operation waiting, the warning sets the halted flag. -/
theorem sequencerWarning_of_idle {s : State} (he : s.seq.erase = none) (hp : s.seq.pending = none) (hw : s.seq.waiting = none) :
    s.sequencerWarning = { s with seq := sequencerHalted s.seq } := by
  simp only [State.sequencerWarning, he, hp, State.abandonErase, State.serveWaiting, hw, sequencerHalted]

/-- The state once the erase `e` in flight has been abandoned and the halted flag set, before its outcome is delivered (R110). -/
def eraseAbandoned (s : State) (e : EraseRec) : State :=
  { s with
    seq := { sequencerHalted s.seq with
      cells := replaceSector s.seq.cells e.sector (abandonedLine s.freeCtr), erase := none },
    freeCtr := s.freeCtr + 1 }

/-- An erase's outcome leaves the sequencer. -/
theorem deliverErase_seq (s : State) (b : Bool) (o : EraseOutcome) : (s.deliverErase b o).seq = s.seq := by
  have hwake (t : State) : t.wakeWaiting.seq = t.seq := by unfold State.wakeWaiting; split <;> rfl
  unfold State.deliverErase
  split
  · rw [hwake]
    unfold State.compactorErased
    (repeat' split) <;> rfl
  · rfl

/-- Without an operation waiting there is none to serve. -/
theorem serveWaiting_of_none {s : State} (h : s.seq.waiting = none) : s.serveWaiting = s := by
  simp only [State.serveWaiting, h]

/-- With an erase in flight and nothing else, the warning abandons it and delivers its outcome. -/
theorem sequencerWarning_of_erase {s : State} {e : EraseRec} (he : s.seq.erase = some e) (hp : s.seq.pending = none)
    (hw : s.seq.waiting = none) :
    s.sequencerWarning = (eraseAbandoned s e).deliverErase e.background .abandoned := by
  have hserve : ((eraseAbandoned s e).deliverErase e.background .abandoned).serveWaiting =
      (eraseAbandoned s e).deliverErase e.background .abandoned :=
    serveWaiting_of_none (by rw [deliverErase_seq]; exact hw)
  rw [← hserve]
  simp only [State.sequencerWarning, he, hp, State.abandonErase]
  rfl

/-- The lines after an erase that ended FAIL or ABANDONED (R109, R110). -/
theorem failedErase_of_cells {s t : State} {x n : Nat}
    (h : t.seq.cells = replaceSector s.seq.cells x (abandonedLine n)) : FailedErase s t x := by
  have hin (l : Nat) (hl : l < 256) : t.lineAt x l = abandonedLine n l := by
    rw [State.lineAt, h, readCell_replaceSector_in _ _ _ _ hl]
  refine ⟨?_, fun l hl => ?_, fun y l hy hl => ?_⟩
  · rw [hin 0 (by decide), abandonedLine, if_pos (.inl rfl)]
  · rw [hin l hl, abandonedLine]
    split
    · exact .inr rfl
    · exact .inl rfl
  · rw [State.lineAt, h, readCell_replaceSector_out _ _ _ _ (by simp only [lineAddr]; omega)]
    rfl

/-! ### The warning as a whole -/

/-- Mount that stops has no task left, and nothing moves. -/
theorem settle_mountWarned {s : State} (hr : retiringSector s.ctl.stack = none) (hp : s.seq.pending = none) :
    s.mountWarned.settle = { s with
      ctl := { stack := [], reply := none },
      seq := { s.seq with delivers := s.seq.inHand.isNone, waiting := none } } := by
  simp only [State.mountWarned, hr]
  exact settle_of_idle (s := { s with
    ctl := { stack := [], reply := none },
    seq := { s.seq with delivers := s.seq.inHand.isNone, waiting := none } }) rfl hp

/-- The halt of a part that has taken the warning: a HALTED store without a transaction, its expired mark as it was, and a halted
sequencer without an erase in flight. -/
theorem takeWarning_halt (s : State) :
    halt s.takeWarning = haltOf .halted none s.engine.txn.expired true none := by
  unfold State.takeWarning
  rw [setStore_halted_dropTxn, settle_halt]
  split
  · rw [mountWarned_halt, sequencerWarning_halt]; rfl
  · rw [wakeWaiting_halt, sequencerWarning_halt]; rfl

/-- The warning leaves the pins. -/
theorem takeWarning_pins (s : State) : s.takeWarning.pins = s.pins := by
  unfold State.takeWarning
  rw [setStore_halted_dropTxn]
  refine (congrArg Kept.pins (State.settle_kept _)).trans ?_
  split
  · exact (congrArg Kept.pins (State.mountWarned_kept _)).trans (sequencerWarning_pins _)
  · exact (congrArg Kept.pins (State.wakeWaiting_kept _)).trans (sequencerWarning_pins _)

/-- Settles O16: what every warning leaves, and the whole state after a warning that meets nothing in flight, a mount with an
operation in hand, or a mount with an erase in flight. -/
theorem powerFailHalts : Obligations.PowerFailHalts := by
  refine ⟨fun s hp hr hpfw hh => ?any, fun s hp hr hpfw hh hctl hhand he hpend hw hs => ?idle,
    fun s h => exec_pfwAsserted_ignored h,
    fun s op hp hr hpfw hh hm hstack hreply hhand he hpend hw hret => ?operation,
    fun s e hp hr hpfw hh hm hstack hreply hhand he hb hpend hw hret => ?erase⟩
  case any =>
    have hhalt := takeWarning_halt (pfwChanged s)
    obtain ⟨hstore, hopen, hexp⟩ := halt_txn.1 (congrArg Halt.txn hhalt)
    obtain ⟨hhalted, herase⟩ := (halt_quiet _).1 (congrArg Halt.quiet hhalt)
    exact ⟨_, exec_pfwAsserted_taken hp hr hpfw hh, hstore, hhalted, herase, hopen, hexp, takeWarning_pins _⟩
  case idle =>
    have hmount : (pfwChanged s).mountRunning = false :=
      mountRunning_eq_false (.inr (congrArg Control.stack hctl))
    rw [exec_pfwAsserted_taken hp hr hpfw hh, takeWarning_of_no_mount hmount, storeHalted_of_not (by exact hs),
      sequencerWarning_of_idle (by exact he) (by exact hpend) (by exact hw)]
    have hstate : s.seq.afterWarning = .halted := by simp only [Sequencer.afterWarning, hhand]
    simp only [State.wakeWaiting, sequencerHalted, pfwChanged, hctl, hstate, hpend]
    exact congrArg _ (settle_of_idle rfl rfl)
  case operation =>
    have hmount : (pfwChanged s).mountRunning = true := mountRunning_eq_true hm hstack
    rw [exec_pfwAsserted_taken hp hr hpfw hh, takeWarning_of_mountRunning hmount,
      storeHalted_of_not (by rw [show (pfwChanged s).engine.store = .mounting from hm]; decide),
      sequencerWarning_of_idle (by exact he) (by exact hpend) (by exact hw), settle_mountWarned (by exact hret) rfl]
    have hstate : s.seq.afterWarning = if op.isProgram then .programming else .halted := by
      simp only [Sequencer.afterWarning, hhand]; cases op <;> rfl
    simp only [sequencerHalted, pfwChanged, hhand, hstate, hpend, hw, Option.isNone_some]
  case erase =>
    have hmount : (pfwChanged s).mountRunning = true := mountRunning_eq_true hm hstack
    have hstate : s.seq.afterWarning = .halted := by simp only [Sequencer.afterWarning, hhand]
    refine ⟨_, exec_pfwAsserted_taken hp hr hpfw hh, ?_⟩
    rw [takeWarning_of_mountRunning hmount,
      storeHalted_of_not (by rw [show (pfwChanged s).engine.store = .mounting from hm]; decide),
      sequencerWarning_of_erase (by exact he) (by exact hpend) (by exact hw), hb]
    simp only [State.deliverErase, Bool.false_eq_true, if_false]
    rw [settle_mountWarned (by exact hret) rfl]
    refine ⟨failedErase_of_cells (n := s.freeCtr) rfl, ?_⟩
    simp only [eraseAbandoned, sequencerHalted, pfwChanged, hhand, hstate, hpend, hw, State.ret, Option.isNone_none]

end Sys2Proof.Certificates
end


-- ==== Sys2Proof/Proofs/Requests.lean ====
section
/-! What turns a request away before its kind's own checks, the state test and the form check (R45, R46); and the kinds that are
answered at once from the state, NEXT and INFO (R60, R61). -/

namespace Sys2Proof.Certificates

open Sys2Proof Sys2Proof.Machine

/-! ### The row of a request -/

/-- The kind codes that name a kind. -/
def kindCodes : List Byte := [1, 2, 3, 4, 5, 6, 7, 8, 9, 10, 11, 12, 13, 14]

/-- A kind code other than these names no kind. -/
theorem unnamed_of_not_mem : ∀ k : Byte, k ∉ kindCodes → (decide (1 ≤ k) && decide (k ≤ 14)) = false := by
  decide

/-- The command of a request's row takes the requests of that row. -/
theorem exec_rowOf (r : Request) : ∃ isRow body, isRow r = true ∧ ∀ s, exec (rowOf r) s = .next (s.taking isRow body) := by
  have row {c : Instr} {isRow : Request → Bool} {body : Request → State → State} (hc : rowOf r = c) (hr : isRow r = true)
      (hx : ∀ s, exec c s = .next (s.taking isRow body)) :
      ∃ isRow body, isRow r = true ∧ ∀ s, exec (rowOf r) s = .next (s.taking isRow body) :=
    ⟨isRow, body, hr, fun s => by rw [hc, hx]⟩
  by_cases hk : r.kind ∈ kindCodes
  · have inTxnRow {kind : Byte} (hk : r.kind = kind) (ht : r.inTxn = true) : isInTxn kind r = true := by
      simp only [isInTxn, hk, ht, beq_self_eq_true, Bool.and_self]
    have kindRow {kind : Byte} (hk : r.kind = kind) : isKind kind r = true := beq_iff_eq.2 hk
    simp only [kindCodes, List.mem_cons, List.not_mem_nil, or_false] at hk
    rcases hk with hk | hk | hk | hk | hk | hk | hk | hk | hk | hk | hk | hk | hk | hk
    · cases ht : r.inTxn
      · exact row (c := .put) (by simp [rowOf, hk, ht]) (isPlain_of hk ht) fun _ => rfl
      · exact row (c := .inTxnPut) (by simp [rowOf, hk, ht]) (inTxnRow hk ht) fun _ => rfl
    · cases ht : r.inTxn
      · exact row (c := .get) (by simp [rowOf, hk, ht]) (isPlain_of hk ht) fun _ => rfl
      · exact row (c := .inTxnGet) (by simp [rowOf, hk, ht]) (inTxnRow hk ht) fun _ => rfl
    · cases ht : r.inTxn
      · exact row (c := .delete) (by simp [rowOf, hk, ht]) (isPlain_of hk ht) fun _ => rfl
      · exact row (c := .inTxnDelete) (by simp [rowOf, hk, ht]) (inTxnRow hk ht) fun _ => rfl
    · exact row (c := .next) (by simp [rowOf, hk]) (kindRow hk) fun _ => rfl
    · exact row (c := .beginTxn) (by simp [rowOf, hk]) (kindRow hk) fun _ => rfl
    · exact row (c := .commit) (by simp [rowOf, hk]) (kindRow hk) fun _ => rfl
    · exact row (c := .abandon) (by simp [rowOf, hk]) (kindRow hk) fun _ => rfl
    · exact row (c := .reclaim) (by simp [rowOf, hk]) (kindRow hk) fun _ => rfl
    · exact row (c := .info) (by simp [rowOf, hk]) (kindRow hk) fun _ => rfl
    · exact row (c := .unlock) (by simp [rowOf, hk]) (kindRow hk) fun _ => rfl
    · exact row (c := .lock) (by simp [rowOf, hk]) (kindRow hk) fun _ => rfl
    · exact row (c := .setCode) (by simp [rowOf, hk]) (kindRow hk) fun _ => rfl
    · exact row (c := .setPolicy) (by simp [rowOf, hk]) (kindRow hk) fun _ => rfl
    · exact row (c := .format) (by simp [rowOf, hk]) (kindRow hk) fun _ => rfl
  · have hnone : r.namesKind = false := unnamed_of_not_mem r.kind hk
    simp only [kindCodes, List.mem_cons, List.not_mem_nil, or_false, not_or] at hk
    exact row (c := .kindNamingNoKind) (isRow := fun r => !r.namesKind) (by simp only [rowOf, hk, if_false]) (by rw [hnone]; rfl)
      fun _ => rfl

/-! ### Requests that are turned away (R45, R46, R100) -/

section
variable {s : State} {r : Request}

/-- A taken request that is turned away completes at once. -/
theorem settle_turnAway (h : Takes s r) (st : Status) :
    ((taken s r).turnAway r st).settle = completes (taken s r) r (turnedAway s r st) := by
  rw [turnAway_eq_post, settle_answer h]
  rfl

/-- A request that fails the state test completes with the state's status. -/
theorem taking_fails_state (h : Unchained s r) {st : Status}
    (ht : stateTest s.engine.store s.engine.dir.complete r = some st) {isRow : Request → Bool} (hr : isRow r = true)
    (body : Request → State → State) :
    s.taking isRow body = completes (taken s r) r (turnedAway s r st) := by
  rw [taking_of_takes h.1 _ _ hr, takeRequest_of_unchained h]
  simp only [ht]
  exact settle_turnAway h.1 st

/-- A request that passes the state test and fails the form check completes BAD_REQUEST. -/
theorem taking_fails_form (h : Unchained s r) (ht : stateTest s.engine.store s.engine.dir.complete r = none)
    (hf : r.formOk = false) {isRow : Request → Bool} (hr : isRow r = true) (body : Request → State → State) :
    s.taking isRow body = completes (taken s r) r (turnedAway s r .badRequest) := by
  rw [taking_of_takes h.1 _ _ hr, takeRequest_of_unchained h]
  simp only [ht, hf, Bool.false_eq_true, if_false]
  exact settle_turnAway h.1 .badRequest

end

/-- Settles O22: each of the three states' tests gives the state's status to the kinds that do not pass. -/
theorem stateTestAnswers : Obligations.StateTestAnswers := by
  intro s r h
  obtain ⟨isRow, body, hr, hexec⟩ := exec_rowOf r
  have fails {st : Status} (ht : stateTest s.engine.store s.engine.dir.complete r = some st) :
      exec (rowOf r) s = .next (completes (taken s r) r (turnedAway s r st)) := by
    rw [hexec, taking_fails_state h ht hr]
  refine ⟨fun hs hk => fails ?_, fun hs hk => fails ?_, fun hs hc => fails ?_, fun hs hc hk => fails ?_⟩
  · simpa [hs, stateTest, kGet, kNext, kInfo, kUnlock, kLock, kFormat, and_assoc] using hk
  · simp only [List.mem_cons, List.not_mem_nil, or_false, not_or] at hk
    obtain ⟨hinfo, hunlock, hlock, hformat⟩ := hk
    simp [hs, stateTest, kFormat, kInfo, kUnlock, kLock, show ¬ r.kind = 9#8 from hinfo, show ¬ r.kind = 10#8 from hunlock,
      show ¬ r.kind = 11#8 from hlock, show ¬ r.kind = 14#8 from hformat]
  · simp only [hs, hc, stateTest, Bool.false_and, Bool.false_eq_true, if_false]
  · rcases hk with hk | hk <;> simp_all [stateTest, kGet, kNext, kInfo]

/-! ### The form check (R46) -/

/-- A kind code names a kind when it is 1 to 14. -/
theorem namesKind_iff (r : Request) : r.namesKind = true ↔ 1 ≤ r.kind.toNat ∧ r.kind.toNat ≤ 14 := by
  simp [Request.namesKind, BitVec.le_def]

/-- A byte keeps within a mask when each of its bits is one of the mask's. -/
theorem and_not_eq_zero_iff (f m : Byte) : (f &&& ~~~m) = 0 ↔ ∀ i, f.getLsbD i = true → m.getLsbD i = true := by
  constructor
  · intro h i hi
    have hbit : (f &&& ~~~m).getLsbD i = false := by rw [h]; simp
    have hlt : i < 8 := BitVec.lt_of_getLsbD hi
    simpa [hi, hlt] using hbit
  · intro h
    refine BitVec.eq_of_getLsbD_eq fun i _ => ?_
    cases hf : f.getLsbD i with
    | false => simp [hf]
    | true => simp [hf, h i hf]

/-- The flags a kind takes: CHAIN in every kind, IN_TXN in PUT, GET and DELETE, IF_ABSENT in PUT, IF_VERSION in PUT and DELETE. -/
theorem flagsTaken_getLsbD (k : Byte) (i : Nat) : (flagsTaken k).getLsbD i = true ↔
    (i = 0 ∧ (k = 1 ∨ k = 2 ∨ k = 3)) ∨ i = 1 ∨ (i = 2 ∧ k = 1) ∨ (i = 3 ∧ (k = 1 ∨ k = 3)) := by
  by_cases hi : i < 8
  · unfold flagsTaken kPut kGet kDelete
    interval_cases i <;> (repeat' split) <;> simp_all
  · have : (flagsTaken k).getLsbD i = false := BitVec.getLsbD_of_ge _ _ (by omega)
    simp only [this, Bool.false_eq_true, false_iff]
    omega

/-- A request carries only flags its kind takes. -/
theorem flags_allowed_iff (r : Request) : (r.flags &&& ~~~(flagsTaken r.kind)) = 0 ↔
    (∀ i, 4 ≤ i → r.flags.getLsbD i = false) ∧ (r.inTxn = true → r.kind = 1 ∨ r.kind = 2 ∨ r.kind = 3) ∧
      (r.ifAbsent = true → r.kind = 1) ∧ (r.ifVersion = true → r.kind = 1 ∨ r.kind = 3) := by
  simp only [and_not_eq_zero_iff, flagsTaken_getLsbD, Request.inTxn, Request.ifAbsent, Request.ifVersion]
  constructor
  · intro h
    refine ⟨fun i hi => ?_, fun h0 => by simpa using h 0 h0, fun h2 => by simpa using h 2 h2, fun h3 => by simpa using h 3 h3⟩
    by_contra hb
    have := h i (by simpa using hb)
    omega
  · rintro ⟨hhigh, h0, h2, h3⟩ i hi
    by_cases h4 : 4 ≤ i
    · rw [hhigh i h4] at hi; cases hi
    · interval_cases i
      · exact .inl ⟨rfl, h0 hi⟩
      · exact .inr (.inl rfl)
      · exact .inr (.inr (.inl ⟨rfl, h2 hi⟩))
      · exact .inr (.inr (.inr ⟨rfl, h3 hi⟩))

/-- A value length is its kind's. -/
theorem lengthAllowed_iff (k : Byte) (n : Nat) : lengthAllowed k n = true ↔
    (k = 1 → n ≤ 256) ∧ (k = 10 ∨ k = 12 → n = 8) ∧ (k ≠ 1 → k ≠ 10 → k ≠ 12 → n = 0) := by
  unfold lengthAllowed kPut kUnlock kSetCode
  split
  · rename_i h; subst h; simp
  · split
    · rename_i h; rcases h with rfl | rfl <;> simp
    · simp_all

/-- A parameter is its kind's. -/
theorem paramAllowed_iff (k p : Byte) : paramAllowed k p = true ↔
    (k = 8 → 1 ≤ p.toNat ∧ p.toNat ≤ 62) ∧ (k = 10 ∨ k = 11 ∨ k = 12 ∨ k = 13 → p.toNat ≤ 3) := by
  unfold paramAllowed kReclaim kUnlock kLock kSetCode kSetPolicy
  split
  · rename_i h; subst h; simp [BitVec.le_def]
  · split <;> simp_all [BitVec.le_def]

/-- What passes the form check. -/
theorem formOk_iff (r : Request) : r.formOk = true ↔
    (1 ≤ r.kind.toNat ∧ r.kind.toNat ≤ 14) ∧
    ((∀ i, 4 ≤ i → r.flags.getLsbD i = false) ∧ (r.inTxn = true → r.kind = 1 ∨ r.kind = 2 ∨ r.kind = 3) ∧
      (r.ifAbsent = true → r.kind = 1) ∧ (r.ifVersion = true → r.kind = 1 ∨ r.kind = 3)) ∧
    ¬ (r.ifAbsent = true ∧ r.ifVersion = true) ∧
    ((r.kind = 1 → r.length.toNat ≤ 256) ∧ (r.kind = 10 ∨ r.kind = 12 → r.length.toNat = 8) ∧
      (r.kind ≠ 1 → r.kind ≠ 10 → r.kind ≠ 12 → r.length.toNat = 0)) ∧
    ((r.kind = 8 → 1 ≤ r.param.toNat ∧ r.param.toNat ≤ 62) ∧
      (r.kind = 10 ∨ r.kind = 11 ∨ r.kind = 12 ∨ r.kind = 13 → r.param.toNat ≤ 3)) := by
  rw [← namesKind_iff, ← flags_allowed_iff, ← lengthAllowed_iff, ← paramAllowed_iff]
  simp only [Request.formOk, Bool.and_eq_true, beq_iff_eq, Bool.not_eq_true', not_and, and_assoc, ← Bool.not_eq_true]

/-- Settles O23: the form check field by field, and BAD_REQUEST for a request that fails it. -/
theorem formCheck : Obligations.FormCheck := by
  refine ⟨fun r => ?_, fun s r h ht hf => ?_, fun s r h hs hk => ?_⟩
  · rw [formOk_iff]
    simp only [and_assoc]
  · obtain ⟨isRow, body, hr, hexec⟩ := exec_rowOf r
    rw [hexec, taking_fails_form h ht hf hr]
  · have hnone : r.namesKind = false := by
      rcases hk with hk | hk
      · rw [Request.namesKind, hk]; rfl
      · have hle : ¬ r.kind ≤ 14 := BitVec.not_le.2 hk
        simp only [Request.namesKind, hle, decide_false, Bool.and_false]
    have ht : stateTest s.engine.store s.engine.dir.complete r = none := by rw [hs]; rfl
    have hf : r.formOk = false := by simp only [Request.formOk, hnone, Bool.false_and]
    exact congrArg _ (taking_fails_form h ht hf (by rw [hnone]; rfl) _)

/-! ### NEXT (R60) -/

/-- The command that takes a NEXT runs its body. -/
theorem exec_next_of_serves {s : State} {r : Request} (h : Serves s r) (hk : r.kind = 4) :
    exec .next s = .next (nextBody r (taken s r)).settle := by
  simp only [exec, execNext]
  exact congrArg _ (taking_of_serves h _ _ (beq_iff_eq.2 hk))

/-- Settles O29: the search's entry, or NOT_FOUND. -/
theorem nextAnswers : Obligations.NextAnswers := by
  intro s r h hk
  rw [exec_next_of_serves h hk]
  refine ⟨fun e he => ?_, fun hnone => ?_⟩
  · simp only [nextBody, taken_dir, taken_readAccess, he]
    exact congrArg _ (settle_answer h.1.1 _)
  · simp only [nextBody, taken_dir, taken_readAccess, hnone]
    exact congrArg _ (settle_answer h.1.1 _)

/-! ### INFO (R61, R175) -/

/-- The number that the bytes of a number give is the number, as far as they reach. -/
theorem leNat_leBytes : ∀ n x : Nat, leNat (leBytes n x) = x % 256 ^ n
  | 0, x => by simp [leBytes, leNat, Nat.mod_one]
  | n + 1, x => by
    rw [leBytes, leNat, leNat_leBytes n (x / 256), BitVec.toNat_ofNat]
    show x % 256 + 256 * (x / 256 % 256 ^ n) = x % 256 ^ (n + 1)
    rw [Nat.pow_succ' (m := 256), Nat.mod_mul]

/-- The command that takes an INFO runs its body. -/
theorem exec_info_of_serves {s : State} {r : Request} (h : Serves s r) (hk : r.kind = 9) :
    exec .info s = .next (infoBody r (taken s r)).settle := by
  simp only [exec, execInfo]
  exact congrArg _ (taking_of_serves h _ _ (beq_iff_eq.2 hk))

/-- Taking a request leaves what the INFO block shows. -/
theorem infoBlock_taken (s : State) (r : Request) : (taken s r).infoBlock = s.infoBlock := by
  unfold taken
  simp only
  split <;> rfl

/-- Settles O30: INFO answers the block, whose fields stand one after another, each by its bytes. -/
theorem infoAnswers : Obligations.InfoAnswers := by
  refine ⟨fun s r h hk => ?_, fun s => ?_⟩
  · rw [exec_info_of_serves h hk, infoBody, infoBlock_taken]
    exact congrArg _ (settle_answer h.1.1 _)
  · have field {i n x : Nat} (h : (s.infoBlock.drop i).take n = leBytes n x) :
        leNat ((s.infoBlock.drop i).take n) = x % 256 ^ n := by rw [h, leNat_leBytes]
    have whole {i n x : Nat} (h : (s.infoBlock.drop i).take n = leBytes n x) (hx : x < 256 ^ n) :
        leNat ((s.infoBlock.drop i).take n) = x := by rw [field h, Nat.mod_eq_of_lt hx]
    exact ⟨rfl, rfl, field (x := s.engine.dir.liveCount) rfl, field (x := s.engine.dir.deadCount) rfl,
      field (x := s.engine.dir.accounted) rfl, field (x := s.limit) rfl,
      whole (x := s.engine.seq.toNat) rfl s.engine.seq.isLt, whole (x := s.formatId.toNat) rfl s.formatId.isLt,
      field (x := s.lowestErase) rfl, field (x := s.highestErase) rfl,
      whole (x := s.openNumber.toNat) rfl s.openNumber.isLt⟩

end Sys2Proof.Certificates
end

