-- ==== Sys2Proof/Proofs/Format.lean ====
section
/-! FORMAT (R153 to R157): its zone test, its anchor write, the reads, erases and formats of the pool, and its ends. -/

namespace Sys2Proof.Certificates

open Sys2Proof Sys2Proof.Machine

/-! ### The zone test and the beginning (R153, R154) -/

/-- The command that takes a FORMAT runs its body. -/
theorem exec_format_of_serves {s : State} {r : Request} (h : Serves s r) (hk : r.kind = 14) :
    exec .format s = .next (formatBody r (taken s r)).settle := by
  simp only [exec, execFormat]
  exact congrArg _ (taking_of_serves h _ _ (beq_iff_eq.2 hk))

/-- The zones that fail FORMAT's zone test. -/
def formatFailing (s : State) : List (Fin 4) := ([0, 1, 2, 3] : List (Fin 4)).filter s.formatTestFails

/-- A zone fails the test when it is neither OPEN nor unlocked. -/
theorem mem_formatFailing (s : State) (z : Fin 4) :
    z ∈ formatFailing s ↔ s.contents.zones[z].policy ≠ .policyOpen ∧ s.zones[z].unlocked = false := by
  have hall : z ∈ ([0, 1, 2, 3] : List (Fin 4)) := by revert z; decide
  rw [formatFailing, List.mem_filter, State.formatTestFails, Bool.and_eq_true, decide_eq_true_eq, Bool.not_eq_true']
  exact and_iff_right hall

/-- The test fails LOCKED_OUT when a zone that fails it is locked out. -/
theorem formatBody_lockedOut {s : State} (r : Request) {z : Fin 4} (hz : z ∈ formatFailing s) (hl : s.zones[z].lockout = true) :
    formatBody r (taken s r) = (taken s r).post r (plain r .lockedOut) := by
  have hne : (formatFailing s).isEmpty = false := List.isEmpty_eq_false_iff.2 (List.ne_nil_of_mem hz)
  have hany : (formatFailing s).any (fun z => ((taken s r).zoneFlags z).lockout) = true := List.any_eq_true.2 ⟨z, hz, hl⟩
  have hfail : ([0, 1, 2, 3] : List (Fin 4)).filter (taken s r).formatTestFails = formatFailing s := rfl
  simp only [formatBody, hfail, hne, hany, Bool.false_eq_true, if_false, if_true]
  rfl

/-- The test fails DENIED when no zone that fails it is locked out. -/
theorem formatBody_denied {s : State} (r : Request) {z : Fin 4} (hz : z ∈ formatFailing s)
    (hl : ∀ z ∈ formatFailing s, s.zones[z].lockout = false) :
    formatBody r (taken s r) = (taken s r).post r (plain r .denied) := by
  have hne : (formatFailing s).isEmpty = false := List.isEmpty_eq_false_iff.2 (List.ne_nil_of_mem hz)
  have hany : (formatFailing s).any (fun z => ((taken s r).zoneFlags z).lockout) = false :=
    List.any_eq_false.2 fun z hz => Bool.not_eq_true _ ▸ hl z hz
  have hfail : ([0, 1, 2, 3] : List (Fin 4)).filter (taken s r).formatTestFails = formatFailing s := rfl
  simp only [formatBody, hfail, hne, hany, Bool.false_eq_true, if_false]
  rfl

/-- The state of a FORMAT that has passed its zone test (R153, R102, R81). -/
def formatBegun (s : State) (r : Request) : State :=
  { taken s r with
    engine := { s.engine with
      store := .formatting, anchorFailed := false, readOnlyDue := false,
      txn := { s.engine.txn with openTxn := none, timer := .stopped } },
    window := { s.window with events := s.window.events ||| 0x20 },
    comp := s.comp.atFormat }

/-- A FORMAT that passes its test begins with the anchor write of the new format id. -/
theorem formatBody_begins {s : State} {r : Request} (h : formatFailing s = []) (hs : s.engine.store ≠ .formatting) (hf : Free s)
    (hg : s.contents.generation ≠ 4294967295) (hc : s.ctl = { stack := [], reply := none }) :
    formatBody r (taken s r) = anchorAsked (formatBegun s r) [.formatAnchor r]
      { s.contents with generation := s.contents.generation + 1, formatId := nextFormatId s.contents } := by
  have hfail : ([0, 1, 2, 3] : List (Fin 4)).filter (taken s r).formatTestFails = [] := h
  have hbegin : formatBody r (taken s r) =
      (waiting (formatBegun s r) [.formatAnchor r]).anchorWrite (fun a => { a with formatId := nextFormatId s.contents }) := by
    simp only [formatBody, hfail, List.isEmpty_nil, if_true, State.formatBegin, State.setStore, taken_store, hs, if_false]
    simp only [taken, State.raise, State.dropTxn, State.push, hc]
    split <;> rfl
  rw [hbegin]
  exact anchorWrite_of_free (waiting (formatBegun s r) [.formatAnchor r]) _ hf hg rfl

/-! ### What FORMAT stops and goes on with (R155 to R157) -/

/-- A FORMAT that stops completes HALTED with the low bits of the format id. -/
theorem moves_formatStops {u : State} (hd : u.engine.readOnlyDue = false) (hp : u.seq.pending = none) (r : Request) (n : Nat) :
    State.moves n ((waiting u []).formatStops r) =
      completes u r { plain r .halted with aux := u.formatId.setWidth 16 } := by
  rw [State.formatStops, State.answerAux, moves_post (by exact hp)]
  rw [show (waiting u []).engine.readOnlyDue = false from hd, undue_eq_self (by exact hd)]
  rfl

/-- The next line 0 is read. -/
theorem moves_formatReadNext_reads {u : State} (he : u.seq.erase = none) (hp : u.seq.pending = none) (r : Request) (y : Nat)
    (todo : List Nat) (n : Nat) :
    State.moves n ((waiting u []).formatReadNext r (y :: todo)) = reads u [.formatRead r y todo] y 0 := by
  rw [State.formatReadNext, push_waiting, issueRead_waiting he, moves_reads hp]

section
variable {u : State} {y : Nat} (hb : u.firstBlank = some y)
include hb

/-- A BLANK sector that is not worn is erased. -/
theorem formatNext_of_unworn (hw : (u.record y).worn = false) (r : Request) :
    (waiting u []).formatNext r = (waiting u [.formatErase r y]).issueErase y false := by
  have hb : (waiting u []).firstBlank = some y := hb
  have hw : ((waiting u []).record y).worn = false := hw
  simp only [State.formatNext, hb, hw, Bool.false_eq_true, if_false, push_waiting]

/-- The erase of a BLANK sector begins on a free sequencer. -/
theorem moves_formatNext_erases (hf : Free u) (hp : u.seq.pending = none) (hw : (u.record y).worn = false) (r : Request)
    (n : Nat) : State.moves n ((waiting u []).formatNext r) = erases u [.formatErase r y] y := by
  rw [formatNext_of_unworn hb hw, issueErase_waiting hf, moves_erases hp]

/-- The erase of a BLANK sector is refused by a halted sequencer, and FORMAT stops. -/
theorem moves_formatNext_refused (hh : u.seq.halted = true) (hd : u.engine.readOnlyDue = false) (hp : u.seq.pending = none)
    (hw : (u.record y).worn = false) (r : Request) (n : Nat) :
    State.moves (n + 1) ((waiting u []).formatNext r) =
      completes u r { plain r .halted with aux := u.formatId.setWidth 16 } := by
  have hh : (waiting u [.formatErase r y]).seq.halted = true := hh
  rw [formatNext_of_unworn hb hw, State.issueErase, if_pos hh, ← moves_formatStops hd hp r n]
  exact moves_replying n u (.formatErase r y) [] (.erase .refused)

/-- A worn BLANK sector is retired. -/
theorem moves_formatNext_retires (hf : Free u) (hp : u.seq.pending = none) (hw : (u.record y).worn = true)
    (hg : u.contents.generation ≠ 4294967295) (r : Request) (n : Nat) :
    State.moves n ((waiting u []).formatNext r) = anchorAsked u [.retire y, .formatSector r] (retiring u.contents y) := by
  have hb : (waiting u []).firstBlank = some y := hb
  have hw : ((waiting u []).record y).worn = true := hw
  simp only [State.formatNext, hb, hw, if_true, push_waiting, retireBegin_waiting hf hg, moves_anchorAsked hp]

end

/-- With no BLANK sector left S, the counters and the ring sequence are 1, and the front of the free list is opened (R156). -/
theorem moves_formatNext_opens {u : State} {t : LogTables} {y : Nat} {rest : List Nat} (hf : Free u) (hp : u.seq.pending = none)
    (hl : u.log = some t) (hb : u.firstBlank = none) (hy : t.free = y :: rest) (r : Request) (n : Nat) :
    State.moves n ((waiting u []).formatNext r) =
      programs { u with engine := { u.engine with seq := 1, txnCounter := 1 }, log := some { t with nextRing := 2 } }
        [.openHead y 1, .formatOpen r] y 1 (.opened u.formatId 1 1) := by
  have hb : (waiting u []).firstBlank = none := hb
  have hl : (waiting u []).log = some t := hl
  have hopen : (waiting u []).formatNext r = (waiting
      { u with engine := { u.engine with seq := 1, txnCounter := 1 }, log := some { t with nextRing := 1 } }
      [.formatOpen r]).openHead := by
    simp only [State.formatNext, hb, State.formatOpening, State.withLog, hl, Option.map_some]
    rfl
  rw [hopen, openHead_waiting (by exact hf) rfl (by exact hy), moves_programs (by exact hp)]
  rfl

/-! ### The tables after the anchor write (R154) -/

/-- FORMAT has built its tables: the directory is empty and the sector table fresh. -/
def formatTabled (s : State) : State :=
  { s with
    engine := { s.engine with dir := { Directory.reset with complete := s.engine.dir.complete } },
    log := some (freshTables s.contents.retired (fun x => (s.record x).eraseCount)) }

/-- The sectors without a known erase count, whose line 0 FORMAT reads. -/
def formatUnknown (s : State) : List Nat :=
  poolSectors.filter (fun x => !s.contents.retired.contains x && (s.record x).eraseCount.isNone)

/-- FORMAT's anchor write that has been WRITTEN or has FAILED is followed by the tables and the reads. -/
theorem resume_formatAnchor {o : AnchorOutcome} (ho : o ≠ .refused) (s : State) (r : Request) :
    State.resume (waiting s []) (.formatAnchor r) (.anchor o) =
      (waiting (formatTabled s) []).formatReadNext r (formatUnknown s) := by
  cases o with
  | refused => contradiction
  | written | failed => rfl

/-- Within FORMAT an anchor write that fails is recorded for its end. -/
theorem anchorFailure_of_format {s : State} (h : s.formatRuns = true) :
    s.anchorFailure = { s with engine := { s.engine with anchorFailed := true } } := by
  simp only [State.anchorFailure, h, or_true, if_true]

/-- A slot's line that passes is followed by the next one, which a halted sequencer refuses: the anchor write ends REFUSED. -/
theorem moves_anchorWrite_refused {s : State} (hh : s.seq.halted = true) (k : List Task) (a : AnchorRecord) (b : Bool)
    (x slot : Nat) {part : Nat} (hpart : part < 5) (n : Nat) :
    State.moves (n + 2) (replying s (.anchorWrite a b (.line x slot part) :: k) (.prog .pass)) =
      State.moves n (replying s k (.anchor .refused)) := by
  have hnext : State.resume (waiting s k) (.anchorWrite a b (.line x slot part)) (.prog .pass) =
      replying s (.anchorWrite a b (.line x slot (part + 1)) :: k) (.prog .refused) := by
    simp only [State.resume, State.anchorWriteReply, hpart, if_true, State.programPart, push_waiting]
    exact issueProgram_waiting_halted hh _ _ _ _
  rw [moves_replying, hnext, moves_replying]
  rfl

/-! ### Erases that fail (R109) -/

/-- The state once the erase in flight of `sector` has ended FAIL. The model's counter of free values moves on. -/
def eraseFailed (s : State) (sector : Nat) : State :=
  { s with
    seq := { s.seq with
      cells := replaceSector s.seq.cells sector (abandonedLine s.freeCtr), state := .idle, erase := none },
    freeCtr := s.freeCtr + 1 }

/-- An erase in flight that ends FAIL, with no operation waiting. -/
theorem eraseEnds_fail {s : State} {e : EraseRec} (he : s.seq.erase = some e) (hs : s.seq.state = .erasing)
    (hw : s.seq.waiting = none) : s.eraseEnds false = (eraseFailed s e.sector).deliverErase e.background .fail := by
  simp only [State.eraseEnds, he, hs, if_true, Bool.false_eq_true, if_false]
  exact serveWaiting_of_none (by rw [deliverErase_seq]; exact hw)

/-- A foreground erase in flight that fails: its outcome is on its way to the tasks that wait. -/
theorem exec_eraseDone_fails {s : State} {k : List Task} {e : EraseRec} (h : Erases s k e) :
    ∀ event ∈ [Instr.eraseDone false, .eraseTimeLimit],
      exec event s = .next (State.settle (replying (eraseFailed s e.sector) k (.erase .fail))) := by
  obtain ⟨hctl, he, hb, hs, -, hw, -⟩ := h
  have hends : s.eraseEnds false = replying (eraseFailed s e.sector) k (.erase .fail) := by
    rw [eraseEnds_fail he hs hw, State.deliverErase, hb, if_neg Bool.false_ne_true]
    simp only [State.ret, eraseFailed, hctl]
    rfl
  intro event hev
  simp only [List.mem_cons, List.not_mem_nil, or_false] at hev
  rcases hev with rfl | rfl
  · simp only [exec, execEraseDone, hends]
  · simp only [exec, execEraseTimeLimit, hends]

/-! ### The end (R156) -/

/-- The state at FORMAT's end, its tables being `t`: a FORMATTING store has become READ_ONLY or READY, a HALTED one stays. -/
def formatEnded (u : State) (t : LogTables) : State :=
  { u with
    engine := { u.engine with
      store := if u.engine.store = .halted then .halted
        else if t.usable < 8 ∨ t.free.length = 0 ∨ u.engine.anchorFailed = true then .readOnly else .ready,
      anchorFailed := false },
    window := if u.engine.store = .halted then u.window else { u.window with events := u.window.events ||| 0x20 } }

/-- FORMAT ends with its completion. -/
theorem formatEnds_eq {u : State} {t : LogTables} (hs : u.engine.store = .formatting ∨ u.engine.store = .halted)
    (hl : u.log = some t) (r : Request) :
    (waiting u []).formatEnds r = (waiting (formatEnded u t) []).post r
      { plain r (if u.engine.anchorFailed = true then .mediaFault else .ok) with aux := u.formatId.setWidth 16 } := by
  have husable : (waiting u []).usable = t.usable := by rw [State.usable, show (waiting u []).log = some t from hl]
  have hfree : (waiting u []).freeCount = t.free.length := freeCount_of_log hl
  simp only [State.formatEnds, husable, hfree, Bool.or_eq_true, decide_eq_true_eq, or_assoc]
  rcases hs with hs | hs
  · have hchange (st : StoreState) (hne : .formatting ≠ st) : (waiting u []).leaveStore .formatting st =
        { waiting u [] with
          engine := { u.engine with store := st }, window := { u.window with events := u.window.events ||| 0x20 } } := by
      have hs : (waiting u []).engine.store = .formatting := hs
      rw [State.leaveStore, if_pos hs, State.setStore, hs, if_neg hne]
      rfl
    rw [hchange _ (by split <;> decide)]
    simp only [formatEnded, hs, reduceCtorEq, if_false]
    rfl
  · have hkept (st : StoreState) : (waiting u []).leaveStore .formatting st = waiting u [] :=
      if_neg (by rw [show (waiting u []).engine.store = .halted from hs]; decide)
    rw [hkept]
    simp only [formatEnded, hs, if_true]
    rw [← hs]
    rfl

/-- The opening of the first head ends FORMAT. -/
theorem moves_formatOpen_opened {u : State} {t : LogTables} (hs : u.engine.store = .formatting ∨ u.engine.store = .halted)
    (hd : u.engine.readOnlyDue = false) (hp : u.seq.pending = none) (hl : u.log = some t) (r : Request) (n : Nat) :
    State.moves (n + 1) (replying u [.formatOpen r] (.opened .opened)) = completes (formatEnded u t) r
      { plain r (if u.engine.anchorFailed = true then .mediaFault else .ok) with aux := u.formatId.setWidth 16 } := by
  have hends : State.resume (waiting u []) (.formatOpen r) (.opened .opened) = (waiting u []).formatEnds r := rfl
  rw [moves_replying, hends, formatEnds_eq hs hl, post_eq_completes (waiting (formatEnded u t) []) _ _ hd]
  exact moves_completes (s := waiting (formatEnded u t) []) hp n _ _

/-- Settles O40: FORMAT's beginning, and what each end of its anchor write, of a read, of an erase, of a format line and of its open
line is followed by. -/
theorem formatTaken : Obligations.FormatTaken := by
  refine ⟨fun s r h hk => ?taken, fun s r a b x slot part d h he ha => ?anchor, fun s r t x todo h he hl => ?read,
    fun s r e h => ?erase, fun s r t x c d h he hl => ?format, fun s r t x ring d h hs hl => ?opened⟩
  case taken =>
    rw [exec_format_of_serves h hk]
    refine ⟨fun ⟨z, hp, hu, hlock⟩ => ?_, fun ⟨z, hp, hu⟩ hlock => ?_, fun hall hf hg => ?_⟩
    · rw [formatBody_lockedOut r ((mem_formatFailing s z).2 ⟨hp, hu⟩) hlock, settle_answer h.1.1]
    · have hnone : ∀ z ∈ formatFailing s, s.zones[z].lockout = false := fun z hz =>
        have ⟨hp, hu⟩ := (mem_formatFailing s z).1 hz
        hlock z hp hu
      rw [formatBody_denied r ((mem_formatFailing s z).2 ⟨hp, hu⟩) hnone, settle_answer h.1.1]
    · have hnil : formatFailing s = [] := by
        refine List.eq_nil_iff_forall_not_mem.2 fun z hz => ?_
        obtain ⟨hp, hu⟩ := (mem_formatFailing s z).1 hz
        rcases hall z with h | h
        · exact hp h
        · exact Bool.false_ne_true (hu.symm.trans h)
      obtain ⟨-, -, -, -, hstore, -, hctl, -, hpend⟩ := h.1.1
      rw [formatBody_begins hnil hstore hf hg hctl, State.settle, moves_anchorAsked (by exact hpend)]
      rfl
  case anchor =>
    intro unknown u
    obtain ⟨hwaits, hblank⟩ := waits_of_programs h
    obtain ⟨-, -, -, hp, hd⟩ := id hwaits
    have hprog := programs_undue hwaits hblank
    have hcontents : s.contents = a := by rw [State.contents, ha]
    have passes (hpart : part = 5) :
        exec (.lineProgramDone true) s = .next (State.moves 8190 ((waiting (u true) []).formatReadNext r unknown)) := by
      subst hpart
      rw [exec_program_passes hprog, settle_replying, resume_anchorWrite_written, moves_replying,
        resume_formatAnchor (by decide)]
      simp only [u, unknown, ← hcontents, Bool.not_true, Bool.or_false, if_true]
      rfl
    refine ⟨fun y todo hpart hu => ?_, fun y hpart hh hu hb hw => ?_, fun y todo hb hu event hev => ?_, fun hpart hh => ?_⟩
    · rw [passes hpart, hu, moves_formatReadNext_reads (by exact he) (by exact hp)]
    · rw [passes hpart, hu, State.formatReadNext, moves_formatNext_erases hb ⟨he, hh⟩ hp hw]
    · subst hb
      have hfails : exec event s =
          .next (State.moves 8190 ((waiting (u false) []).formatReadNext r unknown)) := by
        rw [exec_program_fails hprog event hev, settle_replying, resume_anchorWrite_failed, anchorFailure_of_format rfl,
          moves_replying, resume_formatAnchor (by decide)]
        simp only [u, unknown, ← hcontents, Bool.not_false, Bool.or_true, Bool.false_eq_true, if_false]
        rfl
      rw [hfails, hu, moves_formatReadNext_reads (by exact he) (by exact hp)]
    · rw [exec_program_passes hprog, State.settle]
      refine congrArg _ ((moves_anchorWrite_refused (by exact hh) _ _ _ _ _ hpart 8190).trans ?_)
      rw [moves_replying]
      exact moves_formatStops (by exact hd) (by exact hp) r _
  case read =>
    intro u
    obtain ⟨-, -, -, hp, -⟩ := id h
    have hresume : exec .lineReadDone s = .next (State.moves 8191 ((waiting u []).formatReadNext r todo)) := by
      rw [exec_lineReadDone h, settle_replying]
      simp only [State.resume, State.formatReadReply, State.mapRecord, State.withLog, waiting, hl, Option.map_some]
      rfl
    rw [hresume]
    refine ⟨fun y rest htodo => ?_, fun y htodo hh hb hw => ?_⟩
    · rw [htodo, moves_formatReadNext_reads (by exact he) (by exact hp)]
    · rw [htodo, State.formatReadNext, moves_formatNext_erases hb ⟨he, hh⟩ hp hw]
  case erase =>
    intro count
    obtain ⟨hctl, he, hback, -, hp, hw, hd⟩ := id h
    refine ⟨fun hh => ?_, fun hh hg event hev => ?_, fun hstore hpow hreset hpfw hh => ?_⟩
    · have hcount : (erased s e.sector).formatCount e.sector = count := formatCount_eq s e.sector
      have hformat : State.resume (waiting (erased s e.sector) []) (.formatErase r e.sector) (.erase .pass) =
          programs (erased s e.sector) [.formatLine e.sector count, .formatSector r] e.sector 0 (.format s.formatId count) := by
        rw [← hcount]
        exact issueProgram_waiting (s := erased s e.sector) ⟨rfl, hh⟩ _ _ _ _
      rw [exec_eraseDone_passes h, settle_replying, hformat, moves_programs (by exact hp)]
    · refine ⟨eraseFailed s e.sector, ?_, rfl, failedErase_of_cells rfl⟩
      have hretires : State.resume (waiting (eraseFailed s e.sector) []) (.formatErase r e.sector) (.erase .fail) =
          anchorAsked (eraseFailed s e.sector) [.retire e.sector, .formatSector r] (retiring s.contents e.sector) :=
        retireBegin_waiting (s := eraseFailed s e.sector) ⟨rfl, hh⟩ hg [.formatSector r] e.sector
      rw [exec_eraseDone_fails h event hev, settle_replying, hretires, moves_anchorAsked (by exact hp)]
    · refine ⟨_, exec_pfwAsserted_taken hpow hreset hpfw hh, ?_⟩
      have hmount : (pfwChanged s).mountRunning = false :=
        mountRunning_eq_false (.inl (by rw [show (pfwChanged s).engine.store = .formatting from hstore]; decide))
      have habandoned : (storeHalted (pfwChanged s)).sequencerWarning.wakeWaiting =
          replying (eraseAbandoned (storeHalted (pfwChanged s)) e) [.formatErase r e.sector] (.erase .abandoned) := by
        rw [sequencerWarning_of_erase (by exact he) (by exact hp) (by exact hw), State.deliverErase, hback,
          if_neg Bool.false_ne_true, ← waiting_eq_self (s := eraseAbandoned (storeHalted (pfwChanged s)) e) hctl, ret_waiting]
        rfl
      rw [takeWarning_of_no_mount hmount, habandoned, settle_replying]
      exact congrArg (fun t => t.queues.completions)
        (moves_formatStops (u := eraseAbandoned (storeHalted (pfwChanged s)) e) hd rfl r 8191)
  case format =>
    intro u
    obtain ⟨hwaits, hblank⟩ := waits_of_programs h
    obtain ⟨-, -, -, hp, hd⟩ := id hwaits
    have hresume : exec (.lineProgramDone true) s = .next (State.moves 8190 ((waiting u []).formatNext r)) := by
      rw [exec_program_passes (programs_undue hwaits hblank), settle_replying, resume_formatLine_passes (by exact hl),
        moves_replying]
      rfl
    rw [hresume]
    refine ⟨fun y hh hb hw => ?_, fun y hh hg hb hw => ?_, fun y hh hb hw => ?_, fun y rest hh hb hy => ?_⟩
    · rw [moves_formatNext_erases hb ⟨he, hh⟩ hp hw]
    · rw [moves_formatNext_retires hb ⟨he, hh⟩ hp hw hg]
      rfl
    · rw [moves_formatNext_refused hb hh hd hp hw]
      rfl
    · rw [moves_formatNext_opens (u := u) ⟨he, hh⟩ hp rfl hb hy]
      rfl
  case opened =>
    intro t'
    obtain ⟨hwaits, hblank⟩ := waits_of_programs h
    obtain ⟨-, -, -, hp, hd⟩ := id hwaits
    rw [exec_program_passes (programs_undue hwaits hblank), settle_replying, resume_openHead_passes (by exact hl),
      moves_formatOpen_opened (by exact hs) (by exact hd) (by exact hp) rfl]
    rfl

end Sys2Proof.Certificates
end

