-- ==== Sys2Proof/Proofs/JobSteps.lean ====
section
/-! Compaction steps within the job of a stalled write or a RECLAIM (R84, R86): the next step by the compactor's stage, and what the
end of a copy, of a tombstone, of a round and of the background erase is followed by. -/

namespace Sys2Proof.Certificates

open Sys2Proof Sys2Proof.Machine

/-! ### The next step within a job (R84, R86) -/

section
variable {u : State} {k : Task} (hg : GoesOn u k)
include hg

/-- The compactor's next step within a job that goes on, unless its erase is in flight. -/
theorem nextStepInJob_waiting (hs : u.comp.stage ≠ .erasing) :
    (waiting u []).nextStepInJob k = (waiting u [k]).grantStep :=
  nextStepInJob_grants (u := waiting u []) hg hs rfl

/-- The end of a step with nothing due leads to the next one. -/
theorem moves_stepEnds_goesOn (hd : u.engine.readOnlyDue = false) (n : Nat) :
    State.moves (n + 1) ((waiting u [k]).stepEnds false) = State.moves n ((waiting u []).nextStepInJob k) :=
  moves_stepEnds_job (v := waiting u []) hg rfl hd n

end

/-- A changed record of a sector that is not the head leaves whether a job goes on. -/
theorem goesOn_setRecord {u : State} {k : Task} {t : LogTables} {x : Nat} (hg : GoesOn u k) (hl : u.log = some t) (r : SectorRec)
    (hr : isNoHead r = true) (ht : isNoHead (t.record x) = true) : GoesOn { u with log := some (t.setRecord x r) } k :=
  goesOn_congr hg rfl rfl rfl rfl rfl rfl (fun n => (needsNewHead_setRecord u _ t x r n hl rfl hr ht).1)
    (needsNewHead_setRecord u _ t x r 0 hl rfl hr ht).2

/-- The copy step on the victim `x` within a job, by its entries. -/
theorem copyInJob_of_moves {u : State} {k : Task} {x : Nat} {out : State → Prop} {n : Nat} (hg : GoesOn u k)
    (hs : u.comp.stage = .copying) (hv : u.comp.victim = some x) (hd : u.engine.readOnlyDue = false) (hp : u.seq.pending = none)
    (h : out (State.moves (n + 1) (waiting u [k]).copyOne)) : CopyInJob u k x out := by
  refine ⟨fun e he hfree => ⟨fun hlive => ?_, fun e' hdead he' hlive' => ?_⟩, fun t ring c f hnone hl hr hc hf => ?_⟩
  · rwa [copyOne_reads hv he hlive hfree, moves_reads hp] at h
  · rw [copyOne_removes (s := waiting u [k]) hv he hdead] at h
    have hnext := moves_stepEnds_goesOn
      (u := { u with engine := { u.engine with dir := u.engine.dir.remove e.key } }) (k := k) hg hd n
    rw [nextStepInJob_waiting (by exact hg) (by rw [hs]; decide)] at hnext
    rw [show (waiting u [k]).withDir (fun d => d.remove e.key) =
      waiting { u with engine := { u.engine with dir := u.engine.dir.remove e.key } } [k] from rfl, hnext] at h
    simp only [State.grantStep, waiting, hs] at h
    have hreads := copyOne_reads (s := { u with engine := { u.engine with dir := u.engine.dir.remove e.key } }) (k := [k])
      hv he' hlive' hfree
    rw [waiting] at hreads
    rwa [hreads, moves_reads (by exact hp)] at h
  · have hgoes : GoesOn (victimErasing u t x ring c f) k :=
      goesOn_setRecord hg hl (.erasing ring c f) rfl (by rw [hr]; rfl)
    have hwaits : (waiting (victimErasing u t x ring c f) []).nextStepInJob k = waiting (victimErasing u t x ring c f) [k] :=
      nextStepInJob_waits (u := waiting (victimErasing u t x ring c f) []) rfl rfl
    rw [copyOne_erases (s := waiting u [k]) hv hnone, eraseVictim_erases (s := waiting u [k]) hf hl hr hc,
      show victimErasing (waiting u [k]) t x ring c f = waiting (victimErasing u t x ring c f) [k] from rfl,
      moves_stepEnds_goesOn hgoes hd, hwaits, moves_at_rest rfl (by exact hp)] at h
    exact h

/-- The compactor's next step within a job, by its stage. -/
theorem stepInJob_of_moves {u : State} {k : Task} {out : State → Prop} {n : Nat} (hg : GoesOn u k)
    (hd : u.engine.readOnlyDue = false) (hp : u.seq.pending = none)
    (h : out (State.moves (n + 2) ((waiting u []).nextStepInJob k))) : StepInJob u k out := by
  have granted (hs : u.comp.stage ≠ .erasing) : out (State.moves (n + 2) (waiting u [k]).grantStep) := by
    rwa [nextStepInJob_waiting hg hs] at h
  refine ⟨fun t x ring c f lu cond hs hl hring hr hspace => ?_, fun x hs hv => ?_, fun hs => ?_,
    fun t x ring c f hs hv ho hl hr hf => ?_⟩
  · have hgoes : GoesOn (victimSelected u t x ring c f cond) k :=
      goesOn_setRecord hg hl (.victim ring c f cond) rfl (by rw [hr]; rfl)
    have hselect : (waiting u [k]).grantStep = (waiting (victimSelected u t x ring c f cond) [k]).stepEnds false := by
      simp only [State.grantStep, show (waiting u [k]).comp.stage = .idle from hs]
      exact selectVictim_selects (s := waiting u [k]) hl hring hr hspace
    have h := granted (by rw [hs]; decide)
    rw [hselect, moves_stepEnds_goesOn hgoes hd, nextStepInJob_waiting hgoes (by simp [victimSelected])] at h
    exact copyInJob_of_moves hgoes rfl rfl hd hp h
  · have h := granted (by rw [hs]; decide)
    simp only [State.grantStep, show (waiting u [k]).comp.stage = .copying from hs] at h
    exact copyInJob_of_moves hg hs hv hd hp h
  · have hwaits : (waiting u []).nextStepInJob k = waiting u [k] := nextStepInJob_waits (u := waiting u []) hs rfl
    rw [hwaits, moves_at_rest rfl (by exact hp)] at h
    exact h
  · have h := granted (by rw [hs]; decide)
    simp only [State.grantStep, show (waiting u [k]).comp.stage = .finishing from hs] at h
    rwa [finishVictim_formats hf hv ho hl hr, moves_programs hp] at h

/-! ### The end of a job by its store state (R63, R100) -/

/-- A step's end in a store of state `st` ends the job `k` as `ended` says. -/
def EndsJob (k : Task) (st : StoreState) (ended : State → State) : Prop :=
  ∀ (v : State) (n : Nat), v.engine.store = st → v.engine.readOnlyDue = false → v.seq.pending = none →
    State.moves (n + 1) (replying v [k] (.stepEnd false)) = ended (waiting v [])

/-- A READY store that turns READ_ONLY. -/
theorem turnsReadOnly_store {t : State} (h : t.engine.store = .ready) : (turnsReadOnly t).engine.store = .readOnly := by
  rw [turnsReadOnly, if_pos h]

/-- A turn to READ_ONLY leaves what is due. -/
theorem turnsReadOnly_readOnlyDue (t : State) : (turnsReadOnly t).engine.readOnlyDue = t.engine.readOnlyDue := by
  unfold turnsReadOnly; split <;> rfl

/-- A step in which a READ_ONLY cause was met, in a READY store, ends its job. -/
theorem moves_stepEnds_readOnly {k : Task} {readOnly : State → State} (hk : EndsJob k .readOnly readOnly) {v : State}
    (hs : v.engine.store = .ready) (hd : v.engine.readOnlyDue = true) (hp : v.seq.pending = none) (n : Nat) :
    State.moves (n + 1) ((waiting v [k]).stepEnds false) = readOnly (turnsReadOnly (undue (waiting v []))) := by
  rw [stepEnds_waiting, hd]
  have hend := hk (turnsReadOnly (undue v)) n (turnsReadOnly_store hs) (by rw [turnsReadOnly_readOnlyDue]; rfl)
    (by rw [(turnsReadOnly_ctl_seq _).2]; exact hp)
  have hwait : endsDue true (waiting (undue v) []) = waiting (turnsReadOnly (undue v)) [] := endsDue_waiting true (undue v) []
  rw [← hwait] at hend
  exact hend

/-- A copy that is placed ends its step. -/
theorem exec_copyAppend_placed {s : State} {k : List Task} {j : AppendJob} {e : Entry} {x st i : Nat} {d : LineData}
    (h : Programs (undue s) (.append j (.programming x st i) :: .copyAppend e :: k) x (st + i) d) (hi : i + 1 = j.header.lines) :
    exec (.lineProgramDone true) s =
      .next (State.moves 8190 ((waiting (copyEnded s j e x st i d) k).stepEnds false)) := by
  rw [exec_append_placed h hi, moves_replying, resume_copyAppend_placed]
  rfl

/-- The state once a tombstone has been placed in a READY store, with S's limit among what is due. -/
def lossReported (s : State) (j : AppendJob) (e : Entry) (q : Seq) (x st i : Nat) (d : LineData) : State :=
  { lossEnded s j e q x st i d with
    engine := { (lossEnded s j e q x st i d).engine with readOnlyDue := s.engine.readOnlyDue || limitReached s } }

/-- With nothing due before and S below its limit, nothing is due. -/
theorem lossReported_eq {s : State} (h : (s.engine.readOnlyDue || limitReached s) = false) (j : AppendJob) (e : Entry) (q : Seq)
    (x st i : Nat) (d : LineData) : lossReported s j e q x st i d = lossEnded s j e q x st i d := by
  have hd : s.engine.readOnlyDue = false := (Bool.or_eq_false_iff.1 h).1
  rw [lossReported, h]
  exact undue_eq_self (s := lossEnded s j e q x st i d) hd

/-- A tombstone that is placed in a READY store ends its step. -/
theorem exec_lossAppend_placed {s : State} {k : List Task} {j : AppendJob} {e : Entry} {q : Seq} {x st i : Nat} {d : LineData}
    (h : Programs (undue s) (.append j (.programming x st i) :: .lossAppend e q :: k) x (st + i) d)
    (hi : i + 1 = j.header.lines) (hs : s.engine.store = .ready) (hq : s.engine.seq ≠ 4294967295) :
    exec (.lineProgramDone true) s =
      .next (State.moves 8190 ((waiting (lossReported s j e q x st i d) k).stepEnds false)) := by
  have hready : decide ((framePlaced s j x st i d).engine.store = .ready) = true := decide_eq_true hs
  rw [exec_append_placed h hi, moves_replying, resume_lossAppend_placed (by exact hq), lossPlaced, hready, Bool.true_and]
  rfl

/-- The end of a copy step of a job whose append has been placed. -/
theorem placedInJob_of_endsJob {k : Task} {readOnly : State → State} (hk : EndsJob k .readOnly readOnly) :
    PlacedInJob k readOnly := by
  refine ⟨fun s j e x st i d h hi hs => ?_, fun s j e q x st i d h hi hs hq => ?_⟩
  · intro u
    have ⟨_, _, _, hp, _, _⟩ := h
    rw [exec_copyAppend_placed h hi]
    refine ⟨fun hdue => ?_, fun hdue hg => ?_⟩
    · exact congrArg _ (moves_stepEnds_readOnly hk (v := u) hs hdue hp 8189)
    · rw [moves_stepEnds_goesOn hg hdue]
      exact stepInJob_of_moves (n := 8187) hg hdue hp rfl
  · intro u
    have ⟨_, _, _, hp, _, _⟩ := h
    rw [exec_lossAppend_placed h hi hs hq]
    refine ⟨fun hdue => ?_, fun hdue hg => ?_⟩
    · exact congrArg _ (moves_stepEnds_readOnly hk (v := lossReported s j e q x st i d) hs hdue hp 8189)
    · have hd : s.engine.readOnlyDue = false := (Bool.or_eq_false_iff.1 hdue).1
      rw [lossReported_eq hdue, moves_stepEnds_goesOn hg hd]
      exact stepInJob_of_moves (n := 8187) hg hd hp rfl

/-- The failed ends of a copy's or a tombstone's append within a job. -/
theorem copyFails_of_endsJob {k : Task} {readOnly halted : State → State} (hro : EndsJob k .readOnly readOnly)
    (hh : EndsJob k .halted halted) : CopyFails [k] readOnly halted := by
  intro s task j x st i v ht
  refine ⟨fun h hready event hev => ?_, fun h hhalted => ?_⟩
  · rw [exec_copy_outOfSectors ht h event hev]
    obtain ⟨t, d, ring, w, f, lu, n, hi, ⟨-, -, -, hp, -, -⟩, -, -, -, -, -, -, -, -, -, rfl⟩ := h
    refine congrArg _ ((hro _ 8189 (turnsReadOnly_store (by exact hready)) (by rw [turnsReadOnly_readOnlyDue]; rfl)
      (by rw [(turnsReadOnly_ctl_seq _).2]; exact hp)).trans ?_)
    rw [waiting_eq_self (turnsReadOnly_ctl_seq _).1]
  · rw [exec_copy_refused ht h]
    obtain ⟨d, ⟨-, -, -, hp, -, -⟩, -, -, rfl⟩ := h
    have hstays : ¬ s.engine.store = .ready := by rw [hhalted]; exact StoreState.noConfusion
    rw [endsDue_of_not_ready (by exact hstays)]
    exact congrArg _ (hh (undue _) 8188 hhalted rfl hp)

/-! ### The end of a round (R98) -/

/-- The victim's format line that passes within a job ends the round, and the step with it. -/
theorem exec_finishRound_formatted {s : State} {k : List Task} {t : LogTables} {x c : Nat} {d : LineData}
    (h : Programs s (.formatLine x c :: .finishRound :: k) x 0 d) (hl : s.log = some t) :
    exec (.lineProgramDone true) s = .next (State.moves 8190 ((waiting (roundEnded s t x c d) k).stepEnds false)) := by
  obtain ⟨hwaits, hblank⟩ := waits_of_programs h
  have hfree : ((t.freed x c).free).length = (t.free.filter (· != x)).length + 1 := by
    rw [freed_eq, List.length_append]; rfl
  have hround : State.endRound { s with seq := programmed s.seq x 0 (.good d), log := some (t.freed x c) } =
      { s with
        seq := programmed s.seq x 0 (.good d), log := some (t.freed x c),
        comp := roundOver s.comp ((t.free.filter (· != x)).length + 1) } := by
    rw [endRound_eq, freeCount_of_log (t := t.freed x c) rfl, hfree, decide_eq_false (Nat.succ_ne_zero _), reportsWhen_false]
  rw [exec_program_passes (programs_undue hwaits hblank), settle_replying, resume_formatLine_passes (by exact hl), moves_replying,
    resume_finishRound_formatted, hround, freed_eq]
  rfl

/-! ### The end of the background erase (R97, R98) -/

/-- A job that goes on waits as a stall or a RECLAIM, so the end of the erase wakes it. -/
theorem wakeWaiting_of_goesOn {u : State} {k : Task} (hg : GoesOn u k) (v : State) :
    (waiting v [k]).wakeWaiting = replying v [k] .wake := by
  obtain ⟨-, -, -, hwaits⟩ := hg
  cases k with
  | stall w | reclaim r => rfl
  | _ => exact hwaits.elim

/-- An erase in flight that ends PASS, with no operation waiting. -/
theorem eraseEnds_pass {s : State} {e : EraseRec} (he : s.seq.erase = some e) (hs : s.seq.state = .erasing)
    (hw : s.seq.waiting = none) : s.eraseEnds true = (erased s e.sector).deliverErase e.background .pass := by
  simp only [State.eraseEnds, he, hs, if_true]
  exact serveWaiting_of_none (by rw [deliverErase_seq]; exact hw)

/-- The compactor in the FINISHING stage with the outcome of its erase. -/
def eraseTaken (s : State) (passed : Bool) : State :=
  { s with comp := { s.comp with stage := .finishing, eraseOutcome := some passed } }

/-- The outcome of the background erase that a job waits for leads to the finishing step. -/
theorem settle_deliverErase_job {v : State} {k : Task} (hg : GoesOn v k) (hs : v.comp.stage = .erasing) (passed : Bool) :
    ((waiting v [k]).deliverErase true (if passed then .pass else .fail)).settle =
      State.moves 8191 (waiting (eraseTaken v passed) [k]).finishVictim := by
  have hs : (waiting v [k]).comp.stage = .erasing := hs
  have hdeliver : (waiting v [k]).deliverErase true (if passed then .pass else .fail) =
      (waiting (eraseTaken v passed) [k]).wakeWaiting := by
    cases passed <;> simp only [State.deliverErase, State.compactorErased, hs, if_true, Bool.false_eq_true, if_false] <;> rfl
  have hgoes : GoesOn (eraseTaken v passed) k := hg
  rw [hdeliver, wakeWaiting_of_goesOn hg, settle_replying,
    (resume_of_goesOn (u := waiting (eraseTaken v passed) []) hgoes).2, nextStepInJob_waiting hgoes (by simp [eraseTaken])]
  rfl

/-- The end of the background erase that a job waits for. -/
theorem erasedInJob (k : Task) : ErasedInJob k := by
  intro s e t ring c f ⟨hctl, he, hb, hs, hp, hw, hd, hstage, hv⟩ hh hg hl hr
  refine ⟨?_, fun hgen event hev => ⟨eraseTaken (eraseFailed s e.sector) false, ?_, rfl, failedErase_of_cells rfl⟩⟩
  · have hpass : (s.eraseEnds true).settle =
        State.moves 8191 (waiting (eraseTaken (erased s e.sector) true) [k]).finishVictim := by
      rw [eraseEnds_pass he hs hw, hb, ← waiting_eq_self (s := erased s e.sector) hctl]
      exact settle_deliverErase_job (v := erased s e.sector) hg hstage true
    simp only [exec, execEraseDone, hpass]
    rw [finishVictim_formats (s := eraseTaken (erased s e.sector) true) ⟨rfl, hh⟩ hv rfl hl hr, moves_programs (by exact hp)]
    rfl
  · have hfail : (s.eraseEnds false).settle =
        anchorAsked (eraseTaken (eraseFailed s e.sector) false) [.retire e.sector, .finishRound, k]
          (retiring s.contents e.sector) := by
      have hdeliver := settle_deliverErase_job (v := eraseFailed s e.sector) hg hstage false
      rw [eraseEnds_fail he hs hw, hb, ← waiting_eq_self (s := eraseFailed s e.sector) hctl]
      refine hdeliver.trans ?_
      rw [finishVictim_retires (s := waiting (eraseTaken (eraseFailed s e.sector) false) [k]) hv rfl, push_waiting,
        retireBegin_waiting (s := eraseTaken (eraseFailed s e.sector) false) ⟨rfl, hh⟩ hgen, moves_anchorAsked (by exact hp)]
      rfl
    simp only [List.mem_cons, List.not_mem_nil, or_false] at hev
    rcases hev with rfl | rfl
    · simp only [exec, execEraseDone, hfail]
    · simp only [exec, execEraseTimeLimit, hfail]

end Sys2Proof.Certificates
end

