-- ==== Sys2Proof/Proofs/Stall.lean ====
section
/-! The write stall (R62, R63, R76): how a write enters it, what its tests make of the end of a step, and how it ends. -/

namespace Sys2Proof.Certificates

open Sys2Proof Sys2Proof.Machine

/-! ### The stall's tests (R63) -/

/-- The state once the compactor has left stall mode. -/
def stallLeft (v : State) : State := { v with comp := { v.comp with stallMode := false, noGainLimit := none } }

/-- A stall that ends with the status `st`. -/
def stallEnded (w : StalledWrite) (st : Status) (v : State) : State :=
  completes (stallLeft v) w.request (plain w.request st)

/-- A stalled write that is answered has ended. -/
theorem moves_leaveStall_answer {v : State} (hd : v.engine.readOnlyDue = false) (hp : v.seq.pending = none) (w : StalledWrite)
    (st : Status) (n : Nat) : State.moves n ((waiting v []).leaveStall.answer w.request st) = stallEnded w st v := by
  rw [State.answer, post_eq_completes ((waiting v []).leaveStall) _ _ hd]
  exact moves_completes (s := (waiting v []).leaveStall) hp n _ _

section
variable {v : State} {w : StalledWrite} {b : Bool}

/-- In a HALTED store the tests end the stall HALTED. -/
theorem stallTests_halted (hs : v.engine.store = .halted) : v.stallTests w b = v.leaveStall.answer w.request .halted := by
  simp only [State.stallTests, hs, if_true]

/-- In a READ_ONLY store the tests end the stall READ_ONLY. -/
theorem stallTests_readOnly (hs : v.engine.store = .readOnly) : v.stallTests w b = v.leaveStall.answer w.request .readOnly := by
  simp only [State.stallTests, hs, reduceCtorEq, if_false, if_true]

/-- In a READY store with room for the write, or with 2 FREE sectors, the tests let the write proceed. -/
theorem stallTests_proceeds (hs : v.engine.store = .ready) (h : v.needsNewHead w.lines = false ∨ 2 ≤ v.freeCount) :
    v.stallTests w b = v.leaveStall.writeProceeds w := by
  have hroom : (!v.needsNewHead w.lines || decide (2 ≤ v.freeCount)) = true := by
    rcases h with h | h
    · rw [h]; rfl
    · rw [decide_eq_true h, Bool.or_true]
  simp only [State.stallTests, hs, reduceCtorEq, if_false, hroom, if_true]

/-- In a READY store without room the tests end the stall FULL when the compactor cannot gain. -/
theorem stallTests_full (hs : v.engine.store = .ready) (hn : v.needsNewHead w.lines = true) (hf : v.freeCount < 2)
    (hg : v.cannotGain b = true) : v.stallTests w b = v.leaveStall.answer w.request .full := by
  have hroom : (!v.needsNewHead w.lines || decide (2 ≤ v.freeCount)) = false := by
    rw [hn, decide_eq_false (Nat.not_le.2 hf)]; rfl
  simp only [State.stallTests, hs, reduceCtorEq, if_false, hroom, Bool.false_eq_true, hg, if_true]

end

/-- The compactor cannot gain once the no-gain count has reached the limit. -/
theorem cannotGain_of_limit {v : State} {l : Nat} (hl : v.comp.noGainLimit = some l) (h : l ≤ v.comp.noGain) (b : Bool) :
    v.cannotGain b = true := by
  simp only [State.cannotGain, hl, h, decide_true, Bool.or_true]

/-- A step's end reaches the stall's tests. -/
theorem moves_stall_stepEnd (v : State) (w : StalledWrite) (b : Bool) (n : Nat) :
    State.moves (n + 1) (replying v [.stall w] (.stepEnd b)) = State.moves n ((waiting v []).stallTests w b) :=
  moves_replying n v (.stall w) [] (.stepEnd b)

/-- A step's end in a READ_ONLY store ends a stall READ_ONLY. -/
theorem endsJob_stall_readOnly (w : StalledWrite) : EndsJob (.stall w) .readOnly (stallEnded w .readOnly) := by
  intro v n hs hd hp
  rw [moves_stall_stepEnd, stallTests_readOnly (by exact hs), moves_leaveStall_answer hd hp]
  rfl

/-- A step's end in a HALTED store ends a stall HALTED. -/
theorem endsJob_stall_halted (w : StalledWrite) : EndsJob (.stall w) .halted (stallEnded w .halted) := by
  intro v n hs hd hp
  rw [moves_stall_stepEnd, stallTests_halted (by exact hs), moves_leaveStall_answer hd hp]
  rfl

/-! ### The write's first append (R21, R22, R63) -/

/-- Where the first append of a write that leaves the stall goes. -/
theorem writeProceeds_of_moves {u : State} {w : StalledWrite} {out : State → Prop} {n : Nat} (hw : Fresh w) (hf : Free u)
    (hp : u.seq.pending = none) (h : out (State.moves n ((waiting u []).writeProceeds w))) : WriteProceeds u w out := by
  rw [writeProceeds_waiting hw] at h
  refine ⟨fun x nl hh hn => ?_, fun t x ring c f lu k hi hl hh hr hfull hfree => ?_, fun t y rest hl hh hy hfree => ?_⟩
  · rw [placeAttempt_of_fits hh (by exact hn), programAttempt_waiting hf, moves_programs hp] at h
    exact h
  · have hpos : u.headPos = some (x, lu + 1) := headPos_of_head hl hh hr
    have hfloor : newHeadFloor true ≤ u.freeCount := by rw [freeCount_of_log hl]; exact hfree
    rw [placeAttempt_of_full hpos (by exact hfull), appendNewHead_closes hfloor hpos, closeHead_waiting hf hl hh hr,
      moves_programs hp] at h
    exact h
  · have hpos : u.headPos = none := headPos_of_no_head hl hh
    have hfloor : newHeadFloor true ≤ u.freeCount := by rw [freeCount_of_log hl]; exact hfree
    rw [placeAttempt_of_no_head hpos, appendNewHead_opens hfloor hpos, openHead_waiting hf hl hy, moves_programs (by exact hp)] at h
    exact h

/-- A step that ends with nothing due in a READY store, the write having room then, is followed by the write's first append. -/
theorem writeProceeds_of_stepEnds {v : State} {w : StalledWrite} {out : State → Prop} {n : Nat} (hw : Fresh w) (hf : Free v)
    (hs : v.engine.store = .ready) (hd : v.engine.readOnlyDue = false) (hp : v.seq.pending = none)
    (hroom : v.needsNewHead w.lines = false ∨ 2 ≤ v.freeCount)
    (h : out (State.moves (n + 1) ((waiting v [.stall w]).stepEnds false))) : WriteProceeds (stallLeft v) w out := by
  refine writeProceeds_of_moves (n := n) hw hf hp ?_
  rw [stepEnds_waiting, hd, show endsDue false (undue v) = v from undue_eq_self hd, moves_stall_stepEnd,
    stallTests_proceeds (by exact hs) (by exact hroom)] at h
  exact h

/-! ### Entering the stall (R62, R76, R87) -/

/-- The stall is entered with the compactor's next step. -/
theorem writeAdmitted_stalls {u : State} {w : StalledWrite} (hn : u.needsNewHead w.lines = true) (hf : u.freeCount < 2) :
    u.writeAdmitted w = (stalling u).nextStepInJob (.stall w) := by
  simp only [State.writeAdmitted, hn, hf, decide_true, Bool.and_self, if_true]
  rfl

/-- A write that has just stalled goes on. -/
theorem goesOn_stalling {u : State} {w : StalledWrite} (hs : u.engine.store = .ready) (hstop : u.comp.stopped = false)
    (hn : u.needsNewHead w.lines = true) (hf : u.freeCount < 2) : GoesOn (stalling u) (.stall w) := by
  refine ⟨hs, hstop, fun l hl => ?_, rfl, hn, hf⟩
  obtain rfl : max 1 u.closedCount = l := Option.some.inj hl
  exact Nat.lt_of_lt_of_le Nat.one_pos (Nat.le_max_left _ _)

/-- The state once a select step has been refused for want of space with no sector FREE, but for what is due. -/
def spaceRefused (v : State) : State := { v with comp := { v.comp with refused := some 0 } }

section
variable {v : State} {w : StalledWrite} (hg : GoesOn v (.stall w)) (hidle : v.comp.stage = .idle)
include hg hidle

/-- A stalled write's next step outside a round is the select step. -/
theorem nextStepInJob_selects : (waiting v []).nextStepInJob (.stall w) = (waiting v [.stall w]).selectVictim := by
  rw [nextStepInJob_waiting hg (by rw [hidle]; decide)]
  simp only [State.grantStep, show (waiting v [.stall w]).comp.stage = .idle from hidle]

/-- A tail that is not CLOSED ends the stall FULL. -/
theorem moves_stall_not_closed (htail : v.tailClosed = false) (hd : v.engine.readOnlyDue = false) (hp : v.seq.pending = none)
    (n : Nat) : State.moves (n + 1) ((waiting v []).nextStepInJob (.stall w)) = stallEnded w .full v := by
  obtain ⟨hs, -, -, -, hn, hfree⟩ := id hg
  rw [nextStepInJob_selects hg hidle, selectVictim_not_closed (by exact htail), stepEnds_waiting, hd,
    show endsDue false (undue v) = v from undue_eq_self hd, moves_stall_stepEnd,
    stallTests_full (by exact hs) (by exact hn) (by exact hfree) rfl, moves_leaveStall_answer hd hp]

/-- A select step refused for want of space is a READ_ONLY cause, and ends the stall READ_ONLY. -/
theorem moves_stall_refused (hc : v.ctl = { stack := [], reply := none }) {x : Nat} (ht : v.tail = some x)
    (hclosed : v.tailClosed = true) (hlive : 0 < liveLinesIn v.engine.dir.entries x)
    (hnew : v.needsNewHead (liveLinesIn v.engine.dir.entries x) = true) (hfree : v.freeCount = 0)
    (hd : v.engine.readOnlyDue = false) (hp : v.seq.pending = none) (n : Nat) :
    State.moves (n + 1) ((waiting v []).nextStepInJob (.stall w)) =
      stallEnded w .readOnly (turnsReadOnly (spaceRefused v)) := by
  obtain ⟨hs, -⟩ := id hg
  have hreport : (spaceRefused v).reportReadOnly = { spaceRefused v with engine := { v.engine with readOnlyDue := true } } :=
    if_pos hs
  have hundue : undue (waiting (spaceRefused v).reportReadOnly []) = spaceRefused v := by
    rw [hreport, waiting_eq_self (by exact hc)]
    exact undue_eq_self (s := spaceRefused v) hd
  rw [nextStepInJob_selects hg hidle, selectVictim_refused (s := waiting v [.stall w]) ht hclosed hlive hnew hfree, ← hundue,
    ← moves_stepEnds_readOnly (endsJob_stall_readOnly w) (v := (spaceRefused v).reportReadOnly) (by rw [hreport]; exact hs)
      (by rw [hreport]) (by rw [hreport]; exact hp) n]
  simp only [reportReadOnly_eq]
  rfl

end

/-- What an admitted write finds once it has been taken: it runs to the placement test, and but for the queues and the transaction
the state is the one before. -/
structure AdmittedState (s : State) (r : Request) (w : StalledWrite) (u : State) : Prop where
  runs : exec (rowOf r) s = .next (u.writeAdmitted w).settle
  request : w.request = r
  ctl : u.ctl = { stack := [], reply := none }
  seq : u.seq = s.seq
  log : u.log = s.log
  comp : u.comp = s.comp
  store : u.engine.store = s.engine.store
  dir : u.engine.dir = s.engine.dir
  readOnlyDue : u.engine.readOnlyDue = false

/-- Each kind of write that has been admitted comes to the placement test. -/
theorem admittedState {s u : State} {r : Request} {w : StalledWrite} (h : Serves s r) (ha : Admitted s r w u) :
    AdmittedState s r w u := by
  obtain ⟨-, -, -, -, -, -, hctl, hdue, -⟩ := h.1.1
  rcases ha with ⟨hk, ht, hacc, hc, hadm, rfl, rfl⟩ | ⟨hk, ht, hacc, hlive, hc, hadm, rfl, rfl⟩ |
    ⟨hk, t, ht, hne, hall, hadm, rfl, rfl⟩
  · have hexec : exec (rowOf r) s = .next ((taken s r).writeAdmitted (.put r)).settle := by
      rw [show rowOf r = .put by simp [rowOf, hk, ht], exec_put_of_serves h hk ht, putBody_admits hacc hc hadm]
    exact ⟨hexec, rfl, hctl, rfl, rfl, rfl, taken_store s r, taken_dir s r, (taken_readOnlyDue s r).trans hdue⟩
  · obtain ⟨⟨e, n⟩, hlive⟩ := Option.isSome_iff_exists.1 hlive
    have hexec : exec (rowOf r) s = .next ((taken s r).writeAdmitted (.delete r)).settle := by
      rw [show rowOf r = .delete by simp [rowOf, hk, ht], exec_delete_of_serves h hk ht, deleteBody_admits hacc hlive hc hadm]
    exact ⟨hexec, rfl, hctl, rfl, rfl, rfl, taken_store s r, taken_dir s r, (taken_readOnlyDue s r).trans hdue⟩
  · have hexec : exec (rowOf r) s = .next ((commitTaken s r).writeAdmitted
        (.commit { request := r, number := t.number, staged := t.staged, placed := [] })).settle := by
      rw [show rowOf r = .commit by simp [rowOf, hk], exec_commit_of_serves h hk, commitBody_admits ht hne hall hadm]
    exact ⟨hexec, rfl, hctl, rfl, rfl, rfl, rfl, rfl, hdue⟩

/-! ### PFW# during the wait for the erase (R44, R97, R119) -/

/-- The state once the power-fail warning has abandoned the background erase `e` and with it the round. -/
def roundAbandoned (s : State) (e : EraseRec) : State :=
  { eraseAbandoned (storeHalted (pfwChanged s)) e with
    comp := { s.comp with stage := .idle, victim := none, roundStart := none } }

/-- A COMMIT's total lines stand for its frame lines. -/
theorem stalledLines_eq (w : StalledWrite) : w.lines = match w with
    | .put r => putLines r.payload.length
    | .delete _ => 1
    | .commit c => (c.staged.map (fun e => match e.value with
      | some v => putLines v.length
      | none => 1)).sum + 1 := by
  cases w <;> rfl

/-- Settles O27: how a write enters the stall, what each end of a step is followed by, and how the stall ends. -/
theorem stalledPutFull : Obligations.StalledPutFull := by
  refine ⟨fun s r w u h hs ha hn hfree hstop => ?entered, stalledLines_eq,
    fun w => ⟨placedInJob_of_endsJob (endsJob_stall_readOnly w),
      copyFails_of_endsJob (endsJob_stall_readOnly w) (endsJob_stall_halted w)⟩,
    fun s w j e x st i d h hi => ?copied, fun s w j e q x st i d h hi => ?lost, fun w => erasedInJob (.stall w),
    fun s w t x c d h hl hs => ?formatted, fun s w e h hm hpow hreset hpfw hh => ?warned⟩
  case entered =>
    intro ended
    obtain ⟨hexec, hreq, hctl, hseq, hlog, hcomp, hstore, hdir, hdue⟩ := admittedState h ha
    obtain ⟨-, -, -, -, -, -, -, -, hpend⟩ := h.1.1
    have hfree' : u.freeCount = s.freeCount := by rw [State.freeCount, hlog]; rfl
    have hn' (n : Nat) : u.needsNewHead n = s.needsNewHead n := by simp only [State.needsNewHead, State.headPos, hlog]
    have htail : u.tail = s.tail := by rw [State.tail, hlog]; rfl
    have hclosed : u.tailClosed = s.tailClosed := by simp only [State.tailClosed, State.tail, State.record, hlog]
    have hp : (stalling u).seq.pending = none := by rw [← hpend, ← hseq]; rfl
    have hgoes : GoesOn (stalling u) (.stall w) :=
      goesOn_stalling (hstore.trans hs) (by rw [hcomp]; exact hstop) ((hn' _).trans hn) (by rw [hfree']; exact hfree)
    have hwait : waiting (stalling u) [] = stalling u := waiting_eq_self hctl
    have hstep : exec (rowOf r) s = .next (State.moves 8192 ((waiting (stalling u) []).nextStepInJob (.stall w))) := by
      rw [hexec, writeAdmitted_stalls ((hn' _).trans hn) (by rw [hfree']; exact hfree), hwait]
      rfl
    refine ⟨fun hidle hopen => ?_, fun x hidle ht hcl hlive hspace h0 => ?_, ?_⟩
    · rw [hstep, moves_stall_not_closed hgoes (by rw [← hidle, ← hcomp]; rfl) (by rw [← hopen, ← hclosed]; rfl) hdue hp,
        stallEnded, hreq, stallLeft, stalling, hcomp]
    · rw [hstep, moves_stall_refused hgoes (by rw [← hidle, ← hcomp]; rfl) hctl (x := x) (by rw [← ht, ← htail]; rfl)
        (by rw [← hcl, ← hclosed]; rfl) (by rw [← hdir] at hlive; exact hlive)
        (by rw [← hdir, ← hn'] at hspace; exact hspace) (by rw [← h0, ← hfree']; rfl) hdue hp, stallEnded, hreq]
      have hs' : u.engine.store = .ready := hstore.trans hs
      simp only [stallLeft, stalling, spaceRefused, turnsReadOnly, hs', if_true, hcomp]
      rfl
    · exact stepInJob_of_moves (n := 8190) hgoes hdue hp hstep
  case copied =>
    intro u hw hs hf hroom
    obtain ⟨hwaits, hblank⟩ := waits_of_programs h
    obtain ⟨-, -, -, hp, hd⟩ := id hwaits
    refine writeProceeds_of_stepEnds (v := u) (n := 8189) hw hf hs hd hp (.inl hroom) ?_
    exact exec_copyAppend_placed (programs_undue hwaits hblank) hi
  case lost =>
    intro u hw hs hq hlim hf hroom
    obtain ⟨hwaits, hblank⟩ := waits_of_programs h
    obtain ⟨-, -, -, hp, hd⟩ := id hwaits
    refine writeProceeds_of_stepEnds (v := u) (n := 8189) hw hf hs hd hp (.inl hroom) ?_
    rw [exec_lossAppend_placed (programs_undue hwaits hblank) hi hs hq, lossReported_eq (by rw [hd, hlim]; rfl)]
  case formatted =>
    intro u ended
    obtain ⟨-, -, -, hp, hd, -⟩ := id h
    have hexec := exec_finishRound_formatted h hl
    refine ⟨fun hw hf h2 => ?_, fun l hn hfree hlim hle => ?_, fun hg => ?_⟩
    · exact writeProceeds_of_stepEnds (v := u) (n := 8189) hw hf hs hd hp (.inr h2) hexec
    · rw [hexec, stepEnds_waiting, show (roundEnded s t x c d).engine.readOnlyDue = false from hd,
        show endsDue false (undue (roundEnded s t x c d)) = roundEnded s t x c d from undue_eq_self hd,
        moves_stall_stepEnd, stallTests_full (by exact hs) (by exact hn) (by exact hfree)
          (cannotGain_of_limit (by exact hlim) (by exact hle) false), moves_leaveStall_answer (by exact hd) (by exact hp)]
      rfl
    · rw [moves_stepEnds_goesOn (by exact hg) (by exact hd)] at hexec
      exact stepInJob_of_moves (n := 8187) hg hd hp hexec
  case warned =>
    obtain ⟨hctl, he, hb, -, hp, hw, hd, hstage, -⟩ := h
    have hmount : (pfwChanged s).mountRunning = false := mountRunning_eq_false (.inl hm)
    have hwakes : (storeHalted (pfwChanged s)).sequencerWarning.wakeWaiting = replying (roundAbandoned s e) [.stall w] .wake := by
      rw [sequencerWarning_of_erase (by exact he) (by exact hp) (by exact hw), hb,
        ← waiting_eq_self (s := eraseAbandoned (storeHalted (pfwChanged s)) e) hctl]
      have hstage : (waiting (eraseAbandoned (storeHalted (pfwChanged s)) e) [.stall w]).comp.stage = .erasing := hstage
      simp only [State.deliverErase, State.compactorErased, hstage, if_true]
      rfl
    have htests : State.resume (waiting (roundAbandoned s e) []) (.stall w) .wake =
        (waiting (roundAbandoned s e) []).leaveStall.answer w.request .halted :=
      stallTests_halted (v := waiting (roundAbandoned s e) []) (w := w) (b := false) rfl
    have hexec : exec .pfwAsserted s = .next (stallEnded w .halted (roundAbandoned s e)) := by
      rw [exec_pfwAsserted_taken hpow hreset hpfw hh, takeWarning_of_no_mount hmount, hwakes, settle_replying, htests,
        moves_leaveStall_answer (v := roundAbandoned s e) hd rfl]
    exact ⟨_, hexec, rfl, completes_store _ _ _, rfl, rfl⟩

end Sys2Proof.Certificates
end

