-- ==== Sys2Proof/Proofs/Transactions.lean ====
section
/-! Transaction requests (R65 to R71, R80): BEGIN and ABANDON, a request without a transaction, and what IN_TXN PUT, DELETE and
GET make of the staged list. -/

namespace Sys2Proof.Certificates

open Sys2Proof Sys2Proof.Machine

/-! ### Taking a transaction request (R72) -/

section
variable {s : State} {r : Request}

/-- A request that passes its tests, taken by the command of its row, is handled by the row's body. -/
theorem exec_of_serves (h : Serves s r) {i : Instr} {isRow : Request → Bool} {body : Request → State → State}
    (hx : exec i s = .next (s.taking isRow body)) (hr : isRow r = true) :
    exec i s = .next (body r (taken s r)).settle := by
  rw [hx, taking_of_serves h _ _ hr]

/-- The row of an IN_TXN PUT. -/
theorem rowOf_inTxnPut (hk : r.kind = 1) (ht : r.inTxn = true) : rowOf r = .inTxnPut := by
  simp [rowOf, hk, ht]

/-- The row of an IN_TXN GET. -/
theorem rowOf_inTxnGet (hk : r.kind = 2) (ht : r.inTxn = true) : rowOf r = .inTxnGet := by
  simp [rowOf, hk, ht]

/-- The row of an IN_TXN DELETE. -/
theorem rowOf_inTxnDelete (hk : r.kind = 3) (ht : r.inTxn = true) : rowOf r = .inTxnDelete := by
  simp [rowOf, hk, ht]

/-- A request of a kind that carries IN_TXN is of its kind's IN_TXN row. -/
theorem isInTxn_of {kind : Byte} (hk : r.kind = kind) (ht : r.inTxn = true) : isInTxn kind r = true := by
  simp only [isInTxn, hk, ht, beq_self_eq_true, Bool.and_self]

/-- The transaction requests: BEGIN, COMMIT and ABANDON, and PUT, GET and DELETE carrying IN_TXN. -/
theorem isTxnRequest_iff (r : Request) : r.isTxnRequest = true ↔
    r.kind = 5 ∨ r.kind = 6 ∨ r.kind = 7 ∨ ((r.kind = 1 ∨ r.kind = 2 ∨ r.kind = 3) ∧ r.inTxn = true) := by
  simp only [Request.isTxnRequest, Request.isRecordKind, Bool.or_eq_true, Bool.and_eq_true, beq_iff_eq, or_assoc]
  rfl

/-- The idle timer stands still while a transaction request executes. -/
theorem taken_engine_of_txn (h : r.isTxnRequest = true) :
    (taken s r).engine = { s.engine with txn := { s.engine.txn with timer := .stopped } } := if_pos h

/-- The state once a taken transaction request has given the transaction counter and the transaction context new values. -/
def contextChanged (s : State) (r : Request) (n : TxnNo) (x : TxnContext) : State :=
  { taken s r with engine := { s.engine with txnCounter := n, txn := x } }

/-- A transaction request that is answered once it has changed the transaction context completes. -/
theorem settle_contextChanged (h : Takes s r) (n : TxnNo) (x : TxnContext) (c : Completion) :
    ((contextChanged s r n x).post r c).settle = completes (contextChanged s r n x) r c := by
  obtain ⟨-, -, -, -, -, -, -, hdue, hpend⟩ := h
  exact settle_post (s := contextChanged s r n x) hdue hpend rfl

/-! ### BEGIN and ABANDON (R65, R66, R80) -/

/-- A BEGIN with no transaction open opens one, numbered by the counter. -/
theorem beginBody_opens (hk : r.kind = 5) (ho : s.engine.txn.openTxn = none) :
    beginBody r (taken s r) = (contextChanged s r (if s.engine.txnCounter = 65535 then 1 else s.engine.txnCounter + 1)
      { openTxn := some { number := s.engine.txnCounter, staged := [] }, timer := .stopped, expired := none }).post r
      { plain r .ok with aux := s.engine.txnCounter } := by
  have he := taken_engine_of_txn (s := s) ((isTxnRequest_iff r).2 (.inl hk))
  simp only [beginBody, ho, he]
  rfl

/-- A BEGIN with a transaction open is answered with its number. -/
theorem beginBody_refuses {t : OpenTxn} (ho : s.engine.txn.openTxn = some t) :
    beginBody r (taken s r) = (taken s r).post r { plain r .txnOpen with aux := t.number } := by
  simp only [beginBody, taken_openTxn, ho]
  rfl

/-- An ABANDON drops the open transaction. -/
theorem abandonBody_drops {t : OpenTxn} (hk : r.kind = 7) (ho : s.engine.txn.openTxn = some t) :
    abandonBody r (taken s r) = (contextChanged s r s.engine.txnCounter
      { s.engine.txn with openTxn := none, timer := .stopped }).post r { plain r .ok with aux := t.number } := by
  have he := taken_engine_of_txn (s := s) ((isTxnRequest_iff r).2 (.inr (.inr (.inl hk))))
  simp only [abandonBody, ho, State.dropTxn, he]
  rfl

end

/-- Settles O31: the open transaction decides what BEGIN and ABANDON do, and each answers at once. -/
theorem beginAndAbandon : Obligations.BeginAndAbandon := by
  intro s r h
  refine ⟨fun hk ho => ?_, fun t hk ho => ?_, fun t hk ho => ?_⟩
  · rw [exec_of_serves h (i := .beginTxn) rfl (beq_iff_eq.2 hk), beginBody_opens hk ho]
    exact congrArg _ (settle_contextChanged h.1.1 _ _ _)
  · rw [exec_of_serves h (i := .beginTxn) rfl (beq_iff_eq.2 hk), beginBody_refuses ho, settle_answer h.1.1]
  · rw [exec_of_serves h (i := .abandon) rfl (beq_iff_eq.2 hk), abandonBody_drops hk ho]
    exact congrArg _ (settle_contextChanged h.1.1 _ _ _)

/-! ### A transaction request without a transaction (R67) -/

section
variable {s : State} {r : Request}

/-- Every transaction request but BEGIN finds that no transaction is open before it does anything else. -/
theorem exec_noTransaction (h : Serves s r) (ht : r.isTxnRequest = true) (hb : r.kind ≠ 5) (ho : s.engine.txn.openTxn = none) :
    exec (rowOf r) s = .next ((taken s r).noTransaction r).settle := by
  have finds {i : Instr} {isRow : Request → Bool} {body : Request → State → State} (hi : rowOf r = i)
      (hx : exec i s = .next (s.taking isRow body)) (hr : isRow r = true)
      (hbody : body r (taken s r) = (taken s r).noTransaction r) :
      exec (rowOf r) s = .next ((taken s r).noTransaction r).settle := by
    rw [hi, exec_of_serves h hx hr, hbody]
  rcases (isTxnRequest_iff r).1 ht with hk | hk | hk | ⟨hk | hk | hk, hin⟩
  · exact absurd hk hb
  · exact finds (i := .commit) (by simp [rowOf, hk]) rfl (beq_iff_eq.2 hk) (by simp only [commitBody, taken_openTxn, ho])
  · exact finds (i := .abandon) (by simp [rowOf, hk]) rfl (beq_iff_eq.2 hk) (by simp only [abandonBody, taken_openTxn, ho])
  · exact finds (rowOf_inTxnPut hk hin) rfl (isInTxn_of hk hin)
      (by simp only [inTxnPutBody, taken_openTxn, ho])
  · exact finds (rowOf_inTxnGet hk hin) rfl (isInTxn_of hk hin)
      (by simp only [inTxnGetBody, taken_openTxn, ho])
  · exact finds (rowOf_inTxnDelete hk hin) rfl (isInTxn_of hk hin)
      (by simp only [inTxnDeleteBody, taken_openTxn, ho])

/-- After an expiry the answer carries the expired number, and the mark is cleared. -/
theorem noTransaction_expired (ht : r.isTxnRequest = true) (ho : s.engine.txn.openTxn = none) {n : TxnNo}
    (he : s.engine.txn.expired = some n) :
    (taken s r).noTransaction r = (contextChanged s r s.engine.txnCounter
      { openTxn := none, timer := .stopped, expired := none }).post r { plain r .expired with aux := n } := by
  simp only [State.noTransaction, he, taken_engine_of_txn ht, ho]
  rfl

/-- Without an expiry the answer is NO_TXN. -/
theorem noTransaction_unmarked (he : s.engine.txn.expired = none) :
    (taken s r).noTransaction r = (taken s r).post r (plain r .noTxn) := by
  simp only [State.noTransaction, taken_expired, he]
  rfl

end

/-- Settles O32: every row that needs a transaction answers by the expired mark. -/
theorem noTransaction : Obligations.NoTransaction := by
  intro s r h ht hb ho
  rw [exec_noTransaction h ht hb ho]
  refine ⟨fun n he => ?_, fun he => ?_⟩
  · rw [noTransaction_expired ht ho he]
    exact congrArg _ (settle_contextChanged h.1.1 _ _ _)
  · rw [noTransaction_unmarked he, settle_answer h.1.1]

/-! ### The staged list (R68) -/

/-- The entry staged is in the list. -/
theorem mem_stageEntry (e : Staged) : ∀ l : List Staged, e ∈ stageEntry l e
  | [] => List.mem_singleton.2 rfl
  | x :: rest => by
    simp only [stageEntry]
    split
    · exact List.mem_cons_self
    · exact List.mem_cons_of_mem _ (mem_stageEntry e rest)

/-- An entry of another key stays in the list. -/
theorem mem_stageEntry_of_key_ne {e x : Staged} (hne : x.key ≠ e.key) : ∀ {l : List Staged}, x ∈ l → x ∈ stageEntry l e
  | y :: rest, hx => by
    simp only [stageEntry]
    rcases List.mem_cons.1 hx with rfl | hx
    · rw [if_neg hne]; exact List.mem_cons_self
    · split
      · exact List.mem_cons_of_mem _ hx
      · exact List.mem_cons_of_mem _ (mem_stageEntry_of_key_ne hne hx)

/-- A key that stands in the list keeps its place. -/
theorem stageEntry_keys_of_mem {e : Staged} : ∀ {l : List Staged}, e.key ∈ l.map Staged.key →
    (stageEntry l e).map Staged.key = l.map Staged.key
  | y :: rest, hx => by
    simp only [stageEntry]
    split <;> rename_i hy
    · simp only [List.map_cons, hy]
    · have hrest : e.key ∈ rest.map Staged.key := (List.mem_cons.1 hx).resolve_left (Ne.symm hy)
      simp only [List.map_cons, stageEntry_keys_of_mem hrest]

/-- A key that does not stand in the list joins it at the back. -/
theorem stageEntry_of_not_mem {e : Staged} : ∀ {l : List Staged}, e.key ∉ l.map Staged.key → stageEntry l e = l ++ [e]
  | [], _ => rfl
  | y :: rest, hx => by
    simp only [List.map_cons, List.mem_cons, not_or] at hx
    rw [stageEntry, if_neg (Ne.symm hx.1), stageEntry_of_not_mem hx.2, List.cons_append]

/-- Staging keeps one entry per key. -/
theorem stageEntry_keys_nodup (e : Staged) {l : List Staged} (h : (l.map Staged.key).Nodup) :
    ((stageEntry l e).map Staged.key).Nodup := by
  by_cases hmem : e.key ∈ l.map Staged.key
  · rwa [stageEntry_keys_of_mem hmem]
  · rw [stageEntry_of_not_mem hmem, List.map_append]
    exact h.append (List.nodup_singleton _) (List.disjoint_singleton.2 hmem)

/-! ### Staging an entry (R68) -/

section
variable {s : State} {r : Request} {t : OpenTxn} {e : Staged}

/-- A list within its limits takes the entry and completes OK with the entry count. -/
theorem settle_stage_fits (h : Takes s r) (ht : r.isTxnRequest = true)
    (hfit : (stageEntry t.staged e).length ≤ 8 ∧ stagedBytes (stageEntry t.staged e) ≤ 1024) :
    ((taken s r).stage r t e).settle = completes
      (contextChanged s r s.engine.txnCounter
        { s.engine.txn with openTxn := some { t with staged := stageEntry t.staged e }, timer := .stopped }) r
      { plain r .ok with length := e.length, aux := BitVec.ofNat 16 (stageEntry t.staged e).length } := by
  have hfits : stagingFits (stageEntry t.staged e) = true := by
    simp only [stagingFits, hfit.1, hfit.2, decide_true, Bool.and_self]
  simp only [State.stage, hfits, if_true, State.setTxn, taken_engine_of_txn ht]
  exact settle_contextChanged h _ _ _

/-- A list that would pass its limits stays as it was, and the answer is TXN_FULL with the entry count. -/
theorem settle_stage_full (h : Takes s r)
    (hfull : 8 < (stageEntry t.staged e).length ∨ 1024 < stagedBytes (stageEntry t.staged e)) :
    ((taken s r).stage r t e).settle =
      completes (taken s r) r { plain r .txnFull with aux := BitVec.ofNat 16 t.staged.length } := by
  have hfits : stagingFits (stageEntry t.staged e) = false := by
    simp only [stagingFits, Bool.and_eq_false_iff, decide_eq_false_iff_not, Nat.not_le]
    exact hfull
  simp only [State.stage, hfits, Bool.false_eq_true, if_false]
  exact settle_answer h _

end

/-! ### The checks of an IN_TXN PUT or DELETE (R69, R70) -/

/-- The body of an IN_TXN PUT or DELETE. -/
def stagingBody (r : Request) (s : State) : State := if r.kind = 1 then inTxnPutBody r s else inTxnDeleteBody r s

/-- The entry an IN_TXN PUT or DELETE stages. -/
def stagedBy (r : Request) : Staged :=
  { key := r.key, value := if r.kind = 1 then some r.payload else none, cond := r.condition }

/-- A PUT stages its value bytes. -/
theorem stagedBy_put {r : Request} (hk : r.kind = 1) :
    stagedBy r = { key := r.key, value := some r.payload, cond := r.condition } := by
  rw [stagedBy, if_pos hk]

/-- A DELETE stages no value. -/
theorem stagedBy_delete {r : Request} (hk : r.kind = 3) :
    stagedBy r = { key := r.key, value := none, cond := r.condition } := by
  rw [stagedBy, if_neg (by rw [hk]; decide)]

section
variable {s : State} {r : Request} {t : OpenTxn}

/-- The command of an IN_TXN PUT's or DELETE's row runs its body. -/
theorem exec_staging (h : Serves s r) (hk : r.kind = 1 ∨ r.kind = 3) (hin : r.inTxn = true) :
    exec (rowOf r) s = .next (stagingBody r (taken s r)).settle := by
  rcases hk with hk | hk
  · rw [rowOf_inTxnPut hk hin, exec_of_serves h rfl (isInTxn_of hk hin), stagingBody, if_pos hk]
  · rw [rowOf_inTxnDelete hk hin, exec_of_serves h rfl (isInTxn_of hk hin), stagingBody,
      if_neg (by rw [hk]; decide)]

/-- The zone test turns the request away. -/
theorem stagingBody_zone (ho : s.engine.txn.openTxn = some t) {st : Status} (ha : s.writeAccess (zoneOf r.key) = some st) :
    stagingBody r (taken s r) = (taken s r).post r (plain r st) := by
  unfold stagingBody
  split
  · simp only [inTxnPutBody, taken_openTxn, ho, taken_writeAccess, ha]; rfl
  · simp only [inTxnDeleteBody, taken_openTxn, ho, taken_writeAccess, ha]; rfl

/-- A DELETE of a key without a LIVE entry. -/
theorem stagingBody_notFound (ho : s.engine.txn.openTxn = some t) (ha : s.writeAccess (zoneOf r.key) = none) (hk : r.kind = 3)
    (hd : findLive s.engine.dir.entries r.key = none) :
    stagingBody r (taken s r) = (taken s r).post r (plain r .notFound) := by
  rw [stagingBody, if_neg (by rw [hk]; decide)]
  simp only [inTxnDeleteBody, taken_openTxn, ho, taken_writeAccess, ha, taken_dir, hd, Option.isNone_none, if_true]
  rfl

/-- A PUT, or a DELETE of a LIVE key, whose condition fails. -/
theorem stagingBody_condition (ho : s.engine.txn.openTxn = some t) (ha : s.writeAccess (zoneOf r.key) = none)
    (hk : r.kind = 1 ∨ (findLive s.engine.dir.entries r.key).isSome = true) {st : Status}
    (hc : conditionFails s.engine.dir.entries r.key r.condition = some st) :
    stagingBody r (taken s r) = (taken s r).post r { plain r st with
      version := (liveContents s.engine.dir.entries r.key).1, length := (liveContents s.engine.dir.entries r.key).2 } := by
  unfold stagingBody
  split <;> rename_i hput
  · simp only [inTxnPutBody, taken_openTxn, ho, taken_writeAccess, ha, taken_dir, hc, State.conditionFailed]
    rfl
  · have hlive := Option.isNone_eq_false_iff.2 (hk.resolve_left hput)
    simp only [inTxnDeleteBody, taken_openTxn, ho, taken_writeAccess, ha, taken_dir, hlive, Bool.false_eq_true, if_false, hc,
      State.conditionFailed]
    rfl

/-- A PUT, or a DELETE of a LIVE key, that passes its checks. -/
theorem stagingBody_stages (ho : s.engine.txn.openTxn = some t) (ha : s.writeAccess (zoneOf r.key) = none)
    (hk : r.kind = 1 ∨ (findLive s.engine.dir.entries r.key).isSome = true)
    (hc : conditionFails s.engine.dir.entries r.key r.condition = none) :
    stagingBody r (taken s r) = (taken s r).stage r t (stagedBy r) := by
  unfold stagingBody stagedBy
  split <;> rename_i hput
  · simp only [inTxnPutBody, taken_openTxn, ho, taken_writeAccess, ha, taken_dir, hc]
  · have hlive := Option.isNone_eq_false_iff.2 (hk.resolve_left hput)
    simp only [inTxnDeleteBody, taken_openTxn, ho, taken_writeAccess, ha, taken_dir, hlive, Bool.false_eq_true, if_false, hc]

/-- A request that passes its checks is staged by the limits on the list. -/
theorem exec_staging_stages (h : Serves s r) (hk : r.kind = 1 ∨ r.kind = 3) (hin : r.inTxn = true)
    (ho : s.engine.txn.openTxn = some t) (ha : s.writeAccess (zoneOf r.key) = none)
    (hlive : r.kind = 1 ∨ (findLive s.engine.dir.entries r.key).isSome = true)
    (hc : conditionFails s.engine.dir.entries r.key r.condition = none) :
    let l := stageEntry t.staged (stagedBy r)
    (l.length ≤ 8 ∧ stagedBytes l ≤ 1024 → exec (rowOf r) s = .next (completes
      (contextChanged s r s.engine.txnCounter { s.engine.txn with openTxn := some { t with staged := l }, timer := .stopped }) r
      { plain r .ok with length := (stagedBy r).length, aux := BitVec.ofNat 16 l.length })) ∧
    (8 < l.length ∨ 1024 < stagedBytes l → exec (rowOf r) s = .next (completes (taken s r) r
      { plain r .txnFull with aux := BitVec.ofNat 16 t.staged.length })) := by
  have ht : r.isTxnRequest = true :=
    (isTxnRequest_iff r).2 (.inr (.inr (.inr ⟨hk.elim .inl (.inr ∘ .inr), hin⟩)))
  rw [exec_staging h hk hin, stagingBody_stages ho ha hlive hc]
  exact ⟨fun hfit => congrArg _ (settle_stage_fits h.1.1 ht hfit), fun hfull => congrArg _ (settle_stage_full h.1.1 hfull)⟩

end

/-- Settles O33: each check in its order answers at once; what passes them all is staged by the limits on the list. -/
theorem staging : Obligations.Staging := by
  refine ⟨fun s r t h hk hin ho => ?checks, fun s r t h hin ho ha hc => ?staged, fun l e hnodup => ?list⟩
  case checks =>
    intro es
    have answers {c : Completion} (hb : stagingBody r (taken s r) = (taken s r).post r c) :
        exec (rowOf r) s = .next (completes (taken s r) r c) := by
      rw [exec_staging h hk hin, hb, settle_answer h.1.1]
    refine ⟨fun st ha => answers (stagingBody_zone ho ha), fun ha => ⟨fun hdel hnone => ?_, fun e n hlive hif => ?_,
      fun e n hlive hif hv => ?_, fun hput hnone hif => ?_⟩⟩
    · rw [← rowOf_inTxnDelete hdel hin]
      exact answers (stagingBody_notFound ho ha hdel hnone)
    · have hc : conditionFails es r.key r.condition = some .exists_ := by
        rw [condition_of_ifAbsent hif, conditionFails_exists hlive]
      rw [answers (stagingBody_condition ho ha (.inr (by rw [hlive]; rfl)) hc), liveContents_of_live hlive]
    · have hc : conditionFails es r.key r.condition = some .versionMismatch := by
        rw [condition_of_ifVersion h.2.2 hif, conditionFails_mismatch hlive hv]
      rw [answers (stagingBody_condition ho ha (.inr (by rw [hlive]; rfl)) hc), liveContents_of_live hlive]
    · have hc : conditionFails es r.key r.condition = some .versionMismatch := by
        rw [condition_of_ifVersion h.2.2 hif, conditionFails_dead hnone]
      rw [← rowOf_inTxnPut hput hin, answers (stagingBody_condition ho ha (.inl hput) hc), liveContents_of_dead hnone]
      rfl
  case staged =>
    refine ⟨fun hput => ?_, fun hdel hlive => ?_⟩
    · have ends := exec_staging_stages h (.inl hput) hin ho ha (.inl hput) hc
      rwa [rowOf_inTxnPut hput hin, stagedBy_put hput] at ends
    · have ends := exec_staging_stages h (.inr hdel) hin ho ha (.inr hlive) hc
      rwa [rowOf_inTxnDelete hdel hin, stagedBy_delete hdel] at ends
  case list =>
    exact ⟨stageEntry_keys_nodup e hnodup, mem_stageEntry e l, fun x hx hne => mem_stageEntry_of_key_ne hne hx,
      stageEntry_keys_of_mem, stageEntry_of_not_mem⟩

/-! ### IN_TXN GET (R71) -/

section
variable {s : State} {r : Request}

/-- A key without a LIVE entry is NOT_FOUND in the committed state. -/
theorem committedGet_notFound (h : Takes s r) (hnone : findLive s.engine.dir.entries r.key = none) :
    (committedGet r (taken s r)).settle = completes (taken s r) r (plain r .notFound) := by
  simp only [committedGet, taken_dir, hnone]
  exact settle_answer h _

/-- The frame of a LIVE entry is read from its header line on. -/
theorem committedGet_reads (h : Takes s r) {e : Entry} {n : Nat} (hlive : findLive s.engine.dir.entries r.key = some (e, n))
    (he : s.seq.erase = none) :
    (committedGet r (taken s r)).settle = reads (taken s r) [.readFrame e 0 [], .get r e] e.sector e.line := by
  obtain ⟨-, hp, hw⟩ := taken_of_takes h
  simp only [committedGet, taken_dir, hlive]
  rw [← hw, push_waiting, readFrameBegin_waiting (by exact he), State.settle, moves_reads hp, hw]

end

/-- Settles O34: the read test, then the staged entry of the key, then the committed state as a GET reads it. -/
theorem inTxnGetAnswers : Obligations.InTxnGetAnswers := by
  intro s r t h hk hin ho
  have hexec : exec .inTxnGet s = .next (inTxnGetBody r (taken s r)).settle := exec_of_serves h rfl (isInTxn_of hk hin)
  rw [hexec]
  simp only [inTxnGetBody, taken_openTxn, ho, taken_readAccess]
  refine ⟨fun st ha => ?_, fun ha => ⟨fun e v he hv => ?_, fun e he hv => ?_, fun hstaged hnone => ?_,
    fun e n hstaged hlive hfree => ?_⟩⟩
  · rw [ha]
    exact congrArg _ (settle_answer h.1.1 _)
  · simp only [ha, he, hv]
    exact congrArg _ (settle_answer h.1.1 _)
  · simp only [ha, he, hv]
    exact congrArg _ (settle_answer h.1.1 _)
  · simp only [ha, hstaged]
    rw [committedGet_notFound h.1.1 hnone]
  · simp only [ha, hstaged]
    rw [committedGet_reads h.1.1 hlive hfree]

end Sys2Proof.Certificates
end

