-- ==== Sys2Proof/Proofs/IdleTimer.lean ====
section
/-! The idle timer's expiry, and the 10 ms tick of an empty queue by which it and the elapsed erase time count (R72, R73,
R109). -/

namespace Sys2Proof.Certificates

open Sys2Proof Sys2Proof.Machine

/-! ### The expiry (R73) -/

/-- The state once the transaction numbered `n` has expired. -/
def txnExpired (s : State) (n : TxnNo) : State :=
  { s with
    engine := { s.engine with txn := { openTxn := none, timer := .stopped, expired := some n } },
    window := { s.window with events := s.window.events ||| 0x04, expiredTxn := n } }

section
variable {s : State}

/-- The expiry of the running timer drops the open transaction. -/
theorem timerExpires_running {l e : Nat} {t : OpenTxn} (ht : s.engine.txn.timer = .running l e)
    (ho : s.engine.txn.openTxn = some t) : s.timerExpires = txnExpired s t.number := by
  simp only [State.timerExpires, ht, ho]
  rfl

/-- A timer that is not running does not expire. -/
theorem timerExpires_not_running (h : ∀ l e, s.engine.txn.timer ≠ .running l e) : s.timerExpires = s := by
  unfold State.timerExpires
  split
  · rename_i l e _ ht _
    exact absurd ht (h l e)
  · rfl

/-! ### The tick (R72, R109) -/

/-- A step on an empty queue is a tick. -/
theorem step_of_empty (h : s.pending = []) : step s = .next s.tick := by
  simp only [step, h]

/-- No tick passes while the part does not run, or while a line read or program is in hand. -/
theorem tick_held (h : s.busActive = false ∨ s.seq.inHand ≠ none) : s.tick = s := by
  refine if_neg fun hpass => ?_
  obtain ⟨hbus, hidle⟩ := (Bool.and_eq_true _ _).mp hpass
  rcases h with h | h
  · rw [h] at hbus; cases hbus
  · exact h (Option.isNone_iff_eq_none.1 hidle)

/-- A tick counts for the idle timer, then for the erase in flight. -/
theorem tick_passes (hb : s.busActive = true) (hi : s.seq.inHand = none) : s.tick = s.tickTimer.tickErase := by
  simp only [State.tick, hb, hi, Option.isNone_none, Bool.and_self, if_true]

/-- Below its limit the idle timer counts the tick. -/
theorem tickTimer_counts {l e : Nat} (ht : s.engine.txn.timer = .running l e) (hl : e + 1 < l) :
    s.tickTimer = { s with engine := { s.engine with txn := { s.engine.txn with timer := .running l (e + 1) } } } := by
  simp only [State.tickTimer, ht, Nat.not_le.2 hl, if_false]

/-- The idle timer expires at its limit. -/
theorem tickTimer_expires {l e : Nat} (ht : s.engine.txn.timer = .running l e) (hl : l ≤ e + 1) :
    s.tickTimer = s.timerExpires := by
  simp only [State.tickTimer, ht, hl, if_true]

/-- A stopped idle timer does not count. -/
theorem tickTimer_stopped (ht : s.engine.txn.timer = .stopped) : s.tickTimer = s := by
  simp only [State.tickTimer, ht]

/-- Without an erase in flight no erase time counts. -/
theorem tickErase_without_erase (he : s.seq.erase = none) : s.tickErase = s := by
  simp only [State.tickErase, he]

/-- Below 200 ms the elapsed erase time rises by the tick's 10 ms. -/
theorem tickErase_counts {e : EraseRec} (he : s.seq.erase = some e) (hs : s.seq.state = .erasing) (hl : e.elapsed + 10 < 200) :
    s.tickErase = { s with seq := { s.seq with erase := some { e with elapsed := e.elapsed + 10 } } } := by
  simp only [State.tickErase, he, hs, if_true, Config.eraseLimitMs, Config.tickMs, Nat.not_le.2 hl, if_false]

end

/-- Settles O46: the running timer's expiry, and none of a timer that is not running. -/
theorem idleTimerExpires : Obligations.IdleTimerExpires := by
  intro s
  refine ⟨fun l e t ht ho => ?_, fun h => ?_⟩
  · exact congrArg _ (timerExpires_running ht ho)
  · exact congrArg _ (timerExpires_not_running h)

/-- Settles O2: the tick of an empty queue, by what holds it back and by what counts. -/
theorem emptyQueueTicks : Obligations.EmptyQueueTicks := by
  intro s hq
  rw [step_of_empty hq]
  refine ⟨fun hheld => ?_, fun l e hb hi he ht hl => ?_, fun l e t hb hi he ht ho hl => ?_, fun e hb hi ht he hs hl => ?_⟩
  · rw [tick_held hheld]
  · rw [tick_passes hb hi, tickTimer_counts ht hl]
    exact congrArg _ (tickErase_without_erase (by exact he))
  · rw [tick_passes hb hi, tickTimer_expires ht hl, timerExpires_running ht ho]
    exact congrArg _ (tickErase_without_erase (s := txnExpired s t.number) he)
  · rw [tick_passes hb hi, tickTimer_stopped ht, tickErase_counts he hs hl]

end Sys2Proof.Certificates
end

