-- ==== Sys2Proof/Proofs/EraseEnds.lean ====
section
/-! The end of the compactor's background erase while no job waits for it (R97, R105, R109). -/

namespace Sys2Proof.Certificates

open Sys2Proof Sys2Proof.Machine

/-- The outcome of a background erase for which no job waits leaves the compactor in FINISHING, and nothing moves. -/
theorem settle_deliverErase_alone {v : State} (hc : v.ctl = { stack := [], reply := none }) (hp : v.seq.pending = none)
    (hs : v.comp.stage = .erasing) (passed : Bool) :
    (v.deliverErase true (if passed then .pass else .fail)).settle = eraseTaken v passed := by
  have hdeliver : v.deliverErase true (if passed then .pass else .fail) = eraseTaken v passed := by
    have hnoJob : (eraseTaken v passed).wakeWaiting = eraseTaken v passed := by
      simp only [State.wakeWaiting, show (eraseTaken v passed).ctl.stack = [] by rw [eraseTaken, hc]]
    rw [← hnoJob]
    cases passed <;> simp only [State.deliverErase, State.compactorErased, hs, if_true, Bool.false_eq_true, if_false] <;> rfl
  rw [hdeliver]
  exact settle_of_idle (by rw [eraseTaken, hc]) hp

/-- The lines after an erase of `x` that ended PASS: its own are BLANK, the others as before (R109). -/
theorem lineAt_of_blanked {s t : State} {x : Nat} (h : t.seq.cells = replaceSector s.seq.cells x (fun _ => .blank)) :
    (∀ l, l < 256 → t.lineAt x l = .blank) ∧ ∀ y l, y ≠ x → l < 256 → t.lineAt y l = s.lineAt y l := by
  refine ⟨fun l hl => ?_, fun y l hy hl => ?_⟩
  · rw [State.lineAt, h, readCell_replaceSector_in _ _ _ _ hl]
  · rw [State.lineAt, h, readCell_replaceSector_out _ _ _ _ (by simp only [lineAddr]; omega)]
    rfl

/-- Settles O45: the background erase ends PASS, or FAIL by its verify or its time limit. -/
theorem eraseEnds : Obligations.EraseEnds := by
  intro s e hc hp hw he hs hb hstage
  have hpass : (s.eraseEnds true).settle = eraseTaken (erased s e.sector) true := by
    rw [eraseEnds_pass he hs hw, hb]
    exact settle_deliverErase_alone (v := erased s e.sector) hc hp hstage true
  have hfail : (s.eraseEnds false).settle = eraseTaken (eraseFailed s e.sector) false := by
    rw [eraseEnds_fail he hs hw, hb]
    exact settle_deliverErase_alone (v := eraseFailed s e.sector) hc hp hstage false
  obtain ⟨hblank, hothers⟩ := lineAt_of_blanked (s := s) (t := eraseTaken (erased s e.sector) true) (x := e.sector) rfl
  obtain ⟨hfirst, hlines, hothers'⟩ := failedErase_of_cells (s := s) (t := eraseTaken (eraseFailed s e.sector) false)
    (x := e.sector) (n := s.freeCtr) rfl
  intro event hev
  simp only [List.mem_cons, List.not_mem_nil, or_false] at hev
  rcases hev with rfl | rfl | rfl
  · exact ⟨_, congrArg Host.Outcome.next hpass, rfl, fun _ => hblank, fun h => absurd rfl h, hothers⟩
  · exact ⟨_, congrArg Host.Outcome.next hfail, rfl, fun h => absurd h (by decide), fun _ => ⟨hfirst, hlines⟩, hothers'⟩
  · exact ⟨_, congrArg Host.Outcome.next hfail, rfl, fun h => absurd h (by decide), fun _ => ⟨hfirst, hlines⟩, hothers'⟩

end Sys2Proof.Certificates
end

