-- ==== Sys2Proof/Proofs/Reclaim.lean ====
section
/-! RECLAIM (R86 to R89, R99, R100): its tests, what the select step's failing ends make of it, and its ends. -/

namespace Sys2Proof.Certificates

open Sys2Proof Sys2Proof.Machine

/-! ### The tests (R100) -/

/-- The state once a RECLAIM's target and no-gain limit have been discarded. -/
def targetDropped (v : State) : State := { v with comp := { v.comp with reclaimTarget := none, noGainLimit := none } }

/-- A RECLAIM that ends with the status `st`, the FREE count its aux. -/
def reclaimEnded (r : Request) (st : Status) (v : State) : State :=
  completes (targetDropped v) r { plain r st with aux := BitVec.ofNat 16 v.freeCount }

/-- A RECLAIM that is answered has ended. -/
theorem moves_reclaimEnds {v : State} (hd : v.engine.readOnlyDue = false) (hp : v.seq.pending = none) (r : Request) (st : Status)
    (n : Nat) : State.moves n ((waiting v []).reclaimEnds r st) = reclaimEnded r st v := by
  rw [State.reclaimEnds, State.answerAux]
  refine (congrArg _ (post_eq_completes (targetDropped (waiting v [])) _ _ hd)).trans ?_
  exact moves_completes (s := targetDropped (waiting v [])) hp n _ _

section
variable {v : State} (hd : v.engine.readOnlyDue = false) (hp : v.seq.pending = none) (r : Request) (b : Bool)
include hd hp

/-- In a HALTED store the tests end a RECLAIM HALTED. -/
theorem moves_reclaimTests_halted (hs : v.engine.store = .halted) (n : Nat) :
    State.moves n ((waiting v []).reclaimTests r b) = reclaimEnded r .halted v := by
  have hs : (waiting v []).engine.store = .halted := hs
  simp only [State.reclaimTests, hs, if_true, moves_reclaimEnds hd hp]

/-- In a READ_ONLY store the tests end a RECLAIM READ_ONLY. -/
theorem moves_reclaimTests_readOnly (hs : v.engine.store = .readOnly) (n : Nat) :
    State.moves n ((waiting v []).reclaimTests r b) = reclaimEnded r .readOnly v := by
  have hs : (waiting v []).engine.store = .readOnly := hs
  simp only [State.reclaimTests, hs, reduceCtorEq, if_false, if_true, moves_reclaimEnds hd hp]

section
variable {m : Nat} (hs : v.engine.store = .ready) (ht : v.comp.reclaimTarget = some m)
include hs ht

/-- In a READY store a target that is met ends a RECLAIM OK. -/
theorem moves_reclaimTests_met (hm : m ≤ v.freeCount) (n : Nat) :
    State.moves n ((waiting v []).reclaimTests r b) = reclaimEnded r .ok v := by
  have hs : (waiting v []).engine.store = .ready := hs
  have hmet : (waiting v []).comp.reclaimTarget.getD 0 ≤ (waiting v []).freeCount := by
    rw [show (waiting v []).comp.reclaimTarget = some m from ht]; exact hm
  simp only [State.reclaimTests, hs, reduceCtorEq, if_false, hmet, if_true, moves_reclaimEnds hd hp]

/-- In a READY store a target that is not met ends a RECLAIM FULL when the compactor cannot gain. -/
theorem moves_reclaimTests_full (hm : v.freeCount < m) (hg : v.cannotGain b = true) (n : Nat) :
    State.moves n ((waiting v []).reclaimTests r b) = reclaimEnded r .full v := by
  have hs : (waiting v []).engine.store = .ready := hs
  have hmissed : ¬ (waiting v []).comp.reclaimTarget.getD 0 ≤ (waiting v []).freeCount := by
    rw [show (waiting v []).comp.reclaimTarget = some m from ht]; exact Nat.not_le.2 hm
  have hg : (waiting v []).cannotGain b = true := hg
  simp only [State.reclaimTests, hs, reduceCtorEq, if_false, hmissed, hg, if_true, moves_reclaimEnds hd hp]

end

end

/-- A step's end reaches the tests of a RECLAIM. -/
theorem moves_reclaim_stepEnd (v : State) (r : Request) (b : Bool) (n : Nat) :
    State.moves (n + 1) (replying v [.reclaim r] (.stepEnd b)) = State.moves n ((waiting v []).reclaimTests r b) :=
  moves_replying n v (.reclaim r) [] (.stepEnd b)

/-- A step's end with nothing due reaches the tests of a RECLAIM. -/
theorem moves_reclaim_stepEnds {v : State} (hd : v.engine.readOnlyDue = false) (r : Request) (b : Bool) (n : Nat) :
    State.moves (n + 1) ((waiting v [.reclaim r]).stepEnds b) = State.moves n ((waiting v []).reclaimTests r b) := by
  rw [stepEnds_waiting, hd, show endsDue false (undue v) = v from undue_eq_self hd, moves_reclaim_stepEnd]

/-- A step's end in a READ_ONLY store ends a RECLAIM READ_ONLY. -/
theorem endsJob_reclaim_readOnly (r : Request) : EndsJob (.reclaim r) .readOnly (reclaimEnded r .readOnly) := by
  intro v n hs hd hp
  rw [moves_reclaim_stepEnd, moves_reclaimTests_readOnly hd hp r false hs]
  rfl

/-- A step's end in a HALTED store ends a RECLAIM HALTED. -/
theorem endsJob_reclaim_halted (r : Request) : EndsJob (.reclaim r) .halted (reclaimEnded r .halted) := by
  intro v n hs hd hp
  rw [moves_reclaim_stepEnd, moves_reclaimTests_halted hd hp r false hs]
  rfl

/-! ### Taking a RECLAIM (R99) -/

/-- Only a READY store serves a RECLAIM. -/
theorem store_of_serves_reclaim {s : State} {r : Request} (h : Serves s r) (hk : r.kind = 8) : s.engine.store = .ready := by
  obtain ⟨⟨⟨-, -, -, hm, hf, -⟩, -⟩, ht, -⟩ := h
  have hserved : stateTest .readOnly s.engine.dir.complete r ≠ none ∧ stateTest .unformatted s.engine.dir.complete r ≠ none ∧
      stateTest .halted s.engine.dir.complete r ≠ none := by
    simp [stateTest, hk, kGet, kNext, kInfo, kUnlock, kLock, kFormat]
  obtain ⟨hro, hun, hha⟩ := hserved
  cases hs : s.engine.store with
  | ready => rfl
  | readOnly => rw [hs] at ht; exact absurd ht hro
  | unformatted => rw [hs] at ht; exact absurd ht hun
  | halted => rw [hs] at ht; exact absurd ht hha
  | mounting => exact absurd hs hm
  | formatting => exact absurd hs hf

/-- The command that takes a RECLAIM records its target and limit and makes its tests. -/
theorem exec_reclaim_of_serves {s : State} {r : Request} (h : Serves s r) (hk : r.kind = 8) :
    exec .reclaim s = .next ((waiting (reclaiming (taken s r) r.param.toNat) []).reclaimTests r false).settle := by
  have hwait : waiting (reclaiming (taken s r) r.param.toNat) [] = reclaiming (taken s r) r.param.toNat := by
    obtain ⟨-, -, -, -, -, -, hctl, -⟩ := h.1.1
    exact waiting_eq_self hctl
  rw [hwait]
  simp only [exec, execReclaim]
  exact congrArg _ (taking_of_serves h _ _ (beq_iff_eq.2 hk))

/-- A RECLAIM whose target is not met goes on. -/
theorem goesOn_reclaiming {u : State} {r : Request} {n : Nat} (hs : u.engine.store = .ready) (hstop : u.comp.stopped = false)
    (hn : u.freeCount < n) : GoesOn (reclaiming u n) (.reclaim r) := by
  refine ⟨hs, hstop, fun l hl => ?_, n, rfl, hn⟩
  obtain rfl : max 1 u.closedCount = l := Option.some.inj hl
  exact Nat.lt_of_lt_of_le Nat.one_pos (Nat.le_max_left _ _)

/-- The command that takes a RECLAIM whose target is not met leads to the compactor's next step. -/
theorem exec_reclaim_goesOn {s : State} {r : Request} (h : Serves s r) (hk : r.kind = 8)
    (hg : GoesOn (reclaiming (taken s r) r.param.toNat) (.reclaim r)) :
    exec .reclaim s =
      .next (State.moves 8192 ((waiting (reclaiming (taken s r) r.param.toNat) []).nextStepInJob (.reclaim r))) := by
  have htests : (waiting (reclaiming (taken s r) r.param.toNat) []).reclaimTests r false =
      (waiting (reclaiming (taken s r) r.param.toNat) []).nextStepInJob (.reclaim r) :=
    (resume_of_goesOn (u := waiting (reclaiming (taken s r) r.param.toNat) []) (k := .reclaim r) hg).2
  rw [exec_reclaim_of_serves h hk, htests]
  rfl

/-! ### The select step within a job (R88, R89) -/

/-- The state once a select step has been refused for want of space, its READ_ONLY cause due. -/
def refusalDue (v : State) : State := { spaceRefused v with engine := { v.engine with readOnlyDue := true } }

section
variable {v : State} {k : Task} (hg : GoesOn v k) (hidle : v.comp.stage = .idle)
include hg hidle

/-- A job's next step outside a round is the select step. -/
theorem nextStepInJob_idle : (waiting v []).nextStepInJob k = (waiting v [k]).selectVictim := by
  rw [nextStepInJob_waiting hg (by rw [hidle]; decide)]
  simp only [State.grantStep, show (waiting v [k]).comp.stage = .idle from hidle]

/-- A select step refused for want of space is a READ_ONLY cause, and ends its job. -/
theorem moves_job_refused {ended : State → State} (hk : EndsJob k .readOnly ended)
    (hc : v.ctl = { stack := [], reply := none }) {x : Nat} (ht : v.tail = some x) (hclosed : v.tailClosed = true)
    (hlive : 0 < liveLinesIn v.engine.dir.entries x)
    (hnew : v.needsNewHead (liveLinesIn v.engine.dir.entries x) = true) (hfree : v.freeCount = 0)
    (hd : v.engine.readOnlyDue = false) (hp : v.seq.pending = none) (n : Nat) :
    State.moves (n + 1) ((waiting v []).nextStepInJob k) = ended (turnsReadOnly (spaceRefused v)) := by
  have hreport : (waiting (spaceRefused v) [k]).reportReadOnly = waiting (refusalDue v) [k] := if_pos hg.1
  have hundue : undue (waiting (refusalDue v) []) = spaceRefused v := by
    rw [waiting_eq_self (by exact hc)]
    exact undue_eq_self (s := spaceRefused v) hd
  have hselect : (waiting v []).nextStepInJob k = (waiting (refusalDue v) [k]).stepEnds false := by
    rw [nextStepInJob_idle hg hidle, ← hreport]
    exact selectVictim_refused (s := waiting v [k]) ht hclosed hlive hnew hfree
  rw [hselect, moves_stepEnds_readOnly hk (v := refusalDue v) hg.1 rfl hp, hundue]

end

/-- A tail that is not CLOSED ends a RECLAIM FULL. -/
theorem moves_reclaim_not_closed {v : State} {r : Request} (hg : GoesOn v (.reclaim r)) (hidle : v.comp.stage = .idle)
    (htail : v.tailClosed = false) (hd : v.engine.readOnlyDue = false) (hp : v.seq.pending = none) (n : Nat) :
    State.moves (n + 1) ((waiting v []).nextStepInJob (.reclaim r)) = reclaimEnded r .full v := by
  obtain ⟨hs, -, -, m, htarget, hm⟩ := id hg
  rw [nextStepInJob_idle hg hidle, selectVictim_not_closed (by exact htail), moves_reclaim_stepEnds hd,
    moves_reclaimTests_full hd hp r true hs htarget hm rfl]

/-! ### The ends -/

/-- The end of a RECLAIM whose select step was refused with no sector FREE. -/
theorem reclaimEnded_refused {u : State} {r : Request} {n : Nat} (hs : u.engine.store = .ready) (hfree : u.freeCount = 0) :
    reclaimEnded r .readOnly (turnsReadOnly (spaceRefused (reclaiming u n))) =
      completes (turnsReadOnly { u with
        comp := { u.comp with noGain := 0, reclaimTarget := none, noGainLimit := none, refused := some 0 } }) r
        { plain r .readOnly with aux := 0 } := by
  have hturns : turnsReadOnly (spaceRefused (reclaiming u n)) =
      { turnsReadOnly u with comp := (spaceRefused (reclaiming u n)).comp } := by
    simp only [turnsReadOnly, spaceRefused, reclaiming, hs, if_true]
  have hcount : ({ turnsReadOnly u with comp := (spaceRefused (reclaiming u n)).comp } : State).freeCount = 0 := by
    rw [turnsReadOnly, if_pos hs]; exact hfree
  rw [hturns, reclaimEnded, hcount]
  simp only [turnsReadOnly, hs, if_true]
  rfl

/-- PFW# taken while a RECLAIM waits for the background erase abandons the round and completes it HALTED. -/
theorem exec_pfwAsserted_reclaim {s : State} {r : Request} {e : EraseRec} (h : WaitsForErase s (.reclaim r) e)
    (hm : s.engine.store ≠ .mounting) (hpow : s.pins.powered = true) (hreset : s.resetInProgress = false)
    (hpfw : s.pins.pfwAsserted = false) (hh : s.seq.halted = false) :
    exec .pfwAsserted s = .next (reclaimEnded r .halted (roundAbandoned s e)) := by
  obtain ⟨hctl, he, hb, -, hp, hw, hd, hstage, -⟩ := h
  have hmount : (pfwChanged s).mountRunning = false := mountRunning_eq_false (.inl hm)
  have hwakes : (storeHalted (pfwChanged s)).sequencerWarning.wakeWaiting = replying (roundAbandoned s e) [.reclaim r] .wake := by
    rw [sequencerWarning_of_erase (by exact he) (by exact hp) (by exact hw), hb,
      ← waiting_eq_self (s := eraseAbandoned (storeHalted (pfwChanged s)) e) hctl]
    have hstage : (waiting (eraseAbandoned (storeHalted (pfwChanged s)) e) [.reclaim r]).comp.stage = .erasing := hstage
    simp only [State.deliverErase, State.compactorErased, hstage, if_true]
    rfl
  rw [exec_pfwAsserted_taken hpow hreset hpfw hh, takeWarning_of_no_mount hmount, hwakes, settle_replying]
  exact congrArg _ (moves_reclaimTests_halted (v := roundAbandoned s e) hd rfl r false rfl 8191)

/-- Settles O36: how a RECLAIM begins, what each end of a step is followed by, and how it ends. -/
theorem reclaimAnswers : Obligations.ReclaimAnswers := by
  refine ⟨fun s r h hk => ?begun, fun r => ⟨placedInJob_of_endsJob (endsJob_reclaim_readOnly r),
      copyFails_of_endsJob (endsJob_reclaim_readOnly r) (endsJob_reclaim_halted r)⟩,
    fun r => erasedInJob (.reclaim r), fun s r t x c n d h hl hs htarget => ?formatted,
    fun s r e h hm hpow hreset hpfw hh =>
      ⟨_, exec_pfwAsserted_reclaim h hm hpow hreset hpfw hh, completes_store _ _ _, rfl, rfl, rfl⟩⟩
  case begun =>
    intro ended
    obtain ⟨hdue, hp, -⟩ := taken_of_takes h.1.1
    obtain ⟨-, -, -, -, -, -, hctl, -, -⟩ := h.1.1
    have hs : (taken s r).engine.store = .ready := (taken_store s r).trans (store_of_serves_reclaim h hk)
    refine ⟨fun hmet => ?_, fun hn hstop => ?_⟩
    · rw [exec_reclaim_of_serves h hk]
      exact congrArg _ (moves_reclaimTests_met (v := reclaiming (taken s r) r.param.toNat) hdue hp r false hs rfl hmet 8192)
    have hgoes : GoesOn (reclaiming (taken s r) r.param.toNat) (.reclaim r) := goesOn_reclaiming hs hstop hn
    have hstep := exec_reclaim_goesOn h hk hgoes
    refine ⟨fun hidle hopen => ?_, fun x hidle ht hcl hlive hspace h0 => ?_, ?_⟩
    · rw [hstep, moves_reclaim_not_closed hgoes hidle hopen hdue hp]
      rfl
    · rw [hstep, moves_job_refused hgoes hidle (endsJob_reclaim_readOnly r) hctl ht hcl
        (by rw [← taken_dir s r] at hlive; exact hlive) (by rw [← taken_dir s r] at hspace; exact hspace) h0 hdue hp]
      exact congrArg _ (reclaimEnded_refused hs h0)
    · exact stepInJob_of_moves (n := 8190) hgoes hdue hp hstep
  case formatted =>
    intro u ended
    obtain ⟨-, -, -, hp, hd, -⟩ := id h
    have hexec := exec_finishRound_formatted h hl
    refine ⟨fun hmet => ?_, fun l hfree hlim hle => ?_, fun hg => ?_⟩
    · rw [hexec, moves_reclaim_stepEnds (by exact hd),
        moves_reclaimTests_met (by exact hd) (by exact hp) r false (by exact hs) (by exact htarget) hmet]
      rfl
    · rw [hexec, moves_reclaim_stepEnds (by exact hd),
        moves_reclaimTests_full (by exact hd) (by exact hp) r false (by exact hs) (by exact htarget) hfree
          (cannotGain_of_limit (by exact hlim) hle false)]
      rfl
    · rw [moves_stepEnds_goesOn (by exact hg) (by exact hd)] at hexec
      exact stepInJob_of_moves (n := 8187) hg hd hp hexec

end Sys2Proof.Certificates
end

