-- ==== Sys2Proof/Proofs/SequencerFrame.lean ====
section
/-! Which operations leave the array sequencer as it is: those on the store state, the timer, the queues, the window and the tables,
and the ends of jobs and compaction steps. One lemma per operation. -/

namespace Sys2Proof.Certificates

open Sys2Proof Sys2Proof.Machine

variable (s : State)

/-! ### The store state, its causes and the idle timer (R42, R43, R72, R73) -/

@[simp] theorem setStore_seq (st : StoreState) : (s.setStore st).seq = s.seq := by
  unfold State.setStore; split <;> rfl

@[simp] theorem leaveStore_seq (old new : StoreState) : (s.leaveStore old new).seq = s.seq := by
  unfold State.leaveStore; split <;> simp

@[simp] theorem reportReadOnly_seq : s.reportReadOnly.seq = s.seq := by
  unfold State.reportReadOnly; split <;> rfl

@[simp] theorem applyReadOnly_seq : s.applyReadOnly.seq = s.seq := by
  simp only [State.applyReadOnly]; (repeat' split) <;> simp

@[simp] theorem restartTimer_seq : s.restartTimer.seq = s.seq := by
  unfold State.restartTimer; split <;> rfl

@[simp] theorem timerExpires_seq : s.timerExpires.seq = s.seq := by
  unfold State.timerExpires; split <;> rfl

@[simp] theorem tickTimer_seq : s.tickTimer.seq = s.seq := by
  unfold State.tickTimer; (repeat' split) <;> simp

/-! ### Completions and steps that end (R47, R86, R98, R167) -/

@[simp] theorem postRecord_seq (c : Completion) : (s.postRecord c).seq = s.seq := by
  simp only [State.postRecord]; split <;> rfl

@[simp] theorem post_seq (r : Request) (c : Completion) : (s.post r c).seq = s.seq := by
  unfold State.post; split <;> simp

@[simp] theorem answer_seq (r : Request) (st : Status) : (s.answer r st).seq = s.seq := post_seq s r _

@[simp] theorem answerAux_seq (r : Request) (st : Status) (aux : BitVec 16) : (s.answerAux r st aux).seq = s.seq :=
  post_seq s r _

@[simp] theorem answerRecord_seq (r : Request) (st : Status) (v : Seq) (n : Nat) : (s.answerRecord r st v n).seq = s.seq :=
  post_seq s r _

@[simp] theorem turnAway_seq (r : Request) (st : Status) : (s.turnAway r st).seq = s.seq := by
  unfold State.turnAway; split <;> simp

@[simp] theorem stepEnds_seq (b : Bool) : (s.stepEnds b).seq = s.seq := by simp [State.stepEnds]

@[simp] theorem endRound_seq : s.endRound.seq = s.seq := by rw [endRound_eq]; rfl

@[simp] theorem selectVictim_seq : s.selectVictim.seq = s.seq := by
  unfold State.selectVictim; (repeat' split) <;> simp

@[simp] theorem finishRoundReply_seq (r : Reply) : (s.finishRoundReply r).seq = s.seq := by
  unfold State.finishRoundReply; split <;> simp

@[simp] theorem bumpSeq_seq : s.bumpSeq.seq = s.seq := by
  simp only [State.bumpSeq]; split <;> simp

@[simp] theorem hostPlaced_seq : s.hostPlaced.seq = s.seq := bumpSeq_seq s

@[simp] theorem copyFailed_seq (o : AppendOutcome) : (s.copyFailed o).seq = s.seq := by
  unfold State.copyFailed; split <;> simp

@[simp] theorem copyAppendReply_seq (e : Entry) (r : Reply) : (s.copyAppendReply e r).seq = s.seq := by
  unfold State.copyAppendReply; split <;> simp

@[simp] theorem lossAppendReply_seq (e : Entry) (q : Seq) (r : Reply) : (s.lossAppendReply e q r).seq = s.seq := by
  unfold State.lossAppendReply; split <;> simp

@[simp] theorem getReply_seq (r : Request) (e : Entry) (p : Reply) : (s.getReply r e p).seq = s.seq := by
  unfold State.getReply; split <;> simp

@[simp] theorem reclaimEnds_seq (r : Request) (st : Status) : (s.reclaimEnds r st).seq = s.seq := by
  simp [State.reclaimEnds]

@[simp] theorem setZoneReply_seq (r : Request) (p : Reply) : (s.setZoneReply r p).seq = s.seq := by
  unfold State.setZoneReply; split <;> simp

@[simp] theorem formatStops_seq (r : Request) : (s.formatStops r).seq = s.seq := answerAux_seq s r _ _

@[simp] theorem formatEnds_seq (r : Request) : (s.formatEnds r).seq = s.seq := by simp [State.formatEnds]

@[simp] theorem formatOpenReply_seq (r : Request) (p : Reply) : (s.formatOpenReply r p).seq = s.seq := by
  unfold State.formatOpenReply; split <;> simp

@[simp] theorem mountEnds_seq : s.mountEnds.seq = s.seq := by simp [State.mountEnds]

@[simp] theorem mountStops_seq : s.mountStops.seq = s.seq := rfl

@[simp] theorem mountOpenReply_seq (p : Reply) : (s.mountOpenReply p).seq = s.seq := by
  unfold State.mountOpenReply; split <;> simp

/-! ### The tables, appends and anchor writes that end (R7, R10, R22, R146) -/

@[simp] theorem anchorEnds_seq (o : AnchorOutcome) : (s.anchorEnds o).seq = s.seq := by
  unfold State.anchorEnds State.anchorFailure; (repeat' split) <;> simp

@[simp] theorem retireSector_seq (x : Nat) : (s.retireSector x).seq = s.seq := by
  simp only [State.retireSector]; split <;> simp

@[simp] theorem closeHeadReply_seq (x : Nat) (r : Reply) : (s.closeHeadReply x r).seq = s.seq := by
  unfold State.closeHeadReply; split <;> simp

@[simp] theorem appendEnds_seq (o : AppendOutcome) : (s.appendEnds o).seq = s.seq := rfl

@[simp] theorem appendExhausted_seq : s.appendExhausted.seq = s.seq := by simp [State.appendExhausted]

/-! ### Kinds that ask for no operation (03, 04, 08) -/

@[simp] theorem conditionFailed_seq (r : Request) (st : Status) : (s.conditionFailed r st).seq = s.seq := by
  simp [State.conditionFailed]

@[simp] theorem nextBody_seq (r : Request) : (nextBody r s).seq = s.seq := by
  unfold nextBody; split <;> simp

@[simp] theorem infoBody_seq (r : Request) : (infoBody r s).seq = s.seq := post_seq s r _

@[simp] theorem beginBody_seq (r : Request) : (beginBody r s).seq = s.seq := by
  unfold beginBody; split <;> simp

@[simp] theorem noTransaction_seq (r : Request) : (s.noTransaction r).seq = s.seq := by
  unfold State.noTransaction; split <;> simp

@[simp] theorem stage_seq (r : Request) (t : OpenTxn) (e : Staged) : (s.stage r t e).seq = s.seq := by
  simp only [State.stage]; split <;> simp

@[simp] theorem inTxnPutBody_seq (r : Request) : (inTxnPutBody r s).seq = s.seq := by
  unfold inTxnPutBody; (repeat' split) <;> simp

@[simp] theorem inTxnDeleteBody_seq (r : Request) : (inTxnDeleteBody r s).seq = s.seq := by
  unfold inTxnDeleteBody; (repeat' split) <;> simp

@[simp] theorem abandonBody_seq (r : Request) : (abandonBody r s).seq = s.seq := by
  unfold abandonBody; split <;> simp

@[simp] theorem unlockBody_seq (r : Request) : (unlockBody r s).seq = s.seq := by
  simp only [unlockBody]; (repeat' split) <;> simp

@[simp] theorem lockBody_seq (r : Request) : (lockBody r s).seq = s.seq := by simp [lockBody]

/-! ### Bus accesses but for the soft reset (R159, R160, R168 to R172) -/

@[simp] theorem submit_seq : s.submit.seq = s.seq := by
  unfold State.submit; (repeat' split) <;> rfl

@[simp] theorem popHead_seq : s.popHead.seq = s.seq := by
  unfold State.popHead; split <;> rfl

@[simp] theorem rewindHead_seq : s.rewindHead.seq = s.seq := by
  unfold State.rewindHead; split <;> rfl

@[simp] theorem fillByte_seq (b : Byte) : (s.fillByte b).seq = s.seq := by
  unfold State.fillByte; split <;> rfl

@[simp] theorem capture_seq (r : CaptureReg) : (s.capture r).seq = s.seq := by
  cases r <;> rfl

/-! ### Outcomes that are delivered (R63, R97, R113) -/

@[simp] theorem wakeWaiting_seq : s.wakeWaiting.seq = s.seq := by
  unfold State.wakeWaiting; split <;> rfl

end Sys2Proof.Certificates
end

