-- ==== Sys2Proof/Proofs/SequencerDriven.lean ====
section
/-! What jobs, compaction steps and mount do to the array sequencer: they ask for line operations and for sector erases, and a pending
erase begins. What these three keep, every internal move keeps.A lemma below has a hypothesis on the state an operation is
applied to, which `simp` brings to the field lemmas of Laws/State: these hold by `rfl`, and `-implicitDefEqProofs` keeps their proofs. -/

namespace Sys2Proof.Certificates

open Sys2Proof Sys2Proof.Machine

/-- Jobs, compaction steps and mount lead the sequencer from `q` to another: by line operations and erases that they ask for (R106,
R107, R109), and by the pending erase that leaves its place to begin (R113). -/
inductive Driven (q : Sequencer) : Sequencer → Prop
  | refl : Driven q q
  | issue {s : State} (op : LineOp) : Driven q s.seq → Driven q (s.issue op).seq
  | issueErase {s : State} (x : Nat) (background : Bool) : Driven q s.seq → Driven q (s.issueErase x background).seq
  | unpend {r : Sequencer} : Driven q r → Driven q { r with pending := none }

/-- A property of the sequencer that an operation asked for, an erase asked for and a pending erase's beginning keep. -/
structure KeptByJobs (P : Sequencer → Prop) : Prop where
  issue : ∀ (s : State) (op : LineOp), P s.seq → P (s.issue op).seq
  issueErase : ∀ (s : State) (x : Nat) (background : Bool), P s.seq → P (s.issueErase x background).seq
  unpend : ∀ q : Sequencer, P q → P { q with pending := none }

/-- What jobs keep holds wherever they lead. -/
theorem Driven.keeps {P : Sequencer → Prop} (hP : KeptByJobs P) {q r : Sequencer} (h : Driven q r) (hq : P q) : P r := by
  induction h with
  | refl => exact hq
  | issue op _ ih => exact hP.issue _ op ih
  | issueErase x b _ ih => exact hP.issueErase _ x b ih
  | unpend _ ih => exact hP.unpend _ ih

variable {q : Sequencer} {s : State}

/-! ### Line operations and erases (R106 to R109) -/

@[simp] theorem issueRead_driven (x l : Nat) (h : Driven q s.seq) : Driven q (s.issueRead x l).seq := h.issue _

@[simp] theorem issueProgram_driven (x l : Nat) (d : LineData) (h : Driven q s.seq) : Driven q (s.issueProgram x l d).seq :=
  h.issue _

@[simp] theorem issueErase_driven (x : Nat) (background : Bool) (h : Driven q s.seq) :
    Driven q (s.issueErase x background).seq := h.issueErase x background

/-! ### Anchor writes and retirement (R10, R145, R146) -/

@[simp] theorem programPart_driven (a : AnchorRecord) (second : Bool) (x slot part : Nat) (h : Driven q s.seq) :
    Driven q (s.programPart a second x slot part).seq := by simp -implicitDefEqProofs [State.programPart, h]

@[simp] theorem placeRecord_driven (a : AnchorRecord) (second : Bool) (h : Driven q s.seq) :
    Driven q (s.placeRecord a second).seq := by
  unfold State.placeRecord; (repeat' split) <;> simp -implicitDefEqProofs [h]

@[simp] theorem anchorWrite_driven (change : AnchorRecord → AnchorRecord) (h : Driven q s.seq) :
    Driven q (s.anchorWrite change).seq := by simp [State.anchorWrite, h]

@[simp] theorem anchorWriteReply_driven (a : AnchorRecord) (second : Bool) (p : AnchorPhase) (r : Reply) (h : Driven q s.seq) :
    Driven q (s.anchorWriteReply a second p r).seq := by
  unfold State.anchorWriteReply; (repeat' split) <;> simp [h]

@[simp] theorem retireBegin_driven (x : Nat) (h : Driven q s.seq) : Driven q (s.retireBegin x).seq := by
  simp -implicitDefEqProofs [State.retireBegin, h]

/-! ### Formatting, opening and closing a sector (R5 to R7) -/

@[simp] theorem formatSector_driven (x c : Nat) (h : Driven q s.seq) : Driven q (s.formatSector x c).seq := by
  simp -implicitDefEqProofs [State.formatSector, h]

@[simp] theorem formatLineReply_driven (x c : Nat) (r : Reply) (h : Driven q s.seq) :
    Driven q (s.formatLineReply x c r).seq := by
  unfold State.formatLineReply; split <;> simp [h]

@[simp] theorem openHead_driven (h : Driven q s.seq) : Driven q s.openHead.seq := by
  unfold State.openHead; (repeat' split) <;> simp -implicitDefEqProofs [h]

@[simp] theorem openRetryReply_driven (r : Reply) (h : Driven q s.seq) : Driven q (s.openRetryReply r).seq := by
  unfold State.openRetryReply; (repeat' split) <;> simp [h]

@[simp] theorem openHeadReply_driven (x : Nat) (ring : Seq) (r : Reply) (h : Driven q s.seq) :
    Driven q (s.openHeadReply x ring r).seq := by
  unfold State.openHeadReply; split <;> simp -implicitDefEqProofs [h]

@[simp] theorem closeHead_driven (h : Driven q s.seq) : Driven q s.closeHead.seq := by
  unfold State.closeHead; (repeat' split) <;> simp -implicitDefEqProofs [h]

/-! ### Appends and frame reads (R21 to R24, R58, R91) -/

@[simp] theorem programAttempt_driven (j : AppendJob) (x st i : Nat) (h : Driven q s.seq) :
    Driven q (s.programAttempt j x st i).seq := by simp -implicitDefEqProofs [State.programAttempt, h]

@[simp] theorem appendNewHead_driven (j : AppendJob) (floor : Bool) (h : Driven q s.seq) :
    Driven q (s.appendNewHead j floor).seq := by
  unfold State.appendNewHead; (repeat' split) <;> simp -implicitDefEqProofs [h]

@[simp] theorem placeAttempt_driven (j : AppendJob) (floor : Bool) (h : Driven q s.seq) :
    Driven q (s.placeAttempt j floor).seq := by
  unfold State.placeAttempt; (repeat' split) <;> simp [h]

@[simp] theorem appendBegin_driven (j : AppendJob) (h : Driven q s.seq) : Driven q (s.appendBegin j).seq :=
  placeAttempt_driven j _ h

@[simp] theorem rewrite_driven (j : AppendJob) (x : Nat) (h : Driven q s.seq) : Driven q (s.rewrite j x).seq := by
  unfold State.rewrite; split <;> simp -implicitDefEqProofs [h]

@[simp] theorem appendReply_driven (j : AppendJob) (p : AppendPhase) (r : Reply) (h : Driven q s.seq) :
    Driven q (s.appendReply j p r).seq := by
  unfold State.appendReply; (repeat' split) <;> simp -implicitDefEqProofs [h]

@[simp] theorem readFrameBegin_driven (e : Entry) (h : Driven q s.seq) : Driven q (s.readFrameBegin e).seq := by
  simp -implicitDefEqProofs [State.readFrameBegin, h]

@[simp] theorem readFrameReply_driven (e : Entry) (i : Nat) (got : List Byte) (r : Reply) (h : Driven q s.seq) :
    Driven q (s.readFrameReply e i got r).seq := by
  simp only [State.readFrameReply]; (repeat' split) <;> simp -implicitDefEqProofs [h]

/-! ### Compaction steps (R86 to R98) -/

@[simp] theorem eraseVictim_driven (x : Nat) (h : Driven q s.seq) : Driven q (s.eraseVictim x).seq := by
  unfold State.eraseVictim; split <;> simp -implicitDefEqProofs [h]

@[simp] theorem copyOne_driven (h : Driven q s.seq) : Driven q s.copyOne.seq := by
  unfold State.copyOne; (repeat' split) <;> simp -implicitDefEqProofs [h]

@[simp] theorem finishVictim_driven (h : Driven q s.seq) : Driven q s.finishVictim.seq := by
  unfold State.finishVictim; (repeat' split) <;> simp -implicitDefEqProofs [h]

@[simp] theorem grantStep_driven (h : Driven q s.seq) : Driven q s.grantStep.seq := by
  unfold State.grantStep; split <;> simp [h]

@[simp] theorem copyReadReply_driven (e : Entry) (r : Reply) (h : Driven q s.seq) : Driven q (s.copyReadReply e r).seq := by
  unfold State.copyReadReply; split <;> simp -implicitDefEqProofs [h]

/-! ### Host writes, stalls and RECLAIM (R52 to R58, R62, R63, R75 to R79, R99) -/

@[simp] theorem commitAppend_driven (c : CommitJob) (h : Driven q s.seq) : Driven q (s.commitAppend c).seq := by
  simp -implicitDefEqProofs [State.commitAppend, h]

@[simp] theorem writeProceeds_driven (w : StalledWrite) (h : Driven q s.seq) : Driven q (s.writeProceeds w).seq := by
  cases w <;> simp -implicitDefEqProofs [State.writeProceeds, State.putAppend, State.deleteAppend, h]

@[simp] theorem nextStepInJob_driven (t : Task) (h : Driven q s.seq) : Driven q (s.nextStepInJob t).seq := by
  unfold State.nextStepInJob; split <;> simp -implicitDefEqProofs [h]

@[simp] theorem enterStall_driven (w : StalledWrite) (h : Driven q s.seq) : Driven q (s.enterStall w).seq :=
  nextStepInJob_driven _ h

@[simp] theorem stallReply_driven (w : StalledWrite) (r : Reply) (h : Driven q s.seq) : Driven q (s.stallReply w r).seq := by
  unfold State.stallReply State.stallTests; (repeat' split) <;> simp -implicitDefEqProofs [h]

@[simp] theorem writeAdmitted_driven (w : StalledWrite) (h : Driven q s.seq) : Driven q (s.writeAdmitted w).seq := by
  unfold State.writeAdmitted; split <;> simp [h]

@[simp] theorem writeFailed_driven (w : StalledWrite) (o : AppendOutcome) (h : Driven q s.seq) :
    Driven q (s.writeFailed w o).seq := by
  unfold State.writeFailed; split <;> simp [h]

@[simp] theorem putReply_driven (r : Request) (p : Reply) (h : Driven q s.seq) : Driven q (s.putReply r p).seq := by
  unfold State.putReply; split <;> simp [h]

@[simp] theorem deleteReply_driven (r : Request) (p : Reply) (h : Driven q s.seq) : Driven q (s.deleteReply r p).seq := by
  unfold State.deleteReply; split <;> simp [h]

@[simp] theorem commitReply_driven (c : CommitJob) (p : Reply) (h : Driven q s.seq) : Driven q (s.commitReply c p).seq := by
  simp only [State.commitReply]; (repeat' split) <;> simp [h]

@[simp] theorem reclaimTests_driven (r : Request) (reported : Bool) (h : Driven q s.seq) :
    Driven q (s.reclaimTests r reported).seq := by
  unfold State.reclaimTests; (repeat' split) <;> simp [h]

@[simp] theorem reclaimReply_driven (r : Request) (p : Reply) (h : Driven q s.seq) : Driven q (s.reclaimReply r p).seq := by
  unfold State.reclaimReply; split <;> simp [h]

/-! ### FORMAT (R153 to R157) -/

@[simp] theorem formatNext_driven (r : Request) (h : Driven q s.seq) : Driven q (s.formatNext r).seq := by
  unfold State.formatNext State.formatOpening; (repeat' split) <;> simp -implicitDefEqProofs [h]

@[simp] theorem formatReadNext_driven (r : Request) (todo : List Nat) (h : Driven q s.seq) :
    Driven q (s.formatReadNext r todo).seq := by
  unfold State.formatReadNext; split <;> simp -implicitDefEqProofs [h]

@[simp] theorem formatAnchorReply_driven (r : Request) (p : Reply) (h : Driven q s.seq) :
    Driven q (s.formatAnchorReply r p).seq := by
  unfold State.formatAnchorReply State.formatTables; split <;> simp [h]

@[simp] theorem formatReadReply_driven (r : Request) (x : Nat) (todo : List Nat) (p : Reply) (h : Driven q s.seq) :
    Driven q (s.formatReadReply r x todo p).seq := by
  unfold State.formatReadReply; split <;> simp -implicitDefEqProofs [h]

@[simp] theorem formatEraseReply_driven (r : Request) (x : Nat) (p : Reply) (h : Driven q s.seq) :
    Driven q (s.formatEraseReply r x p).seq := by
  unfold State.formatEraseReply; split <;> simp -implicitDefEqProofs [h]

@[simp] theorem formatSectorReply_driven (r : Request) (p : Reply) (h : Driven q s.seq) :
    Driven q (s.formatSectorReply r p).seq := by
  unfold State.formatSectorReply; split <;> simp [h]

/-! ### Mount (R124 to R138) -/

@[simp] theorem mountOpening_driven (h : Driven q s.seq) : Driven q s.mountOpening.seq := by
  unfold State.mountOpening; (repeat' split) <;> simp -implicitDefEqProofs [h]

@[simp] theorem tidyNext_driven (h : Driven q s.seq) : Driven q s.tidyNext.seq := by
  unfold State.tidyNext; (repeat' split) <;> simp -implicitDefEqProofs [h]

@[simp] theorem mountCloseNext_driven (todo : List Unclosed) (h : Driven q s.seq) : Driven q (s.mountCloseNext todo).seq := by
  unfold State.mountCloseNext; split <;> simp -implicitDefEqProofs [h]

@[simp] theorem replayEnds_driven (p : Replay) (h : Driven q s.seq) : Driven q (s.replayEnds p).seq := by
  simp [State.replayEnds, h]

@[simp] theorem scanNext_driven (p : Replay) (ended : Bool) (h : Driven q s.seq) : Driven q (s.scanNext p ended).seq := by
  simp only [State.scanNext]; (repeat' split) <;> simp -implicitDefEqProofs [h]

@[simp] theorem surveyNext_driven (todo : List Nat) (notes : List (Nat × SurveyNote)) (h : Driven q s.seq) :
    Driven q (s.surveyNext todo notes).seq := by
  simp only [State.surveyNext, State.replayBegin]; (repeat' split) <;> simp -implicitDefEqProofs [h]

@[simp] theorem anchorPhaseEnds_driven (a : AnchorScan) (h : Driven q s.seq) : Driven q (s.anchorPhaseEnds a).seq := by
  unfold State.anchorPhaseEnds; split <;> simp [h]

@[simp] theorem mountBegin_driven (h : Driven q s.seq) : Driven q s.mountBegin.seq := by
  simp -implicitDefEqProofs [State.mountBegin, h]

@[simp] theorem mountAnchorReply_driven (a : AnchorScan) (p : Reply) (h : Driven q s.seq) :
    Driven q (s.mountAnchorReply a p).seq := by
  simp only [State.mountAnchorReply]; (repeat' split) <;> simp -implicitDefEqProofs [h]

@[simp] theorem mountSurveyReply_driven (x : Nat) (read : List Line) (todo : List Nat) (notes : List (Nat × SurveyNote)) (p : Reply)
    (h : Driven q s.seq) : Driven q (s.mountSurveyReply x read todo notes p).seq := by
  unfold State.mountSurveyReply; (repeat' split) <;> simp -implicitDefEqProofs [h]

@[simp] theorem mountReplayReply_driven (m : Replay) (p : Reply) (h : Driven q s.seq) :
    Driven q (s.mountReplayReply m p).seq := by
  unfold State.mountReplayReply; split <;> simp -implicitDefEqProofs [h]

@[simp] theorem mountCloseReply_driven (u : Unclosed) (todo : List Unclosed) (p : Reply) (h : Driven q s.seq) :
    Driven q (s.mountCloseReply u todo p).seq := by
  unfold State.mountCloseReply; split <;> simp -implicitDefEqProofs [h]

@[simp] theorem mountEraseReply_driven (x : Nat) (p : Reply) (h : Driven q s.seq) : Driven q (s.mountEraseReply x p).seq := by
  unfold State.mountEraseReply; split <;> simp -implicitDefEqProofs [h]

@[simp] theorem mountSectorReply_driven (p : Reply) (h : Driven q s.seq) : Driven q (s.mountSectorReply p).seq := by
  unfold State.mountSectorReply; split <;> simp [h]

/-! ### Internal moves -/

/-- The task on top goes on with its reply. -/
theorem resume_driven (t : Task) (r : Reply) (h : Driven q s.seq) : Driven q (s.resume t r).seq := by
  cases t with
  | retire x => simp only [State.resume]; split <;> simp [h]
  | _ => simp [State.resume, h]

/-- One internal move. -/
theorem move_driven {t : State} (h : Driven q s.seq) (hm : s.move = some t) : Driven q t.seq := by
  unfold State.move at hm
  split at hm
  · cases hm; exact resume_driven _ _ h
  · cases hm; exact h
  · unfold State.startPending at hm
    split at hm
    · cases hm
    · split at hm
      · cases hm; exact issueErase_driven _ _ h.unpend
      · cases hm

/-- All internal moves of a command. -/
@[simp] theorem settle_driven (h : Driven q s.seq) : Driven q s.settle.seq :=
  State.settle_keeps (P := fun s => Driven q s.seq) (fun _ _ h hm => move_driven h hm) h

/-! ### Requests that are taken and steps that are granted (R85, R163 to R165) -/

/-- An operation on the state asks the sequencer for line operations and erases only. -/
def Drives (f : State → State) : Prop := ∀ (q : Sequencer) (s : State), Driven q s.seq → Driven q (f s).seq

/-- What leaves the sequencer asks for nothing. -/
theorem Drives.of_seq {f : State → State} (h : ∀ s, (f s).seq = s.seq) : Drives f := fun _ s hs => by rw [h s]; exact hs

/-- Two operations, one after the other. -/
theorem Drives.comp {f g : State → State} (hg : Drives g) (hf : Drives f) : Drives (fun s => g (f s)) :=
  fun q s h => hg q _ (hf q s h)

theorem settle_drives : Drives State.settle := fun _ _ => settle_driven

theorem committedGet_drives (r : Request) : Drives (committedGet r) := fun q s h => by
  unfold committedGet; split <;> simp -implicitDefEqProofs [h]

theorem putBody_drives (r : Request) : Drives (putBody r) := fun q s h => by
  simp only [putBody]; (repeat' split) <;> simp [h]

theorem deleteBody_drives (r : Request) : Drives (deleteBody r) := fun q s h => by
  simp only [deleteBody]; (repeat' split) <;> simp [h]

theorem getBody_drives (r : Request) : Drives (getBody r) := fun q s h => by
  unfold getBody; split
  · simp [h]
  · exact committedGet_drives r q s h

theorem inTxnGetBody_drives (r : Request) : Drives (inTxnGetBody r) := fun q s h => by
  unfold inTxnGetBody; (repeat' split) <;> simp [h, committedGet_drives r q s]

theorem commitBody_drives (r : Request) : Drives (commitBody r) := fun q s h => by
  simp only [commitBody]; (repeat' split) <;> simp -implicitDefEqProofs [h]

theorem reclaimBody_drives (r : Request) : Drives (reclaimBody r) := fun _ _ h => reclaimTests_driven r false h

theorem setCodeBody_drives (r : Request) : Drives (setCodeBody r) := fun q s h => by
  simp only [setCodeBody]; (repeat' split) <;> simp -implicitDefEqProofs [h]

theorem setPolicyBody_drives (r : Request) : Drives (setPolicyBody r) := fun q s h => by
  simp only [setPolicyBody]; (repeat' split) <;> simp -implicitDefEqProofs [h]

theorem formatBody_drives (r : Request) : Drives (formatBody r) := fun q s h => by
  simp only [formatBody]; (repeat' split) <;> simp -implicitDefEqProofs [h, State.formatBegin]

/-- A request that is taken: the tests before its kind's own, and its kind's body. -/
theorem takeFront_drives (isRow : Request → Bool) {body : Request → State → State} (hb : ∀ r, Drives (body r)) :
    Drives (·.takeFront isRow body) := by
  have hchecked (r : Request) : Drives (·.checked r body) := fun q s h => by
    have hstopped : Driven q (if r.isTxnRequest then s.stopTimer else s).seq := by split <;> exact h
    simp only [State.checked]
    split
    · rw [turnAway_seq]; exact hstopped
    · split
      · exact hb r q _ hstopped
      · rw [turnAway_seq]; exact hstopped
  intro q s h
  simp only [State.takeFront, State.takeRequest]
  split
  · exact h
  · split
    · split
      · split
        · rw [answer_seq]; exact h
        · exact hchecked _ q _ h
      · exact hchecked _ q _ h
    · exact h

/-- A request that is taken and runs until its job waits or ends. -/
theorem taking_drives (isRow : Request → Bool) {body : Request → State → State} (hb : ∀ r, Drives (body r)) :
    Drives (·.taking isRow body) := settle_drives.comp (takeFront_drives isRow hb)

/-- A step that is granted and runs until it waits or ends. -/
theorem granting_drives (stage : Stage) {f : State → State} (hf : Drives f) : Drives (·.granting stage f) := fun q s h => by
  simp only [State.granting]
  split
  · exact settle_driven (hf q s h)
  · exact h

end Sys2Proof.Certificates
end

