-- ==== Sys2Proof/Proofs/SequencerEvents.lean ====
section
/-! What one step does to the array sequencer: at most one event of its own (06), and after it only what jobs, compaction steps and mount
ask for. -/

namespace Sys2Proof.Certificates

open Sys2Proof Sys2Proof.Machine

/-- An event of the sequencer in the state `s`, with what it leaves: the end of the operation in hand (R106, R107), the end of the erase
in flight or 10 ms of its time (R109), the power-fail warning (R118, R119) and mount's stop at it (R139), the array's own loss by the
command that names it (R105), or nothing. -/
inductive SequencerEvent (c : Option Instr) (s : State) : Sequencer → Prop
  | nothing : SequencerEvent c s s.seq
  | readEnds : SequencerEvent c s s.lineReadEnds.seq
  | programEnds (verified : Bool) : SequencerEvent c s (s.lineProgramEnds verified).seq
  | eraseEnds (passed : Bool) : SequencerEvent c s (s.eraseEnds passed).seq
  | elapses {e : EraseRec} : s.seq.erase = some e → e.elapsed + Config.tickMs < Config.eraseLimitMs →
      SequencerEvent c s { s.seq with erase := some { e with elapsed := e.elapsed + Config.tickMs } }
  | warned : s.seq.halted = false → SequencerEvent c s s.sequencerWarning.seq
  | mountStopped : s.seq.halted = false → SequencerEvent c s s.sequencerWarning.mountWarned.seq
  | ownLoss {x l : Nat} : c = some (.arrayOwnLoss x l) → SequencerEvent c s (s.ownLoss x l).seq

/-- The command `c`, or none, leads from the sequencer `p` to `q`: by an event and what is asked for after it, by a soft reset (R121), or
by a pin reset or power loss (R111, R122). They may meet any state with the sequencer `p`. -/
inductive SequencerStep (c : Option Instr) (p q : Sequencer) : Prop
  | event {u : State} {r : Sequencer} : u.seq = p → SequencerEvent c u r → Driven r q → SequencerStep c p q
  | softReset {u : State} : u.seq = p → q = u.sequencerSoftReset.seq → SequencerStep c p q
  | cutShort {u : State} : u.seq = p → q = u.sequencerCutShort.seq → SequencerStep c p q

variable {c : Option Instr} {s u t : State} {p q : Sequencer}

/-- Nothing but what is asked for. -/
theorem SequencerStep.of_driven (h : Driven s.seq q) : SequencerStep c s.seq q := .event rfl .nothing h

/-- A step that leaves the sequencer. -/
theorem SequencerStep.of_seq (h : t.seq = s.seq) : SequencerStep c s.seq t.seq := .of_driven (by rw [h]; exact .refl)

/-- What every event, what jobs and what the resets keep, the whole step keeps. -/
theorem SequencerStep.keeps {P : Sequencer → Prop} (hjobs : KeptByJobs P)
    (hevent : ∀ u r, P u.seq → SequencerEvent c u r → P r) (hsoft : ∀ u : State, P u.seq → P u.sequencerSoftReset.seq)
    (hcut : ∀ u : State, P u.seq → P u.sequencerCutShort.seq) (h : SequencerStep c p q) (hs : P p) : P q := by
  cases h with
  | event hu he hd => exact hd.keeps hjobs (hevent _ _ (by rw [hu]; exact hs) he)
  | softReset hu hq => rw [hq]; exact hsoft _ (by rw [hu]; exact hs)
  | cutShort hu hq => rw [hq]; exact hcut _ (by rw [hu]; exact hs)

/-! ### Bus accesses (R171 to R177) -/

/-- A soft reset. -/
theorem softReset_step (s : State) : SequencerStep c s.seq s.softReset.seq := .softReset (u := s) rfl rfl

/-- CONTROL: of its commands only the soft reset reaches the sequencer. -/
theorem control_step (s : State) (v : Byte) : SequencerStep c s.seq (s.control v).seq := by
  simp only [State.control]
  (repeat' split)
  · exact .of_seq (submit_seq s)
  · exact .of_seq (popHead_seq s)
  · exact .of_seq rfl
  · exact .of_seq (rewindHead_seq s)
  · exact softReset_step s
  · exact .of_seq rfl

/-- A register write. -/
theorem busWrite_step (s : State) (a : BitVec 6) (v : Byte) : SequencerStep c s.seq (s.busWrite a v).seq := by
  simp only [State.busWrite]
  split
  case h_3 => exact control_step s v
  case h_16 => exact .of_seq (fillByte_seq s v)
  all_goals exact .of_seq rfl

/-! ### Ticks and the warning (R109, R118) -/

/-- The end of the erase in flight and what follows from it. -/
theorem eraseEnds_step (hu : u.seq = s.seq) (passed : Bool) : SequencerStep c s.seq (u.eraseEnds passed).settle.seq :=
  .event hu (.eraseEnds passed) (settle_driven .refl)

/-- One tick: the erase in flight counts it or ends. -/
theorem tick_step (s : State) : SequencerStep c s.seq s.tick.seq := by
  unfold State.tick
  split
  · unfold State.tickErase
    split
    · rename_i e he
      split
      · split
        · exact eraseEnds_step (tickTimer_seq s) false
        · exact .event (tickTimer_seq s) (.elapses he (by omega)) .refl
      · exact .of_seq (tickTimer_seq s)
    · exact .of_seq (tickTimer_seq s)
  · exact .of_seq rfl

/-- Mount that stops hands out no further outcome, and nothing waits for the erase. -/
theorem mountWarned_seq (s : State) :
    s.mountWarned.seq = { s.seq with delivers := s.seq.inHand.isNone, waiting := none } := by
  unfold State.mountWarned
  split <;> simp

/-- The warning is taken while the halted flag is clear. -/
theorem takeWarning_step (hu : u.seq = s.seq) (hh : u.seq.halted = false) : SequencerStep c s.seq u.takeWarning.seq := by
  have hstored : (storeHalted u).seq = s.seq := hu
  cases hm : u.mountRunning with
  | true =>
    rw [takeWarning_of_mountRunning hm]
    exact .event hstored (.mountStopped hh) (settle_driven .refl)
  | false =>
    rw [takeWarning_of_no_mount hm]
    refine .event hstored (.warned hh) (settle_driven ?_)
    rw [wakeWaiting_seq]
    exact .refl

/-! ### Commands -/

/-- A command that answers one next state. -/
theorem step_of_next (h : (.next u : Result) = .next t) (hu : SequencerStep c s.seq u.seq) : SequencerStep c s.seq t.seq := by
  cases h; exact hu

/-- A write access. -/
theorem onBus_step {f : State → State} (hx : s.onBus f = .next t) (hf : ∀ s, SequencerStep c s.seq (f s).seq) :
    SequencerStep c s.seq t.seq := by
  refine step_of_next hx ?_
  split
  · exact hf s
  · exact .of_seq rfl

/-- An operation that leaves the sequencer but for what it asks for. -/
theorem Drives.step {f : State → State} (h : Drives f) (s : State) : SequencerStep c s.seq (f s).seq := .of_driven (h _ s .refl)

/-- Every command is one event of the sequencer and what is asked for after it. -/
theorem exec_step (i : Instr) (hx : exec i s = .next t) : SequencerStep (some i) s.seq t.seq := by
  have taken {isRow : Request → Bool} {body : Request → State → State} (hb : ∀ r, Drives (body r)) :=
    (taking_drives isRow hb).step (c := some i) s
  cases i with
  | go => exact onBus_step hx fun s => .of_seq (submit_seq s)
  | pop => exact onBus_step hx fun s => .of_seq (popHead_seq s)
  | clearFill => exact onBus_step hx fun _ => .of_seq rfl
  | rewind => exact onBus_step hx fun s => .of_seq (rewindHead_seq s)
  | softReset => exact onBus_step hx softReset_step
  | writeData b => exact onBus_step (f := (·.fillByte b)) hx fun s => .of_seq (fillByte_seq s b)
  | readData =>
    simp only [exec, execReadData] at hx
    (repeat' split at hx) <;> exact step_of_next hx (.of_seq rfl)
  | captureLatch r =>
    simp only [exec, execCaptureLatch] at hx
    split at hx <;> exact step_of_next hx (.of_seq (by simp))
  | eventStatus v => exact onBus_step (f := (·.clearEvents v)) hx fun _ => .of_seq rfl
  | eventEnable v => exact onBus_step (f := (·.setEnables v)) hx fun _ => .of_seq rfl
  | lowWater v => exact onBus_step (f := (·.setLowWater v)) hx fun _ => .of_seq rfl
  | registerWrite a v => exact onBus_step (f := (·.busWrite a v)) hx fun s => busWrite_step s a v
  | put => exact step_of_next hx (taken putBody_drives)
  | get => exact step_of_next hx (taken getBody_drives)
  | delete => exact step_of_next hx (taken deleteBody_drives)
  | next => exact step_of_next hx (taken fun r => .of_seq (nextBody_seq · r))
  | info => exact step_of_next hx (taken fun r => .of_seq (infoBody_seq · r))
  | beginTxn => exact step_of_next hx (taken fun r => .of_seq (beginBody_seq · r))
  | inTxnPut => exact step_of_next hx (taken fun r => .of_seq (inTxnPutBody_seq · r))
  | inTxnDelete => exact step_of_next hx (taken fun r => .of_seq (inTxnDeleteBody_seq · r))
  | inTxnGet => exact step_of_next hx (taken inTxnGetBody_drives)
  | commit => exact step_of_next hx (taken commitBody_drives)
  | abandon => exact step_of_next hx (taken fun r => .of_seq (abandonBody_seq · r))
  | reclaim => exact step_of_next hx (taken reclaimBody_drives)
  | unlock => exact step_of_next hx (taken fun r => .of_seq (unlockBody_seq · r))
  | lock => exact step_of_next hx (taken fun r => .of_seq (lockBody_seq · r))
  | setCode => exact step_of_next hx (taken setCodeBody_drives)
  | setPolicy => exact step_of_next hx (taken setPolicyBody_drives)
  | format => exact step_of_next hx (taken formatBody_drives)
  | kindNamingNoKind => exact step_of_next hx (taken fun r => .of_seq (answer_seq · r _))
  | selectStep => exact step_of_next hx ((granting_drives _ (.of_seq selectVictim_seq)).step s)
  | copyStep => exact step_of_next hx ((granting_drives _ fun _ _ => copyOne_driven).step s)
  | eraseStep =>
    refine step_of_next hx ?_
    split
    · exact (granting_drives _ fun _ _ => copyOne_driven).step s
    · exact .of_seq rfl
  | finishingStep => exact step_of_next hx ((granting_drives _ fun _ _ => finishVictim_driven).step s)
  | lineReadDone => exact step_of_next hx (.event rfl .readEnds (settle_driven .refl))
  | lineProgramDone v => exact step_of_next hx (.event rfl (.programEnds v) (settle_driven .refl))
  | programTimeout =>
    refine step_of_next hx ?_
    unfold State.programTimesOut
    (repeat' split)
    · exact .event rfl (.programEnds false) (settle_driven .refl)
    · exact settle_drives.step s
    · exact settle_drives.step s
  | eraseDone passed => exact step_of_next hx (eraseEnds_step rfl passed)
  | eraseTimeLimit => exact step_of_next hx (eraseEnds_step rfl false)
  | idleTimerExpiry => exact step_of_next hx (.of_seq (timerExpires_seq s))
  | pfwAsserted =>
    simp only [exec, execPfwAsserted] at hx
    split at hx
    · rename_i hwarn
      have hh : s.seq.halted = false := by simp only [Bool.and_eq_true, Bool.not_eq_true'] at hwarn; exact hwarn.2
      exact step_of_next hx (takeWarning_step rfl hh)
    · exact step_of_next hx (.of_seq rfl)
  | rstAsserted =>
    simp only [exec, execRstAsserted] at hx
    split at hx
    · exact step_of_next hx (.cutShort (u := { s with pins := { s.pins with rstAsserted := true } }) rfl rfl)
    · exact step_of_next hx (.of_seq rfl)
  | powerLoss =>
    simp only [exec, execPowerLoss] at hx
    split at hx
    · exact step_of_next hx (.cutShort (u := s) rfl rfl)
    · exact step_of_next hx (.of_seq rfl)
  | powerOn => exact step_of_next hx (.cutShort (u := s) rfl rfl)
  | pfwDeasserted | rstDeasserted => exact step_of_next hx (.of_seq rfl)
  | mount =>
    refine step_of_next hx ?_
    split
    · exact .of_driven (settle_driven (mountBegin_driven .refl))
    · exact .of_seq rfl
  | arrayOwnLoss x l =>
    simp only [exec, execArrayOwnLoss] at hx
    split at hx
    · exact step_of_next hx (.event rfl (.ownLoss rfl) .refl)
    · cases hx

/-- Every step is one event of the sequencer and what is asked for after it. -/
theorem step_sequencer (h : step s = .next t) : SequencerStep s.pending.head? s.seq t.seq := by
  unfold step at h
  split at h
  · exact step_of_next h (tick_step s)
  · rename_i i rest hp
    rw [hp]
    exact exec_step i (s := { s with pending := rest }) h

end Sys2Proof.Certificates
end

