-- ==== Sys2Proof/Proofs/SequencerInvariants.lean ====
section
/-! What every step keeps of the array sequencer: the canonical form of the array (R104, R105), the agreement of its state with the erase
in flight and the halted flag (R112, R115), and, while it is halted with nothing in flight, every line (R120). -/

namespace Sys2Proof.Certificates

open Sys2Proof Sys2Proof.Machine

/-! ### The array's canonical form (R104, R105) -/

/-- The array of a sequencer is in its canonical form. -/
abbrev CellsWf (q : Sequencer) : Prop := q.cells.wf = true

variable {s : State}

/-- Only a begun erase changes the array at once: line 0 is voided (R109). -/
theorem issueErase_cells (s : State) (x : Nat) (background : Bool) :
    (s.issueErase x background).seq.cells = s.seq.cells ∨
      (s.issueErase x background).seq.cells = writeCell s.seq.cells (lineAddr x 0) .defective := by
  unfold State.issueErase
  split
  · exact .inl (by rw [deliverErase_seq])
  · (repeat' split)
    · exact .inr rfl
    · exact .inl rfl
    · exact .inl rfl

/-- An operation asked for leaves the array until it ends (R106, R107). -/
@[simp] theorem issue_cells (s : State) (op : LineOp) : (s.issue op).seq.cells = s.seq.cells := by
  unfold State.issue; (repeat' split) <;> rfl

@[simp] theorem serveWaiting_cells (s : State) : s.serveWaiting.seq.cells = s.seq.cells := by
  simp only [State.serveWaiting]; (repeat' split) <;> rfl

@[simp] theorem endOp_cells (s : State) (r : Reply) : (s.endOp r).seq.cells = s.seq.cells := by
  unfold State.endOp; split <;> rfl

theorem cellsWf_keptByJobs : KeptByJobs CellsWf where
  issue s op h := by rw [CellsWf, issue_cells]; exact h
  issueErase s x b h := by
    rcases issueErase_cells s x b with hc | hc <;> rw [CellsWf, hc]
    · exact h
    · exact Cells.wf_writeCell h
  unpend _ h := h

/-- An abandoned erase leaves its sector's lines as a free value says, and no other line (R110). -/
theorem abandonErase_cellsWf (h : CellsWf s.seq) : CellsWf s.abandonErase.seq := by
  unfold State.abandonErase
  split
  · exact h
  · exact Cells.wf_replaceSector _ _ h

/-- The array after the warning is that of the abandoned erase. -/
theorem sequencerWarning_cells (s : State) : s.sequencerWarning.seq.cells = s.abandonErase.seq.cells := by
  unfold State.sequencerWarning
  rw [serveWaiting_cells]
  (repeat' split) <;> simp only [deliverErase_seq]

/-- The array after a soft reset is that of the abandoned erase (R121). -/
theorem sequencerSoftReset_cells (s : State) : s.sequencerSoftReset.seq.cells = s.abandonErase.seq.cells := by
  simp only [State.sequencerSoftReset]
  split <;> rfl

/-- A program cut short leaves its own line only. -/
theorem cutProgramShort_cellsWf (h : CellsWf s.seq) : CellsWf s.cutProgramShort.seq := by
  unfold State.cutProgramShort
  split
  · split
    · exact Cells.wf_writeCell h
    · exact h
  · exact h

/-- An erase cut short leaves its sector's lines only. -/
theorem cutEraseShort_cellsWf (h : CellsWf s.seq) : CellsWf s.cutEraseShort.seq := by
  unfold State.cutEraseShort
  split
  · exact h
  · exact Cells.wf_replaceSector _ _ h

/-- Every event of the sequencer keeps the canonical form. -/
theorem cellsWf_event {c : Option Instr} (s : State) (r : Sequencer) (h : CellsWf s.seq) (he : SequencerEvent c s r) :
    CellsWf r := by
  cases he with
  | nothing | elapses => exact h
  | readEnds =>
    unfold State.lineReadEnds
    split
    · rw [CellsWf, endOp_cells]; exact h
    · exact h
  | programEnds v =>
    unfold State.lineProgramEnds
    split
    · rw [CellsWf, endOp_cells]; exact Cells.wf_writeCell h
    · exact h
  | eraseEnds passed =>
    unfold State.eraseEnds
    split
    · exact h
    · split
      · rw [CellsWf, serveWaiting_cells, deliverErase_seq]; exact Cells.wf_replaceSector _ _ h
      · exact h
  | warned => rw [CellsWf, sequencerWarning_cells]; exact abandonErase_cellsWf h
  | mountStopped =>
    rw [CellsWf, mountWarned_seq]
    exact (congrArg Cells.wf (sequencerWarning_cells s)).trans (abandonErase_cellsWf h)
  | ownLoss =>
    unfold State.ownLoss
    split
    · exact Cells.wf_writeCell h
    · exact h

/-- Settles O51: what jobs ask for, every event and the resets keep the canonical form. -/
theorem arrayStaysCanonical : Obligations.ArrayStaysCanonical := fun _ _ h hstep =>
  (step_sequencer hstep).keeps cellsWf_keptByJobs cellsWf_event
    (fun u hu => by rw [CellsWf, sequencerSoftReset_cells]; exact abandonErase_cellsWf hu)
    (fun _ hu => cutEraseShort_cellsWf (cutProgramShort_cellsWf hu)) h

/-! ### The sequencer's state, the erase in flight and the halted flag (R112, R115) -/

/-- Without an erase in flight the state is PROGRAMMING, or says whether the sequencer is halted. -/
theorem sequencerWf_of_none {q : Sequencer} (he : q.erase = none) :
    q.wf = true ↔ q.state = .programming ∨ q.state = if q.halted then .halted else .idle := by
  unfold Sequencer.wf
  cases q.state <;> cases q.halted <;> simp [he]

/-- With an erase in flight the sequencer is ERASING or SUSPENDED and not halted, and the erase is within its bounds. -/
theorem sequencerWf_of_some {q : Sequencer} {e : EraseRec} (he : q.erase = some e) :
    q.wf = true ↔ q.halted = false ∧ (q.state = .erasing ∨ q.state = .suspended) ∧
      e.suspensions ≤ Config.maxSuspensions ∧ e.elapsed ≤ Config.eraseLimitMs := by
  unfold Sequencer.wf EraseRec.wf
  cases q.state <;> cases q.halted <;> simp [he]

/-- An erasing sequencer that agrees is not halted. -/
theorem not_halted_of_erasing {q : Sequencer} (h : q.wf = true) (hs : q.state = .erasing) : q.halted = false := by
  simp only [Sequencer.wf, hs, Bool.and_eq_true, Bool.not_eq_true'] at h
  exact h.1.2

/-- An operation served without an erase in flight. -/
theorem serve_wf (op : LineOp) (he : s.seq.erase = none) (h : s.seq.wf = true) : (s.serve op).seq.wf = true := by
  rw [sequencerWf_of_none he] at h
  refine (sequencerWf_of_none (by exact he)).2 ?_
  cases op with
  | read => exact h
  | program => exact .inl rfl

/-- An operation asked for. -/
theorem issue_wf (s : State) (op : LineOp) (h : s.seq.wf = true) : (s.issue op).seq.wf = true := by
  unfold State.issue
  split
  · exact h
  · split
    · rename_i he
      exact serve_wf op he h
    · rename_i e he
      obtain ⟨hh, hs, hsusp, htime⟩ := (sequencerWf_of_some he).1 h
      split
      · exact h
      · split
        · rename_i hroom
          exact (sequencerWf_of_some (e := { e with suspensions := e.suspensions + 1 }) rfl).2 ⟨hh, .inr rfl, hroom.2, htime⟩
        · exact h

/-- An erase asked for: it begins with no suspension and no time elapsed. -/
theorem issueErase_wf (s : State) (x : Nat) (background : Bool) (h : s.seq.wf = true) :
    (s.issueErase x background).seq.wf = true := by
  unfold State.issueErase
  split
  · rw [deliverErase_seq]; exact h
  · rename_i hh
    split
    · exact (sequencerWf_of_some rfl).2 ⟨Bool.not_eq_true _ ▸ hh, .inl rfl, Nat.zero_le _, Nat.zero_le _⟩
    · split <;> exact h

theorem sequencerWf_keptByJobs : KeptByJobs (·.wf = true) where
  issue := issue_wf
  issueErase := issueErase_wf
  unpend _ h := h

/-- The operation in hand ends: a suspended erase resumes. -/
theorem endOp_wf (r : Reply) (h : s.seq.wf = true) : (s.endOp r).seq.wf = true := by
  have hdropped : s.dropInHand.seq.wf = true := by
    cases he : s.seq.erase with
    | none =>
      refine (sequencerWf_of_none (by exact he)).2 (.inr ?_)
      simp only [State.dropInHand, Sequencer.afterOp, he, Option.isSome_none, Bool.false_eq_true, if_false]
    | some e =>
      obtain ⟨hh, -, hbounds⟩ := (sequencerWf_of_some he).1 h
      refine (sequencerWf_of_some (by exact he)).2 ⟨hh, .inl ?_, hbounds⟩
      simp only [State.dropInHand, Sequencer.afterOp, he, Option.isSome_some, if_true]
  unfold State.endOp
  split <;> exact hdropped

/-- The waiting operation is served when no erase is in flight. -/
theorem serveWaiting_wf (he : s.seq.erase = none) (h : s.seq.wf = true) : s.serveWaiting.seq.wf = true := by
  unfold State.serveWaiting
  split
  · exact h
  · simp only
    split
    · exact h
    · exact serve_wf (s := { s with seq := { s.seq with waiting := none } }) _ he h

/-- The warning leaves a halted sequencer, PROGRAMMING while a program is in hand. -/
theorem sequencerWarning_wf (s : State) : s.sequencerWarning.seq.wf = true := by
  have hhalted : ∀ q : Sequencer, q.erase = none → (sequencerHalted q).wf = true := by
    intro q he
    refine (sequencerWf_of_none (q := sequencerHalted q) he).2 ?_
    simp only [sequencerHalted, Sequencer.afterWarning, if_true]
    split
    · exact .inl rfl
    · exact .inr rfl
  have hseq := hhalted s.abandonErase.seq (abandonErase_erase s)
  unfold State.sequencerWarning
  refine serveWaiting_wf ?_ ?_
  · (repeat' split) <;> simp only [deliverErase_seq, abandonErase_erase]
  · (repeat' split) <;> simp only [deliverErase_seq] <;> exact hseq

/-- Every event keeps the sequencer's agreement. -/
theorem sequencerWf_event {c : Option Instr} (s : State) (r : Sequencer) (h : s.seq.wf = true) (he : SequencerEvent c s r) :
    r.wf = true := by
  cases he with
  | nothing => exact h
  | readEnds =>
    unfold State.lineReadEnds
    split
    · exact endOp_wf _ h
    · exact h
  | programEnds v =>
    unfold State.lineProgramEnds
    split
    · exact endOp_wf _ h
    · exact h
  | eraseEnds passed =>
    unfold State.eraseEnds
    split
    · exact h
    · split
      · rename_i hs
        refine serveWaiting_wf (by rw [deliverErase_seq]) ?_
        rw [deliverErase_seq]
        refine (sequencerWf_of_none rfl).2 (.inr ?_)
        simp only [State.withCells, State.drawFree, not_halted_of_erasing h hs, Bool.false_eq_true, if_false]
      · exact h
  | @elapses e he ht =>
    obtain ⟨hh, hs, hsusp, -⟩ := (sequencerWf_of_some he).1 h
    exact (sequencerWf_of_some (e := { e with elapsed := e.elapsed + Config.tickMs }) rfl).2 ⟨hh, hs, hsusp, Nat.le_of_lt ht⟩
  | warned => exact sequencerWarning_wf s
  | mountStopped =>
    rw [mountWarned_seq]
    exact sequencerWarning_wf s
  | ownLoss => unfold State.ownLoss; split <;> exact h

/-- A soft reset leaves no erase in flight and a sequencer that is not halted (R121). -/
theorem sequencerSoftReset_wf (s : State) : s.sequencerSoftReset.seq.wf = true := by
  simp only [State.sequencerSoftReset]
  split <;> rfl

/-- Settles O55: what jobs ask for, every event and the resets keep the sequencer's agreement and the erase's bounds. -/
theorem sequencerStaysConsistent : Obligations.SequencerStaysConsistent := fun _ _ h hstep =>
  (step_sequencer hstep).keeps sequencerWf_keptByJobs sequencerWf_event (fun u _ => sequencerSoftReset_wf u) (fun _ _ => rfl) h

/-! ### The halted sequencer (R120) -/

/-- The sequencer is halted with no erase in flight and no program in hand, over the array `cells`. -/
structure HaltedOver (cells : Cells) (q : Sequencer) : Prop where
  halted : q.halted = true
  erase : q.erase = none
  inHand : ∀ x l d, q.inHand ≠ some (.program x l d)
  cells : q.cells = cells

variable {cells : Cells}

/-- An operation served by it is a read. -/
theorem haltedOver_serve {op : LineOp} (h : HaltedOver cells s.seq) (hop : op.isProgram = false) :
    HaltedOver cells (s.serve op).seq where
  halted := h.halted
  erase := h.erase
  inHand x l d hd := by cases hd; cases hop
  cells := h.cells

/-- It refuses programs and erases. -/
theorem haltedOver_keptByJobs : KeptByJobs (HaltedOver cells) where
  issue s op h := by
    unfold State.issue
    simp only [h.halted, h.erase, Bool.true_and]
    split
    · exact h
    · rename_i hop
      exact haltedOver_serve h (Bool.not_eq_true _ ▸ hop)
  issueErase s x b h := by
    simp only [State.issueErase, h.halted, if_true, deliverErase_seq]
    exact h
  unpend _ h := ⟨h.halted, h.erase, h.inHand, h.cells⟩

/-- The end of its operation in hand leaves it so. -/
theorem haltedOver_endOp (r : Reply) (h : HaltedOver cells s.seq) : HaltedOver cells (s.endOp r).seq := by
  have hdropped : HaltedOver cells s.dropInHand.seq := ⟨h.halted, h.erase, fun _ _ _ => nofun, h.cells⟩
  unfold State.endOp
  split <;> exact hdropped

/-- Every event but the array's own loss leaves it so. -/
theorem haltedOver_event {c : Option Instr} (hc : ∀ x l, c ≠ some (.arrayOwnLoss x l)) (s : State) (r : Sequencer)
    (h : HaltedOver cells s.seq) (he : SequencerEvent c s r) : HaltedOver cells r := by
  cases he with
  | nothing => exact h
  | readEnds =>
    unfold State.lineReadEnds
    split
    · exact haltedOver_endOp _ h
    · exact h
  | programEnds v =>
    unfold State.lineProgramEnds
    split
    · rename_i hop
      exact absurd hop (h.inHand _ _ _)
    · exact h
  | eraseEnds passed =>
    simp only [State.eraseEnds, h.erase]
    exact h
  | elapses he => exact absurd (h.erase.symm.trans he) nofun
  | warned hh => exact absurd (h.halted.symm.trans hh) nofun
  | mountStopped hh => exact absurd (h.halted.symm.trans hh) nofun
  | ownLoss hl => exact absurd hl (hc _ _)

/-- A soft reset finds no erase to abandon. -/
theorem sequencerSoftReset_cells_of_none (he : s.seq.erase = none) : s.sequencerSoftReset.seq.cells = s.seq.cells := by
  rw [sequencerSoftReset_cells]
  simp only [State.abandonErase, he]

/-- A part without a program in hand has none to cut short. -/
theorem cutProgramShort_of_no_program (h : ∀ x l d, s.seq.inHand ≠ some (.program x l d)) : s.cutProgramShort = s := by
  unfold State.cutProgramShort
  split
  · rename_i hop
    exact absurd hop (h _ _ _)
  · rfl

/-- A pin reset or power loss finds nothing to cut short. -/
theorem sequencerCutShort_cells_of_quiet (h : ∀ x l d, s.seq.inHand ≠ some (.program x l d)) (he : s.seq.erase = none) :
    s.sequencerCutShort.seq.cells = s.seq.cells := by
  simp only [State.sequencerCutShort, cutProgramShort_of_no_program h, cutEraseShort_of_none he]
  rfl

/-- Settles O58: what jobs ask for and every event leave the halted sequencer its array, and the resets find nothing in flight. -/
theorem haltedArrayStays : Obligations.HaltedArrayStays := by
  intro s t hh he hop hloss hstep
  have hs : HaltedOver s.seq.cells s.seq := ⟨hh, he, hop, rfl⟩
  cases step_sequencer hstep with
  | event hu hevent hd =>
    exact (hd.keeps haltedOver_keptByJobs (haltedOver_event hloss _ _ (by rw [hu]; exact hs) hevent)).cells
  | softReset hu hq => rw [hq, sequencerSoftReset_cells_of_none (by rw [hu]; exact he), hu]
  | cutShort hu hq => rw [hq, sequencerCutShort_cells_of_quiet (by rw [hu]; exact hop) (by rw [hu]; exact he), hu]

end Sys2Proof.Certificates
end

