-- ==== Sys2Proof/Proofs/LineLosses.lean ====
section
/-! What a soft reset, a pin reset, a power loss and the array's own loss leave of the array's lines (R105, R110, R111, R121), and
that every command has its meaning. -/

namespace Sys2Proof.Certificates

open Sys2Proof Sys2Proof.Machine

variable {s t u : State}

/-! ### Lines of an array (R104) -/

/-- A line written reads back. -/
theorem lineAt_setLine (h : s.arrayWf = true) (x l : Nat) (v : Line) : (s.setLine x l v).lineAt x l = v := by
  simp only [State.lineAt, State.setLine_seq, readCell_writeCell _ _ _ h, if_true]

/-- A line written leaves the lines at other addresses. -/
theorem lineAt_setLine_ne (h : s.arrayWf = true) {x l x' l' : Nat} (hne : lineAddr x' l' ≠ lineAddr x l) (v : Line) :
    (s.setLine x l v).lineAt x' l' = s.lineAt x' l' := by
  simp only [State.lineAt, State.setLine_seq, readCell_writeCell _ _ _ h, if_neg hne.symm]

/-- Lines of two sectors, or two lines of one, have two addresses. -/
theorem lineAddr_ne {x l x' l' : Nat} (hl : l < 256) (hl' : l' < 256) (h : ¬ (x' = x ∧ l' = l)) :
    lineAddr x' l' ≠ lineAddr x l := by
  simp only [lineAddr]; omega

/-- A line of another sector lies outside the lines that replacing a sector changes. -/
theorem lineAt_replaceSector_ne {f : Nat → Line} {x : Nat} (h : t.seq.cells = replaceSector s.seq.cells x f) {y l : Nat} (hy : y ≠ x)
    (hl : l < 256) : t.lineAt y l = s.lineAt y l := by
  rw [State.lineAt, h, readCell_replaceSector_out _ _ _ _ (by simp only [lineAddr]; omega)]
  rfl

/-! ### The array's own loss (R105) -/

/-- A GOOD line that loses its contents. -/
theorem ownLoss_of_good {x l : Nat} {d : LineData} (h : s.lineAt x l = .good d) : s.ownLoss x l = s.setLine x l .defective := by
  simp only [State.ownLoss, h]

/-- A line that is not GOOD has nothing to lose. -/
theorem ownLoss_of_not_good {x l : Nat} (h : ∀ d, s.lineAt x l ≠ .good d) : s.ownLoss x l = s := by
  unfold State.ownLoss
  split
  · rename_i d hd
    exact absurd hd (h d)
  · rfl

/-- ARRAY_OWN_LOSS of a line that exists. -/
theorem exec_arrayOwnLoss {x l : Nat} (hx : x < 64) (hl : l < 256) (s : State) :
    exec (.arrayOwnLoss x l) s = .next (s.ownLoss x l) := if_pos ⟨hx, hl⟩

/-- Settles O47: a GOOD line turns DEFECTIVE, and any other stays. -/
theorem ownLoss : Obligations.OwnLoss := by
  intro s x l hx hl hw
  rw [exec_arrayOwnLoss hx hl]
  refine ⟨fun d hd => ?_, fun hd => by rw [ownLoss_of_not_good hd]⟩
  rw [ownLoss_of_good hd]
  exact ⟨_, rfl, rfl, lineAt_setLine hw x l _, fun x' l' hne => lineAt_setLine_ne hw hne _⟩

/-! ### The meanings (R104, R171) -/

/-- Settles O3: every command answers a next state, but for the loss of a line the array does not have. -/
theorem everyCommandCompletes : Obligations.EveryCommandCompletes := by
  refine ⟨fun c s hc => ?_, fun x l s h => if_neg h⟩
  cases c with
  | readData =>
    simp only [exec, execReadData]
    (repeat' split) <;> exact ⟨_, rfl⟩
  | captureLatch | pfwAsserted | rstAsserted | powerLoss =>
    simp only [exec, execCaptureLatch, execPfwAsserted, execRstAsserted, execPowerLoss]
    split <;> exact ⟨_, rfl⟩
  | arrayOwnLoss x l =>
    obtain ⟨hx, hl⟩ : x < 64 ∧ l < 256 := by simpa [Instr.wellFormed, lineExists] using hc
    exact ⟨_, exec_arrayOwnLoss hx hl s⟩
  | _ => exact ⟨_, rfl⟩

/-! ### The soft reset (R121, R177) -/

/-- An abandoned erase changes the sequencer and the counter of free values only. -/
theorem abandonErase_eq (s : State) :
    s.abandonErase = { s with seq := s.abandonErase.seq, freeCtr := s.abandonErase.freeCtr } := by
  unfold State.abandonErase
  split <;> rfl

/-- It leaves the operation in hand. -/
theorem abandonErase_inHand (s : State) : s.abandonErase.seq.inHand = s.seq.inHand := by
  unfold State.abandonErase
  split <;> rfl

/-- The sequencer after a soft reset over the array `cells`: a program in hand goes on without its issuer (R121). -/
def softResetSequencer (cells : Cells) : Option LineOp → Sequencer
  | some (.program x l d) =>
    { Sequencer.reset cells with state := .programming, inHand := some (.program x l d), delivers := false }
  | _ => Sequencer.reset cells

/-- A soft reset of the sequencer. -/
theorem sequencerSoftReset_eq (s : State) :
    s.sequencerSoftReset = { s with
      seq := softResetSequencer s.abandonErase.seq.cells s.seq.inHand, freeCtr := s.abandonErase.freeCtr } := by
  simp only [State.sequencerSoftReset, abandonErase_inHand]
  rw [abandonErase_eq s]
  unfold softResetSequencer
  split <;> simp only [*]

/-- Whatever was in hand, the soft reset sequencer is not halted and has no erase and no operation that waits. -/
theorem softResetSequencer_idle (cells : Cells) (op : Option LineOp) :
    (softResetSequencer cells op).halted = false ∧ (softResetSequencer cells op).erase = none ∧
    (softResetSequencer cells op).pending = none ∧ (softResetSequencer cells op).waiting = none ∧
    (softResetSequencer cells op).cells = cells := by
  unfold softResetSequencer
  split <;> exact ⟨rfl, rfl, rfl, rfl, rfl⟩

/-- Without a program in hand it is the sequencer's reset value. -/
theorem softResetSequencer_of_no_program (cells : Cells) {op : Option LineOp} (h : ∀ x l d, op ≠ some (.program x l d)) :
    softResetSequencer cells op = Sequencer.reset cells := by
  unfold softResetSequencer
  split
  · exact absurd rfl (h _ _ _)
  · rfl

/-- The array once an erase in flight has been abandoned (R110). -/
theorem abandonErase_cells {e : EraseRec} (he : s.seq.erase = some e) :
    s.abandonErase.seq.cells = replaceSector s.seq.cells e.sector (abandonedLine s.freeCtr) := by
  simp only [State.abandonErase, he]
  rfl

/-- Settles O13: the soft reset's sequencer, and every other block at its own value. -/
theorem softResetValues : Obligations.SoftResetValues := by
  intro s hb
  have hexec : exec .softReset s = .next s.softReset := by simp only [exec, execSoftReset, State.onBus, hb, if_true]
  obtain ⟨hhalted, herase, hpending, hwaiting, hcells⟩ := softResetSequencer_idle s.abandonErase.seq.cells s.seq.inHand
  simp only [State.softReset, sequencerSoftReset_eq] at hexec
  refine ⟨_, hexec, rfl, rfl, rfl, rfl, rfl, rfl, rfl, rfl, rfl, fun z => ?_, hhalted, herase, hpending, hwaiting,
    fun x l d hop => ?_, fun hop => ?_, fun he => ?_, fun e he => ?_⟩
  · exact Vector.getElem_map _ z.isLt
  · simp only [hop]
    exact ⟨rfl, rfl, rfl⟩
  · simp only [softResetSequencer_of_no_program _ hop]
    exact ⟨rfl, rfl⟩
  · exact hcells.trans (by simp only [State.abandonErase, he])
  · exact failedErase_of_cells (hcells.trans (abandonErase_cells he))

/-! ### Operations cut short (R111) -/

/-- A program cut short leaves its BLANK line as a free value says, and every other line. -/
theorem cutProgramShort_of_blank (hw : s.arrayWf = true) {x l : Nat} {d : LineData}
    (hop : s.seq.inHand = some (.program x l d)) (hb : s.lineAt x l = .blank) :
    (s.cutProgramShort.lineAt x l = .blank ∨ s.cutProgramShort.lineAt x l = .defective ∨
      s.cutProgramShort.lineAt x l = .good d) ∧
    ∀ x' l', lineAddr x' l' ≠ lineAddr x l → s.cutProgramShort.lineAt x' l' = s.lineAt x' l' := by
  simp only [State.cutProgramShort, hop, hb, if_true]
  refine ⟨?_, fun x' l' hne => lineAt_setLine_ne hw hne _⟩
  have hread (v : Line) : (s.setLine x l v).drawFree.lineAt x l = v := lineAt_setLine hw x l v
  rw [hread]
  cases Config.cutProgram s.freeCtr with
  | blank => exact .inl rfl
  | defective => exact .inr (.inl rfl)
  | good => exact .inr (.inr rfl)

/-- A program of a line that is not BLANK has had no pulse (R107). -/
theorem cutProgramShort_of_not_blank {x l : Nat} {d : LineData} (hop : s.seq.inHand = some (.program x l d))
    (hb : s.lineAt x l ≠ .blank) : s.cutProgramShort = s := by
  simp only [State.cutProgramShort, hop, if_neg hb]

/-- A program cut short leaves the erase in flight to be cut short after it. -/
theorem cutProgramShort_erase (s : State) : s.cutProgramShort.seq.erase = s.seq.erase := by
  unfold State.cutProgramShort
  (repeat' split) <;> rfl

/-- An erase cut short leaves each line of its sector BLANK or DEFECTIVE, and every other line. -/
theorem cutEraseShort_lines {e : EraseRec} (he : s.seq.erase = some e) :
    (∀ l, l < 256 → s.cutEraseShort.lineAt e.sector l = .blank ∨ s.cutEraseShort.lineAt e.sector l = .defective) ∧
    ∀ x l, x ≠ e.sector → l < 256 → s.cutEraseShort.lineAt x l = s.lineAt x l := by
  have hcells : s.cutEraseShort.seq.cells = replaceSector s.seq.cells e.sector (cutShortLine s.freeCtr) := by
    simp only [State.cutEraseShort, he]
    rfl
  refine ⟨fun l hl => ?_, fun x l hx hl => lineAt_replaceSector_ne hcells hx hl⟩
  rw [State.lineAt, hcells, readCell_replaceSector_in _ _ _ _ hl, cutShortLine]
  split
  · exact .inr rfl
  · exact .inl rfl

/-- RST# and a power loss cut short what the sequencer has in flight. -/
theorem cells_of_cutShort {c : Instr} (hc : c = .rstAsserted ∨ c = .powerLoss) (hb : s.busActive = true)
    (hx : exec c s = .next t) : ∃ u : State, u.seq = s.seq ∧ t.seq.cells = u.cutProgramShort.cutEraseShort.seq.cells := by
  rcases hc with rfl | rfl
  · simp only [exec, execRstAsserted, hb, if_true] at hx
    cases hx
    exact ⟨{ s with pins := { s.pins with rstAsserted := true } }, rfl, rfl⟩
  · have hp : s.pins.powered = true := (Bool.and_eq_true_iff.1 hb).1
    simp only [exec, execPowerLoss, hp, if_true] at hx
    cases hx
    exact ⟨s, rfl, rfl⟩

/-- Settles O15: the program in hand is cut short first, then the erase in flight. -/
theorem cutShortLines : Obligations.CutShortLines := by
  intro c s t hc hbus hws hx
  obtain ⟨u, hu, hcells⟩ := cells_of_cutShort hc hbus hx
  have hw : u.arrayWf = true := by rw [State.arrayWf, hu]; exact hws
  have hread (x l : Nat) : t.lineAt x l = u.cutProgramShort.cutEraseShort.lineAt x l := by simp only [State.lineAt, hcells]
  have hbefore (x l : Nat) : s.lineAt x l = u.lineAt x l := by simp only [State.lineAt, hu]
  simp only [hread, hbefore, ← hu]
  refine ⟨fun x l d hop hb he => ?program, fun e he hop => ?erase, fun x l d e hop he hx hl => ?both, fun x l hop he => ?read⟩
  case program =>
    rw [cutEraseShort_of_none (by rw [cutProgramShort_erase]; exact he)]
    exact cutProgramShort_of_blank hw hop hb
  case erase =>
    rw [cutProgramShort_of_no_program hop]
    exact cutEraseShort_lines he
  case both =>
    obtain ⟨hin, hout⟩ := cutEraseShort_lines (s := u.cutProgramShort) ((cutProgramShort_erase u).trans he)
    refine ⟨fun hb => ?_, fun hb => ?_, hin, fun x' l' hx' hl' hne => ?_⟩
    · rw [hout x l hx hl]
      exact (cutProgramShort_of_blank hw hop hb).1
    · rw [hout x l hx hl, cutProgramShort_of_not_blank hop hb]
    · rw [hout x' l' hx' hl']
      by_cases hb : u.lineAt x l = .blank
      · exact (cutProgramShort_of_blank hw hop hb).2 x' l' (lineAddr_ne hl hl' hne)
      · rw [cutProgramShort_of_not_blank hop hb]
  case read =>
    rw [hcells, cutProgramShort_of_no_program (by rw [hop]; exact fun _ _ _ => nofun), cutEraseShort_of_none he]

end Sys2Proof.Certificates
end

