-- ==== Sys2Proof/Proofs/LineOperations.lean ====
section
/-! How line operations and sector erases are served by the state they find, and what the end of an operation leaves whose issuer a soft
reset has taken away (R106 to R121). -/

namespace Sys2Proof.Certificates

open Sys2Proof Sys2Proof.Machine

variable {s : State}

/-! ### Line operations that arrive (R106 to R108, R115, R116, R120) -/

/-- A halted sequencer refuses programs. -/
theorem issue_of_halted {op : LineOp} (hh : s.seq.halted = true) (hop : op.isProgram = true) :
    s.issue op = s.ret (.prog .refused) := by
  simp only [State.issue, hh, hop, Bool.and_self, if_true]

/-- The test by which a halted sequencer refuses programs. -/
theorem not_refused {op : LineOp} (h : s.seq.halted = false ∨ op.isProgram = false) : (s.seq.halted && op.isProgram) = false := by
  rcases h with h | h <;> simp only [h, Bool.false_and, Bool.and_false]

/-- An operation that is not refused is served when no erase is in flight. -/
theorem issue_of_no_erase {op : LineOp} (h : s.seq.halted = false ∨ op.isProgram = false) (he : s.seq.erase = none) :
    s.issue op = s.serve op := by
  simp only [State.issue, not_refused h, he, Bool.false_eq_true, if_false]

/-- The erase in flight answers for its own sector, is suspended for another while it may be, and is waited for otherwise. -/
theorem issue_of_erase {op : LineOp} {e : EraseRec} (h : s.seq.halted = false ∨ op.isProgram = false)
    (he : s.seq.erase = some e) :
    s.issue op =
      if e.sector = op.sector then s.ret (erasingAnswer op)
      else if s.seq.state = .erasing ∧ e.suspensions < Config.maxSuspensions then
        { s with seq := { s.seq with
          state := .suspended, inHand := some op, delivers := true,
          erase := some { e with suspensions := e.suspensions + 1 } } }
      else { s with seq := { s.seq with waiting := some op } } := by
  simp only [State.issue, not_refused h, he, Bool.false_eq_true, if_false]

/-! ### Operations that end without their issuer (R106, R107, R121) -/

/-- The end of an operation whose issuer is gone. -/
theorem endOp_of_no_issuer (h : s.seq.delivers = false) (r : Reply) : s.endOp r = { s with seq := readEnded s.seq } := by
  simp only [State.endOp, h, Bool.false_eq_true, if_false]
  rfl

/-- Such an end of a program moves nothing. -/
theorem settle_programmed (hc : s.ctl = { stack := [], reply := none }) (hp : s.seq.pending = none) (x l : Nat) (v : Line) :
    State.settle { s with seq := programmed s.seq x l v } = { s with seq := programmed s.seq x l v } :=
  settle_of_idle (by rw [hc]) hp

/-- Such an end of a read moves nothing. -/
theorem settle_readEnded (hc : s.ctl = { stack := [], reply := none }) (hp : s.seq.pending = none) :
    State.settle { s with seq := readEnded s.seq } = { s with seq := readEnded s.seq } :=
  settle_of_idle (by rw [hc]) hp

/-- The end of a program whose issuer is gone leaves its line by the outcome. -/
theorem lineProgramEnds_of_no_issuer {x l : Nat} {d : LineData} (hd : s.seq.delivers = false)
    (hop : s.seq.inHand = some (.program x l d)) (verified : Bool) :
    s.lineProgramEnds verified =
      { s with seq := programmed s.seq x l (programLine (s.lineAt x l) d (programOutcome (s.lineAt x l) verified)) } := by
  simp only [State.lineProgramEnds, hop]
  rw [endOp_of_no_issuer (by exact hd)]
  rfl

/-! ### Erases asked for (R109, R110, R113) -/

/-- A halted sequencer refuses erases. -/
theorem issueErase_of_halted (hh : s.seq.halted = true) (x : Nat) (background : Bool) :
    s.issueErase x background = s.deliverErase background .refused := by
  simp only [State.issueErase, hh, if_true]

/-- An erase begins when none is in flight. -/
theorem issueErase_begins (hh : s.seq.halted = false) (he : s.seq.erase = none) (x : Nat) (background : Bool) :
    s.issueErase x background = s.beginErase x background := by
  simp only [State.issueErase, hh, he, Bool.false_eq_true, if_false, Option.isNone_none, if_true]

/-- The refused background erase of a compactor for which no job waits ends its round (R97). -/
theorem deliverErase_refused_alone (hs : s.comp.stage = .erasing) (hk : s.ctl.stack = []) :
    s.deliverErase true .refused = { s with comp := { s.comp with stage := .idle, victim := none, roundStart := none } } := by
  simp only [State.deliverErase, State.compactorErased, hs, if_true, State.wakeWaiting, hk]

/-- A pending erase leaves its place when no erase is in flight and no operation is in hand or waits. -/
theorem startPending_of_free {p : PendingErase} (hp : s.seq.pending = some p) (he : s.seq.erase = none)
    (hi : s.seq.inHand = none) (hw : s.seq.waiting = none) :
    s.startPending = some (State.issueErase { s with seq := { s.seq with pending := none } } p.sector p.background) := by
  simp only [State.startPending, hp, he, hi, hw, Option.isNone_none, Bool.and_self, if_true]

/-- Otherwise it stays in its place. -/
theorem startPending_of_busy {p : PendingErase} (hp : s.seq.pending = some p)
    (hb : s.seq.erase ≠ none ∨ s.seq.inHand ≠ none ∨ s.seq.waiting ≠ none) : s.startPending = none := by
  simp only [State.startPending, hp]
  refine if_neg ?_
  simp only [Bool.and_eq_true, Option.isNone_iff_eq_none, and_assoc]
  rintro ⟨he, hi, hw⟩
  rcases hb with hb | hb | hb <;> exact absurd ‹_› hb

/-- A pending foreground erase begins when the sequencer is not halted (R109, R113). -/
theorem startPending_begins {k : List Task} {x : Nat} (hc : s.ctl = { stack := k, reply := none })
    (hp : s.seq.pending = some { sector := x, background := false }) (he : s.seq.erase = none) (hi : s.seq.inHand = none)
    (hw : s.seq.waiting = none) (hh : s.seq.halted = false) :
    s.startPending = some (erases { s with seq := { s.seq with pending := none } } k x) := by
  rw [startPending_of_free hp he hi hw]
  simp only
  rw [issueErase_of_free _ (by exact ⟨he, hh⟩) x (by exact congrArg Control.reply hc)]
  simp only [hc]

/-! ### The end of the background erase (R97, R116) -/

/-- The outcome of a background erase wakes neither a stall nor a RECLAIM when none waits. -/
theorem deliverErase_unwaited {u : State} {k : List Task} (hk : u.ctl.stack = k) (hstall : ∀ w, k.head? ≠ some (.stall w))
    (hreclaim : ∀ r, k.head? ≠ some (.reclaim r)) (o : EraseOutcome) : u.deliverErase true o = u.compactorErased o := by
  have hstack : (u.compactorErased o).ctl.stack = k := by
    rw [← hk]
    unfold State.compactorErased
    (repeat' split) <;> rfl
  simp only [State.deliverErase, if_true, State.wakeWaiting, hstack]
  split
  · exact absurd rfl (hstall _)
  · exact absurd rfl (hreclaim _)
  · rfl

/-- The background erase that ends PASS is delivered and the waiting operation served. -/
theorem eraseEnds_of_background {e : EraseRec} (he : s.seq.erase = some e) (hb : e.background = true)
    (hs : s.seq.state = .erasing) : s.eraseEnds true = ((erased s e.sector).deliverErase true .pass).serveWaiting := by
  simp only [State.eraseEnds, he, hs, if_true, hb]
  rfl

/-- The waiting operation is served once the erase is out of the way. -/
theorem serveWaiting_serves {op : LineOp} (hw : s.seq.waiting = some op) (h : s.seq.halted = false ∨ op.isProgram = false) :
    s.serveWaiting = State.serve { s with seq := { s.seq with waiting := none } } op := by
  simp only [State.serveWaiting, hw, not_refused h, Bool.false_eq_true, if_false]

/-- Without a reply on its way only a pending erase can move. -/
theorem move_of_no_reply (hr : s.ctl.reply = none) : s.move = s.startPending := by
  simp only [State.move, hr]

/-- Nothing moves while an operation is in hand and no reply is on its way. -/
theorem move_none_of_inHand (hr : s.ctl.reply = none) (hi : s.seq.inHand ≠ none) : s.move = none := by
  rw [move_of_no_reply hr]
  cases hp : s.seq.pending with
  | none => simp only [State.startPending, hp]
  | some p => exact startPending_of_busy hp (.inr (.inl hi))

/-- The state once the compactor's erase of `x` has ended PASS and the waiting operation is served (R97, R116). -/
def servedAfterErase (s : State) (x : Nat) (op : LineOp) : State :=
  State.serve { eraseTaken (erased s x) true with seq := { (erased s x).seq with waiting := none } } op

/-- Settles O43, clause by clause. -/
theorem lineOperations : Obligations.LineOperations := by
  refine ⟨fun s op => ⟨issue_of_halted, fun e h he hx => ?same, fun e h he hx hs hn => ?suspends, fun e h he hx hw => ?waits,
      fun h he => ?served⟩,
    fun s x l d hc hp hd hop hw => ⟨fun hb => ?blank, fun hb => ?notBlank⟩,
    fun s x l hc hp hd hop => ?read,
    fun s x bg => ⟨fun hh => ⟨issueErase_of_halted hh x false, fun hs hk => ?refused⟩, fun hh he => ?begins,
      fun hh he hp => ?pends⟩,
    fun s p hp => ⟨startPending_of_busy hp, fun he hi hw hh hb => ?pendingRefused⟩,
    fun s op hw => ⟨fun hh hop => ?waitingRefused, serveWaiting_serves hw⟩,
    fun s e k hc he hb hs hh hi hstall hreclaim => ⟨fun op hw hstage => ?thenWaiting, fun x hw hp hstage => ?thenPending⟩⟩
  case same => rw [issue_of_erase h he, if_pos hx]; rfl
  case suspends => rw [issue_of_erase h he, if_neg hx, if_pos ⟨hs, hn⟩]
  case waits =>
    have hno : ¬ (s.seq.state = .erasing ∧ e.suspensions < Config.maxSuspensions) := by
      rintro ⟨hs, hn⟩
      rcases hw with hw | hw
      · exact hw hs
      · exact absurd hn (Nat.not_lt.2 hw)
    rw [issue_of_erase h he, if_neg hx, if_neg hno]
  case served => rw [issue_of_no_erase h he]; rfl
  case blank =>
    simp only [exec, execLineProgramDone, execProgramTimeout, State.programTimesOut, hop, hb, if_true,
      lineProgramEnds_of_no_issuer hd hop, programOutcome, programLine, Bool.false_eq_true, if_false, settle_programmed hc hp,
      and_self]
  case notBlank =>
    refine ⟨fun v => ⟨{ s with seq := programmed s.seq x l (s.lineAt x l) }, ?_, rfl, fun a => ?_⟩, ?_⟩
    · simp only [exec, execLineProgramDone, lineProgramEnds_of_no_issuer hd hop, programOutcome, if_neg hb, programLine,
        settle_programmed hc hp]
    · simp only [programmed]
      rw [readCell_writeCell _ _ _ hw]
      split
      · rename_i ha
        rw [State.lineAt, ha]
      · rfl
    · simp only [exec, execProgramTimeout, State.programTimesOut, hop, if_neg hb]
      rw [settle_of_idle (by rw [hc]) hp]
  case read => simp only [exec, execLineReadDone, State.lineReadEnds, hop, endOp_of_no_issuer hd, settle_readEnded hc hp]
  case refused => rw [issueErase_of_halted hh, deliverErase_refused_alone hs hk]
  case begins => rw [issueErase_begins hh he]; rfl
  case pends =>
    have hin : s.seq.erase.isNone = false := by simpa [Option.isSome_iff_ne_none] using he
    simp only [State.issueErase, hh, hin, hp, Bool.false_eq_true, if_false, Option.isNone_none, if_true]
  case pendingRefused =>
    rw [startPending_of_free hp he hi hw, hb, issueErase_of_halted (by exact hh)]
    rfl
  case waitingRefused => simp only [State.serveWaiting, hw, hh, hop, Bool.and_self, if_true]
  case thenWaiting =>
    have hdeliver : (erased s e.sector).deliverErase true .pass = eraseTaken (erased s e.sector) true := by
      rw [deliverErase_unwaited (by exact congrArg Control.stack hc) hstall hreclaim]
      simp only [State.compactorErased, show (erased s e.sector).comp.stage = .erasing from hstage, if_true]
      rfl
    have hserved : s.eraseEnds true = servedAfterErase s e.sector op := by
      rw [eraseEnds_of_background he hb hs, hdeliver, serveWaiting_serves (by exact hw) (.inl (by exact hh))]
      rfl
    rw [exec, execEraseDone, hserved, State.settle_of_move_none (move_none_of_inHand (by exact congrArg Control.reply hc)
      (Option.some_ne_none op))]
    rfl
  case thenPending =>
    have hdeliver : (erased s e.sector).deliverErase true .pass = erased s e.sector := by
      rw [deliverErase_unwaited (by exact congrArg Control.stack hc) hstall hreclaim]
      exact if_neg hstage
    have hmove : (erased s e.sector).move =
        some (erases { erased s e.sector with seq := { (erased s e.sector).seq with pending := none } } k x) := by
      rw [move_of_no_reply (by exact congrArg Control.reply hc)]
      exact startPending_begins (s := erased s e.sector) hc hp rfl hi hw hh
    rw [exec, execEraseDone, eraseEnds_of_background he hb hs, hdeliver, serveWaiting_of_none (by exact hw),
      settle_of_one_move hmove (State.move_none rfl rfl)]

end Sys2Proof.Certificates
end

