-- ==== Sys2Proof/Proofs/ZoneLocks.lean ====
section
/-! UNLOCK and LOCK (R149, R150): what each makes of its zone's flags, and what a locked zone turns away. -/

namespace Sys2Proof.Certificates

open Sys2Proof Sys2Proof.Machine

/-! ### The zone a request names, and its answer -/

/-- The zone a parameter names. -/
theorem paramZone_eq {p : Byte} {z : Fin 4} (hz : z.val = p.toNat) : paramZone p = z :=
  Fin.ext (show p.toNat % 4 = z.val by have := z.isLt; omega)

section
variable {s : State} {r : Request} {z : Fin 4}

/-- The state of a taken request that has changed its zone's flags. -/
abbrev flagsSet (s : State) (r : Request) (z : Fin 4) (f : ZoneFlags) : State := (taken s r).setZoneFlags z f

/-- A taken request that is answered once it has changed its zone's flags completes. -/
theorem settle_flagsSet (h : Takes s r) (f : ZoneFlags) (c : Completion) :
    ((flagsSet s r z f).post r c).settle = completes (flagsSet s r z f) r c := by
  obtain ⟨hdue, hpend, -⟩ := taken_of_takes h
  exact settle_post (s := flagsSet s r z f) hdue hpend rfl

/-! ### UNLOCK (R149) -/

/-- An UNLOCK that passes its tests runs its body. -/
theorem exec_unlock_of_serves (h : Serves s r) (hk : r.kind = 10) :
    exec .unlock s = .next (unlockBody r (taken s r)).settle :=
  exec_of_serves h (i := .unlock) rfl (beq_iff_eq.2 hk)

variable (hz : z.val = r.param.toNat)
include hz

/-- An OPEN zone has nothing to unlock. -/
theorem unlockBody_open (hp : s.contents.zones[z].policy = .policyOpen) :
    unlockBody r (taken s r) =
      (taken s r).post r { plain r .ok with aux := BitVec.ofNat 16 (3 - s.zones[z].failed) } := by
  have hp : ((taken s r).zoneEntry z).policy = .policyOpen := hp
  simp only [unlockBody, paramZone_eq hz, hp, if_true]
  rfl

/-- A locked out zone takes no code. -/
theorem unlockBody_lockedOut (hp : s.contents.zones[z].policy ≠ .policyOpen) (hl : s.zones[z].lockout = true) :
    unlockBody r (taken s r) = (taken s r).post r (plain r .lockedOut) := by
  have hp : ((taken s r).zoneEntry z).policy ≠ .policyOpen := hp
  have hl : ((taken s r).zoneFlags z).lockout = true := hl
  simp only [unlockBody, paramZone_eq hz, hp, hl, if_true, if_false]
  rfl

/-- The right code unlocks the zone. -/
theorem unlockBody_rightCode (hp : s.contents.zones[z].policy ≠ .policyOpen) (hl : s.zones[z].lockout = false)
    (hc : r.payload = s.contents.zones[z].code) :
    unlockBody r (taken s r) =
      (flagsSet s r z { unlocked := true, failed := 0, lockout := false }).post r { plain r .ok with aux := 3 } := by
  have hp : ((taken s r).zoneEntry z).policy ≠ .policyOpen := hp
  have hl : ((taken s r).zoneFlags z).lockout = false := hl
  have hc : r.payload = ((taken s r).zoneEntry z).code := hc
  simp only [unlockBody, paramZone_eq hz, hp, hl, ← hc, Bool.false_eq_true, if_true, if_false]
  rfl

/-- A wrong code is counted and locks the zone. -/
theorem unlockBody_wrongCode (hp : s.contents.zones[z].policy ≠ .policyOpen) (hl : s.zones[z].lockout = false)
    (hc : r.payload ≠ s.contents.zones[z].code) (hn : s.zones[z].failed + 1 < 3) :
    unlockBody r (taken s r) =
      (flagsSet s r z { unlocked := false, failed := s.zones[z].failed + 1, lockout := false }).post r
        { plain r .denied with aux := BitVec.ofNat 16 (3 - (s.zones[z].failed + 1)) } := by
  have hp : ((taken s r).zoneEntry z).policy ≠ .policyOpen := hp
  have hl : ((taken s r).zoneFlags z).lockout = false := hl
  have hc : r.payload ≠ ((taken s r).zoneEntry z).code := hc
  have hn : ((taken s r).zoneFlags z).failed + 1 < 3 := hn
  simp only [unlockBody, paramZone_eq hz, hp, hl, hc, hn, Bool.false_eq_true, if_true, if_false]
  rfl

/-- The third wrong code in a row locks the zone out. -/
theorem unlockBody_thirdWrongCode (hp : s.contents.zones[z].policy ≠ .policyOpen) (hl : s.zones[z].lockout = false)
    (hc : r.payload ≠ s.contents.zones[z].code) (hn : 3 ≤ s.zones[z].failed + 1) :
    unlockBody r (taken s r) =
      ((flagsSet s r z { unlocked := false, failed := 3, lockout := true }).raise evZoneLockout).post r (plain r .denied) := by
  have hp : ((taken s r).zoneEntry z).policy ≠ .policyOpen := hp
  have hl : ((taken s r).zoneFlags z).lockout = false := hl
  have hc : r.payload ≠ ((taken s r).zoneEntry z).code := hc
  have hn : ¬ ((taken s r).zoneFlags z).failed + 1 < 3 := Nat.not_lt.2 hn
  simp only [unlockBody, paramZone_eq hz, hp, hl, hc, hn, Bool.false_eq_true, if_false]
  rfl

end

/-- Settles O37: the zone's policy, its lockout, the code and the failed-attempt count choose the row. -/
theorem unlockTable : Obligations.UnlockTable := by
  intro s r z h hk hz
  rw [exec_unlock_of_serves h hk]
  refine ⟨fun hp => ?_, fun hp hl => ?_, fun hp hl hc => ?_, fun hp hl hc hn => ?_, fun hp hl hc hn => ?_⟩
  · rw [unlockBody_open hz hp, settle_answer h.1.1]
  · rw [unlockBody_lockedOut hz hp hl, settle_answer h.1.1]
  · rw [unlockBody_rightCode hz hp hl hc, settle_flagsSet h.1.1]
    rfl
  · rw [unlockBody_wrongCode hz hp hl hc hn, settle_flagsSet h.1.1]
    rfl
  · obtain ⟨hdue, hpend, -⟩ := taken_of_takes h.1.1
    rw [unlockBody_thirdWrongCode hz hp hl hc hn]
    exact congrArg _ (settle_post (by exact hdue) (by exact hpend) rfl)

/-! ### LOCK (R150) -/

/-- A zone that is not unlocked passes neither test on it, locked out or not. -/
theorem unlockTest_of_locked {f : ZoneFlags} (hu : f.unlocked = false) : unlockTest f ≠ none := by
  simp only [unlockTest, hu]
  split <;> nofun

section
variable {s : State} {z : Fin 4}

/-- A zone that is not unlocked fails the write test unless it is OPEN. -/
theorem writeAccess_of_locked (hp : s.contents.zones[z].policy ≠ .policyOpen) (hu : s.zones[z].unlocked = false) :
    s.writeAccess z ≠ none := by
  rw [State.writeAccess, if_neg (by exact hp)]
  exact unlockTest_of_locked hu

/-- A zone that is not unlocked fails the read test when it is READ_GUARDED. -/
theorem readAccess_of_locked (hp : s.contents.zones[z].policy = .readGuarded) (hu : s.zones[z].unlocked = false) :
    s.readAccess z ≠ none := by
  rw [State.readAccess, if_pos (by exact hp)]
  exact unlockTest_of_locked hu

/-- A LOCK clears the unlocked flag and answers OK. -/
theorem lockBody_eq {r : Request} (hz : z.val = r.param.toNat) :
    lockBody r (taken s r) = (flagsSet s r z { s.zones[z] with unlocked := false }).post r (plain r .ok) := by
  simp only [lockBody, paramZone_eq hz]
  rfl

/-- A write staged in a zone that is neither OPEN nor unlocked fails COMMIT's recheck (R75). -/
theorem recheckPasses_of_locked {e : Staged} (hp : s.contents.zones[zoneOf e.key].policy ≠ .policyOpen)
    (hu : s.zones[zoneOf e.key].unlocked = false) : s.recheckPasses e = false := by
  have hzone : (s.writeAccess (zoneOf e.key)).isNone = false :=
    Option.isNone_eq_false_iff.2 (Option.isSome_iff_ne_none.2 (writeAccess_of_locked hp hu))
  simp only [State.recheckPasses, hzone, Bool.false_and]

end

/-- Settles O38: the locked zone fails its tests in the completed state, and COMMIT's recheck finds a write staged in it. -/
theorem lockZone : Obligations.LockZone := by
  refine ⟨fun s r z h hk hz => ?lock, fun s r t e h hk ho he hp hu => ?commit⟩
  case lock =>
    intro t
    have hlocked : t.zones[z].unlocked = false := by
      show (s.zones.set z { s.zones[z] with unlocked := false })[z.val].unlocked = false
      rw [Vector.getElem_set_self]
    refine ⟨?_, fun hp => writeAccess_of_locked (by exact hp) hlocked, fun hp => readAccess_of_locked (by exact hp) hlocked⟩
    rw [exec_of_serves h (i := .lock) rfl (beq_iff_eq.2 hk), lockBody_eq hz, settle_flagsSet h.1.1]
    rfl
  case commit =>
    have hfound : (t.staged.find? (fun x => !s.recheckPasses x)).isSome = true :=
      List.find?_isSome.2 ⟨e, he, by rw [recheckPasses_of_locked hp hu]; rfl⟩
    obtain ⟨x, hx⟩ := Option.isSome_iff_exists.1 hfound
    rw [exec_commit_of_serves h hk, commitBody_conflict ho hx, settle_commit_answer h.1.1]
    refine ⟨_, rfl, ?_⟩
    simp only [completes, List.getLast?_concat, Option.map_some]
    rfl

end Sys2Proof.Certificates
end

