-- ==== Sys2Proof/Proofs/Lockout.lean ====
section
/-! What a step makes of the zone guard's flags (R148): outside power-on, power loss and pin reset each zone's flags follow those before
it, legal ones by legal ones and a lockout by a lockout; only UNLOCK, LOCK, SET_POLICY and the soft reset change them. -/

namespace Sys2Proof.Certificates

open Sys2Proof Sys2Proof.Machine

/-! ### Flags that follow others -/

/-- A zone's flags `g` follow `f` outside the hard resets: they are legal when `f` is, and a lockout stands. -/
structure FlagsFollow (f g : ZoneFlags) : Prop where
  wf : f.wf = true → g.wf = true
  lockout : f.lockout = true → g.lockout = true

/-- The four zones' flags follow others. -/
def ZonesFollow (v w : Vector ZoneFlags 4) : Prop := ∀ z : Fin 4, FlagsFollow v[z] w[z]

/-- Legal flags: a locked out zone is not unlocked, and the failed-attempt count is at most 3. -/
theorem zoneFlags_wf_iff (f : ZoneFlags) : f.wf = true ↔ (f.lockout = true → f.unlocked = false) ∧ f.failed ≤ 3 := by
  cases f with | mk u n k => cases u <;> cases k <;> simp [ZoneFlags.wf]

/-- The zone guard's flags are legal when each zone's are. -/
theorem zonesWf_iff (s : State) : s.zonesWf = true ↔ ∀ z : Fin 4, s.zones[z].wf = true := by
  simp only [State.zonesWf, List.all_eq_true, Vector.mem_toList_iff, Vector.mem_iff_getElem, Fin.forall_iff]
  exact ⟨fun h i hi => h _ ⟨i, hi, rfl⟩, fun h f ⟨i, hi, hf⟩ => hf ▸ h i hi⟩

theorem FlagsFollow.refl (f : ZoneFlags) : FlagsFollow f f := ⟨id, id⟩

theorem ZonesFollow.refl (v : Vector ZoneFlags 4) : ZonesFollow v v := fun _ => .refl _

/-- One zone's flags are replaced by flags that follow them. -/
theorem zonesFollow_set {v : Vector ZoneFlags 4} {z : Fin 4} {f : ZoneFlags} (h : FlagsFollow v[z] f) :
    ZonesFollow v (v.set z f) := by
  intro y
  simp only [Fin.getElem_fin, Vector.getElem_set]
  split
  · rename_i hy
    obtain rfl : z = y := Fin.ext hy
    exact h
  · exact .refl _

/-- A soft reset locks every zone and keeps its count and lockout. -/
theorem zonesFollow_softReset (v : Vector ZoneFlags 4) : ZonesFollow v (v.map ZoneFlags.softReset) := by
  intro z
  simp only [Fin.getElem_fin, Vector.getElem_map]
  refine ⟨fun h => ?_, id⟩
  rw [zoneFlags_wf_iff] at h ⊢
  exact ⟨fun _ => rfl, h.2⟩

/-- The flags after a hard reset are legal. -/
theorem zonesWf_of_reset {s : State} (h : s.zones = Vector.replicate 4 .reset) : s.zonesWf = true := by
  rw [State.zonesWf, h]
  rfl

/-! ### Operations on the state -/

/-- After an operation on the state the zones' flags follow those before it. -/
def KeepsZones (f : State → State) : Prop := ∀ s : State, ZonesFollow s.zones (f s).zones

/-- What leaves the zone guard. -/
theorem KeepsZones.of_zones {f : State → State} (h : ∀ s, (f s).zones = s.zones) : KeepsZones f :=
  fun s => by rw [h s]; exact .refl _

/-- States that agree on what internal moves keep agree on the zone guard. -/
theorem zones_of_kept {s t : State} (h : t.kept = s.kept) : t.zones = s.zones := congrArg Kept.zones h

/-- What leaves all that internal moves keep. -/
theorem KeepsZones.of_kept {f : State → State} (h : ∀ s, (f s).kept = s.kept) : KeepsZones f :=
  .of_zones fun s => zones_of_kept (h s)

/-- Internal moves leave the zone guard. -/
@[simp] theorem settle_zones (s : State) : s.settle.zones = s.zones := zones_of_kept s.settle_kept

/-! ### Zone requests (R149, R150, R152) -/

theorem unlockBody_keepsZones (r : Request) : KeepsZones (unlockBody r) := fun s => by
  have answered (t : State) (st : Status) : (t.answer r st).zones = t.zones := zones_of_kept (t.answer_kept r st)
  have answeredAux (t : State) (st : Status) (aux : BitVec 16) : (t.answerAux r st aux).zones = t.zones :=
    zones_of_kept (t.answerAux_kept r st aux)
  simp only [unlockBody]
  split
  · rw [answeredAux]; exact .refl _
  · split
    · rw [answered]; exact .refl _
    · rename_i hl
      have hl : s.zones[paramZone r.param].lockout ≠ true := hl
      split
      · rw [answeredAux]
        exact zonesFollow_set ⟨fun _ => (zoneFlags_wf_iff _).2 ⟨fun hk => absurd hk hl, Nat.zero_le 3⟩, id⟩
      · split
        · rename_i hn
          rw [answeredAux]
          exact zonesFollow_set ⟨fun _ => (zoneFlags_wf_iff _).2 ⟨fun _ => rfl, hn.le⟩, id⟩
        · rw [answered]
          exact zonesFollow_set ⟨fun _ => rfl, fun _ => rfl⟩

theorem lockBody_keepsZones (r : Request) : KeepsZones (lockBody r) := fun s => by
  simp only [lockBody, zones_of_kept (State.answer_kept _ _ _)]
  refine zonesFollow_set ⟨fun h => ?_, id⟩
  rw [zoneFlags_wf_iff] at h ⊢
  exact ⟨fun _ => rfl, h.2⟩

theorem setPolicyBody_keepsZones (r : Request) : KeepsZones (setPolicyBody r) := fun s => by
  have answered (st : Status) : ZonesFollow s.zones (s.answer r st).zones := by
    rw [zones_of_kept (s.answer_kept r st)]; exact .refl _
  simp only [setPolicyBody]
  split
  · exact answered _
  · split
    · exact answered _
    · split
      · exact answered _
      · simp only [zones_of_kept (State.anchorWrite_kept _ _), State.push_zones]
        split
        · refine zonesFollow_set ⟨fun h => ?_, id⟩
          rw [zoneFlags_wf_iff] at h ⊢
          exact ⟨h.1, Nat.zero_le 3⟩
        · exact .refl _

/-! ### Requests that are taken and steps that are granted (R85, R163 to R165) -/

/-- A request that is taken and runs until its job waits or ends: only its kind's body reaches the zone guard. -/
theorem taking_keepsZones (isRow : Request → Bool) {body : Request → State → State} (hb : ∀ r, KeepsZones (body r)) :
    KeepsZones (·.taking isRow body) := by
  have hchecked (r : Request) (s : State) : ZonesFollow s.zones (s.checked r body).zones := by
    have away (u : State) (st : Status) : ZonesFollow u.zones (u.turnAway r st).zones := by
      rw [zones_of_kept (u.turnAway_kept r st)]; exact .refl _
    have hstopped : (if r.isTxnRequest then s.stopTimer else s).zones = s.zones := by split <;> rfl
    simp only [State.checked]
    rw [← hstopped]
    generalize (if r.isTxnRequest then s.stopTimer else s) = u
    split
    · exact away u _
    · split
      · exact hb r u
      · exact away u _
  intro s
  simp only [State.taking, settle_zones, State.takeFront, State.takeRequest]
  split
  · exact .refl _
  · rename_i r _ _
    split
    · split
      · split
        · rw [zones_of_kept (State.answer_kept _ _ _)]; exact .refl _
        · exact hchecked r { s with queues := { s.queues with executing := true } }
      · exact hchecked r { s with queues := { s.queues with executing := true, chainBroken := false } }
    · exact .refl _

/-- A step that is granted and runs until it waits or ends. -/
theorem granting_keepsZones (stage : Stage) {f : State → State} (hf : ∀ s, (f s).kept = s.kept) :
    KeepsZones (·.granting stage f) := .of_zones fun s => by
  simp only [State.granting]
  split
  · rw [settle_zones, zones_of_kept (hf s)]
  · rfl

/-! ### Ticks and the warning (R73, R109, R118) -/

/-- An event of the sequencer and what follows from it. -/
theorem settle_keepsZones {f : State → State} (hf : ∀ s, (f s).kept = s.kept) : KeepsZones (fun s => (f s).settle) :=
  .of_kept fun s => (State.settle_kept _).trans (hf s)

@[simp] theorem timerExpires_zones (s : State) : s.timerExpires.zones = s.zones := by
  unfold State.timerExpires; split <;> rfl

/-- One tick. -/
theorem tick_keepsZones : KeepsZones State.tick := .of_zones fun s => by
  have htimer : s.tickTimer.zones = s.zones := by
    unfold State.tickTimer; (repeat' split) <;> simp
  have hends : (s.tickTimer.eraseEnds false).zones = s.zones := (zones_of_kept (State.eraseEnds_kept _ _)).trans htimer
  simp only [State.tick, State.tickErase]
  (repeat' split) <;> simp [htimer, hends]

/-- The sequencer's warning leaves the zone guard. -/
theorem sequencerWarning_zones (s : State) : s.sequencerWarning.zones = s.zones := by
  have habandoned : s.abandonErase.zones = s.zones := zones_of_kept s.abandonErase_kept
  have hdelivered (t : State) (b : Bool) (o : EraseOutcome) : (t.deliverErase b o).zones = t.zones :=
    zones_of_kept (t.deliverErase_kept b o)
  unfold State.sequencerWarning
  refine (zones_of_kept (State.serveWaiting_kept _)).trans ?_
  (repeat' split) <;> simp only [hdelivered, habandoned]

/-- The warning and what follows from it. -/
theorem takeWarning_keepsZones : KeepsZones State.takeWarning := .of_zones fun s => by
  simp only [State.takeWarning, setStore_halted_dropTxn, settle_zones]
  split
  · exact (zones_of_kept (State.mountWarned_kept _)).trans (sequencerWarning_zones _)
  · exact (zones_of_kept (State.wakeWaiting_kept _)).trans (sequencerWarning_zones _)

/-! ### Bus accesses (R148, R171 to R177) -/

theorem softReset_keepsZones : KeepsZones State.softReset := fun s => by
  simp only [State.softReset, sequencerSoftReset_eq]
  exact zonesFollow_softReset s.zones

theorem submit_keepsZones : KeepsZones State.submit :=
  .of_zones fun s => by unfold State.submit; (repeat' split) <;> rfl

theorem popHead_keepsZones : KeepsZones State.popHead :=
  .of_zones fun s => by unfold State.popHead; split <;> rfl

theorem rewindHead_keepsZones : KeepsZones State.rewindHead :=
  .of_zones fun s => by unfold State.rewindHead; split <;> rfl

theorem fillByte_keepsZones (b : Byte) : KeepsZones (·.fillByte b) :=
  .of_zones fun s => by unfold State.fillByte; split <;> rfl

/-- CONTROL: of its commands only the soft reset reaches the zone guard. -/
theorem control_keepsZones (v : Byte) : KeepsZones (·.control v) := fun s => by
  simp only [State.control]
  (repeat' split)
  · exact submit_keepsZones s
  · exact popHead_keepsZones s
  · exact .refl _
  · exact rewindHead_keepsZones s
  · exact softReset_keepsZones s
  · exact .refl _

/-- A register write. -/
theorem busWrite_keepsZones (a : BitVec 6) (v : Byte) : KeepsZones (·.busWrite a v) := fun s => by
  simp only [State.busWrite]
  split
  case h_3 => exact control_keepsZones v s
  case h_16 => exact fillByte_keepsZones v s
  all_goals exact .refl _

/-! ### Commands -/

/-- The commands by which power-on, power loss and pin reset come (R148). -/
def hardResets (c : Instr) : Prop := c = .rstAsserted ∨ c = .powerOn ∨ c = .powerLoss

section
variable {s t u : State}

/-- What a command `c` does to the zone guard: the flags follow those before it, or a hard reset gives them their reset value. -/
def ZoneStep (c : Instr) (s t : State) : Prop :=
  ZonesFollow s.zones t.zones ∨ (hardResets c ∧ t.zones = Vector.replicate 4 .reset)

/-- A command that answers one next state. -/
theorem zoneStep_of_next {c : Instr} (h : (.next u : Result) = .next t) (hu : ZoneStep c s u) : ZoneStep c s t := by
  cases h; exact hu

/-- A write access. -/
theorem onBus_zoneStep {c : Instr} {f : State → State} (hx : s.onBus f = .next t) (hf : KeepsZones f) : ZoneStep c s t := by
  refine zoneStep_of_next hx (.inl ?_)
  split
  · exact hf s
  · exact .refl _

/-- Every command but a hard reset leaves flags that follow those before it. -/
theorem exec_zoneStep {c : Instr} (hx : exec c s = .next t) : ZoneStep c s t := by
  have same {u : State} (h : u.zones = s.zones) : ZoneStep c s u := .inl (by rw [h]; exact .refl _)
  have taken {isRow : Request → Bool} {body : Request → State → State} (hb : ∀ r, KeepsZones (body r)) :
      ZoneStep c s (s.taking isRow body) := .inl (taking_keepsZones isRow hb s)
  have takenKept {isRow : Request → Bool} {body : Request → State → State} (hb : ∀ r s, (body r s).kept = s.kept) :
      ZoneStep c s (s.taking isRow body) := taken fun r => .of_kept (hb r)
  have granted (stage : Stage) {f : State → State} (hf : ∀ s, (f s).kept = s.kept) :
      ZoneStep c s (s.granting stage f) := .inl (granting_keepsZones stage hf s)
  have event {f : State → State} (hf : ∀ s, (f s).kept = s.kept) : ZoneStep c s (f s).settle :=
    .inl (settle_keepsZones hf s)
  cases c with
  | go => exact onBus_zoneStep hx submit_keepsZones
  | pop => exact onBus_zoneStep hx popHead_keepsZones
  | rewind => exact onBus_zoneStep hx rewindHead_keepsZones
  | writeData b => exact onBus_zoneStep (f := (·.fillByte b)) hx (fillByte_keepsZones b)
  | clearFill => exact onBus_zoneStep (f := (·.clearFill)) hx (.of_zones fun _ => rfl)
  | eventStatus v => exact onBus_zoneStep (f := (·.clearEvents v)) hx (.of_zones fun _ => rfl)
  | eventEnable v => exact onBus_zoneStep (f := (·.setEnables v)) hx (.of_zones fun _ => rfl)
  | lowWater v => exact onBus_zoneStep (f := (·.setLowWater v)) hx (.of_zones fun _ => rfl)
  | softReset => exact onBus_zoneStep hx softReset_keepsZones
  | registerWrite a v => exact onBus_zoneStep (f := (·.busWrite a v)) hx (busWrite_keepsZones a v)
  | readData =>
    simp only [exec, execReadData] at hx
    (repeat' split at hx) <;> exact zoneStep_of_next hx (same rfl)
  | captureLatch r =>
    simp only [exec, execCaptureLatch] at hx
    split at hx
    · exact zoneStep_of_next hx (same (by cases r <;> rfl))
    · exact zoneStep_of_next hx (same rfl)
  | put => exact zoneStep_of_next hx (takenKept putBody_kept)
  | get => exact zoneStep_of_next hx (takenKept getBody_kept)
  | delete => exact zoneStep_of_next hx (takenKept deleteBody_kept)
  | next => exact zoneStep_of_next hx (takenKept nextBody_kept)
  | info => exact zoneStep_of_next hx (takenKept infoBody_kept)
  | beginTxn => exact zoneStep_of_next hx (takenKept beginBody_kept)
  | inTxnPut => exact zoneStep_of_next hx (takenKept inTxnPutBody_kept)
  | inTxnDelete => exact zoneStep_of_next hx (takenKept inTxnDeleteBody_kept)
  | inTxnGet => exact zoneStep_of_next hx (takenKept inTxnGetBody_kept)
  | commit => exact zoneStep_of_next hx (takenKept commitBody_kept)
  | abandon => exact zoneStep_of_next hx (takenKept abandonBody_kept)
  | reclaim => exact zoneStep_of_next hx (takenKept reclaimBody_kept)
  | setCode => exact zoneStep_of_next hx (takenKept setCodeBody_kept)
  | format => exact zoneStep_of_next hx (takenKept formatBody_kept)
  | kindNamingNoKind => exact zoneStep_of_next hx (takenKept fun r s => s.answer_kept r _)
  | unlock => exact zoneStep_of_next hx (taken unlockBody_keepsZones)
  | lock => exact zoneStep_of_next hx (taken lockBody_keepsZones)
  | setPolicy => exact zoneStep_of_next hx (taken setPolicyBody_keepsZones)
  | selectStep => exact zoneStep_of_next hx (granted _ State.selectVictim_kept)
  | copyStep => exact zoneStep_of_next hx (granted _ State.copyOne_kept)
  | finishingStep => exact zoneStep_of_next hx (granted _ State.finishVictim_kept)
  | eraseStep =>
    refine zoneStep_of_next hx ?_
    split
    · exact granted _ State.copyOne_kept
    · exact same rfl
  | lineReadDone => exact zoneStep_of_next hx (event State.lineReadEnds_kept)
  | lineProgramDone v => exact zoneStep_of_next hx (event (State.lineProgramEnds_kept · v))
  | programTimeout => exact zoneStep_of_next hx (event State.programTimesOut_kept)
  | eraseDone passed => exact zoneStep_of_next hx (event (State.eraseEnds_kept · passed))
  | eraseTimeLimit => exact zoneStep_of_next hx (event (State.eraseEnds_kept · false))
  | idleTimerExpiry => exact zoneStep_of_next hx (same (timerExpires_zones s))
  | pfwAsserted =>
    simp only [exec, execPfwAsserted] at hx
    split at hx
    · exact zoneStep_of_next hx (.inl (takeWarning_keepsZones (pfwChanged s)))
    · exact zoneStep_of_next hx (same rfl)
  | pfwDeasserted | rstDeasserted => exact zoneStep_of_next hx (same rfl)
  | rstAsserted =>
    simp only [exec, execRstAsserted] at hx
    split at hx
    · exact zoneStep_of_next hx (.inr ⟨.inl rfl, rfl⟩)
    · exact zoneStep_of_next hx (same rfl)
  | powerLoss =>
    simp only [exec, execPowerLoss] at hx
    split at hx
    · exact zoneStep_of_next hx (.inr ⟨.inr (.inr rfl), rfl⟩)
    · exact zoneStep_of_next hx (same rfl)
  | powerOn => exact zoneStep_of_next hx (.inr ⟨.inr (.inl rfl), rfl⟩)
  | mount =>
    refine zoneStep_of_next hx ?_
    split
    · exact event State.mountBegin_kept
    · exact same rfl
  | arrayOwnLoss x l =>
    simp only [exec, execArrayOwnLoss] at hx
    split at hx
    · exact zoneStep_of_next hx (same (zones_of_kept (s.ownLoss_kept x l)))
    · cases hx

/-- What a step does to the zone guard: a hard reset's command is at the front of the queue where the flags do not follow. -/
theorem step_zones (h : step s = .next t) :
    ZonesFollow s.zones t.zones ∨
      ((∃ c ∈ s.pending.head?, hardResets c) ∧ t.zones = Vector.replicate 4 .reset) := by
  unfold step at h
  split at h
  · cases h
    exact .inl (tick_keepsZones s)
  · rename_i c rest hp
    refine (exec_zoneStep h).imp_right fun ⟨hc, hz⟩ => ⟨⟨c, ?_, hc⟩, hz⟩
    rw [hp]
    rfl

end

/-- Settles O56: flags that follow legal ones, and those of a reset, are legal; and where no hard reset is at the front of the queue
the flags follow, a lockout with them. -/
theorem lockoutUntilHardReset : Obligations.LockoutUntilHardReset := by
  refine ⟨fun s t hs hstep => ?_, fun s t z hl hstep hc => ?_⟩
  · rcases step_zones hstep with h | ⟨-, hz⟩
    · rw [zonesWf_iff] at hs ⊢
      exact fun z => (h z).wf (hs z)
    · exact zonesWf_of_reset hz
  · rcases step_zones hstep with h | ⟨⟨c, hmem, hhard⟩, -⟩
    · exact (h z).lockout hl
    · obtain ⟨hrst, hon, hloss⟩ := hc c hmem
      rcases hhard with h | h | h
      · exact absurd h hrst
      · exact absurd h hon
      · exact absurd h hloss

end Sys2Proof.Certificates
end

