-- ==== Sys2Proof/Proofs/RetiredFrame.lean ====
section
/-! What keeps the retired set (R143, R147) while mount is not choosing the anchor record: no internal move brings its choice back, and
every anchor write is of contents whose retired set holds the sectors it held. One lemma per operation: an equivalence where the
operation leaves the tasks that could choose the anchor record and the working contents, an implication where it changes them. -/

namespace Sys2Proof.Certificates

open Sys2Proof Sys2Proof.Machine

/-- No task of `k` chooses the anchor record, and the working contents hold every sector of `l` in their retired set, which is empty
in the default contents. -/
def RetainsIn (l : List Nat) (k : List Task) (working : Option AnchorRecord) : Prop :=
  (∀ a, Task.mountAnchor a ∉ k) ∧ l ⊆ (working.getD .default).retired

/-- Mount is not choosing the anchor record in `s`, and the retired set holds every sector of `l`. -/
def Retains (l : List Nat) (s : State) : Prop := RetainsIn l s.ctl.stack s.anchor.working

variable {l : List Nat}

/-- The working contents, where the anchor unit holds none the default ones. -/
theorem contents_eq_getD (s : State) : s.contents = s.anchor.working.getD .default := by
  unfold State.contents
  cases s.anchor.working <;> rfl

/-- The retired set of a state that retains `l`. -/
theorem Retains.subset {s : State} (h : Retains l s) : l ⊆ s.contents.retired := by
  rw [contents_eq_getD]
  exact h.2

@[simp] theorem retains_mk (w q e c lg cm sq a z p f pe) :
    Retains l ⟨w, q, e, c, lg, cm, sq, a, z, p, f, pe⟩ ↔ RetainsIn l c.stack a.working := Iff.rfl

@[simp] theorem retainsIn_iff_retains (s : State) : RetainsIn l s.ctl.stack s.anchor.working ↔ Retains l s := Iff.rfl

section
variable (s : State)

/-! ### Single updates -/

/-- A task that does not choose the anchor record is put on top. -/
@[simp] theorem push_retains (t : Task) : Retains l (s.push t) ↔ (∀ a, t ≠ .mountAnchor a) ∧ Retains l s := by
  simp only [Retains, RetainsIn, State.push, List.mem_cons, not_or, forall_and, and_assoc, ne_comm, ne_eq]

@[simp] theorem setLine_retains (x n : Nat) (v : Line) : Retains l (s.setLine x n v) ↔ Retains l s := Iff.rfl
@[simp] theorem ret_retains (r : Reply) : Retains l (s.ret r) ↔ Retains l s := Iff.rfl
@[simp] theorem raise_retains (e : Byte) : Retains l (s.raise e) ↔ Retains l s := Iff.rfl
@[simp] theorem raiseMediaLoss_retains (k : Key) : Retains l (s.raiseMediaLoss k) ↔ Retains l s := Iff.rfl
@[simp] theorem dropTxn_retains : Retains l s.dropTxn ↔ Retains l s := Iff.rfl
@[simp] theorem stopTimer_retains : Retains l s.stopTimer ↔ Retains l s := Iff.rfl
@[simp] theorem setTxn_retains (t : Option OpenTxn) : Retains l (s.setTxn t) ↔ Retains l s := Iff.rfl
@[simp] theorem withDir_retains (f : Directory → Directory) : Retains l (s.withDir f) ↔ Retains l s := Iff.rfl
@[simp] theorem withLog_retains (f : LogTables → LogTables) : Retains l (s.withLog f) ↔ Retains l s := Iff.rfl
@[simp] theorem mapRecord_retains (x : Nat) (f : SectorRec → SectorRec) : Retains l (s.mapRecord x f) ↔ Retains l s := Iff.rfl
@[simp] theorem leaveStall_retains : Retains l s.leaveStall ↔ Retains l s := Iff.rfl
@[simp] theorem abortRound_retains : Retains l s.abortRound ↔ Retains l s := Iff.rfl
@[simp] theorem setZoneFlags_retains (z : Fin 4) (f : ZoneFlags) : Retains l (s.setZoneFlags z f) ↔ Retains l s := Iff.rfl

/-! ### The store state and READ_ONLY causes (R42, R43) -/

@[simp] theorem setStore_retains (st : StoreState) : Retains l (s.setStore st) ↔ Retains l s := by
  unfold State.setStore; split <;> rfl

@[simp] theorem leaveStore_retains (old new : StoreState) : Retains l (s.leaveStore old new) ↔ Retains l s := by
  unfold State.leaveStore; split <;> simp

@[simp] theorem reportReadOnly_retains : Retains l s.reportReadOnly ↔ Retains l s := by
  unfold State.reportReadOnly; split <;> rfl

@[simp] theorem applyReadOnly_retains : Retains l s.applyReadOnly ↔ Retains l s := by
  simp only [State.applyReadOnly]; (repeat' split) <;> simp

/-! ### The array sequencer (R106 to R110, R119) -/

@[simp] theorem issue_retains (op : LineOp) : Retains l (s.issue op) ↔ Retains l s := by
  unfold State.issue; (repeat' split) <;> rfl

@[simp] theorem issueRead_retains (x n : Nat) : Retains l (s.issueRead x n) ↔ Retains l s := issue_retains s _

@[simp] theorem issueProgram_retains (x n : Nat) (d : LineData) : Retains l (s.issueProgram x n d) ↔ Retains l s :=
  issue_retains s _

@[simp] theorem endOp_retains (r : Reply) : Retains l (s.endOp r) ↔ Retains l s := by
  unfold State.endOp; split <;> rfl

@[simp] theorem lineReadEnds_retains : Retains l s.lineReadEnds ↔ Retains l s := by
  unfold State.lineReadEnds; split <;> simp

@[simp] theorem lineProgramEnds_retains (verified : Bool) : Retains l (s.lineProgramEnds verified) ↔ Retains l s := by
  unfold State.lineProgramEnds; split <;> simp

@[simp] theorem programTimesOut_retains : Retains l s.programTimesOut ↔ Retains l s := by
  unfold State.programTimesOut; (repeat' split) <;> simp

@[simp] theorem compactorErased_retains (o : EraseOutcome) : Retains l (s.compactorErased o) ↔ Retains l s := by
  unfold State.compactorErased; (repeat' split) <;> rfl

@[simp] theorem wakeWaiting_retains : Retains l s.wakeWaiting ↔ Retains l s := by
  unfold State.wakeWaiting; split <;> rfl

@[simp] theorem deliverErase_retains (background : Bool) (o : EraseOutcome) :
    Retains l (s.deliverErase background o) ↔ Retains l s := by
  unfold State.deliverErase; split <;> simp

@[simp] theorem issueErase_retains (x : Nat) (background : Bool) : Retains l (s.issueErase x background) ↔ Retains l s := by
  unfold State.issueErase State.beginErase; (repeat' split) <;> simp

@[simp] theorem serveWaiting_retains : Retains l s.serveWaiting ↔ Retains l s := by
  simp only [State.serveWaiting]; (repeat' split) <;> rfl

@[simp] theorem eraseEnds_retains (passed : Bool) : Retains l (s.eraseEnds passed) ↔ Retains l s := by
  unfold State.eraseEnds; (repeat' split) <;> simp [State.drawFree, State.withCells]

@[simp] theorem abandonErase_retains : Retains l s.abandonErase ↔ Retains l s := by
  unfold State.abandonErase; split <;> rfl

@[simp] theorem sequencerWarning_retains : Retains l s.sequencerWarning ↔ Retains l s := by
  unfold State.sequencerWarning; rw [serveWaiting_retains]; (repeat' split) <;> simp

@[simp] theorem ownLoss_retains (x n : Nat) : Retains l (s.ownLoss x n) ↔ Retains l s := by
  unfold State.ownLoss; split <;> simp

/-! ### Steps that end (R86, R98) -/

@[simp] theorem stepEnds_retains (b : Bool) : Retains l (s.stepEnds b) ↔ Retains l s := by simp [State.stepEnds]

@[simp] theorem endRound_retains : Retains l s.endRound ↔ Retains l s := by
  simp only [State.endRound]; (repeat' split) <;> simp

@[simp] theorem selectVictim_retains : Retains l s.selectVictim ↔ Retains l s := by
  unfold State.selectVictim; (repeat' split) <;> simp

@[simp] theorem finishRoundReply_retains (r : Reply) : Retains l (s.finishRoundReply r) ↔ Retains l s := by
  unfold State.finishRoundReply; split <;> simp

@[simp] theorem bumpSeq_retains : Retains l s.bumpSeq ↔ Retains l s := by
  simp only [State.bumpSeq]; split <;> simp

@[simp] theorem hostPlaced_retains : Retains l s.hostPlaced ↔ Retains l s := bumpSeq_retains s

@[simp] theorem copyFailed_retains (o : AppendOutcome) : Retains l (s.copyFailed o) ↔ Retains l s := by
  unfold State.copyFailed; split <;> simp

@[simp] theorem copyAppendReply_retains (e : Entry) (r : Reply) : Retains l (s.copyAppendReply e r) ↔ Retains l s := by
  unfold State.copyAppendReply; split <;> simp

@[simp] theorem lossAppendReply_retains (e : Entry) (q : Seq) (r : Reply) :
    Retains l (s.lossAppendReply e q r) ↔ Retains l s := by
  unfold State.lossAppendReply; split <;> simp

/-! ### Ends of anchor writes, retirements, closings and appends (R7, R10, R22, R146) -/

@[simp] theorem anchorEnds_retains (o : AnchorOutcome) : Retains l (s.anchorEnds o) ↔ Retains l s := by
  unfold State.anchorEnds State.anchorFailure; (repeat' split) <;> simp

@[simp] theorem retireSector_retains (x : Nat) : Retains l (s.retireSector x) ↔ Retains l s := by
  simp only [State.retireSector]; split <;> simp

@[simp] theorem closeHeadReply_retains (x : Nat) (r : Reply) : Retains l (s.closeHeadReply x r) ↔ Retains l s := by
  unfold State.closeHeadReply; split <;> simp

@[simp] theorem appendEnds_retains (o : AppendOutcome) : Retains l (s.appendEnds o) ↔ Retains l s := Iff.rfl

@[simp] theorem appendExhausted_retains : Retains l s.appendExhausted ↔ Retains l s := by simp [State.appendExhausted]

end

variable {s : State}

/-! ### Anchor writes and retirement (R10, R145 to R147) -/

@[simp] theorem clearControl_retains (h : Retains l s) : Retains l s.clearControl := ⟨fun _ => List.not_mem_nil, h.2⟩

@[simp] theorem programPart_retains (a : AnchorRecord) (second : Bool) (x slot part : Nat) :
    Retains l (s.programPart a second x slot part) ↔ Retains l s := by simp [State.programPart]

@[simp] theorem placeRecord_retains (a : AnchorRecord) (second : Bool) : Retains l (s.placeRecord a second) ↔ Retains l s := by
  unfold State.placeRecord; (repeat' split) <;> simp

/-- An anchor write whose change keeps the retired set's sectors. -/
theorem anchorWrite_retains {change : AnchorRecord → AnchorRecord} (hc : ∀ a, a.retired ⊆ (change a).retired)
    (h : Retains l s) : Retains l (s.anchorWrite change) := by
  simp only [State.anchorWrite, placeRecord_retains, retains_mk]
  exact ⟨h.1, List.Subset.trans h.subset (hc { s.contents with generation := nextGeneration s.contents.generation })⟩

@[simp] theorem anchorWriteReply_retains (a : AnchorRecord) (second : Bool) (p : AnchorPhase) (r : Reply) :
    Retains l (s.anchorWriteReply a second p r) ↔ Retains l s := by
  unfold State.anchorWriteReply; (repeat' split) <;> simp

/-- A sector that joins the retired set displaces none (R147). -/
theorem subset_insertSector (x : Nat) : ∀ l : List Nat, l ⊆ insertSector x l
  | [] => List.nil_subset _
  | y :: rest => by
    simp only [insertSector]
    split
    · exact List.subset_cons_self _ _
    · split
      · exact List.Subset.refl _
      · exact List.cons_subset_cons _ (subset_insertSector x rest)

/-- A retirement adds its sector to the retired set. -/
@[simp] theorem retireBegin_retains (x : Nat) (h : Retains l s) : Retains l (s.retireBegin x) :=
  anchorWrite_retains (fun a => subset_insertSector x a.retired) (by simp [h])

/-! ### Formatting, opening and closing a sector (R5 to R7) -/

@[simp] theorem formatSector_retains (x c : Nat) : Retains l (s.formatSector x c) ↔ Retains l s := by
  simp [State.formatSector]

@[simp] theorem formatLineReply_retains (x c : Nat) (r : Reply) (h : Retains l s) : Retains l (s.formatLineReply x c r) := by
  unfold State.formatLineReply; split <;> simp [h]

@[simp] theorem openHead_retains : Retains l s.openHead ↔ Retains l s := by
  unfold State.openHead; (repeat' split) <;> simp

@[simp] theorem openRetryReply_retains (r : Reply) : Retains l (s.openRetryReply r) ↔ Retains l s := by
  unfold State.openRetryReply; (repeat' split) <;> simp

@[simp] theorem openHeadReply_retains (x : Nat) (ring : Seq) (r : Reply) (h : Retains l s) :
    Retains l (s.openHeadReply x ring r) := by
  unfold State.openHeadReply; split <;> simp [h]

@[simp] theorem closeHead_retains : Retains l s.closeHead ↔ Retains l s := by
  unfold State.closeHead; (repeat' split) <;> simp

/-! ### Appends and frame reads (R21 to R24, R58, R91) -/

@[simp] theorem programAttempt_retains (j : AppendJob) (x st i : Nat) :
    Retains l (s.programAttempt j x st i) ↔ Retains l s := by simp [State.programAttempt]

@[simp] theorem appendNewHead_retains (j : AppendJob) (floor : Bool) : Retains l (s.appendNewHead j floor) ↔ Retains l s := by
  unfold State.appendNewHead; (repeat' split) <;> simp

@[simp] theorem placeAttempt_retains (j : AppendJob) (floor : Bool) : Retains l (s.placeAttempt j floor) ↔ Retains l s := by
  unfold State.placeAttempt; (repeat' split) <;> simp

@[simp] theorem appendBegin_retains (j : AppendJob) : Retains l (s.appendBegin j) ↔ Retains l s := placeAttempt_retains j _

@[simp] theorem appendReply_retains (j : AppendJob) (p : AppendPhase) (r : Reply) :
    Retains l (s.appendReply j p r) ↔ Retains l s := by
  unfold State.appendReply State.rewrite; (repeat' split) <;> simp

@[simp] theorem readFrameBegin_retains (e : Entry) : Retains l (s.readFrameBegin e) ↔ Retains l s := by
  simp [State.readFrameBegin]

@[simp] theorem readFrameReply_retains (e : Entry) (i : Nat) (got : List Byte) (r : Reply) :
    Retains l (s.readFrameReply e i got r) ↔ Retains l s := by
  simp only [State.readFrameReply]; (repeat' split) <;> simp

/-! ### Compaction steps (R86 to R98) -/

@[simp] theorem eraseVictim_retains (x : Nat) (h : Retains l s) : Retains l (s.eraseVictim x) := by
  unfold State.eraseVictim; split <;> simp [h]

@[simp] theorem copyOne_retains (h : Retains l s) : Retains l s.copyOne := by
  unfold State.copyOne; (repeat' split) <;> simp [h]

@[simp] theorem finishVictim_retains (h : Retains l s) : Retains l s.finishVictim := by
  unfold State.finishVictim; (repeat' split) <;> simp [h]

@[simp] theorem grantStep_retains (h : Retains l s) : Retains l s.grantStep := by
  unfold State.grantStep; split <;> simp [h]

@[simp] theorem copyReadReply_retains (e : Entry) (r : Reply) : Retains l (s.copyReadReply e r) ↔ Retains l s := by
  unfold State.copyReadReply; split <;> simp

/-! ### Completions, and the jobs that end with one (R47, R53 to R59, R62, R63, R77 to R79, R99, R100, R151, R152) -/

@[simp] theorem restartTimer_retains : Retains l s.restartTimer ↔ Retains l s := by
  unfold State.restartTimer; split <;> rfl

@[simp] theorem postRecord_retains (c : Completion) : Retains l (s.postRecord c) ↔ Retains l s := by
  simp only [State.postRecord]; split <;> rfl

@[simp] theorem post_retains (r : Request) (c : Completion) (h : Retains l s) : Retains l (s.post r c) := by
  unfold State.post; split <;> simp [h]

@[simp] theorem answer_retains (r : Request) (st : Status) (h : Retains l s) : Retains l (s.answer r st) := post_retains r _ h

@[simp] theorem answerAux_retains (r : Request) (st : Status) (aux : BitVec 16) (h : Retains l s) :
    Retains l (s.answerAux r st aux) := post_retains r _ h

@[simp] theorem answerRecord_retains (r : Request) (st : Status) (v : Seq) (n : Nat) (h : Retains l s) :
    Retains l (s.answerRecord r st v n) := post_retains r _ h

@[simp] theorem turnAway_retains (r : Request) (st : Status) (h : Retains l s) : Retains l (s.turnAway r st) := by
  unfold State.turnAway; split <;> simp [h]

@[simp] theorem writeProceeds_retains (w : StalledWrite) : Retains l (s.writeProceeds w) ↔ Retains l s := by
  cases w <;> simp [State.writeProceeds, State.putAppend, State.deleteAppend, State.commitAppend]

@[simp] theorem nextStepInJob_retains (t : Task) (ht : ∀ a, t ≠ .mountAnchor a) (h : Retains l s) :
    Retains l (s.nextStepInJob t) := by
  unfold State.nextStepInJob; split <;> simp [h, ht]

@[simp] theorem enterStall_retains (w : StalledWrite) (h : Retains l s) : Retains l (s.enterStall w) := by
  simp [State.enterStall, h]

@[simp] theorem stallTests_retains (w : StalledWrite) (reported : Bool) (h : Retains l s) :
    Retains l (s.stallTests w reported) := by
  unfold State.stallTests; (repeat' split) <;> simp [h]

@[simp] theorem stallReply_retains (w : StalledWrite) (r : Reply) (h : Retains l s) : Retains l (s.stallReply w r) := by
  unfold State.stallReply; split <;> simp [h]

@[simp] theorem writeAdmitted_retains (w : StalledWrite) (h : Retains l s) : Retains l (s.writeAdmitted w) := by
  unfold State.writeAdmitted; split <;> simp [h]

@[simp] theorem writeFailed_retains (w : StalledWrite) (o : AppendOutcome) (h : Retains l s) :
    Retains l (s.writeFailed w o) := by
  unfold State.writeFailed; split <;> simp [h]

@[simp] theorem putReply_retains (r : Request) (p : Reply) (h : Retains l s) : Retains l (s.putReply r p) := by
  unfold State.putReply; split <;> simp [h]

@[simp] theorem deleteReply_retains (r : Request) (p : Reply) (h : Retains l s) : Retains l (s.deleteReply r p) := by
  unfold State.deleteReply; split <;> simp [h]

@[simp] theorem commitReply_retains (c : CommitJob) (p : Reply) (h : Retains l s) : Retains l (s.commitReply c p) := by
  simp only [State.commitReply, State.commitAppend]; (repeat' split) <;> simp [h]

@[simp] theorem getReply_retains (r : Request) (e : Entry) (p : Reply) (h : Retains l s) : Retains l (s.getReply r e p) := by
  unfold State.getReply; split <;> simp [h]

@[simp] theorem reclaimTests_retains (r : Request) (reported : Bool) (h : Retains l s) :
    Retains l (s.reclaimTests r reported) := by
  unfold State.reclaimTests State.reclaimEnds; (repeat' split) <;> simp [h]

@[simp] theorem reclaimReply_retains (r : Request) (p : Reply) (h : Retains l s) : Retains l (s.reclaimReply r p) := by
  unfold State.reclaimReply; split <;> simp [h]

@[simp] theorem setZoneReply_retains (r : Request) (p : Reply) (h : Retains l s) : Retains l (s.setZoneReply r p) := by
  unfold State.setZoneReply; split <;> simp [h]

/-! ### FORMAT (R153 to R157) -/

/-- FORMAT's anchor write changes the format id. -/
@[simp] theorem formatBegin_retains (r : Request) (h : Retains l s) : Retains l (s.formatBegin r) :=
  anchorWrite_retains (fun _ => List.Subset.refl _) (by simp [h])

@[simp] theorem formatStops_retains (r : Request) (h : Retains l s) : Retains l (s.formatStops r) := answerAux_retains r _ _ h

@[simp] theorem formatNext_retains (r : Request) (h : Retains l s) : Retains l (s.formatNext r) := by
  unfold State.formatNext State.formatOpening; (repeat' split) <;> simp [h]

@[simp] theorem formatReadNext_retains (r : Request) (todo : List Nat) (h : Retains l s) :
    Retains l (s.formatReadNext r todo) := by
  unfold State.formatReadNext; split <;> simp [h]

@[simp] theorem formatAnchorReply_retains (r : Request) (p : Reply) (h : Retains l s) :
    Retains l (s.formatAnchorReply r p) := by
  unfold State.formatAnchorReply State.formatTables; split <;> simp [h]

@[simp] theorem formatReadReply_retains (r : Request) (x : Nat) (todo : List Nat) (p : Reply) (h : Retains l s) :
    Retains l (s.formatReadReply r x todo p) := by
  unfold State.formatReadReply; split <;> simp [h]

@[simp] theorem formatEraseReply_retains (r : Request) (x : Nat) (p : Reply) (h : Retains l s) :
    Retains l (s.formatEraseReply r x p) := by
  unfold State.formatEraseReply; split <;> simp [h]

@[simp] theorem formatSectorReply_retains (r : Request) (p : Reply) (h : Retains l s) :
    Retains l (s.formatSectorReply r p) := by
  unfold State.formatSectorReply; split <;> simp [h]

@[simp] theorem formatOpenReply_retains (r : Request) (p : Reply) (h : Retains l s) : Retains l (s.formatOpenReply r p) := by
  unfold State.formatOpenReply State.formatEnds; split <;> simp [h]

/-! ### Mount after its choice of the anchor record (R125 to R139) -/

@[simp] theorem mountStops_retains (h : Retains l s) : Retains l s.mountStops := clearControl_retains h

@[simp] theorem mountEnds_retains (h : Retains l s) : Retains l s.mountEnds := by simp [State.mountEnds, h]

@[simp] theorem mountOpening_retains (h : Retains l s) : Retains l s.mountOpening := by
  unfold State.mountOpening; (repeat' split) <;> simp [h]

@[simp] theorem tidyNext_retains (h : Retains l s) : Retains l s.tidyNext := by
  unfold State.tidyNext; (repeat' split) <;> simp [h]

@[simp] theorem mountCloseNext_retains (todo : List Unclosed) (h : Retains l s) : Retains l (s.mountCloseNext todo) := by
  unfold State.mountCloseNext; split <;> simp [h]

@[simp] theorem replayEnds_retains (p : Replay) (h : Retains l s) : Retains l (s.replayEnds p) := by
  simp [State.replayEnds, h]

@[simp] theorem scanNext_retains (p : Replay) (ended : Bool) (h : Retains l s) : Retains l (s.scanNext p ended) := by
  simp only [State.scanNext]; (repeat' split) <;> simp [h]

@[simp] theorem surveyNext_retains (todo : List Nat) (notes : List (Nat × SurveyNote)) (h : Retains l s) :
    Retains l (s.surveyNext todo notes) := by
  simp only [State.surveyNext, State.replayBegin]; (repeat' split) <;> simp [h]

@[simp] theorem mountSurveyReply_retains (x : Nat) (read : List Line) (todo : List Nat) (notes : List (Nat × SurveyNote))
    (p : Reply) (h : Retains l s) : Retains l (s.mountSurveyReply x read todo notes p) := by
  unfold State.mountSurveyReply; (repeat' split) <;> simp [h]

@[simp] theorem mountReplayReply_retains (m : Replay) (p : Reply) (h : Retains l s) : Retains l (s.mountReplayReply m p) := by
  unfold State.mountReplayReply; split <;> simp [h]

@[simp] theorem mountCloseReply_retains (u : Unclosed) (todo : List Unclosed) (p : Reply) (h : Retains l s) :
    Retains l (s.mountCloseReply u todo p) := by
  unfold State.mountCloseReply; split <;> simp [h]

@[simp] theorem mountEraseReply_retains (x : Nat) (p : Reply) (h : Retains l s) : Retains l (s.mountEraseReply x p) := by
  unfold State.mountEraseReply; split <;> simp [h]

@[simp] theorem mountSectorReply_retains (p : Reply) (h : Retains l s) : Retains l (s.mountSectorReply p) := by
  unfold State.mountSectorReply; split <;> simp [h]

@[simp] theorem mountOpenReply_retains (p : Reply) (h : Retains l s) : Retains l (s.mountOpenReply p) := by
  unfold State.mountOpenReply; split <;> simp [h]

@[simp] theorem mountWarned_retains (h : Retains l s) : Retains l s.mountWarned := by
  unfold State.mountWarned; split <;> simp [h]

/-! ### Internal moves -/

/-- A task that does not choose the anchor record goes on with its reply. -/
theorem resume_retains (t : Task) (r : Reply) (ht : ∀ a, t ≠ .mountAnchor a) (h : Retains l s) : Retains l (s.resume t r) := by
  cases t with
  | retire x => simp only [State.resume]; split <;> simp [h]
  | mountAnchor a => exact absurd rfl (ht a)
  | _ => simp [State.resume, h]

/-- One internal move. -/
theorem move_retains {t : State} (h : Retains l s) (hm : s.move = some t) : Retains l t := by
  unfold State.move at hm
  split at hm
  · rename_i r k rest _ hk
    cases hm
    obtain ⟨hscan, hset⟩ := h
    simp only [hk, List.mem_cons, not_or, forall_and] at hscan
    exact resume_retains _ _ (fun a => Ne.symm (hscan.1 a)) ⟨hscan.2, hset⟩
  · cases hm; exact clearControl_retains h
  · unfold State.startPending at hm
    split at hm
    · cases hm
    · split at hm
      · cases hm; simp [h]
      · cases hm

/-- All internal moves of a command. -/
@[simp] theorem settle_retains (h : Retains l s) : Retains l s.settle :=
  State.settle_keeps (fun _ _ h hm => move_retains h hm) h

end Sys2Proof.Certificates
end

