-- ==== Sys2Proof/Proofs/RetiredSet.lean ====
section
/-! The retired set never shrinks (R143, R147): requests, compaction steps, ticks and events keep it, a reset takes the contents away,
and only mount's beginning leads to another choice of the anchor record. -/

namespace Sys2Proof.Certificates

open Sys2Proof Sys2Proof.Machine

variable {l : List Nat}

/-! ### Requests that are taken and steps that are granted (R85, R163 to R165) -/

/-- An operation on the state retains every set of retired sectors while mount is not choosing the anchor record. -/
def KeepsRetired (f : State → State) : Prop := ∀ (l : List Nat) (s : State), Retains l s → Retains l (f s)

/-- What leaves the tasks and the anchor unit retains. -/
theorem KeepsRetired.of_iff {f : State → State} (h : ∀ l s, Retains l (f s) ↔ Retains l s) : KeepsRetired f :=
  fun l s => (h l s).2

theorem committedGet_keepsRetired (r : Request) : KeepsRetired (committedGet r) := fun l s h => by
  unfold committedGet; split <;> simp [h]

theorem noTransaction_keepsRetired (r : Request) : KeepsRetired (·.noTransaction r) := fun l s h => by
  simp only [State.noTransaction]; split <;> simp [h]

theorem stage_keepsRetired (r : Request) (t : OpenTxn) (e : Staged) : KeepsRetired (·.stage r t e) := fun l s h => by
  simp only [State.stage]; split <;> simp [h]

theorem putBody_keepsRetired (r : Request) : KeepsRetired (putBody r) := fun l s h => by
  simp only [putBody, State.conditionFailed]; (repeat' split) <;> simp [h]

theorem deleteBody_keepsRetired (r : Request) : KeepsRetired (deleteBody r) := fun l s h => by
  simp only [deleteBody, State.conditionFailed]; (repeat' split) <;> simp [h]

theorem getBody_keepsRetired (r : Request) : KeepsRetired (getBody r) := fun l s h => by
  unfold getBody; split
  · simp [h]
  · exact committedGet_keepsRetired r l s h

theorem nextBody_keepsRetired (r : Request) : KeepsRetired (nextBody r) := fun l s h => by
  unfold nextBody; split <;> simp [h]

theorem infoBody_keepsRetired (r : Request) : KeepsRetired (infoBody r) := fun _ _ h => post_retains r _ h

theorem beginBody_keepsRetired (r : Request) : KeepsRetired (beginBody r) := fun l s h => by
  unfold beginBody; split <;> simp [h]

theorem inTxnPutBody_keepsRetired (r : Request) : KeepsRetired (inTxnPutBody r) := fun l s h => by
  have hnone := noTransaction_keepsRetired r l s h
  have hstage := fun t e => stage_keepsRetired r t e l s h
  unfold inTxnPutBody State.conditionFailed; (repeat' split) <;> simp [h, hnone, hstage]

theorem inTxnDeleteBody_keepsRetired (r : Request) : KeepsRetired (inTxnDeleteBody r) := fun l s h => by
  have hnone := noTransaction_keepsRetired r l s h
  have hstage := fun t e => stage_keepsRetired r t e l s h
  unfold inTxnDeleteBody State.conditionFailed; (repeat' split) <;> simp [h, hnone, hstage]

theorem inTxnGetBody_keepsRetired (r : Request) : KeepsRetired (inTxnGetBody r) := fun l s h => by
  have hnone := noTransaction_keepsRetired r l s h
  have hget := committedGet_keepsRetired r l s h
  unfold inTxnGetBody; (repeat' split) <;> simp [h, hnone, hget]

theorem commitBody_keepsRetired (r : Request) : KeepsRetired (commitBody r) := fun l s h => by
  have hnone := noTransaction_keepsRetired r l s h
  simp only [commitBody]; (repeat' split) <;> simp [h, hnone]

theorem abandonBody_keepsRetired (r : Request) : KeepsRetired (abandonBody r) := fun l s h => by
  have hnone := noTransaction_keepsRetired r l s h
  unfold abandonBody; split <;> simp [h, hnone]

theorem reclaimBody_keepsRetired (r : Request) : KeepsRetired (reclaimBody r) := fun _ _ h => reclaimTests_retains r false h

theorem unlockBody_keepsRetired (r : Request) : KeepsRetired (unlockBody r) := fun l s h => by
  simp only [unlockBody]; (repeat' split) <;> simp [h]

theorem lockBody_keepsRetired (r : Request) : KeepsRetired (lockBody r) := fun l s h => by simp [lockBody, h]

/-- A changed zone leaves the retired set (R151, R152). -/
theorem setZone_retains {s : State} (r : Request) (z : Fin 4) (f : ZoneEntry → ZoneEntry) (h : Retains l s) :
    Retains l ((s.push (.setZone r)).anchorWrite (fun a => a.mapZone z f)) :=
  anchorWrite_retains (fun _ => List.Subset.refl _) (by simp [h])

theorem setCodeBody_keepsRetired (r : Request) : KeepsRetired (setCodeBody r) := fun l s h => by
  simp only [setCodeBody]; (repeat' split) <;> simp [h, setZone_retains]

theorem setPolicyBody_keepsRetired (r : Request) : KeepsRetired (setPolicyBody r) := fun l s h => by
  simp only [setPolicyBody]; (repeat' split) <;> simp [h, setZone_retains]

theorem formatBody_keepsRetired (r : Request) : KeepsRetired (formatBody r) := fun l s h => by
  simp only [formatBody]; (repeat' split) <;> simp [h]

/-- A request that is taken: the tests before its kind's own, and its kind's body. -/
theorem takeFront_keepsRetired (isRow : Request → Bool) {body : Request → State → State} (hb : ∀ r, KeepsRetired (body r)) :
    KeepsRetired (·.takeFront isRow body) := by
  have hchecked (r : Request) : KeepsRetired (·.checked r body) := fun l s h => by
    have hstopped : Retains l (if r.isTxnRequest then s.stopTimer else s) := by split <;> exact h
    simp only [State.checked]
    split
    · exact turnAway_retains r _ hstopped
    · split
      · exact hb r l _ hstopped
      · exact turnAway_retains r _ hstopped
  intro l s h
  simp only [State.takeFront, State.takeRequest]
  split
  · exact h
  · split
    · split
      · split
        · exact answer_retains _ _ h
        · exact hchecked _ l _ h
      · exact hchecked _ l _ h
    · exact h

/-- A request that is taken and runs until its job waits or ends. -/
theorem taking_keepsRetired (isRow : Request → Bool) {body : Request → State → State} (hb : ∀ r, KeepsRetired (body r)) :
    KeepsRetired (·.taking isRow body) := fun l s h => settle_retains (takeFront_keepsRetired isRow hb l s h)

/-- A step that is granted and runs until it waits or ends. -/
theorem granting_keepsRetired (stage : Stage) {f : State → State} (hf : KeepsRetired f) :
    KeepsRetired (·.granting stage f) := fun l s h => by
  simp only [State.granting]
  split
  · exact settle_retains (hf l s h)
  · exact h

/-! ### The timers and the warning (R73, R109, R118) -/

theorem timerExpires_keepsRetired : KeepsRetired State.timerExpires :=
  .of_iff fun l s => by unfold State.timerExpires; split <;> rfl

/-- The end of the erase in flight and what follows from it. -/
theorem eraseEnds_keepsRetired (passed : Bool) : KeepsRetired (fun s => (s.eraseEnds passed).settle) :=
  fun l s h => settle_retains (by simp [h])

/-- One tick. -/
theorem tick_keepsRetired : KeepsRetired State.tick := fun l s h => by
  have htimer : Retains l s.tickTimer := by
    unfold State.tickTimer
    (repeat' split)
    · exact timerExpires_keepsRetired l s h
    · exact h
    · exact h
  simp only [State.tick, State.tickErase]
  (repeat' split)
  · exact eraseEnds_keepsRetired false l _ htimer
  · exact htimer
  · exact htimer
  · exact htimer
  · exact h

/-- The warning and what follows from it. -/
theorem takeWarning_keepsRetired : KeepsRetired State.takeWarning := fun l s h => by
  refine settle_retains ?_
  split <;> simp [h]

/-! ### Bus accesses (R171 to R177) -/

/-- The state retains `l`, or a reset has taken the contents away. -/
def RetainsUnlessReset (l : List Nat) (s : State) : Prop := Retains l s ∨ s.anchor.working = none

/-- An operation on the state keeps the retired set unless it is a reset. -/
def KeepsOrResets (f : State → State) : Prop := ∀ (l : List Nat) (s : State), Retains l s → RetainsUnlessReset l (f s)

/-- What is no reset. -/
theorem KeepsRetired.orResets {f : State → State} (h : KeepsRetired f) : KeepsOrResets f := fun l s hs => .inl (h l s hs)

theorem submit_keepsRetired : KeepsRetired State.submit :=
  .of_iff fun l s => by unfold State.submit; (repeat' split) <;> rfl

theorem popHead_keepsRetired : KeepsRetired State.popHead :=
  .of_iff fun l s => by unfold State.popHead; split <;> rfl

theorem rewindHead_keepsRetired : KeepsRetired State.rewindHead :=
  .of_iff fun l s => by unfold State.rewindHead; split <;> rfl

theorem fillByte_keepsRetired (b : Byte) : KeepsRetired (·.fillByte b) :=
  .of_iff fun l s => by unfold State.fillByte; split <;> rfl

/-- A soft reset takes the contents away (R143). -/
theorem softReset_keepsOrResets : KeepsOrResets State.softReset := fun _ _ _ => .inr rfl

/-- A pin reset or a power loss takes the contents away (R143). -/
theorem hardReset_keepsOrResets : KeepsOrResets State.hardReset := fun _ _ _ => .inr rfl

/-- CONTROL: of its commands only the soft reset reaches the anchor unit. -/
theorem control_keepsOrResets (v : Byte) : KeepsOrResets (·.control v) := fun l s h => by
  simp only [State.control]
  (repeat' split)
  · exact submit_keepsRetired.orResets l s h
  · exact popHead_keepsRetired.orResets l s h
  · exact .inl h
  · exact rewindHead_keepsRetired.orResets l s h
  · exact softReset_keepsOrResets l s h
  · exact .inl h

/-- A register write. -/
theorem busWrite_keepsOrResets (a : BitVec 6) (v : Byte) : KeepsOrResets (·.busWrite a v) := fun l s h => by
  simp only [State.busWrite]
  split
  case h_3 => exact control_keepsOrResets v l s h
  case h_16 => exact (fillByte_keepsRetired v).orResets l s h
  all_goals exact .inl h

/-! ### Commands -/

section
variable {s t u : State}

/-- A command that answers one next state. -/
theorem retains_of_next (h : (.next u : Result) = .next t) (hu : RetainsUnlessReset l u) : RetainsUnlessReset l t := by
  cases h; exact hu

/-- A write access. -/
theorem onBus_retains {f : State → State} (hx : s.onBus f = .next t) (h : Retains l s) (hf : KeepsOrResets f) :
    RetainsUnlessReset l t := by
  refine retains_of_next hx ?_
  split
  · exact hf l s h
  · exact .inl h

/-- Every command but MOUNT keeps the retired set or is a reset. -/
theorem exec_retains {c : Instr} (hc : c ≠ .mount) (h : Retains l s) (hx : exec c s = .next t) : RetainsUnlessReset l t := by
  have taken {isRow : Request → Bool} {body : Request → State → State} (hb : ∀ r, KeepsRetired (body r)) :=
    (taking_keepsRetired isRow hb).orResets l s h
  have granted (stage : Stage) {f : State → State} (hf : KeepsRetired f) := (granting_keepsRetired stage hf).orResets l s h
  cases c with
  | mount => exact absurd rfl hc
  | go => exact onBus_retains hx h submit_keepsRetired.orResets
  | pop => exact onBus_retains hx h popHead_keepsRetired.orResets
  | rewind => exact onBus_retains hx h rewindHead_keepsRetired.orResets
  | writeData b => exact onBus_retains (f := (·.fillByte b)) hx h (fillByte_keepsRetired b).orResets
  | clearFill => exact onBus_retains (f := (·.clearFill)) hx h fun _ _ => .inl
  | eventStatus v => exact onBus_retains (f := (·.clearEvents v)) hx h fun _ _ => .inl
  | eventEnable v => exact onBus_retains (f := (·.setEnables v)) hx h fun _ _ => .inl
  | lowWater v => exact onBus_retains (f := (·.setLowWater v)) hx h fun _ _ => .inl
  | softReset => exact onBus_retains hx h softReset_keepsOrResets
  | registerWrite a v => exact onBus_retains (f := (·.busWrite a v)) hx h (busWrite_keepsOrResets a v)
  | readData =>
    simp only [exec, execReadData] at hx
    (repeat' split at hx) <;> exact retains_of_next hx (.inl h)
  | captureLatch r =>
    simp only [exec, execCaptureLatch] at hx
    split at hx
    · exact retains_of_next hx (.inl (by cases r <;> exact h))
    · exact retains_of_next hx (.inl h)
  | put => exact retains_of_next hx (taken putBody_keepsRetired)
  | get => exact retains_of_next hx (taken getBody_keepsRetired)
  | delete => exact retains_of_next hx (taken deleteBody_keepsRetired)
  | next => exact retains_of_next hx (taken nextBody_keepsRetired)
  | info => exact retains_of_next hx (taken infoBody_keepsRetired)
  | beginTxn => exact retains_of_next hx (taken beginBody_keepsRetired)
  | inTxnPut => exact retains_of_next hx (taken inTxnPutBody_keepsRetired)
  | inTxnDelete => exact retains_of_next hx (taken inTxnDeleteBody_keepsRetired)
  | inTxnGet => exact retains_of_next hx (taken inTxnGetBody_keepsRetired)
  | commit => exact retains_of_next hx (taken commitBody_keepsRetired)
  | abandon => exact retains_of_next hx (taken abandonBody_keepsRetired)
  | reclaim => exact retains_of_next hx (taken reclaimBody_keepsRetired)
  | unlock => exact retains_of_next hx (taken unlockBody_keepsRetired)
  | lock => exact retains_of_next hx (taken lockBody_keepsRetired)
  | setCode => exact retains_of_next hx (taken setCodeBody_keepsRetired)
  | setPolicy => exact retains_of_next hx (taken setPolicyBody_keepsRetired)
  | format => exact retains_of_next hx (taken formatBody_keepsRetired)
  | kindNamingNoKind => exact retains_of_next hx (taken fun r _ _ => answer_retains r _)
  | selectStep => exact retains_of_next hx (granted _ (.of_iff fun _ => selectVictim_retains))
  | copyStep => exact retains_of_next hx (granted _ fun _ _ => copyOne_retains)
  | finishingStep => exact retains_of_next hx (granted _ fun _ _ => finishVictim_retains)
  | eraseStep =>
    refine retains_of_next hx ?_
    split
    · exact granted _ fun _ _ => copyOne_retains
    · exact .inl h
  | lineReadDone => exact retains_of_next hx (.inl (settle_retains (by simp [h])))
  | lineProgramDone v => exact retains_of_next hx (.inl (settle_retains (by simp [h])))
  | programTimeout => exact retains_of_next hx (.inl (settle_retains (by simp [h])))
  | eraseDone passed => exact retains_of_next hx (.inl (eraseEnds_keepsRetired passed l s h))
  | eraseTimeLimit => exact retains_of_next hx (.inl (eraseEnds_keepsRetired false l s h))
  | idleTimerExpiry => exact retains_of_next hx (.inl (timerExpires_keepsRetired l s h))
  | pfwAsserted =>
    simp only [exec, execPfwAsserted] at hx
    split at hx
    · exact retains_of_next hx (.inl (takeWarning_keepsRetired l _ h))
    · exact retains_of_next hx (.inl h)
  | pfwDeasserted | rstDeasserted => exact retains_of_next hx (.inl h)
  | rstAsserted =>
    simp only [exec, execRstAsserted] at hx
    split at hx
    · exact retains_of_next hx (hardReset_keepsOrResets l _ h)
    · exact retains_of_next hx (.inl h)
  | powerLoss =>
    simp only [exec, execPowerLoss] at hx
    split at hx
    · exact retains_of_next hx (hardReset_keepsOrResets l s h)
    · exact retains_of_next hx (.inl h)
  | powerOn => exact retains_of_next hx (hardReset_keepsOrResets l s h)
  | arrayOwnLoss x n =>
    simp only [exec, execArrayOwnLoss] at hx
    split at hx
    · exact retains_of_next hx (.inl (by simp [h]))
    · cases hx

/-- Every step but the beginning of mount keeps the retired set or is a reset. -/
theorem step_retains (hm : s.pending.head? ≠ some .mount) (h : Retains l s) (hstep : step s = .next t) :
    RetainsUnlessReset l t := by
  unfold step at hstep
  split at hstep
  · exact retains_of_next hstep (.inl (tick_keepsRetired l s h))
  · rename_i c rest hp
    have hc : c ≠ .mount := fun hc => hm (by rw [hp, hc]; rfl)
    exact exec_retains hc (s := { s with pending := rest }) h hstep

end

/-- Settles O60: while mount is not choosing the anchor record a step that is no reset keeps the retired set's sectors, and a reset
leaves the anchor unit without contents. -/
theorem retiredNeverShrinks : Obligations.RetiredNeverShrinks := by
  intro s t a b hscan hmount hstep ha hb
  have hs : Retains a.retired s := by
    refine ⟨fun x hx => ?_, ?_⟩
    · exact absurd (List.all_eq_true.1 hscan _ hx) nofun
    · rw [ha]; exact List.Subset.refl _
  rcases step_retains hmount hs hstep with h | h
  · have hsub := h.2
    rw [hb] at hsub
    exact fun _ hx => hsub hx
  · exact absurd (h.symm.trans hb) nofun

end Sys2Proof.Certificates
end

