-- ==== Sys2Proof/Proofs/ZoneChanges.lean ====
section
/-! SET_CODE and SET_POLICY (R151, R152): their tests, the change they ask for, and how the anchor write of it goes on and ends (R145, R146). -/

namespace Sys2Proof.Certificates

open Sys2Proof Sys2Proof.Machine

/-! ### The anchor write asked for (R145) -/

/-- The generation after another; after the greatest it is a free value (log 22). -/
theorem nextGeneration_eq (g : Seq) :
    nextGeneration g = if g = 4294967295 then Config.generationPastMax else g + 1 := rfl

/-- The working contents with the next generation, on which a change is made. -/
def nextContents (s : State) : AnchorRecord :=
  { s.contents with generation :=
      if s.contents.generation = 4294967295 then Config.generationPastMax else s.contents.generation + 1 }

/-- An anchor write asked for by waiting tasks on a free sequencer. -/
theorem anchorWrite_waiting {s : State} (hf : Free s) (k : List Task) (change : AnchorRecord → AnchorRecord) :
    (waiting s k).anchorWrite change = anchorAsked s k (change (nextContents s)) := by
  simp only [State.anchorWrite, nextGeneration_eq]
  exact placeRecord_of_free _ _ _ (by exact hf) rfl

/-! ### SET_CODE and SET_POLICY: their tests and the change (R151, R152) -/

/-- A key above 2 names no policy. -/
theorem policyOfKey_of_gt {k : Key} (h : 2 < k.toNat) : policyOfKey k = none := by
  have hne (n : Key) (hn : n.toNat ≤ 2) : k ≠ n := fun he => absurd hn (by rw [← he]; omega)
  simp only [policyOfKey, hne 0 (by decide), hne 1 (by decide), hne 2 (by decide), if_false]

/-- A key up to 2 names a policy. -/
theorem policyOfKey_of_le {k : Key} (h : k.toNat ≤ 2) : ∃ p, policyOfKey k = some p := by
  have heq (n : Key) : k.toNat = n.toNat → k = n := BitVec.eq_of_toNat_eq
  have hk : k.toNat = 0 ∨ k.toNat = 1 ∨ k.toNat = 2 := by omega
  rcases hk with hk | hk | hk
  · exact ⟨.policyOpen, by rw [heq 0 hk]; rfl⟩
  · exact ⟨.guarded, by rw [heq 1 hk]; rfl⟩
  · exact ⟨.readGuarded, by rw [heq 2 hk]; rfl⟩

section
variable {s : State} {r : Request} {z : Fin 4}

/-- The state of a taken SET_POLICY to `p`: one to OPEN clears the zone's failed-attempt count. -/
def policySet (s : State) (r : Request) (z : Fin 4) (p : Policy) : State :=
  { taken s r with zones := if p = .policyOpen then s.zones.set z { s.zones[z] with failed := 0 } else s.zones }

/-- A taken request's zone task waits alone. -/
theorem push_taken (h : Takes s r) (t : Task) : (taken s r).push t = waiting (taken s r) [t] := by
  obtain ⟨-, -, hw⟩ := taken_of_takes h
  rw [← push_waiting, hw]

variable (hz : z.val = r.param.toNat)
include hz

/-- A SET_CODE in a zone that is neither OPEN nor unlocked. -/
theorem setCodeBody_denied {st : Status} (ha : s.writeAccess z = some st) :
    setCodeBody r (taken s r) = (taken s r).post r (plain r st) := by
  simp only [setCodeBody, paramZone_eq hz, taken_writeAccess, ha]
  rfl

/-- A SET_CODE to the code the zone has. -/
theorem setCodeBody_unchanged (ha : s.writeAccess z = none) (hc : r.payload = s.contents.zones[z].code) :
    setCodeBody r (taken s r) = (taken s r).post r (plain r .ok) := by
  have hc : r.payload = ((taken s r).zoneEntry z).code := hc
  simp only [setCodeBody, paramZone_eq hz, taken_writeAccess, ha, ← hc, if_true]
  rfl

/-- A SET_CODE to another code asks for the anchor write of it. -/
theorem setCodeBody_changes (h : Takes s r) (hf : Free s) (ha : s.writeAccess z = none)
    (hc : r.payload ≠ s.contents.zones[z].code) :
    setCodeBody r (taken s r) = anchorAsked (taken s r) [.setZone r]
      ((nextContents s).mapZone z (fun e => { e with code := r.payload })) := by
  have hc : r.payload ≠ ((taken s r).zoneEntry z).code := hc
  simp only [setCodeBody, paramZone_eq hz, taken_writeAccess, ha, if_neg hc, push_taken h]
  exact anchorWrite_waiting (s := taken s r) hf _ _

/-- A SET_POLICY in a zone that is neither OPEN nor unlocked. -/
theorem setPolicyBody_denied {p : Policy} (hp : policyOfKey r.key = some p) {st : Status} (ha : s.writeAccess z = some st) :
    setPolicyBody r (taken s r) = (taken s r).post r (plain r st) := by
  simp only [setPolicyBody, hp, paramZone_eq hz, taken_writeAccess, ha]
  rfl

/-- A SET_POLICY to the policy the zone has. -/
theorem setPolicyBody_unchanged {p : Policy} (hp : policyOfKey r.key = some p) (ha : s.writeAccess z = none)
    (hsame : p = s.contents.zones[z].policy) : setPolicyBody r (taken s r) = (taken s r).post r (plain r .ok) := by
  have hsame : p = ((taken s r).zoneEntry z).policy := hsame
  simp only [setPolicyBody, hp, paramZone_eq hz, taken_writeAccess, ha, ← hsame, if_true]
  rfl

/-- A SET_POLICY to another policy asks for the anchor write of it. -/
theorem setPolicyBody_changes (h : Takes s r) (hf : Free s) {p : Policy} (hp : policyOfKey r.key = some p)
    (ha : s.writeAccess z = none) (hne : p ≠ s.contents.zones[z].policy) :
    setPolicyBody r (taken s r) = anchorAsked (policySet s r z p) [.setZone r]
      ((nextContents s).mapZone z (fun e => { e with policy := p })) := by
  have hne : p ≠ ((taken s r).zoneEntry z).policy := hne
  have hset : (if p = .policyOpen then (taken s r).setZoneFlags z { (taken s r).zoneFlags z with failed := 0 }
      else taken s r).push (.setZone r) = waiting (policySet s r z p) [.setZone r] := by
    obtain ⟨-, -, -, -, -, -, hctl, -⟩ := h
    unfold policySet
    split <;> simp only [State.push, State.setZoneFlags, taken_ctl, hctl] <;> rfl
  simp only [setPolicyBody, hp, paramZone_eq hz, taken_writeAccess, ha, if_neg hne, hset]
  exact anchorWrite_waiting (s := policySet s r z p) hf _ _

end

/-- A SET_POLICY with a key that names no policy. -/
theorem setPolicyBody_badKey {s : State} {r : Request} (hk : 2 < r.key.toNat) :
    setPolicyBody r (taken s r) = (taken s r).post r (plain r .badRequest) := by
  simp only [setPolicyBody, policyOfKey_of_gt hk]
  rfl

section
variable {s : State} {r : Request}

/-- A SET_CODE that passes its tests runs its body. -/
theorem exec_setCode_of_serves (h : Serves s r) (hk : r.kind = 12) :
    exec .setCode s = .next (setCodeBody r (taken s r)).settle :=
  exec_of_serves h (i := .setCode) rfl (beq_iff_eq.2 hk)

/-- A SET_POLICY that passes its tests runs its body. -/
theorem exec_setPolicy_of_serves (h : Serves s r) (hk : r.kind = 13) :
    exec .setPolicy s = .next (setPolicyBody r (taken s r)).settle :=
  exec_of_serves h (i := .setPolicy) rfl (beq_iff_eq.2 hk)

end

/-! ### The lines of a slot and the erase before it (R145, R146) -/

section
variable {s : State}

/-- A line of a slot that passes is followed by the next one. -/
theorem resume_anchorWrite_next (hf : Free s) (k : List Task) (a : AnchorRecord) (b : Bool) (x slot : Nat) {part : Nat}
    (hpart : part < 5) :
    State.resume (waiting s k) (.anchorWrite a b (.line x slot part)) (.prog .pass) =
      programs s (.anchorWrite a b (.line x slot (part + 1)) :: k) x (6 * slot + (part + 1)) (.anchor a (part + 1)) := by
  simp only [State.resume, State.anchorWriteReply, hpart, if_true, State.programPart, push_waiting]
  exact issueProgram_waiting hf _ _ _ _

/-- The anchor unit once the slot has been given up: the write position is past it. -/
def slotGivenUp (s : State) (x slot : Nat) : State := { s with anchor := { s.anchor with writePos := some (x, slot + 1) } }

/-- A first slot whose line fails is given up, and the record placed once more. -/
theorem resume_anchorWrite_again (hf : Free s) {o : ProgOutcome} (ho : o = .fail ∨ o = .notBlank) (k : List Task)
    (a : AnchorRecord) (x slot part : Nat) :
    State.resume (waiting s k) (.anchorWrite a false (.line x slot part)) (.prog o) =
      anchorPlaced (slotGivenUp s x slot) k a true := by
  have hplace : (waiting (slotGivenUp s x slot) k).placeRecord a true = anchorPlaced (slotGivenUp s x slot) k a true :=
    placeRecord_of_free (waiting (slotGivenUp s x slot) k) a true hf rfl
  rw [← hplace]
  rcases ho with rfl | rfl <;> rfl

/-- The erase of an anchor sector that passes is followed by the first line of its first slot. -/
theorem resume_anchorWrite_erased (hf : Free s) (k : List Task) (a : AnchorRecord) (b : Bool) (x : Nat) :
    State.resume (waiting s k) (.anchorWrite a b (.erasing x)) (.erase .pass) =
      programs { s with anchor := { s.anchor with writePos := some (x, 0) } } (.anchorWrite a b (.line x 0 0) :: k) x 0
        (.anchor a 0) :=
  issueProgram_waiting (s := { s with anchor := { s.anchor with writePos := some (x, 0) } }) hf _ _ _ _

/-- A record that is placed is at rest. -/
theorem moves_anchorPlaced (hp : s.seq.pending = none) (n : Nat) (k : List Task) (a : AnchorRecord) (b : Bool) :
    State.moves n (anchorPlaced s k a b) = anchorPlaced s k a b :=
  State.moves_of_move_none (anchorPlaced_move s k a b hp) n

/-! ### The ends of a zone request's anchor write (R146, R151, R152) -/

/-- An anchor write of a zone request that fails is a READ_ONLY cause. -/
theorem anchorFailure_of_setZone (hs : s.engine.store ≠ .mounting) (r : Request) :
    (waiting s [.setZone r]).anchorFailure = waiting s.reportReadOnly [.setZone r] := by
  have hs : (waiting s [.setZone r]).engine.store ≠ .mounting := hs
  have hr : (waiting s [.setZone r]).formatRuns = false := rfl
  simp only [State.anchorFailure, hs, hr, Bool.false_eq_true, or_self, if_false, reportReadOnly_eq]
  rfl

/-- A second slot whose line fails ends the anchor write of a zone request. -/
theorem resume_setZone_slotFails (hs : s.engine.store ≠ .mounting) {o : ProgOutcome} (ho : o = .fail ∨ o = .notBlank)
    (r : Request) (a : AnchorRecord) (x slot part : Nat) :
    State.resume (waiting s [.setZone r]) (.anchorWrite a true (.line x slot part)) (.prog o) =
      replying (slotGivenUp s x slot).reportReadOnly [.setZone r] (.anchor .failed) := by
  have hends : State.resume (waiting s [.setZone r]) (.anchorWrite a true (.line x slot part)) (.prog o) =
      (waiting (slotGivenUp s x slot) [.setZone r]).anchorFailure.ret (.anchor .failed) := by
    rcases ho with rfl | rfl <;> rfl
  rw [hends, anchorFailure_of_setZone (by exact hs), ret_waiting]

/-- An erase that fails ends the anchor write of a zone request. -/
theorem resume_setZone_eraseFails (hs : s.engine.store ≠ .mounting) (r : Request) (a : AnchorRecord) (b : Bool) (x : Nat) :
    State.resume (waiting s [.setZone r]) (.anchorWrite a b (.erasing x)) (.erase .fail) =
      replying s.reportReadOnly [.setZone r] (.anchor .failed) := by
  have hends : State.resume (waiting s [.setZone r]) (.anchorWrite a b (.erasing x)) (.erase .fail) =
      (waiting s [.setZone r]).anchorFailure.ret (.anchor .failed) := rfl
  rw [hends, anchorFailure_of_setZone hs, ret_waiting]

variable (hd : s.engine.readOnlyDue = false) (hp : s.seq.pending = none)
include hd hp

/-- A zone request whose anchor write has failed completes MEDIA_FAULT, and a READY store becomes READ_ONLY. -/
theorem moves_setZone_failed (r : Request) (n : Nat) :
    State.moves (n + 1) (replying s.reportReadOnly [.setZone r] (.anchor .failed)) =
      turnsReadOnly (completes s r (plain r .mediaFault)) := by
  have hpost : State.resume (waiting s.reportReadOnly []) (.setZone r) (.anchor .failed) =
      (waiting s []).reportReadOnly.post r (plain r .mediaFault) := by
    simp only [reportReadOnly_eq]
    rfl
  rw [moves_replying, hpost, moves_post_reported (by exact hp), undue_eq_self (by exact hd)]
  rfl

/-- A zone request whose anchor write has been written completes OK, and one whose write was refused HALTED. -/
theorem moves_setZone_ends (r : Request) {o : AnchorOutcome} {st : Status}
    (ho : (o = .written ∧ st = .ok) ∨ (o = .refused ∧ st = .halted)) (n : Nat) :
    State.moves (n + 1) (replying s [.setZone r] (.anchor o)) = completes s r (plain r st) := by
  have hpost : State.resume (waiting s []) (.setZone r) (.anchor o) = (waiting s []).post r (plain r st) := by
    rcases ho with ⟨rfl, rfl⟩ | ⟨rfl, rfl⟩ <;> rfl
  rw [moves_replying, hpost, post_eq_completes (waiting s []) _ _ hd]
  exact moves_completes (s := waiting s []) hp n _ _

end

/-- The warning during a zone request's erase of an anchor sector: the erase is abandoned and the request completes HALTED. -/
theorem takeWarning_of_setZone {s : State} {r : Request} {a : AnchorRecord} {b : Bool} {e : EraseRec}
    (h : Erases s [.anchorWrite a b (.erasing e.sector), .setZone r] e) (hs : s.engine.store ≠ .mounting) :
    (pfwChanged s).takeWarning = completes (eraseAbandoned (storeHalted (pfwChanged s)) e) r (plain r .halted) := by
  obtain ⟨hctl, he, hback, -, hp, hw, hd⟩ := h
  have habandoned : (storeHalted (pfwChanged s)).sequencerWarning.wakeWaiting =
      replying (eraseAbandoned (storeHalted (pfwChanged s)) e) [.anchorWrite a b (.erasing e.sector), .setZone r]
        (.erase .abandoned) := by
    rw [sequencerWarning_of_erase (by exact he) (by exact hp) (by exact hw), State.deliverErase, hback,
      if_neg Bool.false_ne_true, ← waiting_eq_self (s := eraseAbandoned (storeHalted (pfwChanged s)) e) hctl, ret_waiting]
    rfl
  have hrefused : State.resume (waiting (eraseAbandoned (storeHalted (pfwChanged s)) e) [.setZone r])
      (.anchorWrite a b (.erasing e.sector)) (.erase .abandoned) =
      replying (eraseAbandoned (storeHalted (pfwChanged s)) e) [.setZone r] (.anchor .refused) := rfl
  rw [takeWarning_of_no_mount (mountRunning_eq_false (.inl (by exact hs))), habandoned, settle_replying, hrefused,
    moves_setZone_ends (by exact hd) rfl r (.inr ⟨rfl, rfl⟩)]

/-- Settles O39: the tests and the change of a zone request, and what
each line and the erase of its anchor write are followed by. -/
theorem zoneChanges : Obligations.ZoneChanges := by
  refine ⟨fun s r z h hk hz => ?taken, fun s k a b x slot part d h hf => ?line, fun s k a b e h hh => ?erased,
    fun s r a x slot part d h hs hb v => ?notBlank, fun s r a b x slot part d h hs => ?program,
    fun s r a b e h hs => ?erase, fun s r a b x slot d h => ?written⟩
  case taken =>
    obtain ⟨-, hpend, -⟩ := taken_of_takes h.1.1
    refine ⟨fun hk hkey => ?_, fun st hkey ha => ?_, fun ha hk hc => ?_, fun p ha hk hp hsame => ?_,
      fun ha hf => ⟨fun hk hc => ?_, fun p hk hp hne => ?_⟩⟩
    · rw [exec_setPolicy_of_serves h hk, setPolicyBody_badKey hkey, settle_answer h.1.1]
    · rcases hk with hk | hk
      · rw [show rowOf r = .setCode by simp [rowOf, hk], exec_setCode_of_serves h hk, setCodeBody_denied hz ha,
          settle_answer h.1.1]
      · obtain ⟨p, hp⟩ := policyOfKey_of_le (hkey hk)
        rw [show rowOf r = .setPolicy by simp [rowOf, hk], exec_setPolicy_of_serves h hk, setPolicyBody_denied hz hp ha,
          settle_answer h.1.1]
    · rw [exec_setCode_of_serves h hk, setCodeBody_unchanged hz ha hc, settle_answer h.1.1]
    · rw [exec_setPolicy_of_serves h hk, setPolicyBody_unchanged hz hp ha hsame, settle_answer h.1.1]
    · rw [exec_setCode_of_serves h hk, setCodeBody_changes hz h.1.1 hf ha hc, State.settle, moves_anchorAsked hpend]
      rfl
    · rw [exec_setPolicy_of_serves h hk, setPolicyBody_changes hz h.1.1 hf hp ha hne, State.settle,
        moves_anchorAsked (by exact hpend)]
      rfl
  case line =>
    intro past
    obtain ⟨-, -, -, hp, -⟩ := id h
    refine ⟨fun hb hpart => ?_, fun hb hfirst event hev => ?_, fun hb hfirst v => ?_⟩
    · rw [exec_program_passes (programs_undue h hb), settle_replying, resume_anchorWrite_next (by exact hf) _ _ _ _ _ hpart,
        moves_programs (by exact hp)]
    · rw [exec_program_fails (programs_undue h hb) event hev, settle_replying, hfirst,
        resume_anchorWrite_again (by exact hf) (.inl rfl), moves_anchorPlaced (by exact hp)]
      rfl
    · rw [exec_program_notBlank (waits_undue h) hb, settle_replying, hfirst,
        resume_anchorWrite_again (by exact hf) (.inr rfl), moves_anchorPlaced (by exact hp)]
      rfl
  case erased =>
    obtain ⟨-, -, -, -, hp, -, -⟩ := id h
    rw [exec_eraseDone_passes h, settle_replying,
      resume_anchorWrite_erased (s := erased s e.sector) ⟨rfl, hh⟩, moves_programs (by exact hp)]
    rfl
  case notBlank =>
    obtain ⟨-, -, -, hp, hd⟩ := id h
    rw [exec_program_notBlank (waits_undue h) hb, settle_replying, resume_setZone_slotFails (by exact hs) (.inr rfl),
      moves_setZone_failed (by exact hd) (by exact hp)]
    rfl
  case program =>
    obtain ⟨hwaits, hblank⟩ := waits_of_programs h
    obtain ⟨-, -, -, hp, hd⟩ := id hwaits
    have hprog := programs_undue hwaits hblank
    refine ⟨fun hb event hev => ?_, fun hpart hh _ => ?_⟩
    · rw [exec_program_fails hprog event hev, settle_replying, hb, resume_setZone_slotFails (by exact hs) (.inl rfl),
        moves_setZone_failed (by exact hd) (by exact hp)]
      rfl
    · rw [exec_program_passes hprog, State.settle]
      refine congrArg _ ((moves_anchorWrite_refused (by exact hh) _ _ _ _ _ hpart 8190).trans ?_)
      exact moves_setZone_ends (by exact hd) (by exact hp) r (.inr ⟨rfl, rfl⟩) 8189
  case erase =>
    obtain ⟨-, -, -, -, hp, -, hd⟩ := id h
    refine ⟨fun event hev => ?_, fun hpow hreset hpfw hh => ?_⟩
    · have hfails : exec event s =
          .next (turnsReadOnly (completes (eraseFailed s e.sector) r (plain r .mediaFault))) := by
        rw [exec_eraseDone_fails h event hev, settle_replying, resume_setZone_eraseFails (by exact hs),
          moves_setZone_failed (by exact hd) (by exact hp)]
      have hcells : (turnsReadOnly (completes (eraseFailed s e.sector) r (plain r .mediaFault))).seq.cells =
          replaceSector s.seq.cells e.sector (abandonedLine s.freeCtr) := by
        rw [(turnsReadOnly_ctl_seq _).2]
        rfl
      have hfree : (turnsReadOnly (completes (eraseFailed s e.sector) r (plain r .mediaFault))).freeCtr = s.freeCtr + 1 := by
        unfold turnsReadOnly
        split <;> rfl
      refine ⟨_, hfails, ?_, failedErase_of_cells hcells⟩
      rw [hcells, hfree]
      rfl
    · refine ⟨_, exec_pfwAsserted_taken hpow hreset hpfw hh, ?_⟩
      rw [takeWarning_of_setZone h hs]
      rfl
  case written =>
    obtain ⟨hwaits, hblank⟩ := waits_of_programs h
    obtain ⟨-, -, -, hp, hd⟩ := id hwaits
    rw [exec_program_passes (programs_undue hwaits hblank), settle_replying, resume_anchorWrite_written,
      moves_setZone_ends (by exact hd) (by exact hp) r (.inl ⟨rfl, rfl⟩)]

end Sys2Proof.Certificates
end

