-- ==== Sys2Proof/Proofs/QueueFrame.lean ====
section
/-! How full the fill buffer and the two queues are (R159, R161, R167), and whether a request's job executes (R163): most operations
change neither; a job that goes on keeps its task, and a job that ends posts its completion with every task gone. -/

namespace Sys2Proof.Certificates

open Sys2Proof Sys2Proof.Machine

/-- The counts of the fill buffer and of both queues, and whether a request's job executes. -/
structure Levels where
  fill : Nat
  requests : Nat
  completions : Nat
  job : Bool

/-- The levels of a state. -/
def levels (s : State) : Levels :=
  { fill := s.window.fill.length, requests := s.queues.requests.length, completions := s.queues.completions.length,
    job := s.ctl.stack.any Task.isJob }

/-- The buffer and the queues are within their sizes, with a completion record free for a job that executes. -/
def Levels.Fits (v : Levels) : Prop :=
  v.fill ≤ 256 ∧ v.requests ≤ 4 ∧ v.completions ≤ 8 ∧ (v.job = true → v.completions ≤ 7)

/-- They are within their sizes, with a completion record free. -/
def Levels.Roomy (v : Levels) : Prop := v.fill ≤ 256 ∧ v.requests ≤ 4 ∧ v.completions ≤ 7

/-- The levels once a task has been put on top that is a request's job or not. -/
def Levels.hold (v : Levels) (job : Bool) : Levels := { v with job := job || v.job }

@[simp] theorem Levels.hold_false (v : Levels) : v.hold false = v := rfl

@[simp] theorem Levels.roomy_hold (v : Levels) (job : Bool) : (v.hold job).Roomy ↔ v.Roomy := Iff.rfl

@[simp] theorem Levels.Roomy.fits {v : Levels} (h : v.Roomy) : v.Fits := by
  obtain ⟨hfill, hreq, hcpl⟩ := h
  exact ⟨hfill, hreq, by omega, fun _ => hcpl⟩

/-- The bounds of R159, R161, R163 and R167 are those of the levels. -/
theorem queuesWf_iff (s : State) : s.queuesWf = true ↔ (levels s).Fits := by
  simp only [State.queuesWf, Levels.Fits, levels, Bool.and_eq_true, Bool.or_eq_true, Bool.not_eq_true', decide_eq_true_eq,
    imp_iff_not_or, Bool.not_eq_true]
  tauto

@[simp] theorem levels_mk (w q e c lg cm sq a z p f pe) :
    levels ⟨w, q, e, c, lg, cm, sq, a, z, p, f, pe⟩ =
      ⟨w.fill.length, q.requests.length, q.completions.length, c.stack.any Task.isJob⟩ := (rfl)

@[simp] theorem levels_eta (s : State) :
    (⟨s.window.fill.length, s.queues.requests.length, s.queues.completions.length, s.ctl.stack.any Task.isJob⟩ : Levels) =
      levels s := (rfl)

section
variable (s : State)

/-! ### Single updates

Proved by `(rfl)` and not by `rfl`: simp is to rewrite by these also in the hypotheses of the lemmas on jobs below, where a definitional
step would be lost. -/

@[simp] theorem push_levels (t : Task) : levels (s.push t) = (levels s).hold t.isJob := (rfl)
@[simp] theorem setLine_levels (x l : Nat) (v : Line) : levels (s.setLine x l v) = levels s := (rfl)
@[simp] theorem ret_levels (r : Reply) : levels (s.ret r) = levels s := (rfl)
@[simp] theorem raise_levels (e : Byte) : levels (s.raise e) = levels s := (rfl)
@[simp] theorem raiseMediaLoss_levels (k : Key) : levels (s.raiseMediaLoss k) = levels s := (rfl)
@[simp] theorem dropTxn_levels : levels s.dropTxn = levels s := (rfl)
@[simp] theorem stopTimer_levels : levels s.stopTimer = levels s := (rfl)
@[simp] theorem setTxn_levels (t : Option OpenTxn) : levels (s.setTxn t) = levels s := (rfl)
@[simp] theorem withDir_levels (f : Directory → Directory) : levels (s.withDir f) = levels s := (rfl)
@[simp] theorem withLog_levels (f : LogTables → LogTables) : levels (s.withLog f) = levels s := (rfl)
@[simp] theorem mapRecord_levels (x : Nat) (f : SectorRec → SectorRec) : levels (s.mapRecord x f) = levels s := (rfl)
@[simp] theorem leaveStall_levels : levels s.leaveStall = levels s := (rfl)
@[simp] theorem abortRound_levels : levels s.abortRound = levels s := (rfl)
@[simp] theorem setZoneFlags_levels (z : Fin 4) (f : ZoneFlags) : levels (s.setZoneFlags z f) = levels s := (rfl)

/-! ### The store state, READ_ONLY causes and the idle timer (R42, R43, R72) -/

@[simp] theorem setStore_levels (st : StoreState) : levels (s.setStore st) = levels s := by
  unfold State.setStore; split <;> rfl

@[simp] theorem leaveStore_levels (old new : StoreState) : levels (s.leaveStore old new) = levels s := by
  unfold State.leaveStore; split <;> simp

@[simp] theorem reportReadOnly_levels : levels s.reportReadOnly = levels s := by
  unfold State.reportReadOnly; split <;> rfl

@[simp] theorem applyReadOnly_levels : levels s.applyReadOnly = levels s := by
  simp only [State.applyReadOnly]; (repeat' split) <;> simp

@[simp] theorem restartTimer_levels : levels s.restartTimer = levels s := by
  unfold State.restartTimer; split <;> rfl

@[simp] theorem timerExpires_levels : levels s.timerExpires = levels s := by
  unfold State.timerExpires; split <;> rfl

@[simp] theorem tickTimer_levels : levels s.tickTimer = levels s := by
  unfold State.tickTimer; (repeat' split) <;> simp

/-! ### The array sequencer (R106 to R110, R119) -/

@[simp] theorem issue_levels (op : LineOp) : levels (s.issue op) = levels s := by
  unfold State.issue; (repeat' split) <;> rfl

@[simp] theorem issueRead_levels (x l : Nat) : levels (s.issueRead x l) = levels s := issue_levels s _

@[simp] theorem issueProgram_levels (x l : Nat) (d : LineData) : levels (s.issueProgram x l d) = levels s := issue_levels s _

@[simp] theorem endOp_levels (r : Reply) : levels (s.endOp r) = levels s := by
  unfold State.endOp; split <;> rfl

@[simp] theorem lineReadEnds_levels : levels s.lineReadEnds = levels s := by
  unfold State.lineReadEnds; split <;> simp

@[simp] theorem lineProgramEnds_levels (verified : Bool) : levels (s.lineProgramEnds verified) = levels s := by
  unfold State.lineProgramEnds; split <;> simp

@[simp] theorem programTimesOut_levels : levels s.programTimesOut = levels s := by
  unfold State.programTimesOut; (repeat' split) <;> simp

@[simp] theorem compactorErased_levels (o : EraseOutcome) : levels (s.compactorErased o) = levels s := by
  unfold State.compactorErased; (repeat' split) <;> rfl

@[simp] theorem wakeWaiting_levels : levels s.wakeWaiting = levels s := by
  unfold State.wakeWaiting; split <;> rfl

@[simp] theorem deliverErase_levels (background : Bool) (o : EraseOutcome) :
    levels (s.deliverErase background o) = levels s := by
  unfold State.deliverErase; split <;> simp

@[simp] theorem issueErase_levels (x : Nat) (background : Bool) : levels (s.issueErase x background) = levels s := by
  unfold State.issueErase State.beginErase; (repeat' split) <;> simp

@[simp] theorem serveWaiting_levels : levels s.serveWaiting = levels s := by
  simp only [State.serveWaiting]; (repeat' split) <;> rfl

@[simp] theorem eraseEnds_levels (passed : Bool) : levels (s.eraseEnds passed) = levels s := by
  unfold State.eraseEnds; (repeat' split) <;> simp [State.drawFree, State.withCells]

@[simp] theorem abandonErase_levels : levels s.abandonErase = levels s := by
  unfold State.abandonErase; split <;> rfl

@[simp] theorem sequencerWarning_levels : levels s.sequencerWarning = levels s := by
  unfold State.sequencerWarning; rw [serveWaiting_levels]; (repeat' split) <;> simp

@[simp] theorem ownLoss_levels (x l : Nat) : levels (s.ownLoss x l) = levels s := by
  unfold State.ownLoss; split <;> simp

/-! ### Anchor writes and retirement (R10, R145, R146) -/

@[simp] theorem anchorEnds_levels (o : AnchorOutcome) : levels (s.anchorEnds o) = levels s := by
  unfold State.anchorEnds State.anchorFailure; (repeat' split) <;> simp

@[simp] theorem programPart_levels (a : AnchorRecord) (second : Bool) (x slot part : Nat) :
    levels (s.programPart a second x slot part) = levels s := by simp [State.programPart, Task.isJob]

@[simp] theorem placeRecord_levels (a : AnchorRecord) (second : Bool) : levels (s.placeRecord a second) = levels s := by
  unfold State.placeRecord; (repeat' split) <;> simp [Task.isJob]

@[simp] theorem anchorWrite_levels (change : AnchorRecord → AnchorRecord) : levels (s.anchorWrite change) = levels s := by
  simp [State.anchorWrite]

@[simp] theorem anchorWriteReply_levels (a : AnchorRecord) (second : Bool) (p : AnchorPhase) (r : Reply) :
    levels (s.anchorWriteReply a second p r) = levels s := by
  unfold State.anchorWriteReply; (repeat' split) <;> simp

@[simp] theorem retireBegin_levels (x : Nat) : levels (s.retireBegin x) = levels s := by simp [State.retireBegin, Task.isJob]

@[simp] theorem retireSector_levels (x : Nat) : levels (s.retireSector x) = levels s := by
  simp only [State.retireSector]; split <;> simp

/-! ### Formatting, opening and closing a sector (R5 to R7) -/

@[simp] theorem formatSector_levels (x c : Nat) : levels (s.formatSector x c) = levels s := by
  simp [State.formatSector, Task.isJob]

@[simp] theorem formatLineReply_levels (x c : Nat) (r : Reply) : levels (s.formatLineReply x c r) = levels s := by
  unfold State.formatLineReply; split <;> simp

@[simp] theorem openHead_levels : levels s.openHead = levels s := by
  unfold State.openHead; (repeat' split) <;> simp [Task.isJob]

@[simp] theorem openRetryReply_levels (r : Reply) : levels (s.openRetryReply r) = levels s := by
  unfold State.openRetryReply; (repeat' split) <;> simp

@[simp] theorem openHeadReply_levels (x : Nat) (ring : Seq) (r : Reply) : levels (s.openHeadReply x ring r) = levels s := by
  unfold State.openHeadReply; split <;> simp [Task.isJob]

@[simp] theorem closeHead_levels : levels s.closeHead = levels s := by
  unfold State.closeHead; (repeat' split) <;> simp [Task.isJob]

@[simp] theorem closeHeadReply_levels (x : Nat) (r : Reply) : levels (s.closeHeadReply x r) = levels s := by
  unfold State.closeHeadReply; split <;> simp

/-! ### Appends and frame reads (R21 to R24, R58, R91) -/

@[simp] theorem appendEnds_levels (o : AppendOutcome) : levels (s.appendEnds o) = levels s := (rfl)

@[simp] theorem appendExhausted_levels : levels s.appendExhausted = levels s := by simp [State.appendExhausted]

@[simp] theorem programAttempt_levels (j : AppendJob) (x st i : Nat) : levels (s.programAttempt j x st i) = levels s := by
  simp [State.programAttempt, Task.isJob]

@[simp] theorem appendNewHead_levels (j : AppendJob) (floor : Bool) : levels (s.appendNewHead j floor) = levels s := by
  unfold State.appendNewHead; (repeat' split) <;> simp [Task.isJob]

@[simp] theorem placeAttempt_levels (j : AppendJob) (floor : Bool) : levels (s.placeAttempt j floor) = levels s := by
  unfold State.placeAttempt; (repeat' split) <;> simp

@[simp] theorem appendBegin_levels (j : AppendJob) : levels (s.appendBegin j) = levels s := placeAttempt_levels s j _

@[simp] theorem appendReply_levels (j : AppendJob) (p : AppendPhase) (r : Reply) :
    levels (s.appendReply j p r) = levels s := by
  unfold State.appendReply State.rewrite; (repeat' split) <;> simp [Task.isJob]

@[simp] theorem readFrameBegin_levels (e : Entry) : levels (s.readFrameBegin e) = levels s := by
  simp [State.readFrameBegin, Task.isJob]

@[simp] theorem readFrameReply_levels (e : Entry) (i : Nat) (got : List Byte) (r : Reply) :
    levels (s.readFrameReply e i got r) = levels s := by
  simp only [State.readFrameReply]; (repeat' split) <;> simp [Task.isJob]

/-! ### Compaction steps (R86 to R98) -/

@[simp] theorem stepEnds_levels (b : Bool) : levels (s.stepEnds b) = levels s := by simp [State.stepEnds]

@[simp] theorem endRound_levels : levels s.endRound = levels s := by
  simp only [State.endRound]; (repeat' split) <;> simp

@[simp] theorem selectVictim_levels : levels s.selectVictim = levels s := by
  unfold State.selectVictim; (repeat' split) <;> simp

@[simp] theorem eraseVictim_levels (x : Nat) : levels (s.eraseVictim x) = levels s := by
  unfold State.eraseVictim; split <;> simp [Task.isJob]

@[simp] theorem copyOne_levels : levels s.copyOne = levels s := by
  unfold State.copyOne; (repeat' split) <;> simp [Task.isJob]

@[simp] theorem finishVictim_levels : levels s.finishVictim = levels s := by
  unfold State.finishVictim; (repeat' split) <;> simp [Task.isJob]

@[simp] theorem grantStep_levels : levels s.grantStep = levels s := by
  unfold State.grantStep; split <;> simp

@[simp] theorem finishRoundReply_levels (r : Reply) : levels (s.finishRoundReply r) = levels s := by
  unfold State.finishRoundReply; split <;> simp

@[simp] theorem bumpSeq_levels : levels s.bumpSeq = levels s := by
  simp only [State.bumpSeq]; split <;> simp

@[simp] theorem copyReadReply_levels (e : Entry) (r : Reply) : levels (s.copyReadReply e r) = levels s := by
  unfold State.copyReadReply; split <;> simp [Task.isJob]

@[simp] theorem copyFailed_levels (o : AppendOutcome) : levels (s.copyFailed o) = levels s := by
  unfold State.copyFailed; split <;> simp

@[simp] theorem copyAppendReply_levels (e : Entry) (r : Reply) : levels (s.copyAppendReply e r) = levels s := by
  unfold State.copyAppendReply; split <;> simp

@[simp] theorem lossAppendReply_levels (e : Entry) (q : Seq) (r : Reply) :
    levels (s.lossAppendReply e q r) = levels s := by
  unfold State.lossAppendReply; split <;> simp

/-! ### Jobs that go on with their own task on the stack (R53, R56, R62, R63, R76, R77, R154 to R156) -/

@[simp] theorem hostPlaced_levels : levels s.hostPlaced = levels s := bumpSeq_levels s

@[simp] theorem commitAppend_levels (c : CommitJob) : levels (s.commitAppend c) = (levels s).hold true := by
  simp [State.commitAppend, Task.isJob]

@[simp] theorem writeProceeds_levels (w : StalledWrite) : levels (s.writeProceeds w) = (levels s).hold true := by
  cases w <;> simp [State.writeProceeds, State.putAppend, State.deleteAppend, Task.isJob]

@[simp] theorem nextStepInJob_levels (t : Task) : levels (s.nextStepInJob t) = (levels s).hold t.isJob := by
  unfold State.nextStepInJob; split <;> simp

@[simp] theorem enterStall_levels (w : StalledWrite) : levels (s.enterStall w) = (levels s).hold true := by
  simp [State.enterStall, Task.isJob]

@[simp] theorem writeAdmitted_levels (w : StalledWrite) : levels (s.writeAdmitted w) = (levels s).hold true := by
  unfold State.writeAdmitted; split <;> simp

@[simp] theorem formatBegin_levels (r : Request) : levels (s.formatBegin r) = (levels s).hold true := by
  simp [State.formatBegin, Task.isJob]

@[simp] theorem formatNext_levels (r : Request) : levels (s.formatNext r) = (levels s).hold true := by
  unfold State.formatNext State.formatOpening; (repeat' split) <;> simp [Task.isJob]

@[simp] theorem formatReadNext_levels (r : Request) (todo : List Nat) :
    levels (s.formatReadNext r todo) = (levels s).hold true := by
  unfold State.formatReadNext; split <;> simp [Task.isJob]

@[simp] theorem formatTables_levels (r : Request) : levels (s.formatTables r) = (levels s).hold true := by
  simp [State.formatTables]

end

variable {s : State}

/-! ### Jobs that end (R47, R53 to R59, R63, R79, R100, R151, R152, R156, R157, R162, R167) -/

/-- Every task gone, the bounds stand. -/
@[simp] theorem clearControl_fits (h : (levels s).Fits) : (levels s.clearControl).Fits := by
  obtain ⟨hfill, hreq, hcpl, -⟩ := h
  exact ⟨hfill, hreq, hcpl, nofun⟩

/-- A completion takes the free record, and its request leaves. -/
@[simp] theorem post_fits (r : Request) (c : Completion) (h : (levels s).Roomy) : (levels (s.post r c)).Fits := by
  have hposted : levels (s.clearControl.postRecord c) =
      ⟨s.window.fill.length, s.queues.requests.length - 1, s.queues.completions.length + 1, false⟩ := by
    simp only [State.postRecord]; split <;> simp
  have hpost : levels (s.post r c) = levels (s.clearControl.postRecord c) := by
    unfold State.post; split <;> simp
  obtain ⟨hfill, hreq, hcpl⟩ := h
  rw [hpost, hposted]
  simp only [levels] at hfill hreq hcpl
  exact ⟨hfill, by dsimp only; omega, by dsimp only; omega, nofun⟩

@[simp] theorem answer_fits (r : Request) (st : Status) (h : (levels s).Roomy) : (levels (s.answer r st)).Fits :=
  post_fits r _ h

@[simp] theorem answerAux_fits (r : Request) (st : Status) (aux : BitVec 16) (h : (levels s).Roomy) :
    (levels (s.answerAux r st aux)).Fits := post_fits r _ h

@[simp] theorem answerRecord_fits (r : Request) (st : Status) (v : Seq) (n : Nat) (h : (levels s).Roomy) :
    (levels (s.answerRecord r st v n)).Fits := post_fits r _ h

@[simp] theorem turnAway_fits (r : Request) (st : Status) (h : (levels s).Roomy) : (levels (s.turnAway r st)).Fits := by
  unfold State.turnAway; split <;> simp [h]

theorem stallReply_fits (w : StalledWrite) (p : Reply) (h : (levels s).Roomy) : (levels (s.stallReply w p)).Fits := by
  have htests (reported : Bool) : (levels (s.stallTests w reported)).Fits := by
    unfold State.stallTests; (repeat' split) <;> simp [h]
  unfold State.stallReply; split <;> simp [h, htests]

@[simp] theorem writeFailed_fits (w : StalledWrite) (o : AppendOutcome) (h : (levels s).Roomy) :
    (levels (s.writeFailed w o)).Fits := by
  unfold State.writeFailed; split <;> simp [h]

theorem putReply_fits (r : Request) (p : Reply) (h : (levels s).Roomy) : (levels (s.putReply r p)).Fits := by
  unfold State.putReply; split <;> simp [h]

theorem deleteReply_fits (r : Request) (p : Reply) (h : (levels s).Roomy) : (levels (s.deleteReply r p)).Fits := by
  unfold State.deleteReply; split <;> simp [h]

theorem commitReply_fits (c : CommitJob) (p : Reply) (h : (levels s).Roomy) : (levels (s.commitReply c p)).Fits := by
  simp only [State.commitReply]; (repeat' split) <;> simp [h]

theorem getReply_fits (r : Request) (e : Entry) (p : Reply) (h : (levels s).Roomy) : (levels (s.getReply r e p)).Fits := by
  unfold State.getReply; split <;> simp [h]

@[simp] theorem reclaimTests_fits (r : Request) (reported : Bool) (h : (levels s).Roomy) :
    (levels (s.reclaimTests r reported)).Fits := by
  unfold State.reclaimTests State.reclaimEnds; (repeat' split) <;> simp [h]

theorem reclaimReply_fits (r : Request) (p : Reply) (h : (levels s).Roomy) : (levels (s.reclaimReply r p)).Fits := by
  unfold State.reclaimReply; split <;> simp [h]

theorem setZoneReply_fits (r : Request) (p : Reply) (h : (levels s).Roomy) : (levels (s.setZoneReply r p)).Fits := by
  unfold State.setZoneReply; split <;> simp [h]

@[simp] theorem formatStops_fits (r : Request) (h : (levels s).Roomy) : (levels (s.formatStops r)).Fits :=
  answerAux_fits r _ _ h

theorem formatAnchorReply_fits (r : Request) (p : Reply) (h : (levels s).Roomy) :
    (levels (s.formatAnchorReply r p)).Fits := by
  unfold State.formatAnchorReply; split <;> simp [h]

theorem formatReadReply_fits (r : Request) (x : Nat) (todo : List Nat) (p : Reply) (h : (levels s).Roomy) :
    (levels (s.formatReadReply r x todo p)).Fits := by
  unfold State.formatReadReply; split <;> simp [h]

theorem formatEraseReply_fits (r : Request) (x : Nat) (p : Reply) (h : (levels s).Roomy) :
    (levels (s.formatEraseReply r x p)).Fits := by
  unfold State.formatEraseReply; split <;> simp [h]

theorem formatSectorReply_fits (r : Request) (p : Reply) (h : (levels s).Roomy) :
    (levels (s.formatSectorReply r p)).Fits := by
  unfold State.formatSectorReply; split <;> simp [h]

theorem formatOpenReply_fits (r : Request) (p : Reply) (h : (levels s).Roomy) : (levels (s.formatOpenReply r p)).Fits := by
  unfold State.formatOpenReply State.formatEnds; split <;> simp [h]

/-! ### Mount (R124 to R139) -/

@[simp] theorem mountStops_fits (h : (levels s).Fits) : (levels s.mountStops).Fits := clearControl_fits h

@[simp] theorem mountEnds_fits (h : (levels s).Fits) : (levels s.mountEnds).Fits := by simp [State.mountEnds, h]

@[simp] theorem tidyNext_fits (h : (levels s).Fits) : (levels s.tidyNext).Fits := by
  unfold State.tidyNext State.mountOpening; (repeat' split) <;> simp [h, Task.isJob]

@[simp] theorem mountCloseNext_fits (todo : List Unclosed) (h : (levels s).Fits) : (levels (s.mountCloseNext todo)).Fits := by
  unfold State.mountCloseNext; split <;> simp [h, Task.isJob]

@[simp] theorem replayEnds_fits (p : Replay) (h : (levels s).Fits) : (levels (s.replayEnds p)).Fits := by
  simp [State.replayEnds, h]

@[simp] theorem surveyNext_fits (todo : List Nat) (notes : List (Nat × SurveyNote)) (h : (levels s).Fits) :
    (levels (s.surveyNext todo notes)).Fits := by
  simp only [State.surveyNext, State.replayBegin]; (repeat' split) <;> simp [h, Task.isJob]

@[simp] theorem mountBegin_levels (s : State) : levels s.mountBegin = levels s := by simp [State.mountBegin, Task.isJob]

@[simp] theorem mountAnchorReply_fits (a : AnchorScan) (p : Reply) (h : (levels s).Fits) :
    (levels (s.mountAnchorReply a p)).Fits := by
  simp only [State.mountAnchorReply, State.anchorPhaseEnds]
  (repeat' split) <;> simp [h, Task.isJob]

@[simp] theorem mountSurveyReply_fits (x : Nat) (read : List Line) (todo : List Nat) (notes : List (Nat × SurveyNote))
    (p : Reply) (h : (levels s).Fits) : (levels (s.mountSurveyReply x read todo notes p)).Fits := by
  unfold State.mountSurveyReply; (repeat' split) <;> simp [h, Task.isJob]

@[simp] theorem mountReplayReply_fits (m : Replay) (p : Reply) (h : (levels s).Fits) :
    (levels (s.mountReplayReply m p)).Fits := by
  simp only [State.mountReplayReply, State.scanNext]; (repeat' split) <;> simp [h, Task.isJob]

@[simp] theorem mountCloseReply_fits (u : Unclosed) (todo : List Unclosed) (p : Reply) (h : (levels s).Fits) :
    (levels (s.mountCloseReply u todo p)).Fits := by
  unfold State.mountCloseReply; split <;> simp [h]

@[simp] theorem mountEraseReply_fits (x : Nat) (p : Reply) (h : (levels s).Fits) :
    (levels (s.mountEraseReply x p)).Fits := by
  unfold State.mountEraseReply; split <;> simp [h, Task.isJob]

@[simp] theorem mountSectorReply_fits (p : Reply) (h : (levels s).Fits) : (levels (s.mountSectorReply p)).Fits := by
  unfold State.mountSectorReply; split <;> simp [h]

@[simp] theorem mountOpenReply_fits (p : Reply) (h : (levels s).Fits) : (levels (s.mountOpenReply p)).Fits := by
  unfold State.mountOpenReply; split <;> simp [h]

@[simp] theorem mountWarned_fits (h : (levels s).Fits) : (levels s.mountWarned).Fits := by
  unfold State.mountWarned; split <;> simp [h]

/-! ### Internal moves -/

/-- A task goes on with its reply: a request's job with a completion record free, any other task without posting. -/
theorem resume_fits (t : Task) (p : Reply) (hjob : t.isJob = true → (levels s).Roomy) (h : (levels s).Fits) :
    (levels (s.resume t p)).Fits := by
  cases t with
  | put r => exact putReply_fits r p (hjob rfl)
  | delete r => exact deleteReply_fits r p (hjob rfl)
  | get r e => exact getReply_fits r e p (hjob rfl)
  | commit c => exact commitReply_fits c p (hjob rfl)
  | stall w => exact stallReply_fits w p (hjob rfl)
  | reclaim r => exact reclaimReply_fits r p (hjob rfl)
  | setZone r => exact setZoneReply_fits r p (hjob rfl)
  | formatAnchor r => exact formatAnchorReply_fits r p (hjob rfl)
  | formatRead r x todo => exact formatReadReply_fits r x todo p (hjob rfl)
  | formatErase r x => exact formatEraseReply_fits r x p (hjob rfl)
  | formatSector r => exact formatSectorReply_fits r p (hjob rfl)
  | formatOpen r => exact formatOpenReply_fits r p (hjob rfl)
  | retire x => simp only [State.resume]; split <;> simp [h]
  | _ => simp [State.resume, h]

/-- One internal move. -/
theorem move_fits {t : State} (h : (levels s).Fits) (hm : s.move = some t) : (levels t).Fits := by
  unfold State.move at hm
  split at hm
  · rename_i p k rest _ hk
    cases hm
    obtain ⟨hfill, hreq, hcpl, hroom⟩ := h
    simp only [levels, hk, List.any_cons, Bool.or_eq_true] at hroom
    exact resume_fits k p (fun hjob => ⟨hfill, hreq, hroom (.inl hjob)⟩)
      ⟨hfill, hreq, hcpl, fun hrest => hroom (.inr hrest)⟩
  · cases hm; exact clearControl_fits h
  · unfold State.startPending at hm
    split at hm
    · cases hm
    · split at hm
      · cases hm; simp [h]
      · cases hm

/-- All internal moves of a command. -/
theorem settle_fits (h : (levels s).Fits) : (levels s.settle).Fits :=
  State.settle_keeps (P := fun s => (levels s).Fits) (fun _ _ h hm => move_fits h hm) h

end Sys2Proof.Certificates
end

