-- ==== Sys2Proof/Proofs/QueueBounds.lean ====
section
/-! The queues and the fill buffer stay within their sizes (R159, R161, R163, R167): a request is taken only while a completion record
is free, GO and WRITE_DATA test for room, and a reset empties all three. -/

namespace Sys2Proof.Certificates

open Sys2Proof Sys2Proof.Machine

/-! ### Requests that are taken and steps that are granted (R85, R163 to R165) -/

/-- An operation on the state keeps the fill buffer and the queues within their sizes. -/
def KeepsQueues (f : State → State) : Prop := ∀ s : State, (levels s).Fits → (levels (f s)).Fits

/-- What leaves the levels keeps them within their bounds. -/
theorem KeepsQueues.of_levels {f : State → State} (h : ∀ s, levels (f s) = levels s) : KeepsQueues f :=
  fun s hs => by rw [h s]; exact hs

/-- What a kind's body does to the state stays within the bounds where a completion record is free. -/
def FitsIfRoomy (f : State → State) : Prop := ∀ s : State, (levels s).Roomy → (levels (f s)).Fits

theorem committedGet_fits (r : Request) : FitsIfRoomy (committedGet r) := fun s h => by
  unfold committedGet; split <;> simp [h]

theorem noTransaction_fits (r : Request) : FitsIfRoomy (·.noTransaction r) := fun s h => by
  simp only [State.noTransaction]; split <;> simp [h]

theorem stage_fits (r : Request) (t : OpenTxn) (e : Staged) : FitsIfRoomy (·.stage r t e) := fun s h => by
  simp only [State.stage]; split <;> simp [h]

theorem putBody_fits (r : Request) : FitsIfRoomy (putBody r) := fun s h => by
  simp only [putBody, State.conditionFailed]; (repeat' split) <;> simp [h]

theorem deleteBody_fits (r : Request) : FitsIfRoomy (deleteBody r) := fun s h => by
  simp only [deleteBody, State.conditionFailed]; (repeat' split) <;> simp [h]

theorem getBody_fits (r : Request) : FitsIfRoomy (getBody r) := fun s h => by
  unfold getBody; split
  · simp [h]
  · exact committedGet_fits r s h

theorem nextBody_fits (r : Request) : FitsIfRoomy (nextBody r) := fun s h => by
  unfold nextBody; split <;> simp [h]

theorem infoBody_fits (r : Request) : FitsIfRoomy (infoBody r) := fun _ h => post_fits r _ h

theorem beginBody_fits (r : Request) : FitsIfRoomy (beginBody r) := fun s h => by
  unfold beginBody; split <;> simp [h]

theorem inTxnPutBody_fits (r : Request) : FitsIfRoomy (inTxnPutBody r) := fun s h => by
  have hnone := noTransaction_fits r s h
  have hstage := fun t e => stage_fits r t e s h
  unfold inTxnPutBody State.conditionFailed; (repeat' split) <;> simp [h, hnone, hstage]

theorem inTxnDeleteBody_fits (r : Request) : FitsIfRoomy (inTxnDeleteBody r) := fun s h => by
  have hnone := noTransaction_fits r s h
  have hstage := fun t e => stage_fits r t e s h
  unfold inTxnDeleteBody State.conditionFailed; (repeat' split) <;> simp [h, hnone, hstage]

theorem inTxnGetBody_fits (r : Request) : FitsIfRoomy (inTxnGetBody r) := fun s h => by
  have hnone := noTransaction_fits r s h
  have hget := committedGet_fits r s h
  unfold inTxnGetBody; (repeat' split) <;> simp [h, hnone, hget]

theorem commitBody_fits (r : Request) : FitsIfRoomy (commitBody r) := fun s h => by
  have hnone := noTransaction_fits r s h
  simp only [commitBody]; (repeat' split) <;> simp [h, hnone]

theorem abandonBody_fits (r : Request) : FitsIfRoomy (abandonBody r) := fun s h => by
  have hnone := noTransaction_fits r s h
  unfold abandonBody; split <;> simp [h, hnone]

theorem reclaimBody_fits (r : Request) : FitsIfRoomy (reclaimBody r) := fun _ h => reclaimTests_fits r false h

theorem unlockBody_fits (r : Request) : FitsIfRoomy (unlockBody r) := fun s h => by
  simp only [unlockBody]; (repeat' split) <;> simp [h]

theorem lockBody_fits (r : Request) : FitsIfRoomy (lockBody r) := fun s h => by simp [lockBody, h]

theorem setCodeBody_fits (r : Request) : FitsIfRoomy (setCodeBody r) := fun s h => by
  simp only [setCodeBody]; (repeat' split) <;> simp [h]

theorem setPolicyBody_fits (r : Request) : FitsIfRoomy (setPolicyBody r) := fun s h => by
  simp only [setPolicyBody]; (repeat' split) <;> simp [h]

theorem formatBody_fits (r : Request) : FitsIfRoomy (formatBody r) := fun s h => by
  simp only [formatBody]; (repeat' split) <;> simp [h]

/-- A request is taken only while a completion record is free (R163). -/
theorem roomy_of_canTake {s : State} (hc : s.canTake = true) (h : (levels s).Fits) : (levels s).Roomy := by
  obtain ⟨hfill, hreq, -, -⟩ := h
  simp only [State.canTake, Bool.and_eq_true, decide_eq_true_eq] at hc
  obtain ⟨⟨-, hfree⟩, -⟩ := hc
  exact ⟨hfill, hreq, Nat.lt_succ_iff.1 hfree⟩

/-- A request that is taken: the tests before its kind's own, and its kind's body. -/
theorem takeFront_keepsQueues (isRow : Request → Bool) {body : Request → State → State} (hb : ∀ r, FitsIfRoomy (body r)) :
    KeepsQueues (·.takeFront isRow body) := by
  have hchecked (r : Request) : FitsIfRoomy (·.checked r body) := fun s h => by
    have hstopped : (levels (if r.isTxnRequest then s.stopTimer else s)).Roomy := by split <;> exact h
    simp only [State.checked]
    split
    · exact turnAway_fits r _ hstopped
    · split
      · exact hb r _ hstopped
      · exact turnAway_fits r _ hstopped
  have htaken (r : Request) : FitsIfRoomy (·.takeRequest r body) := fun s h => by
    simp only [State.takeRequest]
    split
    · split
      · exact answer_fits _ _ h
      · exact hchecked r _ h
    · exact hchecked r _ h
  intro s h
  simp only [State.takeFront]
  split
  · exact h
  · split
    · rename_i hcan
      exact htaken _ s (roomy_of_canTake (Bool.and_eq_true_iff.1 hcan).1 h)
    · exact h

/-- A request that is taken and runs until its job waits or ends. -/
theorem taking_keepsQueues (isRow : Request → Bool) {body : Request → State → State} (hb : ∀ r, FitsIfRoomy (body r)) :
    KeepsQueues (·.taking isRow body) := fun s h => settle_fits (takeFront_keepsQueues isRow hb s h)

/-- A step that is granted and runs until it waits or ends. -/
theorem granting_keepsQueues (stage : Stage) {f : State → State} (hf : ∀ s, levels (f s) = levels s) :
    KeepsQueues (·.granting stage f) := fun s h => by
  simp only [State.granting]
  split
  · exact settle_fits (by rw [hf]; exact h)
  · exact h

/-! ### Ticks, the warning and resets (R72, R109, R118, R122, R170, R177) -/

/-- The end of the erase in flight and what follows from it. -/
theorem eraseEnds_keepsQueues (passed : Bool) : KeepsQueues (fun s => (s.eraseEnds passed).settle) :=
  fun s h => settle_fits (by simp [h])

/-- One tick. -/
theorem tick_keepsQueues : KeepsQueues State.tick := fun s h => by
  have htimer : (levels s.tickTimer).Fits := by simp [h]
  simp only [State.tick, State.tickErase]
  (repeat' split)
  · exact eraseEnds_keepsQueues false _ htimer
  · exact htimer
  · exact htimer
  · exact htimer
  · exact h

/-- The warning and what follows from it. -/
theorem takeWarning_keepsQueues : KeepsQueues State.takeWarning := fun s h => by
  refine settle_fits ?_
  split <;> simp [h]

/-- An empty buffer, empty queues and no task. -/
theorem fits_of_empty {s : State} (hfill : s.window.fill = []) (hq : s.queues = .reset) (hctl : s.ctl.stack = []) :
    (levels s).Fits := by
  simp [levels, Levels.Fits, hfill, hq, hctl, Queues.reset]

theorem softReset_keepsQueues : KeepsQueues State.softReset := fun _ _ => fits_of_empty rfl rfl rfl

theorem hardReset_keepsQueues : KeepsQueues State.hardReset := fun _ _ => fits_of_empty rfl rfl rfl

/-! ### Bus accesses (R159 to R161, R168, R169, R171 to R177) -/

/-- The fill buffer is emptied. -/
theorem clearFill_keepsQueues : KeepsQueues State.clearFill := fun _ h => ⟨Nat.zero_le _, h.2⟩

/-- GO puts a request into a queue of fewer than 4 only. -/
theorem submit_keepsQueues : KeepsQueues State.submit := fun s h => by
  have hcleared := clearFill_keepsQueues s h
  unfold State.submit
  split
  · exact hcleared
  · split
    · exact hcleared
    · split
      · exact h
      · rename_i hlt
        obtain ⟨hfill, -, hrest⟩ := hcleared
        refine ⟨hfill, ?_, hrest⟩
        have hjoined : (s.queues.requests ++ [s.assembled]).length ≤ 4 := by
          rw [List.length_append, List.length_singleton]; omega
        exact hjoined

/-- POP takes a record away. -/
theorem popHead_keepsQueues : KeepsQueues State.popHead := fun s h => by
  unfold State.popHead
  split
  · exact h
  · rename_i c rest hq
    obtain ⟨hfill, hreq, hcpl, hroom⟩ := h
    simp only [levels, hq, List.length_cons] at hcpl hroom
    exact ⟨hfill, hreq, Nat.le_of_succ_le hcpl, fun hjob => Nat.le_of_succ_le (hroom hjob)⟩

theorem rewindHead_keepsQueues : KeepsQueues State.rewindHead :=
  .of_levels fun s => by unfold State.rewindHead; split <;> rfl

/-- WRITE_DATA stores a byte below 256 only. -/
theorem fillByte_keepsQueues (b : Byte) : KeepsQueues (·.fillByte b) := fun s h => by
  simp only [State.fillByte]
  split
  · rename_i hlt
    obtain ⟨-, hrest⟩ := h
    refine ⟨?_, hrest⟩
    simp only [levels, List.length_append, List.length_singleton]
    omega
  · exact h

theorem control_keepsQueues (v : Byte) : KeepsQueues (·.control v) := fun s h => by
  simp only [State.control]
  (repeat' split)
  · exact submit_keepsQueues s h
  · exact popHead_keepsQueues s h
  · exact clearFill_keepsQueues s h
  · exact rewindHead_keepsQueues s h
  · exact softReset_keepsQueues s h
  · exact h

/-- A register write: only CONTROL and WRITE_DATA reach the queues and the buffer. -/
theorem busWrite_keepsQueues (a : BitVec 6) (v : Byte) : KeepsQueues (·.busWrite a v) := fun s h => by
  simp only [State.busWrite]
  split
  case h_3 => exact control_keepsQueues v s h
  case h_16 => exact fillByte_keepsQueues v s h
  all_goals exact h

/-! ### Commands -/

section
variable {s t u : State}

/-- A command that answers one next state. -/
theorem fits_of_next (h : (.next u : Result) = .next t) (hu : (levels u).Fits) : (levels t).Fits := by
  cases h; exact hu

/-- A write access. -/
theorem onBus_fits {f : State → State} (hx : s.onBus f = .next t) (h : (levels s).Fits) (hf : KeepsQueues f) :
    (levels t).Fits := by
  refine fits_of_next hx ?_
  split
  · exact hf s h
  · exact h

/-- Every command keeps the fill buffer and the queues within their sizes. -/
theorem exec_fits {c : Instr} (h : (levels s).Fits) (hx : exec c s = .next t) : (levels t).Fits := by
  have taken {isRow : Request → Bool} {body : Request → State → State} (hb : ∀ r, FitsIfRoomy (body r)) :=
    taking_keepsQueues isRow hb s h
  have granted (stage : Stage) {f : State → State} (hf : ∀ s, levels (f s) = levels s) := granting_keepsQueues stage hf s h
  cases c with
  | go => exact onBus_fits hx h submit_keepsQueues
  | pop => exact onBus_fits hx h popHead_keepsQueues
  | rewind => exact onBus_fits hx h rewindHead_keepsQueues
  | writeData b => exact onBus_fits (f := (·.fillByte b)) hx h (fillByte_keepsQueues b)
  | clearFill => exact onBus_fits hx h clearFill_keepsQueues
  | eventStatus v => exact onBus_fits (f := (·.clearEvents v)) hx h fun _ => id
  | eventEnable v => exact onBus_fits (f := (·.setEnables v)) hx h fun _ => id
  | lowWater v => exact onBus_fits (f := (·.setLowWater v)) hx h fun _ => id
  | softReset => exact onBus_fits hx h softReset_keepsQueues
  | registerWrite a v => exact onBus_fits (f := (·.busWrite a v)) hx h (busWrite_keepsQueues a v)
  | readData =>
    simp only [exec, execReadData] at hx
    (repeat' split at hx) <;> exact fits_of_next hx h
  | captureLatch r =>
    simp only [exec, execCaptureLatch] at hx
    split at hx
    · exact fits_of_next hx (by cases r <;> exact h)
    · exact fits_of_next hx h
  | put => exact fits_of_next hx (taken putBody_fits)
  | get => exact fits_of_next hx (taken getBody_fits)
  | delete => exact fits_of_next hx (taken deleteBody_fits)
  | next => exact fits_of_next hx (taken nextBody_fits)
  | info => exact fits_of_next hx (taken infoBody_fits)
  | beginTxn => exact fits_of_next hx (taken beginBody_fits)
  | inTxnPut => exact fits_of_next hx (taken inTxnPutBody_fits)
  | inTxnDelete => exact fits_of_next hx (taken inTxnDeleteBody_fits)
  | inTxnGet => exact fits_of_next hx (taken inTxnGetBody_fits)
  | commit => exact fits_of_next hx (taken commitBody_fits)
  | abandon => exact fits_of_next hx (taken abandonBody_fits)
  | reclaim => exact fits_of_next hx (taken reclaimBody_fits)
  | unlock => exact fits_of_next hx (taken unlockBody_fits)
  | lock => exact fits_of_next hx (taken lockBody_fits)
  | setCode => exact fits_of_next hx (taken setCodeBody_fits)
  | setPolicy => exact fits_of_next hx (taken setPolicyBody_fits)
  | format => exact fits_of_next hx (taken formatBody_fits)
  | kindNamingNoKind => exact fits_of_next hx (taken fun r _ => answer_fits r _)
  | selectStep => exact fits_of_next hx (granted _ selectVictim_levels)
  | copyStep => exact fits_of_next hx (granted _ copyOne_levels)
  | finishingStep => exact fits_of_next hx (granted _ finishVictim_levels)
  | eraseStep =>
    refine fits_of_next hx ?_
    split
    · exact granted _ copyOne_levels
    · exact h
  | lineReadDone => exact fits_of_next hx (settle_fits (by simp [h]))
  | lineProgramDone v => exact fits_of_next hx (settle_fits (by simp [h]))
  | programTimeout => exact fits_of_next hx (settle_fits (by simp [h]))
  | eraseDone passed => exact fits_of_next hx (eraseEnds_keepsQueues passed s h)
  | eraseTimeLimit => exact fits_of_next hx (eraseEnds_keepsQueues false s h)
  | idleTimerExpiry => exact fits_of_next hx (by simp [h])
  | pfwAsserted =>
    simp only [exec, execPfwAsserted] at hx
    split at hx
    · exact fits_of_next hx (takeWarning_keepsQueues _ h)
    · exact fits_of_next hx h
  | pfwDeasserted | rstDeasserted => exact fits_of_next hx h
  | rstAsserted =>
    simp only [exec, execRstAsserted] at hx
    split at hx
    · exact fits_of_next hx (hardReset_keepsQueues _ h)
    · exact fits_of_next hx h
  | powerLoss =>
    simp only [exec, execPowerLoss] at hx
    split at hx
    · exact fits_of_next hx (hardReset_keepsQueues s h)
    · exact fits_of_next hx h
  | powerOn => exact fits_of_next hx (hardReset_keepsQueues s h)
  | mount =>
    refine fits_of_next hx ?_
    split
    · exact settle_fits (by simp [h])
    · exact h
  | arrayOwnLoss x l =>
    simp only [exec, execArrayOwnLoss] at hx
    split at hx
    · exact fits_of_next hx (by simp [h])
    · cases hx

end

/-- Settles O53: a tick and every command keep the levels within their bounds. -/
theorem queuesStayBounded : Obligations.QueuesStayBounded := by
  intro s t h hstep
  rw [queuesWf_iff] at h ⊢
  unfold step at hstep
  split at hstep
  · exact fits_of_next hstep (tick_keepsQueues s h)
  · rename_i c rest _
    exact exec_fits (s := { s with pending := rest }) h hstep

end Sys2Proof.Certificates
end

