-- ==== Sys2Proof/Proofs/QueueAccess.lean ====
section
/-! The host's side of the queues: GO (R158, R160), the fill buffer (R159), and the completion queue's head as POP, REWIND, READ_DATA
and the completion registers see it (R168, R169). -/

namespace Sys2Proof.Certificates

open Sys2Proof Sys2Proof.Machine

variable {s : State}

/-- A write access while the window answers bus accesses has its effect (R171). -/
theorem onBus_of_active (h : s.busActive = true) (f : State → State) : s.onBus f = .next (f s) := by
  simp only [State.onBus, h, if_true]

/-- The low byte of a 16-bit register. -/
@[simp] theorem byteOf16_zero (v : BitVec 16) : byteOf16 v 0 = v.setWidth 8 := by simp [byteOf16]

/-- The low byte of a 32-bit register. -/
@[simp] theorem byteOf32_zero (v : BitVec 32) : byteOf32 v 0 = v.setWidth 8 := by simp [byteOf32]

/-! ### GO (R158, R160) -/

/-- Every reset leaves the submission result NONE (R177, R181). -/
theorem submitResult_of_resets {c : Instr} (hc : c.resets = true) (hb : s.busActive = true ∨ c = .powerOn) :
    ∃ t, exec c s = .next t ∧ t.window.submitResult = .none := by
  cases c with
  | powerOn => exact ⟨_, rfl, rfl⟩
  | softReset => exact ⟨_, onBus_of_active (hb.resolve_right nofun) _, rfl⟩
  | registerWrite a v =>
    simp only [Instr.resets, Bool.and_eq_true, beq_iff_eq] at hc
    obtain ⟨rfl, rfl⟩ := hc
    exact ⟨_, onBus_of_active (hb.resolve_right nofun) (·.busWrite 0x07 0xA5), rfl⟩
  | rstAsserted =>
    have hactive := hb.resolve_right nofun
    exact ⟨_, by simp only [exec, execRstAsserted, hactive, if_true]; rfl, rfl⟩
  | powerLoss =>
    have hactive := hb.resolve_right nofun
    have hpowered : s.pins.powered = true := (Bool.and_eq_true_iff.1 hactive).1
    exact ⟨_, by simp only [exec, execPowerLoss, hpowered, if_true]; rfl, rfl⟩
  | _ => cases hc

/-- Settles O5: GO's tests in their order, the register that shows their result, and the resets. -/
theorem goSubmits : Obligations.GoSubmits := by
  refine ⟨fun s hb => ?_, fun s hfill hlen => ?_, fun s hb => ?_, fun s c hc hb => ?_⟩
  · exact onBus_of_active hb State.submit
  · omega
  · simp [State.busRead, hb]
  · exact submitResult_of_resets hc hb

/-! ### The fill buffer (R159) -/

/-- The overflow flag at its place in FILL_COUNT (R172). -/
def overflowBit (overflow : Bool) : BitVec 16 := if overflow then 0x8000 else 0

theorem fillCount_eq (s : State) : s.fillCount = BitVec.ofNat 16 s.window.fill.length ||| overflowBit s.window.fillOverflow := rfl

/-- The overflow flag lies above the low byte and the nine count bits. -/
theorem overflowBit_bits (overflow : Bool) :
    (overflowBit overflow).setWidth 8 = 0#8 ∧ overflowBit overflow &&& 0x01FF = 0#16 ∧
      (overflowBit overflow).getLsbD 15 = overflow := by
  cases overflow <;> decide

/-- FILL_COUNT's low byte, its nine count bits and its overflow bit (R172). -/
theorem fillCount_bits (h : s.window.fill.length ≤ 256) :
    s.fillCount.setWidth 8 = BitVec.ofNat 8 s.window.fill.length ∧
      (s.fillCount &&& 0x01FF).toNat = s.window.fill.length ∧ s.fillCount.getLsbD 15 = s.window.fillOverflow := by
  obtain ⟨hlow, hcount, htop⟩ := overflowBit_bits s.window.fillOverflow
  have hmasked : (BitVec.ofNat 16 s.window.fill.length &&& 0x01FF).toNat = s.window.fill.length := by
    rw [BitVec.toNat_and, show (0x01FF : BitVec 16).toNat = 2 ^ 9 - 1 from rfl, Nat.and_two_pow_sub_one_eq_mod,
      BitVec.toNat_ofNat]
    omega
  have hbelow : (BitVec.ofNat 16 s.window.fill.length).getLsbD 15 = false := by
    rw [BitVec.getLsbD_ofNat, Nat.testBit_lt_two_pow (by omega), Bool.and_false]
  refine ⟨?_, ?_, ?_⟩
  · rw [fillCount_eq, BitVec.setWidth_or, hlow, BitVec.or_zero, BitVec.setWidth_ofNat_of_le (by omega)]
  · rw [fillCount_eq, BitVec.and_or_distrib_right, hcount, BitVec.or_zero, hmasked]
  · rw [fillCount_eq, BitVec.getLsbD_or, hbelow, htop, Bool.false_or]

/-- What the host reads depends on the fill buffer by its count only. -/
theorem busRead_of_fill_length {f : List Byte} (h : f.length = s.window.fill.length) (a : BitVec 6) :
    State.busRead { s with window := { s.window with fill := f } } a = s.busRead a := by
  have hcount : State.fillCount { s with window := { s.window with fill := f } } = s.fillCount := by
    simp only [State.fillCount, h]
  simp only [State.busRead, hcount]
  rfl

/-- Settles O6: the count of 256 decides what WRITE_DATA does, and the window shows the count without the bytes. -/
theorem fillBuffer : Obligations.FillBuffer := by
  refine ⟨fun b s hb => ?_, fun s hb => onBus_of_active hb _, fun s hb hlen => ?_, fun s f a h => busRead_of_fill_length h a⟩
  · exact onBus_of_active hb (·.fillByte b)
  · have hbits := fillCount_bits hlen
    have hread : s.busRead 0x14 = s.fillCount.setWidth 8 := by simp [State.busRead, hb]
    rw [hread]
    exact hbits

/-! ### The completion queue's head (R168, R169) -/

/-- The completion registers show the head's fields. -/
theorem completionRegisters_of_head (hb : s.busActive = true) {c : Completion} {rest : List Completion}
    (h : s.queues.completions = c :: rest) :
    s.busRead 0x18 = c.tag ∧ s.busRead 0x19 = c.kind ∧ s.busRead 0x1A = c.status.code ∧
      s.busRead 0x1B = c.key.setWidth 8 ∧ s.busRead 0x1D = c.version.setWidth 8 ∧
      s.busRead 0x21 = BitVec.ofNat 8 c.length ∧ s.busRead 0x23 = c.aux.setWidth 8 := by
  simp [State.busRead, hb, h, State.cplTag, State.cplKind, State.cplStatus, State.cplKey, State.cplVersion, State.cplLength,
    State.cplAux]

/-- READ_DATA and the completion registers read 0 while the queue is empty. -/
theorem completionRegisters_of_empty (hb : s.busActive = true) (h : s.queues.completions = []) :
    s.busRead 0x17 = 0 ∧ s.busRead 0x18 = 0 ∧ s.busRead 0x19 = 0 ∧ s.busRead 0x1A = 0 ∧ s.busRead 0x1B = 0 ∧
      s.busRead 0x1D = 0 ∧ s.busRead 0x21 = 0 ∧ s.busRead 0x23 = 0 := by
  simp [State.busRead, hb, h, State.payloadByte, State.cplTag, State.cplKind, State.cplStatus, State.cplKey, State.cplVersion,
    State.cplLength, State.cplAux]

/-- Below the payload's end READ_DATA returns the byte at the read pointer, which moves on. -/
theorem exec_readData_of_lt (hb : s.busActive = true) {c : Completion} {rest : List Completion}
    (h : s.queues.completions = c :: rest) (hlt : s.queues.readPtr < c.payload.length) :
    exec .readData s = .next { s with
      window := { s.window with busData := c.payload.getD s.queues.readPtr 0 },
      queues := { s.queues with readPtr := s.queues.readPtr + 1 } } := by
  simp only [exec, execReadData, hb, h, hlt, if_true, State.payloadByte, State.drive]

/-- At the payload's end READ_DATA returns 0 and the read pointer stays. -/
theorem exec_readData_of_ge (hb : s.busActive = true) {c : Completion} {rest : List Completion}
    (h : s.queues.completions = c :: rest) (hge : c.payload.length ≤ s.queues.readPtr) :
    exec .readData s = .next { s with window := { s.window with busData := 0 } } := by
  have hbyte : s.payloadByte = 0 := by
    simp only [State.payloadByte, h]
    exact List.getD_eq_default _ _ hge
  simp only [exec, execReadData, hb, h, Nat.not_lt.2 hge, if_true, if_false, hbyte]
  rfl

/-- READ_DATA with an empty queue returns 0. -/
theorem exec_readData_of_empty (hb : s.busActive = true) (h : s.queues.completions = []) :
    exec .readData s = .next { s with window := { s.window with busData := 0 } } := by
  simp only [exec, execReadData, hb, h, if_true, State.payloadByte]
  rfl

/-- POP takes the head record away, and the next one's pointer is at its first byte. -/
theorem popHead_of_head {c : Completion} {rest : List Completion} (h : s.queues.completions = c :: rest) :
    s.popHead = { s with queues := { s.queues with completions := rest, readPtr := 0 } } := by
  simp only [State.popHead, h]

/-- REWIND puts the head's pointer at its first byte. -/
theorem rewindHead_of_head {c : Completion} {rest : List Completion} (h : s.queues.completions = c :: rest) :
    s.rewindHead = { s with queues := { s.queues with readPtr := 0 } } := by
  simp only [State.rewindHead, h]

/-- POP and REWIND do nothing with an empty queue. -/
theorem popHead_rewindHead_of_empty (h : s.queues.completions = []) : s.popHead = s ∧ s.rewindHead = s := by
  simp only [State.popHead, State.rewindHead, h, and_self]

/-- Settles O7: the head record, or its absence, decides what each access does and what the registers show. -/
theorem completionReading : Obligations.CompletionReading := by
  refine ⟨fun s c rest hb h => ?_, fun s hb h => ?_⟩
  · have hpop : exec .pop s = .next s.popHead := onBus_of_active hb _
    have hrewind : exec .rewind s = .next s.rewindHead := onBus_of_active hb _
    rw [hpop, hrewind, popHead_of_head h, rewindHead_of_head h]
    exact ⟨rfl, rfl, exec_readData_of_lt hb h, exec_readData_of_ge hb h, completionRegisters_of_head hb h⟩
  · have hpop : exec .pop s = .next s.popHead := onBus_of_active hb _
    have hrewind : exec .rewind s = .next s.rewindHead := onBus_of_active hb _
    obtain ⟨hpopped, hrewound⟩ := popHead_rewindHead_of_empty h
    rw [hpop, hrewind, hpopped, hrewound]
    exact ⟨rfl, rfl, exec_readData_of_empty hb h, completionRegisters_of_empty hb h⟩

end Sys2Proof.Certificates
end

