-- ==== Sys2Proof/Proofs/ChainTest.lean ====
section
/-! What keeps a request from being taken (R163), and the chain test of one that is taken (R164, R165). -/

namespace Sys2Proof.Certificates

open Sys2Proof Sys2Proof.Machine

variable {s : State}

/-! ### The conditions of R163 -/

/-- Each condition that fails keeps the front request from being taken. -/
theorem canTake_eq_false
    (h : s.queues.requests = [] ∨ s.busActive = false ∨ s.queues.executing = true ∨ s.engine.store = .mounting ∨
      s.engine.store = .formatting ∨ 8 ≤ s.queues.completions.length ∨ s.ctl.stack ≠ []) : s.canTake = false := by
  rcases h with h | h | h | h | h | h | h <;> simp [State.canTake, h]

/-- A row whose request cannot be taken changes nothing where no internal move is left. -/
theorem taking_of_canTake_false (hm : s.move = none) (hc : s.canTake = false) (isRow : Request → Bool)
    (body : Request → State → State) : s.taking isRow body = s := by
  have hfront : s.takeFront isRow body = s := by
    simp only [State.takeFront, hc, Bool.false_and, Bool.false_eq_true, if_false]
    split <;> rfl
  rw [State.taking, hfront, State.settle_of_move_none hm]

/-- Every row by which requests are taken takes one of its kind. -/
theorem exec_of_mem_takings {c : Instr} (hc : c ∈ takings) :
    ∃ isRow body, ∀ s, exec c s = .next (s.taking isRow body) := by
  simp only [takings, List.mem_cons, List.not_mem_nil, or_false] at hc
  rcases hc with rfl | rfl | rfl | rfl | rfl | rfl | rfl | rfl | rfl | rfl | rfl | rfl | rfl | rfl | rfl | rfl | rfl | rfl
  all_goals exact ⟨_, _, fun _ => rfl⟩

/-- Settles O20: the row's request cannot be taken, and no internal move is left. -/
theorem nothingTakenEarly : Obligations.NothingTakenEarly := by
  intro c hc s hm h
  obtain ⟨isRow, body, hexec⟩ := exec_of_mem_takings hc
  rw [hexec, taking_of_canTake_false hm (canTake_eq_false h)]

/-! ### The chain test (R165) -/

/-- A request carrying CHAIN that meets a broken chain is answered CANCELLED before any other test. -/
theorem takeRequest_of_broken {r : Request} (hc : r.chain = true) (hb : s.queues.chainBroken = true)
    (body : Request → State → State) :
    s.takeRequest r body = State.answer { s with queues := { s.queues with executing := true } } r .cancelled := by
  simp only [State.takeRequest, hc, hb, if_true]

/-- The cancelled request's completion is all that its taking leaves: the executing mark is gone with it. -/
theorem completes_executing (s : State) (r : Request) (c : Completion) :
    completes { s with queues := { s.queues with executing := true } } r c = completes s r c := rfl

/-- Settles O21: the chain test comes first, whatever the request's row, and only the completion's post changes the state. -/
theorem chainCancels : Obligations.ChainCancels := by
  intro s r h hc hb
  obtain ⟨isRow, body, hr, hexec⟩ := exec_rowOf r
  obtain ⟨-, -, -, -, -, -, -, hdue, hpending⟩ := id h
  have hsettled : (s.takeRequest r body).settle =
      completes { s with queues := { s.queues with executing := true } } r (plain r .cancelled) :=
    settle_post hdue hpending (takeRequest_of_broken hc hb body)
  rw [hexec, taking_of_takes h _ _ hr, hsettled, completes_executing]

end Sys2Proof.Certificates
end

