-- ==== Sys2Proof/Proofs/WindowFrame.lean ====
section
/-! Which operations leave the register window, and which reach it only by raising a latched event (R178): none of these sets a bit of
EVENT_STATUS that is not a latched event's. One lemma per operation. -/

namespace Sys2Proof.Certificates

open Sys2Proof Sys2Proof.Machine

/-- The bits of the events register that belong to no latched event. -/
def strays (w : Window) : Byte := w.events &&& ~~~evLatched

/-- Raising a latched event sets no other bit. -/
theorem strays_of_raised (w : Window) {ev : Byte} (h : ev &&& ~~~evLatched = 0#8) (k : Key) :
    strays { w with events := w.events ||| ev, lossKey := k } = strays w := by
  simp only [strays, BitVec.and_or_distrib_right, h, BitVec.or_zero]

variable (s : State)

/-! ### The array sequencer (R106 to R110, R119) -/

@[simp] theorem issue_window (op : LineOp) : (s.issue op).window = s.window := by
  unfold State.issue; (repeat' split) <;> rfl

@[simp] theorem issueRead_window (x l : Nat) : (s.issueRead x l).window = s.window := issue_window s _

@[simp] theorem issueProgram_window (x l : Nat) (d : LineData) : (s.issueProgram x l d).window = s.window := issue_window s _

@[simp] theorem endOp_window (r : Reply) : (s.endOp r).window = s.window := by
  unfold State.endOp; split <;> rfl

@[simp] theorem lineReadEnds_window : s.lineReadEnds.window = s.window := by
  unfold State.lineReadEnds; split <;> simp

@[simp] theorem lineProgramEnds_window (verified : Bool) : (s.lineProgramEnds verified).window = s.window := by
  unfold State.lineProgramEnds; split <;> simp

@[simp] theorem programTimesOut_window : s.programTimesOut.window = s.window := by
  unfold State.programTimesOut; (repeat' split) <;> simp

@[simp] theorem compactorErased_window (o : EraseOutcome) : (s.compactorErased o).window = s.window := by
  unfold State.compactorErased; (repeat' split) <;> rfl

@[simp] theorem wakeWaiting_window : s.wakeWaiting.window = s.window := by
  unfold State.wakeWaiting; split <;> rfl

@[simp] theorem deliverErase_window (background : Bool) (o : EraseOutcome) : (s.deliverErase background o).window = s.window := by
  unfold State.deliverErase; split <;> simp

@[simp] theorem issueErase_window (x : Nat) (background : Bool) : (s.issueErase x background).window = s.window := by
  unfold State.issueErase State.beginErase; (repeat' split) <;> simp

@[simp] theorem serveWaiting_window : s.serveWaiting.window = s.window := by
  simp only [State.serveWaiting]; (repeat' split) <;> rfl

@[simp] theorem eraseEnds_window (passed : Bool) : (s.eraseEnds passed).window = s.window := by
  unfold State.eraseEnds; (repeat' split) <;> simp

@[simp] theorem abandonErase_window : s.abandonErase.window = s.window := by
  unfold State.abandonErase; split <;> rfl

@[simp] theorem sequencerWarning_window : s.sequencerWarning.window = s.window := by
  unfold State.sequencerWarning; rw [serveWaiting_window]; (repeat' split) <;> simp

@[simp] theorem ownLoss_window (x l : Nat) : (s.ownLoss x l).window = s.window := by
  unfold State.ownLoss; split <;> simp

/-! ### Causes of READ_ONLY, anchor writes and retirement (R10, R43, R145, R146) -/

@[simp] theorem reportReadOnly_window : s.reportReadOnly.window = s.window := by
  unfold State.reportReadOnly; split <;> rfl

@[simp] theorem anchorEnds_window (o : AnchorOutcome) : (s.anchorEnds o).window = s.window := by
  unfold State.anchorEnds State.anchorFailure; (repeat' split) <;> simp

@[simp] theorem programPart_window (a : AnchorRecord) (second : Bool) (x slot part : Nat) :
    (s.programPart a second x slot part).window = s.window := by simp [State.programPart]

@[simp] theorem placeRecord_window (a : AnchorRecord) (second : Bool) : (s.placeRecord a second).window = s.window := by
  unfold State.placeRecord; (repeat' split) <;> simp

@[simp] theorem anchorWrite_window (change : AnchorRecord → AnchorRecord) : (s.anchorWrite change).window = s.window := by
  simp [State.anchorWrite]

@[simp] theorem anchorWriteReply_window (a : AnchorRecord) (second : Bool) (p : AnchorPhase) (r : Reply) :
    (s.anchorWriteReply a second p r).window = s.window := by
  unfold State.anchorWriteReply; (repeat' split) <;> simp

@[simp] theorem retireBegin_window (x : Nat) : (s.retireBegin x).window = s.window := by simp [State.retireBegin]

@[simp] theorem retireSector_window (x : Nat) : (s.retireSector x).window = s.window := by
  simp only [State.retireSector]; split <;> simp

/-! ### Formatting, opening and closing a sector (R5 to R7) -/

@[simp] theorem formatSector_window (x c : Nat) : (s.formatSector x c).window = s.window := by simp [State.formatSector]

@[simp] theorem formatLineReply_window (x c : Nat) (r : Reply) : (s.formatLineReply x c r).window = s.window := by
  unfold State.formatLineReply; split <;> simp

@[simp] theorem openHead_window : s.openHead.window = s.window := by
  unfold State.openHead; (repeat' split) <;> simp

@[simp] theorem openRetryReply_window (r : Reply) : (s.openRetryReply r).window = s.window := by
  unfold State.openRetryReply; (repeat' split) <;> simp

@[simp] theorem openHeadReply_window (x : Nat) (ring : Seq) (r : Reply) : (s.openHeadReply x ring r).window = s.window := by
  unfold State.openHeadReply; split <;> simp

@[simp] theorem closeHead_window : s.closeHead.window = s.window := by
  unfold State.closeHead; (repeat' split) <;> simp

@[simp] theorem closeHeadReply_window (x : Nat) (r : Reply) : (s.closeHeadReply x r).window = s.window := by
  unfold State.closeHeadReply; split <;> simp

/-! ### Appends and frame reads (R21 to R24, R58, R91) -/

@[simp] theorem programAttempt_window (j : AppendJob) (x st i : Nat) : (s.programAttempt j x st i).window = s.window := by
  simp [State.programAttempt]

@[simp] theorem appendEnds_window (o : AppendOutcome) : (s.appendEnds o).window = s.window := rfl

@[simp] theorem appendExhausted_window : s.appendExhausted.window = s.window := by simp [State.appendExhausted]

@[simp] theorem appendNewHead_window (j : AppendJob) (floor : Bool) : (s.appendNewHead j floor).window = s.window := by
  unfold State.appendNewHead; (repeat' split) <;> simp

@[simp] theorem placeAttempt_window (j : AppendJob) (floor : Bool) : (s.placeAttempt j floor).window = s.window := by
  unfold State.placeAttempt; (repeat' split) <;> simp

@[simp] theorem appendBegin_window (j : AppendJob) : (s.appendBegin j).window = s.window := placeAttempt_window s j _

@[simp] theorem appendReply_window (j : AppendJob) (p : AppendPhase) (r : Reply) : (s.appendReply j p r).window = s.window := by
  unfold State.appendReply State.rewrite; (repeat' split) <;> simp

@[simp] theorem readFrameBegin_window (e : Entry) : (s.readFrameBegin e).window = s.window := by simp [State.readFrameBegin]

@[simp] theorem readFrameReply_window (e : Entry) (i : Nat) (got : List Byte) (r : Reply) :
    (s.readFrameReply e i got r).window = s.window := by
  simp only [State.readFrameReply]; (repeat' split) <;> simp

/-! ### Store sequence, host writes and the idle timer (R19, R53, R56, R72, R77) -/

@[simp] theorem bumpSeq_window : s.bumpSeq.window = s.window := by
  simp only [State.bumpSeq]; split <;> simp

@[simp] theorem hostPlaced_window : s.hostPlaced.window = s.window := bumpSeq_window s

@[simp] theorem commitAppend_window (c : CommitJob) : (s.commitAppend c).window = s.window := by simp [State.commitAppend]

@[simp] theorem writeProceeds_window (w : StalledWrite) : (s.writeProceeds w).window = s.window := by
  cases w <;> simp [State.writeProceeds, State.putAppend, State.deleteAppend]

@[simp] theorem restartTimer_window : s.restartTimer.window = s.window := by
  unfold State.restartTimer; split <;> rfl

/-! ### The rounds of compaction that end, and copies (R91, R98) -/

@[simp] theorem endRound_window : s.endRound.window = s.window := by
  rw [endRound_eq]; rfl

@[simp] theorem copyReadReply_window (e : Entry) (r : Reply) : (s.copyReadReply e r).window = s.window := by
  unfold State.copyReadReply; split <;> simp

/-! ### Events that are raised (R42, R59, R73, R92, R162, R178) -/

theorem raise_strays {ev : Byte} (h : ev &&& ~~~evLatched = 0#8) : strays (s.raise ev).window = strays s.window :=
  strays_of_raised s.window h s.window.lossKey

@[simp] theorem raiseMediaLoss_strays (k : Key) : strays (s.raiseMediaLoss k).window = strays s.window :=
  strays_of_raised s.window (by decide) k

@[simp] theorem setStore_strays (st : StoreState) : strays (s.setStore st).window = strays s.window := by
  unfold State.setStore
  split
  · rfl
  · exact raise_strays _ (by decide)

@[simp] theorem leaveStore_strays (old new : StoreState) : strays (s.leaveStore old new).window = strays s.window := by
  unfold State.leaveStore; split <;> simp

@[simp] theorem applyReadOnly_strays : strays s.applyReadOnly.window = strays s.window := by
  simp only [State.applyReadOnly]; (repeat' split) <;> simp

@[simp] theorem postRecord_strays (c : Completion) : strays (s.postRecord c).window = strays s.window := by
  simp only [State.postRecord]
  split
  · exact raise_strays s (by decide)
  · rfl

@[simp] theorem post_strays (r : Request) (c : Completion) : strays (s.post r c).window = strays s.window := by
  unfold State.post; split <;> simp

@[simp] theorem answer_strays (r : Request) (st : Status) : strays (s.answer r st).window = strays s.window := post_strays s r _

@[simp] theorem answerAux_strays (r : Request) (st : Status) (aux : BitVec 16) :
    strays (s.answerAux r st aux).window = strays s.window := post_strays s r _

@[simp] theorem answerRecord_strays (r : Request) (st : Status) (v : Seq) (n : Nat) :
    strays (s.answerRecord r st v n).window = strays s.window := post_strays s r _

@[simp] theorem turnAway_strays (r : Request) (st : Status) : strays (s.turnAway r st).window = strays s.window := by
  unfold State.turnAway; split <;> simp

/-! ### Compaction steps (R86 to R98) -/

@[simp] theorem stepEnds_strays (b : Bool) : strays (s.stepEnds b).window = strays s.window := by simp [State.stepEnds]

@[simp] theorem selectVictim_strays : strays s.selectVictim.window = strays s.window := by
  unfold State.selectVictim; (repeat' split) <;> simp

@[simp] theorem eraseVictim_strays (x : Nat) : strays (s.eraseVictim x).window = strays s.window := by
  unfold State.eraseVictim; split <;> simp

@[simp] theorem copyOne_strays : strays s.copyOne.window = strays s.window := by
  unfold State.copyOne; (repeat' split) <;> simp

@[simp] theorem finishVictim_strays : strays s.finishVictim.window = strays s.window := by
  unfold State.finishVictim; (repeat' split) <;> simp

@[simp] theorem grantStep_strays : strays s.grantStep.window = strays s.window := by
  unfold State.grantStep; split <;> simp

@[simp] theorem finishRoundReply_strays (r : Reply) : strays (s.finishRoundReply r).window = strays s.window := by
  unfold State.finishRoundReply; split <;> simp

@[simp] theorem copyFailed_strays (o : AppendOutcome) : strays (s.copyFailed o).window = strays s.window := by
  unfold State.copyFailed; split <;> simp

@[simp] theorem copyAppendReply_strays (e : Entry) (r : Reply) : strays (s.copyAppendReply e r).window = strays s.window := by
  unfold State.copyAppendReply; split <;> simp

@[simp] theorem lossAppendReply_strays (e : Entry) (q : Seq) (r : Reply) :
    strays (s.lossAppendReply e q r).window = strays s.window := by
  unfold State.lossAppendReply
  split
  · rw [stepEnds_strays, raiseMediaLoss_strays]; simp
  · simp
  · rfl

/-! ### Jobs (R53 to R59, R62, R63, R77 to R79, R99, R100, R151 to R157) -/

@[simp] theorem nextStepInJob_strays (t : Task) : strays (s.nextStepInJob t).window = strays s.window := by
  unfold State.nextStepInJob; split <;> simp

@[simp] theorem enterStall_strays (w : StalledWrite) : strays (s.enterStall w).window = strays s.window := by
  simp [State.enterStall]

@[simp] theorem writeAdmitted_strays (w : StalledWrite) : strays (s.writeAdmitted w).window = strays s.window := by
  unfold State.writeAdmitted; split <;> simp

@[simp] theorem stallReply_strays (w : StalledWrite) (p : Reply) : strays (s.stallReply w p).window = strays s.window := by
  unfold State.stallReply State.stallTests; (repeat' split) <;> simp

@[simp] theorem writeFailed_strays (w : StalledWrite) (o : AppendOutcome) :
    strays (s.writeFailed w o).window = strays s.window := by
  unfold State.writeFailed; split <;> simp

@[simp] theorem putReply_strays (r : Request) (p : Reply) : strays (s.putReply r p).window = strays s.window := by
  unfold State.putReply; split <;> simp

@[simp] theorem deleteReply_strays (r : Request) (p : Reply) : strays (s.deleteReply r p).window = strays s.window := by
  unfold State.deleteReply; split <;> simp

@[simp] theorem commitReply_strays (c : CommitJob) (p : Reply) : strays (s.commitReply c p).window = strays s.window := by
  simp only [State.commitReply]; (repeat' split) <;> simp

@[simp] theorem getReply_strays (r : Request) (e : Entry) (p : Reply) : strays (s.getReply r e p).window = strays s.window := by
  unfold State.getReply
  split
  · simp
  · rw [answerRecord_strays, raiseMediaLoss_strays]
  · rfl

@[simp] theorem reclaimTests_strays (r : Request) (reported : Bool) :
    strays (s.reclaimTests r reported).window = strays s.window := by
  unfold State.reclaimTests State.reclaimEnds; (repeat' split) <;> simp

@[simp] theorem reclaimReply_strays (r : Request) (p : Reply) : strays (s.reclaimReply r p).window = strays s.window := by
  unfold State.reclaimReply; split <;> simp

@[simp] theorem setZoneReply_strays (r : Request) (p : Reply) : strays (s.setZoneReply r p).window = strays s.window := by
  unfold State.setZoneReply; split <;> simp

@[simp] theorem formatStops_strays (r : Request) : strays (s.formatStops r).window = strays s.window := answerAux_strays s r _ _

@[simp] theorem formatNext_window (r : Request) : (s.formatNext r).window = s.window := by
  unfold State.formatNext State.formatOpening; (repeat' split) <;> simp

@[simp] theorem formatReadNext_window (r : Request) (todo : List Nat) : (s.formatReadNext r todo).window = s.window := by
  unfold State.formatReadNext; split <;> simp

@[simp] theorem formatAnchorReply_strays (r : Request) (p : Reply) :
    strays (s.formatAnchorReply r p).window = strays s.window := by
  unfold State.formatAnchorReply State.formatTables; split <;> simp

@[simp] theorem formatReadReply_strays (r : Request) (x : Nat) (todo : List Nat) (p : Reply) :
    strays (s.formatReadReply r x todo p).window = strays s.window := by
  unfold State.formatReadReply; split <;> simp

@[simp] theorem formatEraseReply_strays (r : Request) (x : Nat) (p : Reply) :
    strays (s.formatEraseReply r x p).window = strays s.window := by
  unfold State.formatEraseReply; split <;> simp

@[simp] theorem formatSectorReply_strays (r : Request) (p : Reply) :
    strays (s.formatSectorReply r p).window = strays s.window := by
  unfold State.formatSectorReply; split <;> simp

@[simp] theorem formatOpenReply_strays (r : Request) (p : Reply) : strays (s.formatOpenReply r p).window = strays s.window := by
  unfold State.formatOpenReply State.formatEnds; split <;> simp

/-! ### Mount (R124 to R139) -/

@[simp] theorem mountStops_window : s.mountStops.window = s.window := rfl

@[simp] theorem mountEnds_strays : strays s.mountEnds.window = strays s.window := by simp [State.mountEnds]

@[simp] theorem tidyNext_strays : strays s.tidyNext.window = strays s.window := by
  unfold State.tidyNext State.mountOpening; (repeat' split) <;> simp

@[simp] theorem mountCloseNext_strays (todo : List Unclosed) : strays (s.mountCloseNext todo).window = strays s.window := by
  unfold State.mountCloseNext; split <;> simp

@[simp] theorem replayEnds_strays (p : Replay) : strays (s.replayEnds p).window = strays s.window := by simp [State.replayEnds]

@[simp] theorem surveyNext_strays (todo : List Nat) (notes : List (Nat × SurveyNote)) :
    strays (s.surveyNext todo notes).window = strays s.window := by
  simp only [State.surveyNext, State.replayBegin]; (repeat' split) <;> simp

@[simp] theorem mountBegin_window : s.mountBegin.window = s.window := by simp [State.mountBegin]

@[simp] theorem mountAnchorReply_strays (a : AnchorScan) (p : Reply) :
    strays (s.mountAnchorReply a p).window = strays s.window := by
  simp only [State.mountAnchorReply, State.anchorPhaseEnds]; (repeat' split) <;> simp

@[simp] theorem mountSurveyReply_strays (x : Nat) (read : List Line) (todo : List Nat) (notes : List (Nat × SurveyNote))
    (p : Reply) : strays (s.mountSurveyReply x read todo notes p).window = strays s.window := by
  unfold State.mountSurveyReply; (repeat' split) <;> simp

@[simp] theorem mountReplayReply_strays (m : Replay) (p : Reply) :
    strays (s.mountReplayReply m p).window = strays s.window := by
  simp only [State.mountReplayReply, State.scanNext]; (repeat' split) <;> simp

@[simp] theorem mountCloseReply_strays (u : Unclosed) (todo : List Unclosed) (p : Reply) :
    strays (s.mountCloseReply u todo p).window = strays s.window := by
  unfold State.mountCloseReply; split <;> simp

@[simp] theorem mountEraseReply_window (x : Nat) (p : Reply) : (s.mountEraseReply x p).window = s.window := by
  unfold State.mountEraseReply; split <;> simp

@[simp] theorem mountSectorReply_strays (p : Reply) : strays (s.mountSectorReply p).window = strays s.window := by
  unfold State.mountSectorReply; split <;> simp

@[simp] theorem mountOpenReply_strays (p : Reply) : strays (s.mountOpenReply p).window = strays s.window := by
  unfold State.mountOpenReply; split <;> simp

@[simp] theorem mountWarned_window : s.mountWarned.window = s.window := by
  unfold State.mountWarned; split <;> simp

/-! ### Kinds (03, 04, 05, 08) -/

@[simp] theorem committedGet_strays (r : Request) : strays (committedGet r s).window = strays s.window := by
  unfold committedGet; split <;> simp

@[simp] theorem noTransaction_strays (r : Request) : strays (s.noTransaction r).window = strays s.window := by
  unfold State.noTransaction; split <;> simp

@[simp] theorem stage_strays (r : Request) (t : OpenTxn) (e : Staged) : strays (s.stage r t e).window = strays s.window := by
  simp only [State.stage]; split <;> simp

@[simp] theorem conditionFailed_strays (r : Request) (st : Status) :
    strays (s.conditionFailed r st).window = strays s.window := by simp [State.conditionFailed]

@[simp] theorem putBody_strays (r : Request) : strays (putBody r s).window = strays s.window := by
  simp only [putBody]; (repeat' split) <;> simp

@[simp] theorem deleteBody_strays (r : Request) : strays (deleteBody r s).window = strays s.window := by
  simp only [deleteBody]; (repeat' split) <;> simp

@[simp] theorem getBody_strays (r : Request) : strays (getBody r s).window = strays s.window := by
  unfold getBody; split <;> simp

@[simp] theorem nextBody_strays (r : Request) : strays (nextBody r s).window = strays s.window := by
  unfold nextBody; split <;> simp

@[simp] theorem infoBody_strays (r : Request) : strays (infoBody r s).window = strays s.window := post_strays s r _

@[simp] theorem beginBody_strays (r : Request) : strays (beginBody r s).window = strays s.window := by
  unfold beginBody; split <;> simp

@[simp] theorem inTxnPutBody_strays (r : Request) : strays (inTxnPutBody r s).window = strays s.window := by
  unfold inTxnPutBody; (repeat' split) <;> simp

@[simp] theorem inTxnDeleteBody_strays (r : Request) : strays (inTxnDeleteBody r s).window = strays s.window := by
  unfold inTxnDeleteBody; (repeat' split) <;> simp

@[simp] theorem inTxnGetBody_strays (r : Request) : strays (inTxnGetBody r s).window = strays s.window := by
  unfold inTxnGetBody; (repeat' split) <;> simp

@[simp] theorem commitBody_strays (r : Request) : strays (commitBody r s).window = strays s.window := by
  simp only [commitBody]; (repeat' split) <;> simp

@[simp] theorem abandonBody_strays (r : Request) : strays (abandonBody r s).window = strays s.window := by
  unfold abandonBody; split <;> simp

@[simp] theorem reclaimBody_strays (r : Request) : strays (reclaimBody r s).window = strays s.window := reclaimTests_strays _ r false

@[simp] theorem setCodeBody_strays (r : Request) : strays (setCodeBody r s).window = strays s.window := by
  simp only [setCodeBody]; (repeat' split) <;> simp

@[simp] theorem formatBody_strays (r : Request) : strays (formatBody r s).window = strays s.window := by
  simp only [formatBody, State.formatBegin]; (repeat' split) <;> simp

/-! ### Internal moves -/

/-- The task on top goes on with its reply. -/
@[simp] theorem resume_strays (t : Task) (r : Reply) : strays (s.resume t r).window = strays s.window := by
  cases t with
  | retire x => simp only [State.resume]; split <;> simp
  | _ => simp [State.resume]

variable {s}

/-- One internal move. -/
theorem move_strays {t : State} (h : s.move = some t) : strays t.window = strays s.window := by
  unfold State.move at h
  split at h
  · cases h; simp
  · cases h; rfl
  · unfold State.startPending at h
    split at h
    · cases h
    · split at h
      · cases h; simp
      · cases h

/-- All internal moves of a command. -/
@[simp] theorem settle_strays : strays s.settle.window = strays s.window :=
  State.settle_keeps (P := fun t => strays t.window = strays s.window) (fun _ _ h hm => (move_strays hm).trans h) rfl

end Sys2Proof.Certificates
end

