-- ==== Sys2Proof/Proofs/WindowInvariant.lean ====
section
/-! Every step keeps the window's registers legal (R178 to R180) and every command the queue of commands that wait (R171). Jobs,
compaction steps and mount reach the window only by raising latched events; the registers are written by bus accesses, which mask or
clamp what they store, and by resets. -/

namespace Sys2Proof.Certificates

open Sys2Proof Sys2Proof.Machine

/-- The window's registers are legal: no stray event bit, EVENT_ENABLE within bits 0 to 5, LOW_WATER from 3 to 16. -/
theorem windowWf_iff (s : State) : s.windowWf = true ↔
    strays s.window = 0 ∧ s.window.eventEnable &&& 0xC0 = 0 ∧ 3 ≤ s.window.lowWater ∧ s.window.lowWater ≤ 16 := by
  simp only [State.windowWf, strays, Bool.and_eq_true, beq_iff_eq, decide_eq_true_eq, and_assoc]

/-- The state `t` follows `s`: the same commands wait, and its window's registers are legal where those of `s` are. -/
structure Follows (s t : State) : Prop where
  pending : t.pending = s.pending
  legal : s.windowWf = true → t.windowWf = true

/-- Every state that an operation leaves follows the one it met. -/
def KeepsWindow (f : State → State) : Prop := ∀ s : State, Follows s (f s)

variable {s t u : State}

theorem Follows.refl (s : State) : Follows s s := ⟨rfl, id⟩

theorem Follows.trans (h : Follows s t) (h' : Follows t u) : Follows s u :=
  ⟨h'.pending.trans h.pending, h'.legal ∘ h.legal⟩

/-- A state with the same window and the same commands waiting. -/
theorem Follows.of_window (hw : t.window = s.window) (hp : t.pending = s.pending) : Follows s t :=
  ⟨hp, fun h => by rw [State.windowWf, hw]; exact h⟩

/-- What reaches only registers without a bound, and other blocks. -/
theorem Follows.of_unbounded (hp : t.pending = s.pending) (hev : t.window.events = s.window.events)
    (hen : t.window.eventEnable = s.window.eventEnable) (hlow : t.window.lowWater = s.window.lowWater) : Follows s t := by
  refine ⟨hp, fun h => ?_⟩
  simp only [State.windowWf, hev, hen, hlow]
  exact h

/-- A state that differs only in what internal moves change, with no further stray event bit. -/
theorem Follows.of_kept (hk : t.kept = s.kept) (he : strays t.window = strays s.window) : Follows s t := by
  have henable : t.window.eventEnable = s.window.eventEnable := congrArg (·.window.eventEnable) hk
  have hlow : t.window.lowWater = s.window.lowWater := congrArg (·.window.lowWater) hk
  refine ⟨congrArg Kept.pending hk, fun h => ?_⟩
  rw [windowWf_iff] at h ⊢
  rwa [he, henable, hlow]

/-! ### Events that are raised outside internal moves (R73, R148, R178) -/

theorem raise_follows {ev : Byte} (h : ev &&& ~~~evLatched = 0#8) : Follows s (s.raise ev) :=
  .of_kept (s.raise_kept ev) (raise_strays s h)

theorem answer_keepsWindow (r : Request) (st : Status) : KeepsWindow (·.answer r st) := fun s =>
  .of_kept (s.answer_kept r st) (answer_strays s r st)

theorem answerAux_keepsWindow (r : Request) (st : Status) (aux : BitVec 16) : KeepsWindow (·.answerAux r st aux) := fun s =>
  .of_kept (s.answerAux_kept r st aux) (answerAux_strays s r st aux)

theorem settle_keepsWindow : KeepsWindow State.settle := fun s => .of_kept s.settle_kept settle_strays

/-- The idle timer's expiry. -/
theorem timerExpires_keepsWindow : KeepsWindow State.timerExpires := fun s => by
  unfold State.timerExpires
  split
  · rename_i t _ _
    exact (raise_follows (ev := evTxnExpired) (by decide)).trans (.of_unbounded rfl rfl rfl rfl)
  · exact .refl s

/-! ### Zone requests (R149, R150, R152) -/

theorem setZoneFlags_keepsWindow (z : Fin 4) (f : ZoneFlags) : KeepsWindow (·.setZoneFlags z f) := fun _ => .of_window rfl rfl

theorem unlockBody_keepsWindow (r : Request) : KeepsWindow (unlockBody r) := fun s => by
  have flagged (f : ZoneFlags) := setZoneFlags_keepsWindow (paramZone r.param) f s
  simp only [unlockBody]
  (repeat' split)
  · exact answerAux_keepsWindow r _ _ s
  · exact answer_keepsWindow r _ s
  · exact (flagged _).trans (answerAux_keepsWindow r _ _ _)
  · exact (flagged _).trans (answerAux_keepsWindow r _ _ _)
  · exact ((flagged _).trans (raise_follows (by decide))).trans (answer_keepsWindow r _ _)

theorem lockBody_keepsWindow (r : Request) : KeepsWindow (lockBody r) := fun s =>
  (setZoneFlags_keepsWindow _ _ s).trans (answer_keepsWindow r _ _)

theorem setPolicyBody_keepsWindow (r : Request) : KeepsWindow (setPolicyBody r) := fun s => by
  have written (u : State) (change : AnchorRecord → AnchorRecord) : Follows u ((u.push (.setZone r)).anchorWrite change) :=
    .of_kept (by simp) (by simp)
  simp only [setPolicyBody]
  (repeat' split)
  · exact answer_keepsWindow r _ s
  · exact answer_keepsWindow r _ s
  · exact answer_keepsWindow r _ s
  · exact (setZoneFlags_keepsWindow _ _ s).trans (written _ _)
  · exact written s _

/-! ### Requests that are taken and steps that are granted (R85, R163 to R165) -/

/-- A request that is taken and runs until its job waits or ends. -/
theorem taking_keepsWindow (isRow : Request → Bool) {body : Request → State → State} (hb : ∀ r, KeepsWindow (body r)) :
    KeepsWindow (·.taking isRow body) := by
  have away (r : Request) (st : Status) : KeepsWindow (·.turnAway r st) := fun u =>
    .of_kept (u.turnAway_kept r st) (turnAway_strays u r st)
  have hchecked (r : Request) : KeepsWindow (·.checked r body) := fun s => by
    have hstopped : Follows s (if r.isTxnRequest then s.stopTimer else s) := by split <;> exact .of_window rfl rfl
    simp only [State.checked]
    split
    · exact hstopped.trans (away r _ _)
    · split
      · exact hstopped.trans (hb r _)
      · exact hstopped.trans (away r _ _)
  have htaken (r : Request) : KeepsWindow (·.takeRequest r body) := fun s => by
    have hexecuting (q : Queues) : Follows s { s with queues := q } := .of_window rfl rfl
    simp only [State.takeRequest]
    (repeat' split)
    · exact (hexecuting _).trans (answer_keepsWindow r _ _)
    · exact (hexecuting _).trans (hchecked r _)
    · exact (hexecuting _).trans (hchecked r _)
  intro s
  refine Follows.trans ?_ (settle_keepsWindow _)
  simp only [State.takeFront]
  (repeat' split)
  · exact .refl s
  · exact htaken _ s
  · exact .refl s

/-- An operation of internal moves, and the moves that follow it. -/
theorem settled_keepsWindow {f : State → State} (hk : ∀ s, (f s).kept = s.kept) (he : ∀ s, strays (f s).window = strays s.window) :
    KeepsWindow (fun s => (f s).settle) := fun s => (Follows.of_kept (hk s) (he s)).trans (settle_keepsWindow _)

/-- A step that is granted and runs until it waits or ends. -/
theorem granting_keepsWindow (stage : Stage) {f : State → State} (hk : ∀ s, (f s).kept = s.kept)
    (he : ∀ s, strays (f s).window = strays s.window) : KeepsWindow (·.granting stage f) := fun s => by
  simp only [State.granting]
  split
  · exact settled_keepsWindow hk he s
  · exact .refl s

/-! ### Ticks and the warning (R72, R109, R118) -/

/-- The end of the erase in flight and what follows from it. -/
theorem eraseEnds_keepsWindow (passed : Bool) : KeepsWindow (fun s => (s.eraseEnds passed).settle) :=
  settled_keepsWindow (State.eraseEnds_kept · passed) fun s => by simp

/-- One tick. -/
theorem tick_keepsWindow : KeepsWindow State.tick := fun s => by
  have htimer : Follows s s.tickTimer := by
    unfold State.tickTimer
    (repeat' split)
    · exact timerExpires_keepsWindow s
    · exact .of_window rfl rfl
    · exact .refl s
  simp only [State.tick, State.tickErase]
  (repeat' split)
  · exact htimer.trans (eraseEnds_keepsWindow false _)
  · exact htimer.trans (.of_window rfl rfl)
  · exact htimer
  · exact htimer
  · exact .refl s

/-- The sequencer's warning keeps the commands that wait. -/
theorem sequencerWarning_pending (s : State) : s.sequencerWarning.pending = s.pending := by
  have habandoned : s.abandonErase.pending = s.pending := congrArg Kept.pending s.abandonErase_kept
  have hdelivered (t : State) (b : Bool) (o : EraseOutcome) : (t.deliverErase b o).pending = t.pending :=
    congrArg Kept.pending (t.deliverErase_kept b o)
  unfold State.sequencerWarning
  refine (congrArg Kept.pending (State.serveWaiting_kept _)).trans ?_
  (repeat' split) <;> simp only [State.kept, hdelivered, habandoned]

/-- The warning and what follows from it. -/
theorem takeWarning_keepsWindow : KeepsWindow State.takeWarning := fun s => by
  have hstored : Follows s (s.setStore .halted).dropTxn := .of_kept (by simp) (by simp)
  have hwarned (u : State) : Follows u u.sequencerWarning := .of_window (sequencerWarning_window u) (sequencerWarning_pending u)
  simp only [State.takeWarning]
  refine (hstored.trans (hwarned _)).trans (Follows.trans ?_ (settle_keepsWindow _))
  split
  · exact .of_kept (State.mountWarned_kept _) (by simp)
  · exact .of_kept (State.wakeWaiting_kept _) (by simp)

/-! ### Bus accesses and resets (R159 to R161, R168 to R181) -/

theorem submit_keepsWindow : KeepsWindow State.submit := fun s => by
  unfold State.submit
  (repeat' split) <;> exact .of_unbounded rfl rfl rfl rfl

theorem popHead_keepsWindow : KeepsWindow State.popHead := fun s => by
  unfold State.popHead; split <;> exact .of_window rfl rfl

theorem rewindHead_keepsWindow : KeepsWindow State.rewindHead := fun s => by
  unfold State.rewindHead; split <;> exact .of_window rfl rfl

theorem clearFill_keepsWindow : KeepsWindow State.clearFill := fun _ => .of_unbounded rfl rfl rfl rfl

theorem fillByte_keepsWindow (b : Byte) : KeepsWindow (·.fillByte b) := fun s => by
  simp only [State.fillByte]; split <;> exact .of_unbounded rfl rfl rfl rfl

/-- A write to EVENT_STATUS only clears events. -/
theorem clearEvents_keepsWindow (v : Byte) : KeepsWindow (·.clearEvents v) := fun s => by
  refine ⟨rfl, fun h => ?_⟩
  rw [windowWf_iff] at h ⊢
  obtain ⟨hstrays, hrest⟩ := h
  refine ⟨?_, hrest⟩
  simp only [strays, State.clearEvents] at hstrays ⊢
  rw [BitVec.and_assoc, BitVec.and_comm (~~~_), ← BitVec.and_assoc, hstrays]
  exact BitVec.zero_and

/-- EVENT_ENABLE stores bits 6 and 7 as 0. -/
theorem setEnables_keepsWindow (v : Byte) : KeepsWindow (·.setEnables v) := fun s => by
  refine ⟨rfl, fun h => ?_⟩
  rw [windowWf_iff] at h ⊢
  obtain ⟨hstrays, -, hlow⟩ := h
  have hmasked : v &&& 0x3F &&& 0xC0 = 0 := by rw [BitVec.and_assoc]; exact BitVec.and_zero
  exact ⟨hstrays, hmasked, hlow⟩

/-- What LOW_WATER stores of a value lies from 3 to 16 (R180). -/
theorem clamped_bounds (v : Byte) :
    3 ≤ (if v < 3 then 3 else if 16 < v then 16 else v) ∧ (if v < 3 then 3 else if 16 < v then 16 else v) ≤ (16 : Byte) := by
  split
  · decide
  · split
    · decide
    · exact ⟨BitVec.not_lt.1 ‹_›, BitVec.not_lt.1 ‹_›⟩

theorem setLowWater_keepsWindow (v : Byte) : KeepsWindow (·.setLowWater v) := fun s => by
  refine ⟨rfl, fun h => ?_⟩
  rw [windowWf_iff] at h ⊢
  obtain ⟨hstrays, henable, -⟩ := h
  exact ⟨hstrays, henable, clamped_bounds v⟩

/-- A soft reset clears the events and keeps enables and LOW_WATER (R177). -/
theorem softReset_keepsWindow : KeepsWindow State.softReset := fun s => by
  refine ⟨?_, fun h => ?_⟩
  · simp only [State.softReset, sequencerSoftReset_eq]
  · have hcleared : strays s.window.softReset = 0 := BitVec.zero_and
    rw [windowWf_iff] at h ⊢
    obtain ⟨-, hrest⟩ := h
    simp only [State.softReset, sequencerSoftReset_eq]
    exact ⟨hcleared, hrest⟩

/-- A hard reset gives the window its reset values (R181). -/
theorem hardReset_keepsWindow : KeepsWindow State.hardReset := fun s => by
  obtain ⟨-, -, -, hreset, -⟩ := resetMeetsInvariants
  exact ⟨(hardReset_pins_pending s).2, fun _ => hreset⟩

/-- CONTROL. -/
theorem control_keepsWindow (v : Byte) : KeepsWindow (·.control v) := fun s => by
  simp only [State.control]
  (repeat' split)
  · exact submit_keepsWindow s
  · exact popHead_keepsWindow s
  · exact clearFill_keepsWindow s
  · exact rewindHead_keepsWindow s
  · exact softReset_keepsWindow s
  · exact .refl s

/-- A register write: the registers with bounds act as their own rows. -/
theorem busWrite_keepsWindow (a : BitVec 6) (v : Byte) : KeepsWindow (·.busWrite a v) := fun s => by
  simp only [State.busWrite]
  split
  case h_1 => exact clearEvents_keepsWindow v s
  case h_2 => exact setEnables_keepsWindow v s
  case h_3 => exact control_keepsWindow v s
  case h_16 => exact fillByte_keepsWindow v s
  case h_17 => exact setLowWater_keepsWindow v s
  all_goals exact .of_unbounded rfl rfl rfl rfl

/-! ### Commands -/

/-- A command that answers one next state. -/
theorem follows_of_next (h : (.next u : Result) = .next t) (hu : Follows s u) : Follows s t := by
  cases h; exact hu

/-- A write access. -/
theorem onBus_follows {f : State → State} (hx : s.onBus f = .next t) (hf : KeepsWindow f) : Follows s t := by
  refine follows_of_next hx ?_
  split
  · exact hf s
  · exact .refl s

/-- Every command keeps the commands that wait, and the window's registers legal. -/
theorem exec_follows {c : Instr} (hx : exec c s = .next t) : Follows s t := by
  have taken {isRow : Request → Bool} {body : Request → State → State} (hb : ∀ r, KeepsWindow (body r)) :=
    taking_keepsWindow isRow hb s
  have takenKept {isRow : Request → Bool} {body : Request → State → State} (hk : ∀ r s, (body r s).kept = s.kept)
      (he : ∀ s r, strays (body r s).window = strays s.window) : Follows s (s.taking isRow body) :=
    taken fun r s => .of_kept (hk r s) (he s r)
  cases c with
  | go => exact onBus_follows hx submit_keepsWindow
  | pop => exact onBus_follows hx popHead_keepsWindow
  | clearFill => exact onBus_follows hx clearFill_keepsWindow
  | rewind => exact onBus_follows hx rewindHead_keepsWindow
  | softReset => exact onBus_follows hx softReset_keepsWindow
  | writeData b => exact onBus_follows (f := (·.fillByte b)) hx (fillByte_keepsWindow b)
  | eventStatus v => exact onBus_follows (f := (·.clearEvents v)) hx (clearEvents_keepsWindow v)
  | eventEnable v => exact onBus_follows (f := (·.setEnables v)) hx (setEnables_keepsWindow v)
  | lowWater v => exact onBus_follows (f := (·.setLowWater v)) hx (setLowWater_keepsWindow v)
  | registerWrite a v => exact onBus_follows (f := (·.busWrite a v)) hx (busWrite_keepsWindow a v)
  | readData =>
    simp only [exec, execReadData] at hx
    (repeat' split at hx) <;> exact follows_of_next hx (.of_unbounded rfl rfl rfl rfl)
  | captureLatch r =>
    simp only [exec, execCaptureLatch] at hx
    split at hx
    · exact follows_of_next hx (by cases r <;> exact .of_unbounded rfl rfl rfl rfl)
    · exact follows_of_next hx (.of_unbounded rfl rfl rfl rfl)
  | put => exact follows_of_next hx (takenKept putBody_kept putBody_strays)
  | get => exact follows_of_next hx (takenKept getBody_kept getBody_strays)
  | delete => exact follows_of_next hx (takenKept deleteBody_kept deleteBody_strays)
  | next => exact follows_of_next hx (takenKept nextBody_kept nextBody_strays)
  | info => exact follows_of_next hx (takenKept infoBody_kept infoBody_strays)
  | beginTxn => exact follows_of_next hx (takenKept beginBody_kept beginBody_strays)
  | inTxnPut => exact follows_of_next hx (takenKept inTxnPutBody_kept inTxnPutBody_strays)
  | inTxnDelete => exact follows_of_next hx (takenKept inTxnDeleteBody_kept inTxnDeleteBody_strays)
  | inTxnGet => exact follows_of_next hx (takenKept inTxnGetBody_kept inTxnGetBody_strays)
  | commit => exact follows_of_next hx (takenKept commitBody_kept commitBody_strays)
  | abandon => exact follows_of_next hx (takenKept abandonBody_kept abandonBody_strays)
  | reclaim => exact follows_of_next hx (takenKept reclaimBody_kept reclaimBody_strays)
  | setCode => exact follows_of_next hx (takenKept setCodeBody_kept setCodeBody_strays)
  | format => exact follows_of_next hx (takenKept formatBody_kept formatBody_strays)
  | kindNamingNoKind => exact follows_of_next hx (taken fun r => answer_keepsWindow r _)
  | unlock => exact follows_of_next hx (taken unlockBody_keepsWindow)
  | lock => exact follows_of_next hx (taken lockBody_keepsWindow)
  | setPolicy => exact follows_of_next hx (taken setPolicyBody_keepsWindow)
  | selectStep => exact follows_of_next hx (granting_keepsWindow _ State.selectVictim_kept selectVictim_strays s)
  | copyStep => exact follows_of_next hx (granting_keepsWindow _ State.copyOne_kept copyOne_strays s)
  | finishingStep => exact follows_of_next hx (granting_keepsWindow _ State.finishVictim_kept finishVictim_strays s)
  | eraseStep =>
    refine follows_of_next hx ?_
    split
    · exact granting_keepsWindow _ State.copyOne_kept copyOne_strays s
    · exact .refl s
  | lineReadDone => exact follows_of_next hx (settled_keepsWindow State.lineReadEnds_kept (by simp) s)
  | lineProgramDone v => exact follows_of_next hx (settled_keepsWindow (State.lineProgramEnds_kept · v) (by simp) s)
  | programTimeout => exact follows_of_next hx (settled_keepsWindow State.programTimesOut_kept (by simp) s)
  | eraseDone passed => exact follows_of_next hx (eraseEnds_keepsWindow passed s)
  | eraseTimeLimit => exact follows_of_next hx (eraseEnds_keepsWindow false s)
  | idleTimerExpiry => exact follows_of_next hx (timerExpires_keepsWindow s)
  | pfwAsserted =>
    have hchanged : Follows s (pfwChanged s) := .of_window rfl rfl
    simp only [exec, execPfwAsserted] at hx
    split at hx
    · exact follows_of_next hx (hchanged.trans (takeWarning_keepsWindow _))
    · exact follows_of_next hx hchanged
  | pfwDeasserted | rstDeasserted => exact follows_of_next hx (.of_window rfl rfl)
  | rstAsserted =>
    have hchanged : Follows s { s with pins := { s.pins with rstAsserted := true } } := .of_window rfl rfl
    simp only [exec, execRstAsserted] at hx
    split at hx
    · exact follows_of_next hx (hchanged.trans (hardReset_keepsWindow _))
    · exact follows_of_next hx hchanged
  | powerLoss =>
    simp only [exec, execPowerLoss] at hx
    split at hx
    · exact follows_of_next hx ((hardReset_keepsWindow s).trans (.of_window rfl rfl))
    · exact follows_of_next hx (.refl s)
  | powerOn => exact follows_of_next hx ((hardReset_keepsWindow s).trans (.of_window rfl rfl))
  | mount =>
    refine follows_of_next hx ?_
    split
    · exact settled_keepsWindow State.mountBegin_kept (by simp) s
    · exact .refl s
  | arrayOwnLoss x l =>
    simp only [exec, execArrayOwnLoss] at hx
    split at hx
    · exact follows_of_next hx (.of_kept (s.ownLoss_kept x l) (by simp))
    · cases hx

/-- Settles O4: what a command leaves follows the state it meets. -/
theorem commandsKeepQueue : Obligations.CommandsKeepQueue := fun _ _ _ hx => (exec_follows hx).pending

/-- Settles O54: a tick and every command leave a state whose window's registers follow legal ones. -/
theorem windowStaysLegal : Obligations.WindowStaysLegal := by
  intro s t h hstep
  unfold step at hstep
  split at hstep
  · exact (follows_of_next hstep (tick_keepsWindow s)).legal h
  · rename_i c rest _
    exact (exec_follows (s := { s with pending := rest }) hstep).legal h

end Sys2Proof.Certificates
end

