-- ==== Sys2Proof/Proofs/RegisterReads.lean ====
section
/-! The host's register accesses (R171 to R181): what the registers read as, the capture latches, the event registers and INT#, the
configuration registers, and register writes. -/

namespace Sys2Proof.Certificates

open Sys2Proof Sys2Proof.Machine

variable {s : State}

/-- Settles O1: the step matches on the queue. -/
theorem stepRunsFrontCommand : Obligations.StepRunsFrontCommand := by
  intro c rest s hp
  simp only [step, hp]

/-- What the registers with a value of their own read as. -/
theorem busRead_registers (hb : s.busActive = true) :
    s.busRead 0x00 = 0x2C ∧ s.busRead 0x01 = 0x01 ∧ s.busRead 0x02 = s.engine.store.code ∧ s.busRead 0x03 = s.queueStatus ∧
      s.busRead 0x04 = s.eventStatus ∧ s.busRead 0x05 = s.window.eventEnable ∧ s.busRead 0x25 = s.window.lowWater ∧
      s.busRead 0x26 = s.window.txnLimit ∧ s.busRead 0x27 = BitVec.ofNat 8 s.freeCount ∧
      s.busRead 0x28 = BitVec.ofNat 8 s.usable ∧ s.busRead 0x2D = s.zoneStatus := by
  simp [State.busRead, hb]

/-! ### Capture latches (R172) -/

/-- The read of a lowest byte loads the register's latch and returns what the address reads as. -/
theorem exec_captureLatch (hb : s.busActive = true) (r : CaptureReg) :
    exec (.captureLatch r) s = .next ((s.capture r).drive (s.busRead (captureAddr r))) := by
  simp only [exec, execCaptureLatch, hb, if_true]

/-- The lowest byte of each register with a latch is of the register's current value. -/
theorem busRead_lowBytes (hb : s.busActive = true) :
    s.busRead 0x14 = s.fillCount.setWidth 8 ∧ s.busRead 0x1B = s.cplKey.setWidth 8 ∧
      s.busRead 0x1D = s.cplVersion.setWidth 8 ∧ s.busRead 0x21 = s.cplLength.setWidth 8 ∧
      s.busRead 0x23 = s.cplAux.setWidth 8 ∧ s.busRead 0x29 = s.window.lossKey.setWidth 8 ∧
      s.busRead 0x2B = s.window.expiredTxn.setWidth 8 := by
  simp [State.busRead, hb]

/-- The other bytes are of the latches. -/
theorem busRead_latchedBytes (hb : s.busActive = true) :
    s.busRead 0x15 = (s.window.latchFillCount >>> 8).setWidth 8 ∧ s.busRead 0x1C = (s.window.latchCplKey >>> 8).setWidth 8 ∧
      s.busRead 0x1E = (s.window.latchCplVersion >>> 8).setWidth 8 ∧
      s.busRead 0x1F = (s.window.latchCplVersion >>> 16).setWidth 8 ∧
      s.busRead 0x20 = (s.window.latchCplVersion >>> 24).setWidth 8 ∧
      s.busRead 0x22 = (s.window.latchCplLength >>> 8).setWidth 8 ∧ s.busRead 0x24 = (s.window.latchCplAux >>> 8).setWidth 8 ∧
      s.busRead 0x2A = (s.window.latchLossKey >>> 8).setWidth 8 ∧
      s.busRead 0x2C = (s.window.latchExpiredTxn >>> 8).setWidth 8 := by
  simp [State.busRead, hb, byteOf16, byteOf32]

/-- Settles O8: the latch is loaded and the low byte returned, and the other bytes are of the latches. -/
theorem captureLatches : Obligations.CaptureLatches := by
  intro s hb
  obtain ⟨hfill, hkey, hversion, hlength, haux, hloss, hexpired⟩ := busRead_lowBytes hb
  simp only [exec_captureLatch hb, captureAddr, hfill, hkey, hversion, hlength, haux, hloss, hexpired]
  exact ⟨rfl, rfl, rfl, rfl, rfl, rfl, rfl, busRead_latchedBytes hb⟩

/-! ### EVENT_STATUS and the status registers (R172 to R174, R178) -/

/-- The latched events' bits are bits 1 to 5. -/
theorem evLatched_getLsbD (i : Nat) : evLatched.getLsbD i = decide (1 ≤ i ∧ i ≤ 5) := by
  by_cases hi : i < 8
  · revert i; decide
  · rw [BitVec.getLsbD_of_ge _ _ (by omega), decide_eq_false (by omega)]

/-- COMPLETION_READY at bit 0, the latched events at bits 1 to 5, and nothing at bits 6 and 7. -/
theorem eventStatus_getLsbD (s : State) (i : Nat) : s.eventStatus.getLsbD i =
    if i = 0 then !s.queues.completions.isEmpty else if i ≤ 5 then s.window.events.getLsbD i else false := by
  have hready : (if s.queues.completions.isEmpty then (0 : Byte) else 1).getLsbD i =
      (decide (i = 0) && !s.queues.completions.isEmpty) := by
    cases s.queues.completions.isEmpty <;> simp
  rw [State.eventStatus, BitVec.getLsbD_or, BitVec.getLsbD_and, evLatched_getLsbD, hready]
  by_cases h0 : i = 0
  · simp [h0]
  · have h1 : 1 ≤ i := by omega
    simp [h0, h1, Bool.and_comm]

/-- QUEUE_STATUS: the request count in bits 0 to 2, chain-broken at bit 3 and the completion count in bits 4 to 7. -/
theorem queueStatus_bits (h : s.queuesWf = true) :
    (s.queueStatus &&& 0x07).toNat = s.queues.requests.length ∧ s.queueStatus.getLsbD 3 = s.queues.chainBroken ∧
      (s.queueStatus >>> 4).toNat = s.queues.completions.length := by
  have hbits : ∀ n < 5, ∀ m < 9, ∀ b : Bool,
      let q : Byte := BitVec.ofNat 8 n ||| (if b then 0x08 else 0) ||| (BitVec.ofNat 8 m <<< 4)
      (q &&& 0x07).toNat = n ∧ q.getLsbD 3 = b ∧ (q >>> 4).toNat = m := by decide
  rw [queuesWf_iff] at h
  obtain ⟨-, hreq, hcpl, -⟩ := h
  exact hbits _ (Nat.lt_succ_of_le hreq) _ (Nat.lt_succ_of_le hcpl) _

/-- One zone's bits: unlocked at bit 0, lockout at bit 1. -/
theorem zoneBits_getLsbD (f : ZoneFlags) (i : Nat) :
    (zoneBits f).getLsbD i = if i = 0 then f.unlocked else if i = 1 then f.lockout else false := by
  have hbits : ∀ i < 8, ∀ u k : Bool, ((if u then 1 else 0) ||| (if k then 2 else 0) : Byte).getLsbD i =
      if i = 0 then u else if i = 1 then k else false := by decide
  by_cases hi : i < 8
  · exact hbits i hi _ _
  · rw [BitVec.getLsbD_of_ge _ _ (by omega), if_neg (by omega), if_neg (by omega)]

/-- ZONE_STATUS: each zone's bits at twice its number. -/
theorem zoneStatus_bits (s : State) (z : Fin 4) :
    s.zoneStatus.getLsbD (2 * z.val) = s.zones[z].unlocked ∧ s.zoneStatus.getLsbD (2 * z.val + 1) = s.zones[z].lockout := by
  match z with
  | 0 | 1 | 2 | 3 =>
    simp only [State.zoneStatus, BitVec.getLsbD_or, BitVec.getLsbD_shiftLeft, zoneBits_getLsbD]
    simp

/-- Write-only and unused addresses read 0. -/
theorem busRead_unused (a : BitVec 6) (ha : a.toNat = 0x07 ∨ a.toNat = 0x16 ∨ 0x2E ≤ a.toNat) : s.busRead a = 0 := by
  simp only [State.busRead]
  split
  · rfl
  · split
    case h_45 => rfl
    all_goals omega

/-- FREE_COUNT and USABLE are the tables' counts, 0 while none are held. -/
theorem busRead_counts (hb : s.busActive = true) :
    (∀ t, s.log = some t → t.free.length ≤ 62 →
      (s.busRead 0x27).toNat = t.free.length ∧
      (s.busRead 0x28).toNat = 62 - (t.sectors.filter (· == .retired)).length) ∧
    (s.log = none → s.busRead 0x27 = 0 ∧ s.busRead 0x28 = 0) := by
  obtain ⟨-, -, -, -, -, -, -, -, hfree, husable, -⟩ := busRead_registers hb
  refine ⟨fun t ht hlen => ?_, fun hn => ?_⟩
  · have hretired : SectorRec.isRetired = (· == .retired) := by
      funext r; cases r <;> rfl
    simp only [hfree, husable, State.freeCount, State.usable, ht, LogTables.usable, hretired, BitVec.toNat_ofNat]
    omega
  · simp only [hfree, husable, State.freeCount, State.usable, hn]
    exact ⟨rfl, rfl⟩

/-- Settles O9: the write clears what it names, and each register shows its owner's value. -/
theorem eventStatusClears : Obligations.EventStatusClears := by
  refine ⟨fun v s hb => onBus_of_active hb (·.clearEvents v), eventStatus_getLsbD, fun s hb => ?_⟩
  obtain ⟨hpart, hlevel, hstore, hqueue, hevents, -, -, -, -, -, hzones⟩ := busRead_registers hb
  obtain ⟨-, -, -, -, -, hloss, hexpired⟩ := busRead_lowBytes hb
  obtain ⟨hcounts, hnone⟩ := busRead_counts hb
  rw [hqueue, hzones, hstore]
  refine ⟨hpart, hlevel, ?_, queueStatus_bits, hevents, hcounts, hnone, hloss, hexpired, zoneStatus_bits s, busRead_unused⟩
  cases s.engine.store <;> rfl

/-! ### EVENT_ENABLE and INT# (R179) -/

/-- INT# is asserted exactly while the part runs and an event is present with its enable set. -/
theorem intAsserted_iff (s : State) : s.intAsserted = true ↔
    s.busActive = true ∧ ∃ i, i < 6 ∧ s.eventStatus.getLsbD i = true ∧ s.window.eventEnable.getLsbD i = true := by
  simp only [State.intAsserted, Bool.and_eq_true, bne_iff_ne]
  refine and_congr_right fun _ => ⟨fun h => ?_, fun ⟨i, _, hs, he⟩ h => ?_⟩
  · by_contra hnone
    refine h (BitVec.eq_of_getLsbD_eq fun i _ => ?_)
    rw [BitVec.getLsbD_and, show BitVec.getLsbD (0 : Byte) i = false from BitVec.getLsbD_zero, Bool.and_eq_false_iff]
    by_contra hboth
    simp only [not_or, Bool.not_eq_false] at hboth
    obtain ⟨hs, he⟩ := hboth
    have hpresent := hs
    rw [eventStatus_getLsbD] at hpresent
    exact hnone ⟨i, by split_ifs at hpresent <;> omega, hs, he⟩
  · have hbit := congrArg (·.getLsbD i) h
    simp [hs, he] at hbit

/-- Without completions and latched events no event is present. -/
theorem intAsserted_of_no_event (hc : s.queues.completions = []) (he : s.window.events = 0) : s.intAsserted = false := by
  simp [State.intAsserted, State.eventStatus, hc, he]

/-- What a soft reset leaves of the window and the queues. -/
theorem softReset_window (s : State) : s.softReset.window = s.window.softReset ∧ s.softReset.queues = .reset := by
  simp only [State.softReset, sequencerSoftReset_eq, and_self]

/-- The window after power-on and after a pin reset. -/
theorem hardReset_window_of_exec (s : State) :
    (∃ t, exec .powerOn s = .next t ∧ t.window = .reset) ∧
      (s.busActive = true → ∃ t, exec .rstAsserted s = .next t ∧ t.window = .reset) := by
  refine ⟨⟨_, rfl, rfl⟩, fun hb => ⟨State.hardReset { s with pins := { s.pins with rstAsserted := true } }, ?_, rfl⟩⟩
  simp only [exec, execRstAsserted, hb, if_true]

/-- The end of mount raises STATE_CHANGED. -/
theorem intAsserted_mountEnds (hb : s.busActive = true) (hm : s.engine.store = .mounting)
    (he : s.window.eventEnable.getLsbD 5 = true) : s.mountEnds.intAsserted = true := by
  rw [mountEnds_of_mounting s hm, intAsserted_iff]
  refine ⟨hb, 5, by omega, ?_, he⟩
  rw [eventStatus_getLsbD]
  simp [mountEnded]

/-- Settles O10: the masked write, INT# by its enabled events, and what the resets and the end of mount leave. -/
theorem eventEnableAndInt : Obligations.EventEnableAndInt := by
  refine ⟨fun v s hb => onBus_of_active hb (·.setEnables v), fun s hb => ?_, intAsserted_iff,
    fun s => ⟨?_, fun hb => ?_, fun hb => ?_⟩, fun s hb hm he => intAsserted_mountEnds hb hm he⟩
  · obtain ⟨-, -, -, -, -, henable, -⟩ := busRead_registers hb
    exact henable
  · obtain ⟨⟨t, ht, hw⟩, -⟩ := hardReset_window_of_exec s
    exact ⟨t, ht, congrArg Window.eventEnable hw⟩
  · obtain ⟨-, hrst⟩ := hardReset_window_of_exec s
    obtain ⟨t, ht, hw⟩ := hrst hb
    exact ⟨t, ht, congrArg Window.eventEnable hw⟩
  · obtain ⟨hw, hq⟩ := softReset_window s
    have hevents : s.softReset.window.events = 0 := by rw [hw]; rfl
    have hempty : s.softReset.queues.completions = [] := by rw [hq]; rfl
    exact ⟨_, onBus_of_active hb _, by rw [hw]; rfl, hempty, hevents, intAsserted_of_no_event hempty hevents⟩

/-! ### LOW_WATER and TXN_LIMIT (R180) -/

/-- Outside a stall and a RECLAIM the compactor goes by the FREE count and LOW_WATER. -/
theorem asksForStep_iff (hs : s.engine.store = .ready ∨ s.engine.store = .readOnly) (hstop : s.comp.stopped = false)
    (hstall : s.comp.stallMode = false) (htarget : s.comp.reclaimTarget = none) :
    (s.comp.stage = .copying → (s.asksForStep = true ↔ s.freeCount < s.window.lowWater.toNat)) ∧
    (s.comp.stage = .idle → (s.asksForStep = true ↔
      s.freeCount < s.window.lowWater.toNat ∧ s.tailClosed = true ∧ s.comp.noGain < max 1 s.closedCount ∧
        s.comp.refused ≠ some s.freeCount)) := by
  have hjob : s.stepsInJob = false := by simp [State.stepsInJob, hstall, htarget]
  have hstore : (decide (s.engine.store = .ready) || decide (s.engine.store = .readOnly)) = true := by simpa using hs
  refine ⟨fun hc => ?_, fun hi => ?_⟩
  · simp [State.asksForStep, hstore, hstop, hc, hjob, State.belowLowWater]
  · simp [State.asksForStep, hstore, hstop, hi, hjob, State.selectsInBackground, State.belowLowWater, and_assoc]

/-- Settles O11: what the two registers store, where each is used, and what the resets leave in them. -/
theorem configurationValues : Obligations.ConfigurationValues := by
  refine ⟨fun v s hb => ⟨onBus_of_active hb (·.setLowWater v), onBus_of_active hb (·.busWrite 0x26 v)⟩,
    fun s hb => ?_, fun s hs hstop hstall htarget => asksForStep_iff hs hstop hstall htarget,
    fun s ho => ?_, fun s => ⟨?_, fun hb => ?_, fun hb => ?_⟩⟩
  · obtain ⟨-, -, -, -, -, -, hlow, hlimit, -⟩ := busRead_registers hb
    exact ⟨hlow, hlimit⟩
  · simp only [State.restartTimer, ho, if_true, byte_toNat_eq_zero]
  · obtain ⟨⟨t, ht, hw⟩, -⟩ := hardReset_window_of_exec s
    exact ⟨t, ht, congrArg Window.lowWater hw, congrArg Window.txnLimit hw⟩
  · obtain ⟨-, hrst⟩ := hardReset_window_of_exec s
    obtain ⟨t, ht, hw⟩ := hrst hb
    exact ⟨t, ht, congrArg Window.lowWater hw, congrArg Window.txnLimit hw⟩
  · obtain ⟨hw, -⟩ := softReset_window s
    exact ⟨_, onBus_of_active hb _, by rw [hw]; exact ⟨rfl, rfl⟩⟩

end Sys2Proof.Certificates
end

