-- ==== Sys2Proof/Proofs/RegisterWrites.lean ====
section
/-! Register writes (R171, R172, R176, R181): a request field register stores the byte written and reads it back; the addresses with a
row of their own act as that row, and the others ignore the write. -/

namespace Sys2Proof.Certificates

open Sys2Proof Sys2Proof.Machine

variable {s : State}

/-! ### One byte of a register of more than one byte (R171) -/

/-- The bits of a value with byte `i` replaced. -/
theorem getLsbD_replacedByte {w : Nat} (v : BitVec w) (b : Byte) (i : Nat) {m : Nat} (hm : m < w) :
    ((v &&& ~~~(0xFF#w <<< (8 * i))) ||| (b.setWidth w <<< (8 * i))).getLsbD m =
      if 8 * i ≤ m ∧ m < 8 * i + 8 then b.getLsbD (m - 8 * i) else v.getLsbD m := by
  have hmask (k : Nat) : Nat.testBit 255 k = decide (k < 8) := Nat.testBit_two_pow_sub_one 8 k
  simp only [BitVec.getLsbD_or, BitVec.getLsbD_and, BitVec.getLsbD_not, BitVec.getLsbD_shiftLeft, BitVec.getLsbD_setWidth,
    BitVec.getLsbD_ofNat, hmask, hm, decide_true, Bool.true_and]
  by_cases hlow : m < 8 * i
  · simp [hlow, Nat.not_le.2 hlow]
  · have hle : 8 * i ≤ m := Nat.le_of_not_lt hlow
    have hbelow : m - 8 * i < w := by omega
    by_cases hin : m < 8 * i + 8
    · have hbyte : m - 8 * i < 8 := by omega
      simp [hlow, hle, hin, hbelow, hbyte]
    · have hbyte : ¬ m - 8 * i < 8 := by omega
      simp [hlow, hin, hbyte, BitVec.getLsbD_of_ge b (m - 8 * i) (by omega)]

/-- A byte of a 16-bit register after one byte has been written. -/
theorem byteOf16_setByte16 (v : BitVec 16) (b : Byte) {i j : Nat} (hj : j < 2) :
    byteOf16 (setByte16 v i b) j = if j = i then b else byteOf16 v j := by
  refine BitVec.eq_of_getLsbD_eq fun k hk => ?_
  simp only [byteOf16, setByte16, BitVec.getLsbD_setWidth, BitVec.getLsbD_ushiftRight, hk, decide_true, Bool.true_and]
  rw [getLsbD_replacedByte v b i (by omega)]
  by_cases hji : j = i
  · rw [if_pos (by omega), if_pos hji, hji, Nat.add_sub_cancel_left]
  · rw [if_neg (by omega), if_neg hji]
    simp [BitVec.getLsbD_ushiftRight, hk]

/-- A byte of a 32-bit register after one byte has been written. -/
theorem byteOf32_setByte32 (v : BitVec 32) (b : Byte) {i j : Nat} (hj : j < 4) :
    byteOf32 (setByte32 v i b) j = if j = i then b else byteOf32 v j := by
  refine BitVec.eq_of_getLsbD_eq fun k hk => ?_
  simp only [byteOf32, setByte32, BitVec.getLsbD_setWidth, BitVec.getLsbD_ushiftRight, hk, decide_true, Bool.true_and]
  rw [getLsbD_replacedByte v b i (by omega)]
  by_cases hji : j = i
  · rw [if_pos (by omega), if_pos hji, hji, Nat.add_sub_cancel_left]
  · rw [if_neg (by omega), if_neg hji]
    simp [BitVec.getLsbD_ushiftRight, hk]

/-! ### The request field registers (R158, R172) -/

/-- The bytes of the request field registers, in order of address from 0x08. -/
def requestBytes (w : Window) : List Byte :=
  [w.reqTag, w.reqKind, byteOf16 w.reqKey 0, byteOf16 w.reqKey 1, w.reqFlags, byteOf32 w.reqVersion 0, byteOf32 w.reqVersion 1,
    byteOf32 w.reqVersion 2, byteOf32 w.reqVersion 3, w.reqParam, byteOf16 w.reqLength 0, byteOf16 w.reqLength 1]

/-- The state with the request fields of the window `w`. -/
def withRequest (s : State) (w : Window) : State :=
  { s with window := { s.window with
      reqTag := w.reqTag, reqKind := w.reqKind, reqKey := w.reqKey, reqFlags := w.reqFlags, reqVersion := w.reqVersion,
      reqParam := w.reqParam, reqLength := w.reqLength } }

/-- The addresses of the request field registers. -/
def requestAddresses : List (BitVec 6) := [0x08, 0x09, 0x0A, 0x0B, 0x0C, 0x0D, 0x0E, 0x0F, 0x10, 0x11, 0x12, 0x13]

/-- They are the addresses from 0x08 to 0x13. -/
theorem mem_requestAddresses : ∀ a : BitVec 6, a ∈ requestAddresses ↔ 0x08 ≤ a.toNat ∧ a.toNat ≤ 0x13 := by decide

/-- What holds at each of the twelve addresses holds at every request field register. -/
theorem forall_requestAddresses {P : BitVec 6 → Prop} (h : P 0x08 ∧ P 0x09 ∧ P 0x0A ∧ P 0x0B ∧ P 0x0C ∧ P 0x0D ∧ P 0x0E ∧
    P 0x0F ∧ P 0x10 ∧ P 0x11 ∧ P 0x12 ∧ P 0x13) : ∀ a ∈ requestAddresses, P a := by
  simpa [requestAddresses] using h

/-- A request field register reads as its byte. -/
theorem busRead_requestField (hb : s.busActive = true) :
    ∀ a ∈ requestAddresses, s.busRead a = (requestBytes s.window).getD (a.toNat - 8) 0 :=
  forall_requestAddresses (by simp [State.busRead, hb, requestBytes])

/-- A write to a request field register replaces its byte. -/
theorem requestBytes_busWrite (v : Byte) :
    ∀ a ∈ requestAddresses, requestBytes (s.busWrite a v).window = (requestBytes s.window).set (a.toNat - 8) v :=
  forall_requestAddresses (by
    simp [State.busWrite, requestBytes, byteOf16_setByte16, byteOf32_setByte32, -byteOf16_zero, -byteOf32_zero])

/-- It reaches nothing else. -/
theorem busWrite_requestField (v : Byte) :
    ∀ a ∈ requestAddresses, s.busWrite a v = withRequest s (s.busWrite a v).window :=
  forall_requestAddresses ⟨rfl, rfl, rfl, rfl, rfl, rfl, rfl, rfl, rfl, rfl, rfl, rfl⟩

/-- The other registers do not read the request fields. -/
theorem busRead_withRequest (w : Window) {b : BitVec 6} (hb : b ∉ requestAddresses) :
    (withRequest s w).busRead b = s.busRead b := by
  rw [mem_requestAddresses] at hb
  have hactive : (withRequest s w).busActive = s.busActive := rfl
  simp only [State.busRead, hactive]
  split
  · rfl
  · split
    case h_8 | h_9 | h_10 | h_11 | h_12 | h_13 | h_14 | h_15 | h_16 | h_17 | h_18 | h_19 => omega
    all_goals rfl

/-- A request field register stores the byte written and reads it back; every other register reads as before. -/
theorem registerWrite_requestField (hb : s.busActive = true) {a : BitVec 6} (ha : a ∈ requestAddresses) (v : Byte) :
    (s.busWrite a v).busRead a = v ∧ ∀ b, b ≠ a → (s.busWrite a v).busRead b = s.busRead b := by
  have hwritten := busWrite_requestField (s := s) v a ha
  have hactive : (s.busWrite a v).busActive = true := by rw [hwritten]; exact hb
  obtain ⟨hlow, hhigh⟩ := (mem_requestAddresses a).1 ha
  refine ⟨?_, fun b hba => ?_⟩
  · have hlen : a.toNat - 8 < (requestBytes s.window).length := by simp only [requestBytes, List.length_cons]; omega
    rw [busRead_requestField hactive a ha, requestBytes_busWrite v a ha]
    simp [List.getD_eq_getElem?_getD, hlen]
  · by_cases hf : b ∈ requestAddresses
    · have hne : a.toNat - 8 ≠ b.toNat - 8 := by
        obtain ⟨hlow', -⟩ := (mem_requestAddresses b).1 hf
        have : b.toNat ≠ a.toNat := fun h => hba (BitVec.eq_of_toNat_eq h)
        omega
      rw [busRead_requestField hactive b hf, busRead_requestField hb b hf, requestBytes_busWrite v a ha]
      simp [List.getD_eq_getElem?_getD, List.getElem?_set_ne hne]
    · rw [hwritten, busRead_withRequest _ hf]

/-! ### The other addresses (R171, R176) -/

/-- Read-only and unused addresses ignore a write. -/
theorem busWrite_ignored {a : BitVec 6} (v : Byte)
    (ha : a.toNat < 0x04 ∨ a.toNat = 0x06 ∨ a.toNat = 0x14 ∨ a.toNat = 0x15 ∨ (0x17 ≤ a.toNat ∧ a.toNat ≤ 0x24) ∨
      0x27 ≤ a.toNat) : s.busWrite a v = s := by
  simp only [State.busWrite]
  split
  case h_19 => rfl
  all_goals omega

/-- CONTROL ignores a value that names no command. -/
theorem control_ignored {v : Byte} (h1 : v ≠ 0x01) (h2 : v ≠ 0x02) (h3 : v ≠ 0x03) (h4 : v ≠ 0x04) (h5 : v ≠ 0xA5) :
    s.control v = s := by
  simp only [State.control, if_neg h1, if_neg h2, if_neg h3, if_neg h4, if_neg h5]

/-- Settles O12: request fields by the byte they store, the other addresses by their own rows. -/
theorem registerWrites : Obligations.RegisterWrites := by
  intro a v s hb
  have hexec (a : BitVec 6) (v : Byte) : exec (.registerWrite a v) s = .next (s.busWrite a v) :=
    onBus_of_active hb (·.busWrite a v)
  refine ⟨fun hlow hhigh => ?_, fun ha => ?_, rfl, rfl, rfl, rfl, rfl, rfl, rfl, rfl, rfl, fun h1 h2 h3 h4 h5 => ?_⟩
  · have ha : a ∈ requestAddresses := (mem_requestAddresses a).2 ⟨hlow, hhigh⟩
    obtain ⟨hread, hothers⟩ := registerWrite_requestField hb ha v
    exact ⟨_, hexec a v, hread, hothers, busWrite_requestField v a ha⟩
  · rw [hexec, busWrite_ignored v ha]
  · rw [hexec]
    exact congrArg _ (control_ignored h1 h2 h3 h4 h5)

end Sys2Proof.Certificates
end
